-- ==== Sys2Proof/Word.lean ====
section
/-! DEFINITION. The words of the links and of the management frames (spec 01 R5, 09 section 9.1). -/

namespace Sys2Proof

/-- The eight data bits of one link character. -/
abbrev Byte := BitVec 8

/-- A speed as carried on a link: three characters (R5). -/
abbrev Speed24 := BitVec 24

/-- A torque as reported: two characters (R5). -/
abbrev Torque16 := BitVec 16

/-- A management value: four characters (R5). -/
abbrev Value := BitVec 32

end Sys2Proof
end

