-- ==== Sys2Proof/Syntax.lean ====
section
/-! DEFINITION. The commands of the DS16, one constructor per row of spec/opcode_table.json. -/

namespace Sys2Proof

/-- The two link ports (00 section 2). -/
inductive Side
  | up
  | dn
  deriving DecidableEq, Repr

/-- What a receiver can meet on its line (R2): a character, with its eight data bits, its mark bit and the level of its
stop bit, or the return of the line to mark after a break. -/
inductive LineEvent
  | char (data : Byte) (mark : Bool) (stop : Bool)
  | markReturn
  deriving DecidableEq, Repr

/-- The level at a strap pin (section 11.4). -/
inductive PinLevel
  | low
  | high
  | unconnected
  deriving DecidableEq, Repr

/-- The six strap pins (R171, section 11.4). -/
structure Straps where
  ma0 : PinLevel
  ma1 : PinLevel
  cp0 : PinLevel
  cp1 : PinLevel
  lvl : PinLevel
  rst : PinLevel
  deriving DecidableEq, Repr

/-- How a save ends (R173): the copy written and its CRC read back equal, a failed write reported, or a CRC read back
that differs. -/
inductive SaveOutcome
  | confirmed
  | writeFailed
  | crcDiffers
  deriving DecidableEq, Repr

/-- The commands. The argument list of a MANAGE row holds the payload characters after the sub-kind character, or after
the verb character of a COMMAND (section 11.1), so that frames of a wrong length are commands too (R152). -/
inductive Instr
  /-- `arrivals` reach the port's receiver, then the assembler takes up to `taken` entries from the FIFO (R7, log 5). -/
  | frameDiscard (port : Side) (arrivals : List LineEvent) (taken : Nat)
  | gapTimerExpiry (port : Side)
  | replyBurstStart
  | burstComplete (port : Side)
  | lineCycle (cycleNo : Byte) (command : Byte) (speed : Speed24)
  /-- `run` is the run request character: anything but 01h asks STOP (R179). -/
  | sectionOrderStop (address : Byte) (run : Byte) (m : Speed24)
  | sectionOrderRun (address : Byte) (m : Speed24)
  | pollCall
  | lossTimerExpiry
  | localPeriodTimerExpiry
  | memberReport (source : Byte) (echo : Byte) (speed : Speed24) (torque : Torque16) (status : Byte)
  | slotEnd
  | linkTest (args : List Byte)
  | echoTestSend
  | echoTest (payload : List Byte)
  | echoTestTimeout
  | access (args : List Byte)
  | close (args : List Byte)
  | select (args : List Byte)
  | read (args : List Byte)
  | write (args : List Byte)
  | adjustDraw (args : List Byte)
  | transferToCascade (args : List Byte)
  | transferToFollow (args : List Byte)
  | releaseTrip (args : List Byte)
  | startTest (args : List Byte)
  | pauseTest (args : List Byte)
  | resumeTest (args : List Byte)
  | stopTest (args : List Byte)
  | fetchLog (args : List Byte)
  | dropLog (args : List Byte)
  | moveAddress (args : List Byte)
  | clearNotices (args : List Byte)
  | saveTables (args : List Byte)
  | saveCompletion (outcome : SaveOutcome)
  | restart (args : List Byte)
  | resetPin (straps : Straps)
  | powerOn (straps : Straps)
  | comeIntoService
  /-- `payload` is the whole MANAGE payload. -/
  | unknownSubKind (payload : List Byte)
  | resetPinAsserted
  | lossOfSupply
  deriving DecidableEq, Repr

end Sys2Proof
end

