-- ==== Sys2Proof/Config.lean ====
section
/-! DEFINITION. Constants of the links, and the free values the manual leaves open. -/

namespace Sys2Proof

/-- Free value (log 6): which of several runners' aborts taken at one event comes first (R134). Applied to a fresh
number each time; the number it gives is read as a choice among the orders. -/
opaque Config.abortOrder : Nat → Nat

/-- Free value (log 7): whether a COMMAND frame that carries no verb character at all is answered UNKNOWN (true) or
RANGE (false); R152 and R179 leave both readings open. -/
opaque Config.verblessCommandUnknown : Bool

/-- A character is eleven bit times long (section 1.1). -/
abbrev Config.charBits : Nat := 11

/-- Bit times in a millisecond at 4 Mbit/s (section 1.1: one bit time is 0.25 µs). -/
abbrev Config.msBits : Nat := 4000

/-- Places of a receive FIFO (R6). -/
abbrev Config.fifoPlaces : Nat := 128

/-- Frames the UP transmit queue holds (R14). -/
abbrev Config.upPlaces : Nat := 18

/-- Frames the DN transmit queue holds (R14). -/
abbrev Config.dnPlaces : Nat := 17

/-- Places of the capture log (R143). -/
abbrev Config.logPlaces : Nat := 64

end Sys2Proof
end

