-- ==== Sys2Proof/Machine/State.lean ====
section
/-! DEFINITION. The state of the DS16 as plain data: every piece of state the spec names, and State.reset. -/

namespace Sys2Proof.Machine

open Sys2Proof

/-! ## Link ports (spec 01) -/

/-- The kinds a last-error latch shows (R10). -/
inductive ErrorKind
  | none | framing | brk | overrun | check | length | truncated
  deriving DecidableEq, Repr

/-- What a FIFO entry holds: a character, or the mark of a gap (R2, R3). -/
inductive EntryBody
  | char (data : Byte) (mark : Bool)
  | gap
  deriving DecidableEq, Repr

/-- A slot of a slot window (R33). -/
structure SlotMoment where
  cycle : Byte
  slot  : Nat
  deriving DecidableEq, Repr

/-- The moment a character was received: the slot of the slot window it fell in, at the DN port (R34, log 16), and the
bit times since the end of its stop bit (R15, log 28). -/
structure Stamp where
  slot : Option SlotMoment
  age  : Nat
  deriving DecidableEq, Repr

/-- One FIFO entry with its three tags (R2), and the moment it was received (log 16, log 28). -/
structure Entry where
  body    : EntryBody
  framing : Bool
  brk     : Bool
  overrun : Bool
  stamp   : Stamp
  deriving DecidableEq, Repr

/-- The assembler: WAIT, or COLLECT with the characters of the open frame in order, address first (section 1.4). -/
inductive Assembler
  | wait
  | collect (chars : List Byte)
  deriving DecidableEq, Repr

/-- What the sending of a frame's last character completes: nothing, a pending move (R168) or a pending restart
(R175). -/
inductive ReplyTie
  | plain
  | move (address : Byte)
  | restart
  deriving DecidableEq, Repr

/-- A frame in a transmit queue (R14). -/
structure TxFrame where
  address : Byte
  kind    : Byte
  payload : List Byte
  tie     : ReplyTie
  deriving DecidableEq, Repr

/-- One port: receiver, FIFO, assembler, latch, transmitter (chapter 1). -/
structure Port where
  fifo       : List Entry
  /-- `none` is stopped; else bit times since the timer started (R3). -/
  gapTimer   : Option Nat
  /-- A BREAK was stored and the line has not returned to mark (R2). -/
  awaitMark  : Bool
  asm        : Assembler
  lastError  : ErrorKind
  tx         : List TxFrame
  /-- The driver enable pin, UPDE or DNDE (R13). -/
  driving    : Bool
  /-- Bit times of the head frame already sent (log 3). -/
  sentBits   : Nat
  /-- UP port: bit times since the frame a queued burst answers, until the burst begins (R15). -/
  turnaround : Option Nat
  deriving DecidableEq, Repr

/-! ## Link test (spec 01, R16 to R18) -/

/-- The kind of a bad frame (R17). -/
inductive BadKind
  | check | framing | missing
  deriving DecidableEq, Repr

/-- The link test result (section 1.8). -/
inductive LinkResult
  | none
  | passed
  | failed (bad : Nat) (first : BadKind)
  deriving DecidableEq, Repr

/-- The link test (R16 to R18). -/
structure LinkTest where
  running   : Bool
  result    : LinkResult
  loopback  : Bool
  frameNo   : Nat
  awaiting  : Bool
  badCount  : Nat
  firstBad  : Option BadKind
  /-- Bit times since the first character of the frame that awaits judgement. -/
  echoBits  : Nat
  /-- Bit times since the last judgement, while the next frame waits to be sent. -/
  sendTimer : Option Nat
  deriving DecidableEq, Repr

/-! ## Sections and members (spec 03, 04, 05) -/

/-- FOLLOW or CASCADE. -/
inductive Source
  | follow | cascade
  deriving DecidableEq, Repr

/-- The run states (section 3.5). -/
inductive RunState
  | stopped | running | stopping | tripped
  deriving DecidableEq, Repr

/-- Stop or trip causes (R40). -/
inductive StopCause
  | none | request | lineStop | quickStop | upstreamLoss | orderLost | leadLost | memberFault | memberLost
  deriving DecidableEq, Repr

/-- Start-refused causes (R40, R50). -/
inductive RefusedCause
  | none | lineNotRun | noStopSeen | memberNotActive | memberNotReady | linkTest
  deriving DecidableEq, Repr

/-- Guard levels (R40). -/
inductive GuardLevel
  | operate | engineer
  deriving DecidableEq, Repr

/-- Member states (R41). -/
inductive MemberState
  | absent | active | missing | lost
  deriving DecidableEq, Repr

/-- Window results (R55). -/
inductive WindowResult
  | none | valid | miss
  deriving DecidableEq, Repr

/-- The status flags a member reports (R41). -/
structure MemberStatus where
  ready   : Bool
  running : Bool
  fault   : Bool
  limit   : Bool
  deriving DecidableEq, Repr

/-- A member sub-record (R41, R83). -/
structure Member where
  rating      : Int
  weight      : Int
  state       : MemberState
  missCount   : Nat
  result      : WindowResult
  speed       : Int
  torque      : Int
  status      : MemberStatus
  faultReset  : Bool
  converted   : Int
  shareTarget : Int
  shareError  : Int
  trim        : Int
  deriving DecidableEq, Repr

/-- The structural and live fields of a section entry, numbers 1..18 of the SECTIONS table (R40, R165). -/
structure Settings where
  upAddr         : Byte
  memberBase     : Byte
  memberCount    : Nat
  /-- `none` is LINE. -/
  drawBase       : Option (Fin 16)
  initDraw       : Int
  initSource     : Source
  maxSpeed       : Int
  accel          : Int
  stopRamp       : Int
  quickRamp      : Int
  orderHold      : Nat
  missLimit      : Nat
  degradeAllowed : Bool
  guard          : GuardLevel
  ki             : Int
  deadband       : Int
  trimLimit      : Int
  shareEnable    : Int
  deriving DecidableEq, Repr

/-- The section flags (R40). -/
structure SectionFlags where
  ramping    : Bool
  saturated  : Bool
  ratioLimit : Bool
  trimLimit  : Bool
  degraded   : Bool
  deriving DecidableEq, Repr

/-- The release check: not armed, armed by RELEASE TRIP, or armed before the start of the cycle now in flight, so that
the next window completion acts on it (R62). -/
inductive ReleaseCheck
  | off | armed | due
  deriving DecidableEq, Repr

/-- A section entry (R40, R63, R83). -/
structure Section where
  present     : Bool
  cfg         : Settings
  runState    : RunState
  source      : Source
  stopSeen    : Bool
  cause       : StopCause
  causeSlot   : Option (Fin 4)
  refused     : RefusedCause
  refusedSlot : Option (Fin 4)
  orderAge    : Nat
  depth       : Option Nat
  draw        : Int
  ratio       : Int
  observed    : Int
  master      : Int
  target      : Int
  applied     : Int
  flags       : SectionFlags
  load        : Int
  release     : ReleaseCheck
  members     : Vector Member 4
  deriving DecidableEq, Repr

/-! ## Cycle controller (spec 02) -/

/-- The upstream states (section 2.2). -/
inductive UpState
  | unlinked | linked | lost
  deriving DecidableEq, Repr

/-- The line commands (R19). -/
inductive LineCommand
  | stop | run | quickStop
  deriving DecidableEq, Repr

/-- One slot of a downstream cycle: the address called and the member it belongs to (R33). -/
structure SlotRef where
  address : Byte
  sec     : Fin 16
  slot    : Fin 4
  deriving DecidableEq, Repr

/-- A valid report as carried (R34, R35). -/
structure MemberRep where
  speed  : Speed24
  torque : Torque16
  status : Byte
  deriving DecidableEq, Repr

/-- The downstream cycle in flight (R30 to R38). -/
structure Cycle where
  slots      : List SlotRef
  windowOpen : Bool
  pos        : Nat
  /-- Bit times since slot `pos` began. -/
  slotBits   : Nat
  report     : Option MemberRep
  /-- Sections withdrawn since this cycle's start (R35). -/
  dropped    : List (Fin 16)
  deriving DecidableEq, Repr

/-- A report image: what a SECTION REPORT carries (R24). -/
structure Image where
  runState  : RunState
  source    : Source
  flags     : SectionFlags
  cause     : StopCause
  causeSlot : Option (Fin 4)
  applied   : Int
  leadSpeed : Int
  load      : Int
  runner    : Option (Fin 4)
  deriving DecidableEq, Repr

/-- Result codes of a MANAGE REPLY (section 9.1). -/
inductive ResultCode
  | done | doneClamped | pending
  | level | state | busy | absent | limit | range | conflict | dependent | claimed | inUse | noCursor | readOnly
  | log | noRatio | unknown
  deriving DecidableEq, Repr

/-- A MANAGE REPLY (R153). -/
structure Reply where
  code      : ResultCode
  offending : Byte
  count     : Nat
  values    : List Value
  tie       : ReplyTie
  deriving DecidableEq, Repr

/-- The cycle controller's state (chapter 2). -/
structure CycleCtl where
  upState      : UpState
  /-- `none` is stopped; else bit times since last started (R27). -/
  lossTimer    : Option Nat
  lineSpeed    : Int
  lineCommand  : LineCommand
  lastUpCycle  : Byte
  cycleNumber  : Byte
  cycleCount   : BitVec 32
  inFlight     : Option Cycle
  pendingStart : Bool
  /-- `none` is stopped; else bit times since last started (R29). -/
  localTimer   : Option Nat
  images       : Vector (Option Image) 16
  pendingReply : Option Reply
  pollInForce  : List Byte
  deriving DecidableEq, Repr

/-! ## Step pool and runners (spec 06, 07) -/

/-- The actions (R102). -/
inductive Action
  | hold | step | ramp | square | draw | weight | capture
  deriving DecidableEq, Repr

/-- CARRY or HOLD (section 4.4). -/
inductive DrawMode
  | carry | hold
  deriving DecidableEq, Repr

/-- What a TIMEOUT leads to (R116). -/
inductive OnTimeout
  | next | abort
  deriving DecidableEq, Repr

/-- The condition quantities (R112). -/
inductive Quantity
  | speedError | spread | shareError | load | leadTorque | trim | saturated | trimLimit | ratioLimit | degraded
  deriving DecidableEq, Repr

/-- The condition relations (R113). -/
inductive Relation
  | below | above | within | outside | set | clear
  deriving DecidableEq, Repr

/-- One condition of a step record (R103). -/
structure Condition where
  present  : Bool
  quantity : Quantity
  relation : Relation
  limit    : Int
  band     : Int
  settle   : Nat
  deriving DecidableEq, Repr

/-- A step record (R102). -/
structure StepRecord where
  present      : Bool
  action       : Action
  v            : Int
  v2           : Int
  d            : Nat
  d2           : Nat
  repeats      : Nat
  memberSlot   : Fin 4
  drawMode     : DrawMode
  onTimeout    : OnTimeout
  captureAtEnd : Bool
  /-- `none` is END. -/
  nextStep     : Option (Fin 96)
  advance      : Condition
  abort        : Condition
  deriving DecidableEq, Repr

/-- Runner states (R119). -/
inductive RunnerState
  | idle | running | paused | waiting
  deriving DecidableEq, Repr

/-- Square phases (R111). -/
inductive Phase2
  | first | second
  deriving DecidableEq, Repr

/-- Test outcomes (R119). -/
inductive TestOutcome
  | none | completed | stopped | aborted
  deriving DecidableEq, Repr

/-- Abort causes (R132). -/
inductive AbortCause
  | none | sectionLeftRunning | upstreamLoss | abortCondition | timeout | badStep | wrongSource
  deriving DecidableEq, Repr

/-- The clamp flags of a step (R118). -/
structure ClampFlags where
  draw         : Bool
  compensation : Bool
  saturated    : Bool
  deriving DecidableEq, Repr

/-- Record kinds (R142). -/
inductive RecordKind
  | stepEnd | capture | testEnd
  deriving DecidableEq, Repr

/-- The outcome a capture record carries (R142). -/
inductive RecordOutcome
  | met | done | timeout | completed | stopped
  | aborted (cause : AbortCause)
  deriving DecidableEq, Repr

/-- One entry of a record's member list (R142). -/
structure MemberEntry where
  slot   : Fin 4
  speed  : Int
  torque : Int
  trim   : Int
  deriving DecidableEq, Repr

/-- A capture record (R142). -/
structure CaptureRecord where
  seq       : BitVec 16
  count     : BitVec 32
  kind      : RecordKind
  runner    : Fin 4
  sec       : Fin 16
  step      : Fin 96
  outcome   : RecordOutcome
  elapsed   : Nat
  applied   : Int
  leadSpeed : Int
  load      : Int
  offset    : Int
  flags     : ClampFlags
  members   : List MemberEntry
  deriving DecidableEq, Repr

/-- A runner record (R119). -/
structure Runner where
  state         : RunnerState
  claimed       : Option (Fin 16)
  step          : Option (Fin 96)
  elapsed       : Nat
  advanceCount  : Nat
  abortCount    : Nat
  phase         : Phase2
  phaseCount    : Nat
  repeatsLeft   : Nat
  rampStart     : Int
  offset        : Int
  /-- The record that waits for a place, kept with the values fixed at the step end (R127). -/
  pendingRecord : Option CaptureRecord
  flags         : ClampFlags
  outcome       : TestOutcome
  abortCause    : AbortCause
  stepsRun      : Nat
  deriving DecidableEq, Repr

/-- The capture log (chapter 8). -/
structure Log where
  records : List CaptureRecord
  nextSeq : BitVec 16
  waiters : List (Fin 4)
  deriving DecidableEq, Repr

/-! ## Management unit (spec 09) -/

/-- Access levels (section 9.2). -/
inductive AccessLevel
  | monitor | operate | engineer
  deriving DecidableEq, Repr

/-- The pending-access record (R158). -/
structure PendingAccess where
  level : AccessLevel
  polls : Nat
  deriving DecidableEq, Repr

/-- The tables of the cursor (R160). -/
inductive Table
  | sections | members | steps | runners | part
  deriving DecidableEq, Repr

/-- The modes of the cursor (section 9.3). -/
inductive CursorMode
  | fixed | advance | single
  deriving DecidableEq, Repr

/-- The cursor once a SELECT has set it (R160). -/
structure Cursor where
  table : Table
  entry : Nat
  field : Nat
  mode  : CursorMode
  spent : Bool
  deriving DecidableEq, Repr

/-- The management unit's state; no cursor is "spent with no table" (R160). -/
structure Mgmt where
  access        : AccessLevel
  pendingAccess : Option PendingAccess
  cursor        : Option Cursor
  pendingMove   : Option Byte
  deriving DecidableEq, Repr

/-! ## Part status and table store (spec 10) -/

/-- The six notices (R170). -/
structure Notices where
  upstreamLoss : Bool
  storeInvalid : Bool
  overrun      : Bool
  lineClamped  : Bool
  sectionTrip  : Bool
  testEnded    : Bool
  deriving DecidableEq, Repr

/-- Part status (chapter 10). -/
structure Part where
  config    : Byte
  mgmtAddr  : Byte
  lossLimit : Nat
  notices   : Notices
  deriving DecidableEq, Repr

/-- What a save keeps of one section entry: fields 0..18, and rating and weight of its four members (R172). -/
structure SavedSection where
  present : Bool
  cfg     : Settings
  ratings : Vector Int 4
  weights : Vector Int 4
  deriving DecidableEq, Repr

/-- The saved tables (R172). -/
structure SavedTables where
  mgmtAddr  : Byte
  lossLimit : Nat
  sections  : Vector SavedSection 16
  steps     : Vector StepRecord 96
  deriving DecidableEq, Repr

/-- A complete copy in the store, and whether its CRC matches it (section 10.3, log 12). -/
structure StoreCopy where
  tables     : SavedTables
  crcMatches : Bool
  deriving DecidableEq, Repr

/-- Store states (section 10.3). -/
inductive StoreState
  | invalid | valid | saving
  deriving DecidableEq, Repr

/-- Last save results (R170). -/
inductive SaveResult
  | none | valid | failed
  deriving DecidableEq, Repr

/-- The table store and the pending restart (chapter 10). -/
structure Store where
  state          : StoreState
  lastSave       : SaveResult
  snapshot       : Option SavedTables
  /-- `none` is an incomplete copy, or none ever written (log 2). -/
  copy           : Option StoreCopy
  pendingRestart : Bool
  deriving DecidableEq, Repr

/-- Whether the part is without supply, held in reset, starting up, or in service (R171, R176, R178). -/
inductive Phase
  | off | held | startUp | inService
  deriving DecidableEq, Repr

/-! ## The state -/

/-- The whole part. -/
structure State where
  /-- The commands waiting, first in first out. -/
  pending  : List Instr
  phase    : Phase
  up       : Port
  dn       : Port
  link     : LinkTest
  cyc      : CycleCtl
  sections : Vector Section 16
  chain    : List (Fin 16)
  steps    : Vector StepRecord 96
  runners  : Vector Runner 4
  log      : Log
  mgmt     : Mgmt
  part     : Part
  store    : Store
  /-- The model's own counter of free values used (log 6). -/
  freeUses : Nat
  deriving DecidableEq, Repr

/-- Nothing stops this part: the spec gives every event an effect, or none, and answers every refused request with a
result code. So there is no fault. -/
inductive Fault
  deriving DecidableEq, Repr

/-- Why a command has no outcome. -/
inductive Refusal
  /-- Raised by an arm of the dispatch whose command has no meaning yet; safe. No arm raises it now. -/
  | notModelled (mnemonic : String)
  deriving DecidableEq, Repr

/-! ## Values after reset -/

/-- A port after any reset (R3, R6, R10, R13, R14; section 1.4). -/
def Port.reset : Port :=
  { fifo := [], gapTimer := none, awaitMark := false, asm := .wait, lastError := .none, tx := [], driving := false,
    sentBits := 0, turnaround := none }

/-- The link test after any reset (R18). -/
def LinkTest.reset : LinkTest :=
  { running := false, result := .none, loopback := false, frameNo := 0, awaiting := false, badCount := 0,
    firstBad := none, echoBits := 0, sendTimer := none }

/-- The status of a member that has reported nothing (R41). -/
def MemberStatus.clear : MemberStatus := { ready := false, running := false, fault := false, limit := false }

/-- A member sub-record after reset (R41, R83). -/
def Member.reset : Member :=
  { rating := 0, weight := 25, state := .absent, missCount := 0, result := .none, speed := 0, torque := 0,
    status := MemberStatus.clear, faultReset := false, converted := 0, shareTarget := 0, shareError := 0, trim := 0 }

/-- The settings of an entry after reset (R40). -/
def Settings.reset : Settings :=
  { upAddr := 0, memberBase := 0, memberCount := 1, drawBase := none, initDraw := 0, initSource := .follow,
    maxSpeed := 0, accel := 100, stopRamp := 100, quickRamp := 500, orderHold := 8, missLimit := 3,
    degradeAllowed := false, guard := .engineer, ki := 0, deadband := 0, trimLimit := 0, shareEnable := 0 }

/-- All section flags clear. -/
def SectionFlags.clear : SectionFlags :=
  { ramping := false, saturated := false, ratioLimit := false, trimLimit := false, degraded := false }

/-- A section entry after reset (R40). -/
def Section.reset : Section :=
  { present := false, cfg := Settings.reset, runState := .stopped, source := .follow, stopSeen := false,
    cause := .none, causeSlot := none, refused := .none, refusedSlot := none, orderAge := 0, depth := none,
    draw := 0, ratio := 1000000, observed := 1000000, master := 0, target := 0, applied := 0,
    flags := SectionFlags.clear, load := 0, release := .off, members := Vector.replicate 4 Member.reset }

/-- A condition after reset (R102). -/
def Condition.reset : Condition :=
  { present := false, quantity := .speedError, relation := .below, limit := 0, band := 0, settle := 1 }

/-- A step record after reset (R102). -/
def StepRecord.reset : StepRecord :=
  { present := false, action := .hold, v := 0, v2 := 0, d := 1, d2 := 1, repeats := 1, memberSlot := 0,
    drawMode := .carry, onTimeout := .next, captureAtEnd := false, nextStep := none,
    advance := Condition.reset, abort := Condition.reset }

/-- No clamp flag set. -/
def ClampFlags.clear : ClampFlags := { draw := false, compensation := false, saturated := false }

/-- A runner after reset (R119). -/
def Runner.reset : Runner :=
  { state := .idle, claimed := none, step := none, elapsed := 0, advanceCount := 0, abortCount := 0, phase := .first,
    phaseCount := 0, repeatsLeft := 0, rampStart := 0, offset := 0, pendingRecord := none, flags := ClampFlags.clear,
    outcome := .none, abortCause := .none, stepsRun := 0 }

/-- The log after reset (R143). -/
def Log.reset : Log := { records := [], nextSeq := 0, waiters := [] }

/-- The cycle controller after reset (R19, R21, R26, R29, R30, R31, R12). -/
def CycleCtl.reset : CycleCtl :=
  { upState := .unlinked, lossTimer := none, lineSpeed := 0, lineCommand := .stop, lastUpCycle := 0, cycleNumber := 0,
    cycleCount := 0, inFlight := none, pendingStart := false, localTimer := none, images := Vector.replicate 16 none,
    pendingReply := none, pollInForce := [] }

/-- The management unit after reset (R156, R160). -/
def Mgmt.reset : Mgmt := { access := .monitor, pendingAccess := none, cursor := none, pendingMove := none }

/-- The notices after reset, STORE INVALID as start-up leaves it (R170, R176). -/
def Notices.reset (storeInvalid : Bool) : Notices :=
  { upstreamLoss := false, storeInvalid := storeInvalid, overrun := false, lineClamped := false, sectionTrip := false,
    testEnded := false }

/-- The machine right after a power-on reset with every strap open and no copy ever saved: start-up runs (R176, log 1,
log 2). -/
def State.reset : State :=
  { pending := [], phase := .startUp, up := Port.reset, dn := Port.reset, link := LinkTest.reset,
    cyc := CycleCtl.reset, sections := Vector.replicate 16 Section.reset, chain := [],
    steps := Vector.replicate 96 StepRecord.reset, runners := Vector.replicate 4 Runner.reset, log := Log.reset,
    mgmt := Mgmt.reset,
    part := { config := 55, mgmtAddr := 63, lossLimit := 5, notices := Notices.reset true },
    store := { state := .invalid, lastSave := .none, snapshot := none, copy := none, pendingRestart := false },
    freeUses := 0 }

end Sys2Proof.Machine
end

