-- ==== Sys2Proof/Machine/Ops.lean ====
section
/-! DEFINITION. Named operations over the state's parts, index lists, and the exact arithmetic of spec 00 section 5. -/

namespace Sys2Proof.Machine

open Sys2Proof

/-! ## Indexes -/

/-- Section indexes in ascending order. -/
def allSections : List (Fin 16) := [0, 1, 2, 3, 4, 5, 6, 7, 8, 9, 10, 11, 12, 13, 14, 15]

/-- Member slots in ascending order. -/
def allSlots : List (Fin 4) := [0, 1, 2, 3]

/-- Runner numbers in ascending order. -/
def allRunners : List (Fin 4) := [0, 1, 2, 3]

/-- An index given as a management value, when it lies within its table (R167). -/
def toIndex (n : Nat) (v : Int) : Option (Fin n) :=
  if 0 ≤ v then (if h : v.toNat < n then some ⟨v.toNat, h⟩ else none) else none

/-! ## Arithmetic (00 section 5) -/

/-- Replace a value outside `lo..hi` by the bound it passes. -/
def clampInt (lo hi x : Int) : Int := if x < lo then lo else if hi < x then hi else x

/-- The clamp acts: the value lies outside the range. -/
def clampActs (lo hi x : Int) : Bool := decide (x < lo) || decide (hi < x)

/-- A value lies within a range. -/
def inRange (lo hi x : Int) : Bool := decide (lo ≤ x) && decide (x ≤ hi)

/-- `n / d` rounded half up, for a positive divisor. -/
def divHalfUp (n d : Int) : Int := (2 * n + d) / (2 * d)

/-- `n / d` rounded half away from zero, for a positive divisor. -/
def divHalfAway (n d : Int) : Int := if n < 0 then -divHalfUp (-n) d else divHalfUp n d

/-- `n / d` truncated toward zero. -/
def divToZero (n d : Int) : Int := Int.tdiv n d

/-- The magnitude of a signed quantity. -/
def magnitude (x : Int) : Int := if x < 0 then -x else x

/-! ## Updates of one part of the state -/

/-- Change the cycle controller. -/
def State.modCyc (s : State) (f : CycleCtl → CycleCtl) : State := { s with cyc := f s.cyc }

/-- Put a link test in place. -/
def State.setLink (s : State) (l : LinkTest) : State := { s with link := l }

/-- Change the management unit. -/
def State.modMgmt (s : State) (f : Mgmt → Mgmt) : State := { s with mgmt := f s.mgmt }

/-- Change part status. -/
def State.modPart (s : State) (f : Part → Part) : State := { s with part := f s.part }

/-- Put a table store in place. -/
def State.setStore (s : State) (x : Store) : State := { s with store := x }

/-- Change the capture log. -/
def State.modLog (s : State) (f : Log → Log) : State := { s with log := f s.log }

/-- Put a chain order list in place. -/
def State.setChain (s : State) (l : List (Fin 16)) : State := { s with chain := l }

/-- Put a step pool in place. -/
def State.setSteps (s : State) (v : Vector StepRecord 96) : State := { s with steps := v }

/-- Put the UP port in place. -/
def State.setUp (s : State) (x : Port) : State := { s with up := x }

/-- Put the DN port in place. -/
def State.setDn (s : State) (x : Port) : State := { s with dn := x }

/-- A free value is used. -/
def State.useFree (s : State) : State := { s with freeUses := s.freeUses + 1 }

/-- What a part in service does; a part held in reset, starting up or without supply does nothing (R176, log 14). -/
def State.serving (s : State) (f : State → State) : State := if s.phase = .inService then f s else s

/-! ## Sections and members -/

/-- The section entry of an index. -/
def State.sec (s : State) (i : Fin 16) : Section := s.sections[i]

/-- Put a section entry in its place. -/
def State.setSec (s : State) (i : Fin 16) (x : Section) : State := { s with sections := s.sections.set i x }

/-- Change one section entry. -/
def State.modSec (s : State) (i : Fin 16) (f : Section → Section) : State := s.setSec i (f (s.sec i))

/-- Change every section entry by its own. -/
def State.mapSecs (s : State) (f : Section → Section) : State := allSections.foldl (fun t i => t.modSec i f) s

/-- The present sections in ascending index order. -/
def State.presentSecs (s : State) : List (Fin 16) := allSections.filter fun i => (s.sec i).present

/-- The member sub-record of a slot. -/
def Section.member (x : Section) (j : Fin 4) : Member := x.members[j]

/-- Put a member sub-record in its slot. -/
def Section.setMember (x : Section) (j : Fin 4) (m : Member) : Section := { x with members := x.members.set j m }

/-- Change every member sub-record, each by its slot. -/
def Section.mapMembers (x : Section) (f : Fin 4 → Member → Member) : Section :=
  { x with members := #v[f 0 (x.member 0), f 1 (x.member 1), f 2 (x.member 2), f 3 (x.member 3)] }

/-- The slots below the member count (R40). -/
def Section.slots (x : Section) : List (Fin 4) := allSlots.filter fun j => decide (j.val < x.cfg.memberCount)

/-- The slots below the member count whose member is not LOST. -/
def Section.sharers (x : Section) : List (Fin 4) := x.slots.filter fun j => (x.member j).state != .lost

/-- The followers below the member count that are not LOST. -/
def Section.followers (x : Section) : List (Fin 4) := x.sharers.filter fun j => j != 0

/-- RUNNING or STOPPING. -/
def Section.moving (x : Section) : Bool := x.runState == .running || x.runState == .stopping

/-- The window size that follows from the member count (R40). -/
def Settings.window (c : Settings) : Nat := if c.memberCount ≤ 1 then 1 else if c.memberCount = 2 then 2 else 4

/-- Every trim of the section zero and TRIM LIMIT clear (R91). -/
def Section.zeroTrims (x : Section) : Section :=
  { x.mapMembers (fun _ m => { m with trim := 0 }) with flags := { x.flags with trimLimit := false } }

/-! ## Step records and runners -/

/-- The step record of an index. -/
def State.stepRec (s : State) (k : Fin 96) : StepRecord := s.steps[k]

/-- Put a step record in its place. -/
def State.setStep (s : State) (k : Fin 96) (r : StepRecord) : State := { s with steps := s.steps.set k r }

/-- The runner of a number. -/
def State.runner (s : State) (r : Fin 4) : Runner := s.runners[r]

/-- Put a runner record in its place. -/
def State.setRunner (s : State) (r : Fin 4) (u : Runner) : State := { s with runners := s.runners.set r u }

/-- The runners that are not IDLE. -/
def State.busyRunners (s : State) : List (Fin 4) := allRunners.filter fun r => (s.runner r).state != .idle

/-- The runner that claims a section (R120). -/
def State.claimant (s : State) (i : Fin 16) : Option (Fin 4) :=
  s.busyRunners.find? fun r => (s.runner r).claimed == some i

/-- The offset O that a section's computation reads (R70): its claimant's, or 0. -/
def State.offsetOf (s : State) (i : Fin 16) : Int :=
  match s.claimant i with
  | none => 0
  | some r => (s.runner r).offset

/-! ## Ports -/

/-- The port of a side. -/
def State.port (s : State) : Side → Port
  | .up => s.up
  | .dn => s.dn

/-- Put a port in its place. -/
def State.setPort (s : State) (p : Side) (x : Port) : State :=
  match p with
  | .up => s.setUp x
  | .dn => s.setDn x

/-! ## Addresses and levels -/

/-- The present section whose upstream address this is (R9, R11). -/
def State.sectionAt (s : State) (a : Byte) : Option (Fin 16) :=
  s.presentSecs.find? fun i => (s.sec i).cfg.upAddr == a

/-- The rank of an access level: MONITOR, OPERATE, ENGINEER (R159). -/
def AccessLevel.rank : AccessLevel → Nat
  | .monitor => 0
  | .operate => 1
  | .engineer => 2

/-- The access level a guard level asks for. -/
def GuardLevel.access : GuardLevel → AccessLevel
  | .operate => .operate
  | .engineer => .engineer

/-- The access level in force is at least the level asked for. -/
def State.hasLevel (s : State) (l : AccessLevel) : Bool := decide (l.rank ≤ s.mgmt.access.rank)

end Sys2Proof.Machine
end

