-- ==== Sys2Proof/Machine/Operands.lean ====
section
/-! DEFINITION. Operand forms: multi-character numbers (R5), the arguments of management frames (R167, R179), and the
codes of named values (R166, R170). -/

namespace Sys2Proof.Machine

open Sys2Proof

/-! ## Numbers of several characters, high character first (R5) -/

/-- The two characters of a 16-bit number. -/
def chars16 (v : BitVec 16) : List Byte := [v.extractLsb' 8 8, v.extractLsb' 0 8]

/-- The three characters of a 24-bit number. -/
def chars24 (v : BitVec 24) : List Byte := [v.extractLsb' 16 8, v.extractLsb' 8 8, v.extractLsb' 0 8]

/-- The four characters of a 32-bit number. -/
def chars32 (v : BitVec 32) : List Byte :=
  [v.extractLsb' 24 8, v.extractLsb' 16 8, v.extractLsb' 8 8, v.extractLsb' 0 8]

/-- Character `k` of a payload; 0 past its end. -/
def charAt (cs : List Byte) (k : Nat) : Byte := cs.getD k 0

/-- The 16-bit number at position `k`. -/
def num16 (cs : List Byte) (k : Nat) : BitVec 16 := charAt cs k ++ charAt cs (k + 1)

/-- The 24-bit number at position `k`. -/
def num24 (cs : List Byte) (k : Nat) : BitVec 24 := charAt cs k ++ charAt cs (k + 1) ++ charAt cs (k + 2)

/-- The 32-bit number at position `k`. -/
def num32 (cs : List Byte) (k : Nat) : BitVec 32 :=
  charAt cs k ++ charAt cs (k + 1) ++ charAt cs (k + 2) ++ charAt cs (k + 3)

/-- Argument `k` of a management request: four characters, signed (R179). -/
def arg (args : List Byte) (k : Nat) : Int := (num32 args (4 * k)).toInt

/-- The arguments of a payload of 4 × n characters, in order. -/
def argList (args : List Byte) : List Int := (List.range (args.length / 4)).map (arg args)

/-- The characters of a list of management values. -/
def valueChars (vs : List Value) : List Byte := vs.flatMap chars32

/-- A number as a management value: its two's complement (R5, R180). -/
def toValue (x : Int) : Value := BitVec.ofInt 32 x

/-- A number in one character position. -/
def toByte (x : Int) : Byte := BitVec.ofInt 8 x

/-- Group characters in management values of four. -/
def groupValues : List Byte → List Value
  | a :: b :: c :: d :: rest => (a ++ b ++ c ++ d) :: groupValues rest
  | _ => []

/-! ## Codes: flags, indexes and named values (R166) -/

/-- A flag or a yes-or-no field. -/
def boolCode (b : Bool) : Int := if b then 1 else 0

/-- A flag or a yes-or-no value written. -/
def boolOf (v : Int) : Option Bool := if v = 0 then some false else if v = 1 then some true else none

/-- An index, −1 for none, LINE or END. -/
def indexCode {n : Nat} : Option (Fin n) → Int
  | none => -1
  | some i => i.val

/-- An index written, −1 for none, LINE or END. -/
def indexOf (n : Nat) (v : Int) : Option (Option (Fin n)) :=
  if v = -1 then some none else (toIndex n v).map some

/-- A number written, checked against its range. -/
def ranged (lo hi v : Int) : Option Int := if inRange lo hi v then some v else none

/-- Source mode codes. -/
def Source.code : Source → Int
  | .follow => 0
  | .cascade => 1

/-- The source mode of a code. -/
def Source.ofCode (v : Int) : Option Source := if v = 0 then some .follow else if v = 1 then some .cascade else none

/-- Access level codes. -/
def AccessLevel.code (l : AccessLevel) : Int := l.rank

/-- The access level of a code. -/
def AccessLevel.ofCode (v : Int) : Option AccessLevel :=
  if v = 0 then some .monitor else if v = 1 then some .operate else if v = 2 then some .engineer else none

/-- Guard level codes. -/
def GuardLevel.code (g : GuardLevel) : Int := g.access.code

/-- The guard level of a code: OPERATE or ENGINEER alone (R40). -/
def GuardLevel.ofCode (v : Int) : Option GuardLevel :=
  if v = 1 then some .operate else if v = 2 then some .engineer else none

/-- Run state codes. -/
def RunState.code : RunState → Int
  | .stopped => 0
  | .running => 1
  | .stopping => 2
  | .tripped => 3

/-- Stop or trip cause codes. -/
def StopCause.code : StopCause → Int
  | .none => 0
  | .request => 1
  | .lineStop => 2
  | .quickStop => 3
  | .upstreamLoss => 4
  | .orderLost => 5
  | .leadLost => 6
  | .memberFault => 7
  | .memberLost => 8

/-- Start-refused cause codes. -/
def RefusedCause.code : RefusedCause → Int
  | .none => 0
  | .lineNotRun => 1
  | .noStopSeen => 2
  | .memberNotActive => 3
  | .memberNotReady => 4
  | .linkTest => 5

/-- Member state codes. -/
def MemberState.code : MemberState → Int
  | .absent => 0
  | .active => 1
  | .missing => 2
  | .lost => 3

/-- Window result codes. -/
def WindowResult.code : WindowResult → Int
  | .none => 0
  | .valid => 1
  | .miss => 2

/-- Action codes. -/
def Action.code : Action → Int
  | .hold => 0
  | .step => 1
  | .ramp => 2
  | .square => 3
  | .draw => 4
  | .weight => 5
  | .capture => 6

/-- The action of a code. -/
def Action.ofCode (v : Int) : Option Action :=
  if v = 0 then some .hold else if v = 1 then some .step else if v = 2 then some .ramp
  else if v = 3 then some .square else if v = 4 then some .draw else if v = 5 then some .weight
  else if v = 6 then some .capture else none

/-- Draw mode codes. -/
def DrawMode.code : DrawMode → Int
  | .carry => 0
  | .hold => 1

/-- The draw mode of a code. -/
def DrawMode.ofCode (v : Int) : Option DrawMode := if v = 0 then some .carry else if v = 1 then some .hold else none

/-- On-timeout codes. -/
def OnTimeout.code : OnTimeout → Int
  | .next => 0
  | .abort => 1

/-- The on-timeout choice of a code. -/
def OnTimeout.ofCode (v : Int) : Option OnTimeout := if v = 0 then some .next else if v = 1 then some .abort else none

/-- Condition quantity codes. -/
def Quantity.code : Quantity → Int
  | .speedError => 0
  | .spread => 1
  | .shareError => 2
  | .load => 3
  | .leadTorque => 4
  | .trim => 5
  | .saturated => 6
  | .trimLimit => 7
  | .ratioLimit => 8
  | .degraded => 9

/-- The condition quantity of a code. -/
def Quantity.ofCode (v : Int) : Option Quantity :=
  if v = 0 then some .speedError else if v = 1 then some .spread else if v = 2 then some .shareError
  else if v = 3 then some .load else if v = 4 then some .leadTorque else if v = 5 then some .trim
  else if v = 6 then some .saturated else if v = 7 then some .trimLimit else if v = 8 then some .ratioLimit
  else if v = 9 then some .degraded else none

/-- Condition relation codes. -/
def Relation.code : Relation → Int
  | .below => 0
  | .above => 1
  | .within => 2
  | .outside => 3
  | .set => 4
  | .clear => 5

/-- The condition relation of a code. -/
def Relation.ofCode (v : Int) : Option Relation :=
  if v = 0 then some .below else if v = 1 then some .above else if v = 2 then some .within
  else if v = 3 then some .outside else if v = 4 then some .set else if v = 5 then some .clear else none

/-- Runner state codes. -/
def RunnerState.code : RunnerState → Int
  | .idle => 0
  | .running => 1
  | .paused => 2
  | .waiting => 3

/-- Square phase codes. -/
def Phase2.code : Phase2 → Int
  | .first => 0
  | .second => 1

/-- Record kind codes; the pending record of a runner reads −1 for none. -/
def RecordKind.code : RecordKind → Int
  | .stepEnd => 0
  | .capture => 1
  | .testEnd => 2

/-- Runner outcome codes. -/
def TestOutcome.code : TestOutcome → Int
  | .none => 0
  | .completed => 1
  | .stopped => 2
  | .aborted => 3

/-- Abort cause codes. -/
def AbortCause.code : AbortCause → Int
  | .none => 0
  | .sectionLeftRunning => 1
  | .upstreamLoss => 2
  | .abortCondition => 3
  | .timeout => 4
  | .badStep => 5
  | .wrongSource => 6

/-- Upstream state codes. -/
def UpState.code : UpState → Int
  | .unlinked => 0
  | .linked => 1
  | .lost => 2

/-- Last error kind codes. -/
def ErrorKind.code : ErrorKind → Int
  | .none => 0
  | .framing => 1
  | .brk => 2
  | .overrun => 3
  | .check => 4
  | .length => 5
  | .truncated => 6

/-- Store state codes (R170). -/
def StoreState.code : StoreState → Int
  | .invalid => 0
  | .valid => 1
  | .saving => 2

/-- Last save result codes (R170). -/
def SaveResult.code : SaveResult → Int
  | .none => 0
  | .valid => 1
  | .failed => 2

/-- Link test result codes (R170). -/
def LinkResult.code : LinkResult → Int
  | .none => 0
  | .passed => 1
  | .failed _ _ => 2

/-- The bad count shown: 0 unless the result is FAILED (R170). -/
def LinkResult.badCode : LinkResult → Int
  | .none => 0
  | .passed => 0
  | .failed n _ => n

/-- Kind of the first bad frame (R170). -/
def BadKind.code : BadKind → Int
  | .check => 1
  | .framing => 2
  | .missing => 3

/-- The kind shown: NONE unless the result is FAILED (R170). -/
def LinkResult.firstCode : LinkResult → Int
  | .none => 0
  | .passed => 0
  | .failed _ k => k.code

/-- The table of a code (section 11.1). -/
def Table.ofCode (v : Int) : Option Table :=
  if v = 0 then some .sections else if v = 1 then some .members else if v = 2 then some .steps
  else if v = 3 then some .runners else if v = 4 then some .part else none

/-- The cursor mode of a code (section 11.1). -/
def CursorMode.ofCode (v : Int) : Option CursorMode :=
  if v = 0 then some .fixed else if v = 1 then some .advance else if v = 2 then some .single else none

/-- Result codes (section 11.2). -/
def ResultCode.code : ResultCode → Byte
  | .done => 0x00
  | .doneClamped => 0x01
  | .pending => 0x02
  | .level => 0x10
  | .state => 0x11
  | .busy => 0x12
  | .absent => 0x13
  | .limit => 0x14
  | .range => 0x15
  | .conflict => 0x16
  | .dependent => 0x18
  | .claimed => 0x19
  | .inUse => 0x1A
  | .noCursor => 0x1B
  | .readOnly => 0x1C
  | .log => 0x1D
  | .noRatio => 0x1E
  | .unknown => 0x1F

/-- The outcome character of a capture record (section 11.3). -/
def RecordOutcome.code : RecordOutcome → Byte
  | .met => 0x00
  | .done => 0x01
  | .timeout => 0x02
  | .completed => 0x03
  | .stopped => 0x04
  | .aborted _ => 0x05

/-- The abort cause character of a capture record: 00h unless ABORTED (section 11.3). -/
def RecordOutcome.causeCode : RecordOutcome → Int
  | .aborted c => c.code
  | _ => 0

/-- The line command of a code: any other code is QUICK STOP (R19, section 11.1). -/
def LineCommand.ofChar (c : Byte) : LineCommand := if c = 0 then .stop else if c = 1 then .run else .quickStop

/-! ## Straps (R171, section 11.4) -/

/-- A strap with a pull-up. -/
def strapUp : PinLevel → Nat
  | .low => 0
  | .high => 1
  | .unconnected => 1

/-- A strap with a pull-down. -/
def strapDown : PinLevel → Nat
  | .low => 0
  | .high => 1
  | .unconnected => 0

/-- The configuration word: a + 4 × p + 16 × m + 32 × r. -/
def configWord (p : Straps) : Byte :=
  BitVec.ofNat 8 ((strapUp p.ma0 + 2 * strapUp p.ma1) + 4 * (strapUp p.cp0 + 2 * strapDown p.cp1)
    + 16 * strapUp p.lvl + 32 * strapUp p.rst)

/-- The strapped management address: 60 + a. -/
def strappedAddr (w : Byte) : Byte := 60 + (w &&& 3)

/-- The strapped cycle period in bit times: 4, 8, 12 or 16 ms. -/
def periodBits (w : Byte) : Nat := 4 * ((w.toNat / 4) % 4 + 1) * Config.msBits

/-- The strapped maximum access level. -/
def maxLevel (w : Byte) : AccessLevel := if w.getLsbD 4 then .engineer else .operate

/-- The strapped restore choice. -/
def restoreChosen (w : Byte) : Bool := w.getLsbD 5

end Sys2Proof.Machine
end

