-- ==== Sys2Proof/Machine/Flags.lean ====
section
/-! DEFINITION. Flag words, notices and last-error latches: how the spec sums flags, sets them and clears them. -/

namespace Sys2Proof.Machine

open Sys2Proof

/-- Last status: the sum of READY 1, RUNNING 2, FAULT 4, LIMIT 8 (R166). -/
def MemberStatus.code (t : MemberStatus) : Int :=
  boolCode t.ready + 2 * boolCode t.running + 4 * boolCode t.fault + 8 * boolCode t.limit

/-- The status a report carries; bits 10h to 80h are ignored (R179). -/
def MemberStatus.ofChar (c : Byte) : MemberStatus :=
  { ready := c.getLsbD 0, running := c.getLsbD 1, fault := c.getLsbD 2, limit := c.getLsbD 3 }

/-- The flags character of a SECTION REPORT (section 11.2). -/
def SectionFlags.code (f : SectionFlags) : Int :=
  boolCode f.ramping + 2 * boolCode f.saturated + 4 * boolCode f.ratioLimit + 8 * boolCode f.trimLimit
    + 16 * boolCode f.degraded

/-- Clamp flags: the sum of DRAW CLAMPED 1, COMPENSATION CLAMPED 2, SATURATED SEEN 4 (R166). -/
def ClampFlags.code (f : ClampFlags) : Int :=
  boolCode f.draw + 2 * boolCode f.compensation + 4 * boolCode f.saturated

/-- Change the notices. -/
def State.modNotices (s : State) (f : Notices → Notices) : State :=
  s.modPart fun x => { x with notices := f x.notices }

/-- Set UPSTREAM LOSS. -/
def Notices.setUpstreamLoss (n : Notices) : Notices := { n with upstreamLoss := true }

/-- Set MANAGEMENT OVERRUN. -/
def Notices.setOverrun (n : Notices) : Notices := { n with overrun := true }

/-- Set LINE SPEED CLAMPED. -/
def Notices.setLineClamped (n : Notices) : Notices := { n with lineClamped := true }

/-- Set SECTION TRIP. -/
def Notices.setSectionTrip (n : Notices) : Notices := { n with sectionTrip := true }

/-- Set TEST ENDED. -/
def Notices.setTestEnded (n : Notices) : Notices := { n with testEnded := true }

/-- STORE INVALID as a save or a start-up leaves it. -/
def Notices.withStoreInvalid (n : Notices) (b : Bool) : Notices := { n with storeInvalid := b }

/-- What CLEAR NOTICES leaves: STORE INVALID as it stands, the others clear (R169). -/
def Notices.cleared (n : Notices) : Notices := Notices.reset n.storeInvalid

/-- Write a kind into a port's last-error latch (R10). -/
def State.latchError (s : State) (p : Side) (k : ErrorKind) : State :=
  s.setPort p { s.port p with lastError := k }

end Sys2Proof.Machine
end

