-- ==== Sys2Proof/Machine/Frames.lean ====
section
/-! DEFINITION. Frames: characters, the check of R4, and the layouts of the frames the part receives and sends
(sections 11.1 and 11.2). -/

namespace Sys2Proof.Machine

open Sys2Proof

/-! ## The check (R4) -/

/-- Shift the CRC register by one bit: polynomial x^16 + x^15 + x^2 + 1. -/
def crcShift (r : BitVec 16) : BitVec 16 := if r.msb then (r <<< 1) ^^^ 0x8005 else r <<< 1

/-- Take one character, most significant data bit first. -/
def crcStep (r : BitVec 16) (c : Byte) : BitVec 16 :=
  crcShift (crcShift (crcShift (crcShift (crcShift (crcShift (crcShift (crcShift
    (r ^^^ (c ++ (0 : BitVec 8))))))))))

/-- The check of a run of characters: the register starts at all ones and is not inverted at the end. -/
def crc16 (cs : List Byte) : BitVec 16 := cs.foldl crcStep 0xFFFF

/-! ## Frame kinds (chapter 11) -/

/-- LINE CYCLE. -/
abbrev kindLineCycle : Byte := 0x01
/-- SECTION ORDER. -/
abbrev kindSectionOrder : Byte := 0x02
/-- POLL CALL. -/
abbrev kindPollCall : Byte := 0x03
/-- MANAGE. -/
abbrev kindManage : Byte := 0x04
/-- SECTION REPORT. -/
abbrev kindSectionReport : Byte := 0x11
/-- PART REPORT. -/
abbrev kindPartReport : Byte := 0x12
/-- MANAGE REPLY. -/
abbrev kindManageReply : Byte := 0x13
/-- MEMBER ORDER. -/
abbrev kindMemberOrder : Byte := 0x21
/-- SLOT CALL. -/
abbrev kindSlotCall : Byte := 0x22
/-- MEMBER REPORT. -/
abbrev kindMemberReport : Byte := 0x31
/-- ECHO TEST. -/
abbrev kindEchoTest : Byte := 0x3F

/-! ## Characters of a frame -/

/-- Address, kind, length and payload, the characters the check covers (section 1.2). -/
def frameBody (address kind : Byte) (payload : List Byte) : List Byte :=
  address :: kind :: BitVec.ofNat 8 payload.length :: payload

/-- Every character of a frame, the two check characters last. -/
def frameChars (address kind : Byte) (payload : List Byte) : List Byte :=
  frameBody address kind payload ++ chars16 (crc16 (frameBody address kind payload))

/-- The characters of a frame as a receiver meets them: the first one marked, every stop bit at mark (R1). -/
def frameEvents (address kind : Byte) (payload : List Byte) : List LineEvent :=
  match frameChars address kind payload with
  | [] => []
  | c :: cs => .char c true true :: cs.map fun x => .char x false true

/-- How many characters a queued frame is long. -/
def TxFrame.chars (f : TxFrame) : Nat := f.payload.length + 5

/-- How many bit times a queued frame takes (R1: characters follow with no idle time). -/
def TxFrame.bits (f : TxFrame) : Nat := Config.charBits * f.chars

/-- The eleven line bits of a character: start, eight data bits least significant first, mark, stop (section 1.1). -/
def charBitsOf (c : Byte) (mark : Bool) : List Bool :=
  [false, c.getLsbD 0, c.getLsbD 1, c.getLsbD 2, c.getLsbD 3, c.getLsbD 4, c.getLsbD 5, c.getLsbD 6, c.getLsbD 7,
    mark, true]

/-- The bits of a frame on the line, in the order they are sent: the first character marked, the others not, with no
idle time between them (R1). -/
def TxFrame.lineBits (f : TxFrame) : List Bool :=
  match frameChars f.address f.kind f.payload with
  | [] => []
  | c :: cs => charBitsOf c true ++ cs.flatMap fun x => charBitsOf x false

/-- The transmit data pin (UPTX, DNTX): the bit being sent while a frame is sent; mark otherwise, and from the end of the
last stop bit on (R1, R13). -/
def Port.txLevel (x : Port) : Bool :=
  match x.driving, x.tx with
  | true, f :: _ => f.lineBits.getD x.sentBits true
  | _, _ => true

/-! ## Frames the part sends (section 11.2, R180) -/

/-- A field named as none reads FFh in a one-character position (R180). -/
def slotByte {n : Nat} : Option (Fin n) → Byte
  | none => 0xFF
  | some i => BitVec.ofNat 8 i.val

/-- A SECTION REPORT from its report image (R24). -/
def sectionReport (address : Byte) (g : Image) : TxFrame :=
  { address := address, kind := kindSectionReport, tie := .plain,
    payload := [toByte g.runState.code, toByte g.source.code, toByte g.flags.code, toByte g.cause.code,
        slotByte g.causeSlot]
      ++ chars24 (BitVec.ofInt 24 g.applied) ++ chars24 (BitVec.ofInt 24 g.leadSpeed)
      ++ chars16 (BitVec.ofInt 16 g.load) ++ [slotByte g.runner] }

/-- A MANAGE REPLY (R153). -/
def manageReply (address : Byte) (r : Reply) : TxFrame :=
  { address := address, kind := kindManageReply, tie := r.tie,
    payload := r.code.code :: r.offending :: BitVec.ofNat 8 r.count :: valueChars r.values }

/-- The SLOT CALL of a cycle (R32). -/
def slotCall (number : Byte) (addresses : List Byte) : TxFrame :=
  { address := 0, kind := kindSlotCall, tie := .plain,
    payload := number :: BitVec.ofNat 8 addresses.length :: addresses }

/-- The payload of ECHO TEST frame k: the values 16 × k to 16 × k + 15 (R17). -/
def echoPayload (k : Nat) : List Byte := (List.range 16).map fun n => BitVec.ofNat 8 (16 * k + n)

end Sys2Proof.Machine
end

