-- ==== Sys2Proof/Machine/Ports.lean ====
section
/-! DEFINITION. The receiver, the receive FIFO, the gap timer and the line driver of a port (R2, R3, R6, R13). -/

namespace Sys2Proof.Machine

open Sys2Proof

/-- The OVERRUN tag set on the newest entry held (R6). -/
def markNewest : List Entry → List Entry
  | [] => []
  | [e] => [{ e with overrun := true }]
  | e :: f :: rest => e :: markNewest (f :: rest)

/-- Store an entry at the tail, or lose it and mark the newest entry (R6). -/
def Port.store (x : Port) (e : Entry) : Port :=
  if x.fifo.length < Config.fifoPlaces then { x with fifo := x.fifo ++ [e] } else { x with fifo := markNewest x.fifo }

/-- A gap entry (R3). -/
def gapEntry : Entry :=
  { body := .gap, framing := false, brk := false, overrun := false, stamp := { slot := none, age := 0 } }

/-- The gap timer stops and a gap entry is stored (R3). -/
def Port.storeGap (x : Port) : Port := { x.store gapEntry with gapTimer := none }

/-- The line stayed at logic 0 from the start bit through the stop bit (R2). -/
def isBreak (data : Byte) (mark stop : Bool) : Bool := !stop && !mark && data == 0

/-- The entry of a character detected (R2). -/
def charEntry (data : Byte) (mark stop : Bool) (stamp : Stamp) : Entry :=
  { body := .char data mark, framing := !stop && !isBreak data mark stop, brk := isBreak data mark stop,
    overrun := false, stamp := stamp }

/-- The receiver takes what happens on its line: the gap timer runs from the end of the stop bit, and after a BREAK from
the return to mark (R2, R3). -/
def Port.receive (x : Port) (stamp : Stamp) : LineEvent → Port
  | .char data mark stop =>
    if x.awaitMark then x
    else if isBreak data mark stop then
      { x.store (charEntry data mark stop stamp) with gapTimer := none, awaitMark := true }
    else { x.store (charEntry data mark stop stamp) with gapTimer := some 0 }
  | .markReturn => if x.awaitMark then { x with awaitMark := false, gapTimer := some 0 } else x

/-- The driver is enabled for a burst; a running gap timer stops with a gap entry (R3, R13). -/
def Port.enable (x : Port) : Port :=
  let y := match x.gapTimer with
    | none => x
    | some _ => x.storeGap
  { y with driving := true, sentBits := 0, turnaround := none, awaitMark := false }

/-- The driver is released; the gap timer stays stopped until a character is detected (R13). -/
def Port.release (x : Port) : Port := { x with driving := false, sentBits := 0, gapTimer := none }

/-- FIFO emptied and assembler in WAIT, without an error kind, at loopback entry and exit (R6, R16, R18, log 20). -/
def Port.emptied (x : Port) : Port :=
  { x with fifo := [], asm := .wait, gapTimer := none, awaitMark := false, sentBits := 0 }

/-! ## The transmit queue (R14, R15) -/

/-- The reply spacing: 2 character times (R15, R17). -/
abbrev spacingBits : Nat := 2 * Config.charBits

/-- A frame joins the UP transmit queue. The manual gives the queue 18 places and does not say what becomes of a reply
that finds none free: the model loses it (DESIGN CHOICE, log 27). -/
def Port.queueFrame (x : Port) (f : TxFrame) : Port :=
  if x.tx.length < Config.upPlaces then { x with tx := x.tx ++ [f] } else x

/-- Where the reply spacing stands when a frame that ended `age` bit times ago is answered: counted from the end of the
frame (R15); one taken when the spacing is over is answered in the next bit time (log 28). -/
def spacingAt (age : Nat) : Nat := min age (spacingBits - 1)

/-- The receiver of a port listens to its line, or in loopback to the transmitter (R13, R16, R176). -/
def State.receives (s : State) : Side → Bool
  | .up => s.phase == .inService && !s.up.driving
  | .dn => s.phase == .inService && (s.link.loopback || !s.dn.driving)

/-- The slot of the slot window that runs now, none outside it (R33). -/
def State.slotMoment (s : State) : Option SlotMoment :=
  match s.cyc.inFlight with
  | none => none
  | some c => if c.windowOpen then some { cycle := s.cyc.cycleNumber, slot := c.pos } else none

/-- The stamp of a character whose stop bit ends now at a port (R15, R34, log 16, log 28). -/
def State.stamp (s : State) : Side → Stamp
  | .up => { slot := none, age := 0 }
  | .dn => { slot := s.slotMoment, age := 0 }

/-- A line event reaches a port: ignored where its receiver does not listen (R13). -/
def State.receiveEvent (s : State) (p : Side) (e : LineEvent) : State :=
  if s.receives p then s.setPort p ((s.port p).receive (s.stamp p) e) else s

end Sys2Proof.Machine
end

