-- ==== Sys2Proof/Machine/CaptureLog.lean ====
section
/-! DEFINITION. The capture log: free places, writing, dropping and the reply layout of its records (spec 08, section
11.3). The service of waiting runners stands with the runners. -/

namespace Sys2Proof.Machine

open Sys2Proof

/-- The free places: 64 less the records held (R145). -/
def State.freePlaces (s : State) : Nat := Config.logPlaces - s.log.records.length

/-- The number of runners not IDLE (R145). -/
def State.notIdle (s : State) : Nat := s.busyRunners.length

/-- A step record may be written: the free places exceed the runners not IDLE (R127, R145). -/
def State.hasPlace (s : State) : Bool := decide (s.notIdle < s.freePlaces)

/-- Append a record with the next sequence number (R144). -/
def Log.write (l : Log) (r : CaptureRecord) : Log :=
  { l with records := l.records ++ [{ r with seq := l.nextSeq }], nextSeq := l.nextSeq + 1 }

/-- Write a record to the log (R144). -/
def State.writeRecord (s : State) (r : CaptureRecord) : State := s.modLog fun l => l.write r

/-- A runner joins the waiters at the tail (R146). -/
def State.joinWaiters (s : State) (r : Fin 4) : State := s.modLog fun l => { l with waiters := l.waiters ++ [r] }

/-- A runner leaves the waiters, the others in their order (R146). -/
def State.leaveWaiters (s : State) (r : Fin 4) : State :=
  s.modLog fun l => { l with waiters := l.waiters.filter fun q => q != r }

/-- Remove the oldest records (R150). -/
def State.dropRecords (s : State) (n : Nat) : State := s.modLog fun l => { l with records := l.records.drop n }

/-- The seven characters of a member entry; zeros where the list has none (section 11.3). -/
def memberEntryChars (e : Option MemberEntry) : List Byte :=
  match e with
  | none => [0, 0, 0, 0, 0, 0, 0]
  | some m => chars24 (BitVec.ofInt 24 m.speed) ++ chars16 (BitVec.ofInt 16 m.torque) ++ chars16 (BitVec.ofInt 16 m.trim)

/-- The 56 characters of a record in a FETCH LOG reply (section 11.3). -/
def recordChars (r : CaptureRecord) : List Byte :=
  [toByte r.kind.code, BitVec.ofNat 8 r.runner.val] ++ chars16 r.seq ++ chars32 r.count
    ++ [BitVec.ofNat 8 r.sec.val, BitVec.ofNat 8 r.step.val, r.outcome.code, toByte r.outcome.causeCode]
    ++ chars32 (BitVec.ofNat 32 r.elapsed) ++ [toByte r.flags.code]
    ++ chars24 (BitVec.ofInt 24 r.applied) ++ chars24 (BitVec.ofInt 24 r.leadSpeed)
    ++ chars24 (BitVec.ofInt 24 r.offset) ++ chars16 (BitVec.ofInt 16 r.load)
    ++ allSlots.flatMap fun j => memberEntryChars (r.members.find? fun e => e.slot == j)

/-- The 14 values of a record in a FETCH LOG reply (R149). -/
def recordValues (r : CaptureRecord) : List Value := groupValues (recordChars r)

end Sys2Proof.Machine
end

