-- ==== Sys2Proof/Machine/Cascade.lean ====
section
/-! DEFINITION. The draw cascade: the computation at a cycle start, draw adjustment and transfers (spec 04). -/

namespace Sys2Proof.Machine

open Sys2Proof

/-! ## Ratio, target, goal and ramp (R66 to R72) -/

/-- The base ratio: unity for LINE, else R of the draw base section as it holds it now (R66). -/
def State.baseRatio (s : State) (i : Fin 16) : Int :=
  match (s.sec i).cfg.drawBase with
  | none => 1000000
  | some b => (s.sec b).ratio

/-- The exact ratio B × (10000 + d) / 10000, rounded half up, before its clamp (R67). -/
def exactRatio (base d : Int) : Int := divHalfUp (base * (10000 + d)) 10000

/-- The clamp of a ratio (R67, R68). -/
def clampRatio (q : Int) : Int := clampInt 900000 1100000 q

/-- The clamp of a ratio acts. -/
def ratioClamps (q : Int) : Bool := clampActs 900000 1100000 q

/-- Form R of a CASCADE section, with RATIO LIMIT (R67). -/
def Section.formRatio (x : Section) (base : Int) : Section :=
  { x with
    ratio := clampRatio (exactRatio base x.draw)
    flags := { x.flags with ratioLimit := ratioClamps (exactRatio base x.draw) } }

/-- The observed ratio before its clamp: M × 1,000,000 / L, rounded half up (R68). -/
def observedExact (lineSpeed master : Int) : Int := divHalfUp (master * 1000000) lineSpeed

/-- The three conditions under which the observed ratio is recomputed (R68). -/
def Section.observes (x : Section) (lineSpeed : Int) : Bool :=
  x.runState == .running && decide (1000 ≤ lineSpeed) && decide (0 < x.master)

/-- The ratio stage of a FOLLOW section (R68). -/
def Section.followRatio (x : Section) (lineSpeed : Int) : Section :=
  if x.observes lineSpeed then
    { x with
      observed := clampRatio (observedExact lineSpeed x.master)
      ratio := clampRatio (observedExact lineSpeed x.master)
      flags := { x.flags with ratioLimit := ratioClamps (observedExact lineSpeed x.master) } }
  else { x with ratio := x.observed }

/-- Stage 1: the ratio (R66 to R68). -/
def Section.ratioStage (x : Section) (lineSpeed base : Int) : Section :=
  match x.source with
  | .cascade => x.formRatio base
  | .follow => x.followRatio lineSpeed

/-- Stage 2: the target (R69). -/
def Section.targetStage (x : Section) (lineSpeed : Int) : Section :=
  match x.source with
  | .cascade => { x with target := divHalfUp (lineSpeed * x.ratio) 1000000 }
  | .follow => { x with target := x.master }

/-- The goal in RUNNING: T + O clamped to 0..max speed (R70). -/
def Section.goal (x : Section) (offset : Int) : Int := clampInt 0 x.cfg.maxSpeed (x.target + offset)

/-- The clamp of the goal acts (R70). -/
def Section.goalClamps (x : Section) (offset : Int) : Bool := clampActs 0 x.cfg.maxSpeed (x.target + offset)

/-- Move toward a goal by no more than a step (R71). -/
def rampToward (cur goal step : Int) : Int :=
  if magnitude (goal - cur) ≤ step then goal else if cur < goal then cur + step else cur - step

/-- The ramp a stop cause takes: q for QUICK STOP and UPSTREAM LOSS, s for the others (R71). -/
def Section.stopStep (x : Section) : Int :=
  match x.cause with
  | .quickStop => x.cfg.quickRamp
  | .upstreamLoss => x.cfg.quickRamp
  | _ => x.cfg.stopRamp

/-- Stages 3 and 4: goal, SATURATED, ramp limiter and RAMPING (R70, R71). -/
def Section.rampStage (x : Section) (offset : Int) : Section :=
  match x.runState with
  | .running =>
    { x with
      applied := rampToward x.applied (x.goal offset) x.cfg.accel
      flags := { x.flags with
        saturated := x.goalClamps offset
        ramping := rampToward x.applied (x.goal offset) x.cfg.accel != x.goal offset } }
  | .stopping =>
    { x with
      applied := rampToward x.applied 0 x.stopStep
      flags := { x.flags with saturated := false, ramping := rampToward x.applied 0 x.stopStep != 0 } }
  | .stopped => { x with applied := 0, flags := { x.flags with saturated := false, ramping := false } }
  | .tripped => { x with applied := 0, flags := { x.flags with saturated := false, ramping := false } }

/-- Entry to STOPPED from STOPPING: DEGRADED cleared, trims zeroed, the cause kept (R54, R72, R91). -/
def Section.enterStopped (x : Section) : Section :=
  { x.zeroTrims with
    runState := .stopped
    flags := { x.zeroTrims.flags with ramping := false, saturated := false, degraded := false } }

/-- A STOPPING section whose A is 0 becomes STOPPED within the same computation (R72). -/
def Section.settleStop (x : Section) : Section :=
  if x.runState = .stopping ∧ x.applied = 0 then x.enterStopped else x

/-- The computation of one section at a cycle start (R65). -/
def Section.compute (x : Section) (lineSpeed base offset : Int) : Section :=
  (((x.ratioStage lineSpeed base).targetStage lineSpeed).rampStage offset).settleStop

/-- Compute one section from the state as it stands (R65). -/
def State.computeSec (s : State) (i : Fin 16) : State :=
  s.modSec i fun x => x.compute s.cyc.lineSpeed (s.baseRatio i) (s.offsetOf i)

/-- Compute the present sections in chain order (R65). -/
def State.computeChain (s : State) : State := s.chain.foldl State.computeSec s

/-! ## Draw adjustment (R74 to R79) -/

/-- What a draw adjustment leaves and what it clamped. -/
structure Adjusted where
  state         : State
  ownClamped    : Bool
  childClamped  : List (Fin 16)

/-- A child: a present CASCADE section whose draw base is this section (R77). -/
def State.children (s : State) (i : Fin 16) : List (Fin 16) :=
  s.presentSecs.filter fun c => (s.sec c).cfg.drawBase == some i && (s.sec c).source == .cascade

/-- The compensated draw before its clamp: 10000 × (R_c − R_new) / R_new, half away from zero (R77). -/
def compensated (newRatio childRatio : Int) : Int := divHalfAway (10000 * (childRatio - newRatio)) newRatio

/-- Compensate one child's draw; its R is not formed (R77). -/
def Section.compensate (x : Section) (newRatio : Int) : Section :=
  { x with draw := clampInt (-500) 500 (compensated newRatio x.ratio) }

/-- Stages 1 and 2 of a draw adjustment: the draw and the ratio (R74). -/
def State.adjustOwn (s : State) (i : Fin 16) (delta : Int) : State :=
  s.modSec i fun x => { x with draw := clampInt (-500) 500 (x.draw + delta) }.formRatio (s.baseRatio i)

/-- A draw adjustment of a section by a delta (R74). -/
def State.adjustDraw (s : State) (i : Fin 16) (delta : Int) (mode : DrawMode) : Adjusted :=
  let t := s.adjustOwn i delta
  let own := clampActs (-500) 500 ((s.sec i).draw + delta)
  match mode with
  | .carry => { state := t, ownClamped := own, childClamped := [] }
  | .hold =>
    let r := (t.sec i).ratio
    { state := (t.children i).foldl (fun u c => u.modSec c fun x => x.compensate r) t
      ownClamped := own
      childClamped := (t.children i).filter fun c => clampActs (-500) 500 (compensated r (t.sec c).ratio) }

/-! ## Transfers (R80, R81) -/

/-- The draw back-computed from the observed ratio, before its clamp (R80). -/
def backDraw (base observed : Int) : Int := divHalfAway (10000 * (observed - base)) base

/-- FOLLOW → CASCADE: draw, mode, ratio (R80). -/
def Section.toCascade (x : Section) (base : Int) : Section :=
  { x with draw := clampInt (-500) 500 (backDraw base x.observed), source := .cascade }.formRatio base

/-- CASCADE → FOLLOW (R81). -/
def Section.toFollow (x : Section) : Section := { x with observed := x.ratio, source := .follow }

end Sys2Proof.Machine
end

