-- ==== Sys2Proof/Machine/Runners.lean ====
section
/-! DEFINITION. Test runners and step records in execution: conditions, entry, progress, step ends, test ends, the
service of waiters (spec 06, 07, 08). -/

namespace Sys2Proof.Machine

open Sys2Proof

/-! ## Freshness and conditions (R86, R112 to R114) -/

/-- A window completion is full: some member below the count is not LOST, and each of those is VALID (R86). -/
def Section.full (x : Section) : Bool :=
  !x.sharers.isEmpty && x.sharers.all fun j => (x.member j).result == .valid

/-- The greatest of a list of magnitudes, 0 for none. -/
def greatest (l : List Int) : Int := l.foldl max 0

/-- The greatest actual speed less the least, 0 for none (R112). -/
def spreadOf : List Int → Int
  | [] => 0
  | v :: vs => vs.foldl max v - vs.foldl min v

/-- A condition quantity at a judgement: a value, or a flag (R112). -/
def Quantity.reading (q : Quantity) (x : Section) : Int ⊕ Bool :=
  match q with
  | .speedError => .inl ((x.member 0).speed - x.applied)
  | .spread => .inl (spreadOf (x.sharers.map fun j => (x.member j).speed))
  | .shareError => .inl (greatest (x.followers.map fun j => magnitude (x.member j).shareError))
  | .load => .inl x.load
  | .leadTorque => .inl (x.member 0).torque
  | .trim => .inl (greatest (x.followers.map fun j => magnitude (x.member j).trim))
  | .saturated => .inr x.flags.saturated
  | .trimLimit => .inr x.flags.trimLimit
  | .ratioLimit => .inr x.flags.ratioLimit
  | .degraded => .inr x.flags.degraded

/-- Whether a quantity is a flag (R103). -/
def Quantity.isFlag : Quantity → Bool
  | .saturated => true
  | .trimLimit => true
  | .ratioLimit => true
  | .degraded => true
  | _ => false

/-- Whether a relation is for flags (R103). -/
def Relation.isFlag : Relation → Bool
  | .set => true
  | .clear => true
  | _ => false

/-- A condition holds at a judgement (R113). -/
def Condition.holds (c : Condition) (x : Section) : Bool :=
  match c.quantity.reading x, c.relation with
  | .inl v, .below => decide (v < c.limit)
  | .inl v, .above => decide (c.limit < v)
  | .inl v, .within => decide (magnitude (v - c.limit) ≤ c.band)
  | .inl v, .outside => decide (c.band < magnitude (v - c.limit))
  | .inr b, .set => b
  | .inr b, .clear => !b
  | _, _ => false

/-- The settle counter after a progress completion (R114). -/
def Condition.count (c : Condition) (x : Section) (full : Bool) (n : Nat) : Nat :=
  if c.present && full then (if c.holds x then n + 1 else 0) else n

/-- The condition is reached at this completion (R114). -/
def Condition.reached (c : Condition) (x : Section) (full : Bool) (n : Nat) : Bool :=
  c.present && full && c.holds x && decide (c.settle ≤ n + 1)

/-! ## Records (R137) -/

/-- The member list of a record (R137, R142). -/
def Section.memberList (x : Section) : List MemberEntry :=
  x.slots.map fun j =>
    { slot := j, speed := (x.member j).speed, torque := (x.member j).torque, trim := (x.member j).trim }

/-- A record formed from the state as it stands; the log gives its sequence number at the write (R137, R144). -/
def State.formRecord (s : State) (r : Fin 4) (kind : RecordKind) (outcome : RecordOutcome) : CaptureRecord :=
  let u := s.runner r
  let i := u.claimed.getD 0
  let x := s.sec i
  { seq := 0, count := s.cyc.cycleCount, kind := kind, runner := r, sec := i, step := u.step.getD 0, outcome := outcome,
    elapsed := u.elapsed, applied := x.applied, leadSpeed := (x.member 0).speed, load := x.load, offset := u.offset,
    flags := u.flags, members := x.memberList }

/-! ## Test ends (R130, R131, R138) -/

/-- A WAITING runner's pending record is discarded and it leaves the queue (R131, R138, R146). -/
def State.dropPendingRecord (s : State) (r : Fin 4) : State :=
  if (s.runner r).state = .waiting then
    (s.setRunner r { s.runner r with pendingRecord := none }).leaveWaiters r
  else s

/-- The runner's part of a test end: O 0, claim released, IDLE, outcome and cause stored. -/
def Runner.ended (u : Runner) (outcome : TestOutcome) (cause : AbortCause) : Runner :=
  { u with offset := 0, claimed := none, state := .idle, outcome := outcome, abortCause := cause }

/-- The TEST END record formed and written, then the runner's part. -/
def State.endTest (s : State) (r : Fin 4) (rec : RecordOutcome) (outcome : TestOutcome) (cause : AbortCause) : State :=
  let t := s.writeRecord (s.formRecord r .testEnd rec)
  t.setRunner r ((t.runner r).ended outcome cause)

/-- A test completes (R130). -/
def State.completeTest (s : State) (r : Fin 4) : State :=
  (s.endTest r .completed .completed .none).modNotices Notices.setTestEnded

/-- A test is stopped by STOP TEST: no notice (R138). -/
def State.stopRunner (s : State) (r : Fin 4) : State :=
  (s.dropPendingRecord r).endTest r .stopped .stopped .none

/-- A runner aborts; an IDLE one does not (R131, R132). -/
def State.abortRunner (s : State) (r : Fin 4) (cause : AbortCause) : State :=
  if (s.runner r).state = .idle then s
  else ((s.dropPendingRecord r).endTest r (.aborted cause) .aborted cause).modNotices Notices.setTestEnded

/-- The runner that claims a section aborts, if there is one (R133). -/
def State.abortClaimant (s : State) (i : Fin 16) (cause : AbortCause) : State :=
  match s.claimant i with
  | none => s
  | some r => s.abortRunner r cause

/-- One of the orders of a list, chosen by a number: a permutation whatever the number is. -/
def pickOrder {α : Type} : Nat → Nat → List α → List α
  | 0, _, l => l
  | fuel + 1, k, l =>
    match l[k % l.length]? with
    | none => l
    | some x => x :: pickOrder fuel (k / l.length) (l.eraseIdx (k % l.length))

/-- Several runners abort at one event, in an order the spec leaves open (R134, log 6). -/
def State.abortAll (s : State) (rs : List (Fin 4)) (cause : AbortCause) : State :=
  if rs.length ≤ 1 then rs.foldl (fun t r => t.abortRunner r cause) s
  else
    (pickOrder rs.length (Config.abortOrder s.freeUses) rs).foldl (fun t r => t.abortRunner r cause)
      s.useFree

/-- The runners that claim one of these sections. -/
def State.claimants (s : State) (secs : List (Fin 16)) : List (Fin 4) :=
  s.busyRunners.filter fun r => match (s.runner r).claimed with
    | none => false
    | some i => secs.contains i

/-! ## Entering a step (R108, R123, R124) -/

/-- The entry checks: the abort cause of the first that fails (R123). -/
def entryFailure (rec : StepRecord) (x : Section) : Option AbortCause :=
  if !rec.present then some .badStep
  else if rec.action = .weight ∧ x.cfg.memberCount ≤ rec.memberSlot.val then some .badStep
  else if rec.action = .draw ∧ x.source ≠ .cascade then some .wrongSource
  else none

/-- What every entry does to the runner: current step, steps run, counters and clamp flags (R108, R124). -/
def Runner.entered (u : Runner) (k : Fin 96) : Runner :=
  { u with
    step := some k
    stepsRun := if u.stepsRun < 65535 then u.stepsRun + 1 else u.stepsRun
    elapsed := 0
    advanceCount := 0
    abortCount := 0
    phaseCount := 0
    flags := ClampFlags.clear }

/-- A weight as a WRITE of it would make it (R94). -/
def Section.setWeight (x : Section) (j : Fin 4) (w : Int) : Section := x.setMember j { x.member j with weight := w }

/-- The entry effect of a record's action (R108). -/
def State.entryEffect (s : State) (r : Fin 4) (i : Fin 16) (rec : StepRecord) : State :=
  let u := s.runner r
  match rec.action with
  | .hold => s
  | .capture => s
  | .step => s.setRunner r { u with offset := rec.v }
  | .ramp => s.setRunner r { u with rampStart := u.offset }
  | .square =>
    s.setRunner r { u with offset := rec.v, phase := .first, phaseCount := 0, repeatsLeft := rec.repeats }
  | .draw =>
    let a := s.adjustDraw i rec.v rec.drawMode
    a.state.setRunner r
      { u with flags := { u.flags with draw := a.ownClamped, compensation := !a.childClamped.isEmpty } }
  | .weight => s.modSec i fun x => x.setWeight rec.memberSlot rec.v

/-- A failed entry: the current step takes the index, elapsed and clamp flags are cleared, the runner aborts (R123). -/
def State.failEntry (s : State) (r : Fin 4) (k : Fin 96) (cause : AbortCause) : State :=
  (s.setRunner r { s.runner r with step := some k, elapsed := 0, flags := ClampFlags.clear }).abortRunner r cause

/-- A runner enters a step: the checks, then the entry (R123, R124). -/
def State.enterStep (s : State) (r : Fin 4) (k : Fin 96) : State :=
  match (s.runner r).claimed with
  | none => s
  | some i =>
    match entryFailure (s.stepRec k) (s.sec i) with
    | some cause => s.failEntry r k cause
    | none => (s.setRunner r ((s.runner r).entered k)).entryEffect r i (s.stepRec k)

/-- A runner goes on after a step end: the next step, or the end of the test (R117, R129). -/
def State.goOn (s : State) (r : Fin 4) : State :=
  match (s.runner r).step with
  | none => s
  | some k =>
    match (s.stepRec k).nextStep with
    | some n => s.enterStep r n
    | none => s.completeTest r

/-! ## Step ends and backpressure (R118, R127, R128, R147) -/

/-- The kind of record due at the end of a step (R118). -/
def StepRecord.recordDue (rec : StepRecord) : Option RecordKind :=
  if rec.action = .capture then some .capture else if rec.captureAtEnd then some .stepEnd else none

/-- The record waits: the runner keeps it, becomes WAITING and joins the waiters (R127). -/
def State.holdRecord (s : State) (r : Fin 4) (c : CaptureRecord) : State :=
  (s.setRunner r { s.runner r with pendingRecord := some c, state := .waiting }).joinWaiters r

/-- A step end with an outcome (R127). -/
def State.stepEnd (s : State) (r : Fin 4) (rec : StepRecord) (outcome : RecordOutcome) : State :=
  match rec.recordDue with
  | none => s.goOn r
  | some kind =>
    if s.hasPlace then (s.writeRecord (s.formRecord r kind outcome)).goOn r
    else s.holdRecord r (s.formRecord r kind outcome)

/-- The log serves a waiting runner (R128, R147). -/
def State.serveRunner (s : State) (r : Fin 4) : State :=
  let u := s.runner r
  let t := match u.pendingRecord with
    | none => s
    | some c => s.writeRecord c
  ((t.setRunner r { u with pendingRecord := none, state := .running }).leaveWaiters r).goOn r

/-- Serve the waiters, oldest first, while the free places exceed the runners not IDLE (R147). -/
def State.serveWaiters : Nat → State → State
  | 0, s => s
  | fuel + 1, s =>
    match s.log.waiters with
    | [] => s
    | r :: _ => if s.hasPlace then State.serveWaiters fuel (s.serveRunner r) else s

/-! ## Progress (R109 to R111, R115, R116, R126) -/

/-- The offset of a RAMP at its n-th progress completion (R110). -/
def rampOffset (start v : Int) (n d : Nat) : Int := start + divHalfAway ((v - start) * n) d

/-- The progress of a SQUARE step (R111). -/
def Runner.squareProgress (u : Runner) (rec : StepRecord) : Runner :=
  match u.phase with
  | .first =>
    if rec.d ≤ u.phaseCount + 1 then { u with offset := rec.v2, phase := .second, phaseCount := 0 }
    else { u with phaseCount := u.phaseCount + 1 }
  | .second =>
    if rec.d2 ≤ u.phaseCount + 1 then
      if 1 < u.repeatsLeft then
        { u with repeatsLeft := u.repeatsLeft - 1, phaseCount := 0, offset := rec.v, phase := .first }
      else { u with repeatsLeft := 0, phaseCount := 0 }
    else { u with phaseCount := u.phaseCount + 1 }

/-- Elapsed advances, and the action takes its progress (R109 to R111). -/
def Runner.advance (u : Runner) (rec : StepRecord) : Runner :=
  let w := { u with elapsed := u.elapsed + 1 }
  match rec.action with
  | .ramp => { w with offset := rampOffset w.rampStart rec.v w.elapsed rec.d }
  | .square => w.squareProgress rec
  | _ => w

/-- The runner after elapsed, progress, SATURATED SEEN and both settle counters (R114, R126). -/
def Runner.judged (u : Runner) (rec : StepRecord) (x : Section) (full : Bool) : Runner :=
  { u.advance rec with
    flags := { u.flags with saturated := u.flags.saturated || x.flags.saturated }
    advanceCount := rec.advance.count x full u.advanceCount
    abortCount := rec.abort.count x full u.abortCount }

/-- The dwell, or the action's own end, is reached (R115, cases 3 to 5). -/
def StepRecord.dwellReached (rec : StepRecord) (u : Runner) : Bool :=
  match rec.action with
  | .square => u.repeatsLeft == 0
  | _ => decide (rec.d ≤ u.elapsed)

/-- The action ends with DONE on its own: RAMP or SQUARE, or a dwell action without an advance condition (R115). -/
def StepRecord.endsDone (rec : StepRecord) : Bool :=
  rec.action == .ramp || rec.action == .square || !rec.advance.present

/-- The judgements of one progress completion, in the order of R115, on a runner in step `k`. -/
def State.progressStep (s : State) (r : Fin 4) (i : Fin 16) (k : Fin 96) (full : Bool) : State :=
  let u := s.runner r
  let sr := s.stepRec k
  let x := s.sec i
  let w := u.judged sr x full
  let t := s.setRunner r w
  if sr.abort.reached x full u.abortCount then t.abortRunner r .abortCondition
  else if sr.advance.reached x full u.advanceCount then t.stepEnd r sr .met
  else if sr.dwellReached w then
    if sr.endsDone then t.stepEnd r sr .done
    else
      match sr.onTimeout with
      | .next => t.stepEnd r sr .timeout
      | .abort => t.abortRunner r .timeout
  else t

/-- A window completion reaches the runner that claims the section; it is progress when the runner is RUNNING (R125,
R126). -/
def State.runnerCompletion (s : State) (i : Fin 16) : State :=
  match s.claimant i with
  | none => s
  | some r =>
    match (s.runner r).state, (s.runner r).step with
    | .running, some k => s.progressStep r i k (s.sec i).full
    | _, _ => s

end Sys2Proof.Machine
end

