-- ==== Sys2Proof/Machine/LoadShare.lean ====
section
/-! DEFINITION. The load-share unit: window completion stages, the trim limit write, and member orders (spec 05). -/

namespace Sys2Proof.Machine

open Sys2Proof

/-! ## Window completion (R84 to R89) -/

/-- The sum of a list of integers. -/
def sumInt (l : List Int) : Int := l.foldl (· + ·) 0

/-- Converted torque of a member: reported torque × rating / 1000, toward zero (R84). -/
def Member.convert (m : Member) : Member := { m with converted := divToZero (m.torque * m.rating) 1000 }

/-- Stage 1: converted torques of the members below the count with a VALID result (R84). -/
def Section.convertTorques (x : Section) : Section :=
  x.mapMembers fun j m => if j.val < x.cfg.memberCount ∧ m.result = .valid then m.convert else m

/-- The members counted in the section load (R85). -/
def Section.loaded (x : Section) : List (Fin 4) := x.sharers.filter fun j => (x.member j).result == .valid

/-- Stage 2: the section load (R85). -/
def Section.formLoad (x : Section) : Section :=
  if x.loaded.isEmpty then x
  else
    { x with
      load := divToZero (sumInt (x.loaded.map fun j => (x.member j).converted) * 1000)
        (sumInt (x.loaded.map fun j => (x.member j).rating)) }

/-- The total of the converted torques of the members taken (R87). -/
def Section.totalTorque (x : Section) : Int := sumInt (x.sharers.map fun j => (x.member j).converted)

/-- W, the sum of the weights of the members taken (R87, R93). -/
def Section.totalWeight (x : Section) : Int := sumInt (x.sharers.map fun j => (x.member j).weight)

/-- Share target and share error of a member taken (R87). -/
def Member.share (m : Member) (total weights : Int) : Member :=
  { m with
    shareTarget := divHalfAway (total * m.weight) weights
    shareError := divHalfAway (total * m.weight) weights - m.converted }

/-- Stage 3: share targets and errors at a full completion (R86, R87). -/
def Section.formShares (x : Section) : Section :=
  if x.full then
    x.mapMembers fun j m => if x.sharers.contains j then m.share x.totalTorque x.totalWeight else m
  else x

/-- The conditions of a trim update (R88). -/
def Section.updatesTrims (x : Section) : Bool :=
  x.runState == .running && decide (x.cfg.shareEnable ≤ x.applied) && x.full

/-- The trim before its clamp, for an error outside the deadband (R89). -/
def Member.trimSum (m : Member) (ki : Int) : Int := m.trim + divHalfAway (m.shareError * ki) 100000

/-- The error lies outside the deadband (R89). -/
def Member.outsideBand (m : Member) (deadband : Int) : Bool := decide (deadband < magnitude m.shareError)

/-- The trim update of one follower (R89). -/
def Member.updateTrim (m : Member) (c : Settings) : Member :=
  if m.outsideBand c.deadband then { m with trim := clampInt (-c.trimLimit) c.trimLimit (m.trimSum c.ki) } else m

/-- The clamp acts on a follower's update (R89). -/
def Member.trimClamps (m : Member) (c : Settings) : Bool :=
  m.outsideBand c.deadband && clampActs (-c.trimLimit) c.trimLimit (m.trimSum c.ki)

/-- Stage 4: the trim update with TRIM LIMIT (R88, R89). -/
def Section.updateTrims (x : Section) : Section :=
  if x.updatesTrims then
    { x.mapMembers (fun j m => if x.followers.contains j then m.updateTrim x.cfg else m) with
      flags := { x.flags with trimLimit := x.followers.any fun j => (x.member j).trimClamps x.cfg } }
  else x

/-- The four stages at a window completion (R84 to R89). -/
def Section.loadShare (x : Section) : Section := x.convertTorques.formLoad.formShares.updateTrims

/-! ## Zeroing and the trim limit write (R92, R95) -/

/-- A member that became LOST: trim, share target and share error 0 (R92). -/
def Member.zeroShare (m : Member) : Member := { m with trim := 0, shareTarget := 0, shareError := 0 }

/-- A trim brought to a limit with its own sign (R95). -/
def limitTrim (limit t : Int) : Int := clampInt (-limit) limit t

/-- A write of the trim limit: the followers' trims clamped at the write, TRIM LIMIT set if one changed (R95). -/
def Section.writeTrimLimit (x : Section) (limit : Int) : Section :=
  let acts := allSlots.any fun j => j != 0 && decide (limit < magnitude (x.member j).trim)
  { x.mapMembers (fun j m => if j = 0 then m else { m with trim := limitTrim limit m.trim }) with
    cfg := { x.cfg with trimLimit := limit }
    flags := { x.flags with trimLimit := x.flags.trimLimit || acts } }

/-! ## Member orders (R97 to R99) -/

/-- The speed reference of a member (R97). -/
def Section.reference (x : Section) (j : Fin 4) : Int :=
  if (x.member j).state = .lost then 0
  else if j = 0 then x.applied
  else clampInt 0 x.cfg.maxSpeed (x.applied + (x.member j).trim)

/-- The members not LOST are sent RUN (R98). -/
def Section.sendsRun (x : Section) : Bool :=
  x.runState == .running || (x.runState == .stopping && decide (0 < x.applied))

/-- The command of a member is RUN (R98). -/
def Section.commandsRun (x : Section) (j : Fin 4) : Bool := x.sendsRun && (x.member j).state != .lost

/-- The control character of an entry: slot, RUN 10h, fault-reset 20h (R180). -/
def Section.controlChar (x : Section) (j : Fin 4) : Byte :=
  BitVec.ofNat 8 (j.val + (if x.commandsRun j then 0x10 else 0) + (if (x.member j).faultReset then 0x20 else 0))

/-- The MEMBER ORDER of a section (R32, R97 to R99). -/
def Section.memberOrder (x : Section) (number : Byte) : TxFrame :=
  { address := x.cfg.memberBase, kind := kindMemberOrder, tie := .plain,
    payload := number :: BitVec.ofNat 8 x.cfg.memberCount ::
      x.slots.flatMap fun j => x.controlChar j :: chars24 (BitVec.ofInt 24 (x.reference j)) }

/-- The fault-reset requests sent are cleared at the start (R61, R99). -/
def Section.clearFaultResets (x : Section) : Section :=
  x.mapMembers fun j m => if j.val < x.cfg.memberCount then { m with faultReset := false } else m

end Sys2Proof.Machine
end

