-- ==== Sys2Proof/Machine/Sections.lean ====
section
/-! DEFINITION. The section table and the member monitor: orders, line commands, loss, order age, slot results, trips,
release, making present and withdrawing (spec 03). -/

namespace Sys2Proof.Machine

open Sys2Proof

/-! ## Report images (R24) -/

/-- The report image of a section from its state as it stands (R24). -/
def State.takeImage (s : State) (i : Fin 16) : Image :=
  let x := s.sec i
  { runState := x.runState, source := x.source, flags := x.flags, cause := x.cause, causeSlot := x.causeSlot,
    applied := x.applied, leadSpeed := (x.member 0).speed, load := x.load, runner := s.claimant i }

/-- Put a section's report image in its place. -/
def State.setImage (s : State) (i : Fin 16) (g : Option Image) : State :=
  s.modCyc fun c => { c with images := c.images.set i g }

/-! ## Section orders (R49, R50, R64) -/

/-- Order age and M at the arrival of a SECTION ORDER (R49, R64). -/
def Section.takeOrder (x : Section) (m : Int) : Section := { x with orderAge := 0, master := clampInt 0 250000 m }

/-- A STOP order by run state (R49). -/
def Section.orderStop (x : Section) : Section :=
  match x.runState with
  | .stopped => { x with stopSeen := true }
  | .running => { x with runState := .stopping, cause := .request, causeSlot := none, stopSeen := true }
  | .stopping => if x.cause = .request then { x with stopSeen := true } else x
  | .tripped => x

/-- The first start condition that fails, and the slot it names (R50). -/
def Section.startRefusal (x : Section) (command : LineCommand) (testing : Bool) :
    Option (RefusedCause × Option (Fin 4)) :=
  if command ≠ .run then some (.lineNotRun, none)
  else if !x.stopSeen then some (.noStopSeen, none)
  else
    match x.slots.find? fun j => (x.member j).state != .active with
    | some j => some (.memberNotActive, some j)
    | none =>
      match x.slots.find? fun j => !((x.member j).status.ready && !(x.member j).status.fault) with
      | some j => some (.memberNotReady, some j)
      | none => if testing then some (.linkTest, none) else none

/-- A RUN order by run state (R50); a start disarms the release check (R62). -/
def Section.orderRun (x : Section) (command : LineCommand) (testing : Bool) : Section :=
  match x.runState with
  | .running => x
  | .tripped => x
  | .stopped =>
    match x.startRefusal command testing with
    | some (c, j) => { x with refused := c, refusedSlot := j }
    | none =>
      { x with runState := .running, cause := .none, causeSlot := none, refused := .none, refusedSlot := none,
               release := .off }
  | .stopping =>
    if x.cause = .request then
      { x with runState := .running, cause := .none, causeSlot := none, refused := .none, refusedSlot := none }
    else { x with refused := .noStopSeen, refusedSlot := none }

/-- A SECTION ORDER with STOP for a section: the claiming runner aborts when it leaves RUNNING (R49, R133). -/
def State.sectionStop (s : State) (i : Fin 16) (m : Int) : State :=
  let t := s.modSec i fun x => (x.takeOrder m).orderStop
  if (s.sec i).runState = .running then t.abortClaimant i .sectionLeftRunning else t

/-- A SECTION ORDER with RUN for a section (R50). -/
def State.sectionRun (s : State) (i : Fin 16) (m : Int) : State :=
  s.modSec i fun x => (x.takeOrder m).orderRun s.cyc.lineCommand s.link.running

/-! ## Line commands, loss and order age (R51 to R53) -/

/-- A stop taken by a section: STOPPING with a cause, stop-seen cleared. -/
def Section.stopWith (x : Section) (cause : StopCause) : Section :=
  { x with runState := .stopping, cause := cause, causeSlot := none, stopSeen := false }

/-- What a line STOP does to a section (R51). -/
def Section.lineStop (x : Section) : Section :=
  match x.runState with
  | .running => x.stopWith .lineStop
  | .stopping => if x.cause = .request ∨ x.cause = .orderLost then x.stopWith .lineStop else x
  | .stopped => x
  | .tripped => x

/-- What a line QUICK STOP does to a section (R51); a section under LINE STOP keeps its stop-seen as it is. -/
def Section.lineQuickStop (x : Section) : Section :=
  match x.runState with
  | .running => x.stopWith .quickStop
  | .stopping =>
    if x.cause = .request ∨ x.cause = .orderLost then x.stopWith .quickStop
    else if x.cause = .lineStop then { x with cause := .quickStop }
    else x
  | .stopped => x
  | .tripped => x

/-- The line command acting on one section (R51). -/
def Section.lineCommand (x : Section) : LineCommand → Section
  | .run => x
  | .stop => x.lineStop
  | .quickStop => x.lineQuickStop

/-- Change every present section. -/
def State.mapPresent (s : State) (f : Section → Section) : State := s.mapSecs fun x => if x.present then f x else x

/-- The present sections that are RUNNING. -/
def State.runningSecs (s : State) : List (Fin 16) := s.presentSecs.filter fun i => (s.sec i).runState == .running

/-- The sections of a list that are no longer RUNNING. -/
def State.leftRunning (s : State) (was : List (Fin 16)) : List (Fin 16) :=
  was.filter fun i => (s.sec i).runState != .running

/-- A LINE CYCLE's command acts on every present section; the runners of sections that leave RUNNING abort (R51,
R133). -/
def State.applyLineCommand (s : State) (c : LineCommand) : State :=
  let t := s.mapPresent fun x => x.lineCommand c
  t.abortAll (t.claimants (t.leftRunning s.runningSecs)) .sectionLeftRunning

/-- What the upstream loss does to a section (R52). -/
def Section.upstreamLoss (x : Section) : Section :=
  match x.runState with
  | .running => x.stopWith .upstreamLoss
  | .stopping =>
    if x.cause = .quickStop ∨ x.cause = .upstreamLoss then { x with stopSeen := false }
    else { x with cause := .upstreamLoss, stopSeen := false }
  | .stopped => { x with stopSeen := false }
  | .tripped => { x with stopSeen := false }

/-- Order age and ORDER LOST at a cycle start (R53). -/
def Section.ageOrder (x : Section) : Section :=
  let y := { x with orderAge := if x.orderAge < 255 then x.orderAge + 1 else 255 }
  if y.cfg.orderHold ≤ y.orderAge then
    match y.runState with
    | .running => y.stopWith .orderLost
    | .stopping => if y.cause = .request then { y with cause := .orderLost, stopSeen := false } else y
    | .stopped => y
    | .tripped => y
  else y

/-- Every window result NONE (R55). -/
def Section.clearResults (x : Section) : Section := x.mapMembers fun _ m => { m with result := .none }

/-- An armed release check falls due: the next window completion is the first of a cycle started after the command
(R62). -/
def Section.releaseFallsDue (x : Section) : Section :=
  match x.release with
  | .armed => { x with release := .due }
  | .off => x
  | .due => x

/-- A section at a cycle start, before the computation: window results, release check, order age (R53, R55, R62). -/
def Section.beginCycle (x : Section) : Section := x.clearResults.releaseFallsDue.ageOrder

/-- The section table at a cycle start: every present section, then the runners of sections that left RUNNING abort
(R53, R133). -/
def State.announceStart (s : State) : State :=
  let t := s.mapPresent Section.beginCycle
  t.abortAll (t.claimants (t.leftRunning s.runningSecs)) .sectionLeftRunning

/-! ## Slot results and member states (R55, R56) -/

/-- A valid report taken by a member (R55). -/
def Member.takeReport (m : Member) (r : MemberRep) : Member :=
  { m with result := .valid, speed := clampInt (-250000) 250000 r.speed.toInt,
           torque := clampInt (-3000) 3000 r.torque.toInt, status := MemberStatus.ofChar r.status }

/-- A miss (R55). -/
def Member.takeMiss (m : Member) : Member := { m with result := .miss }

/-- The state and miss count of a member at the window completion (R56, R57). -/
def Member.completed (m : Member) (missLimit : Nat) (run : RunState) : Member :=
  match m.result, m.state with
  | .none, _ => m
  | .valid, .lost =>
    if run = .stopped ∨ run = .tripped then { m with state := .active, missCount := 0 } else m
  | .valid, _ => { m with state := .active, missCount := 0 }
  | .miss, .absent => m
  | .miss, .lost => m
  | .miss, _ =>
    if missLimit ≤ m.missCount + 1 then { m with state := .lost, missCount := m.missCount + 1 }.zeroShare
    else { m with state := .missing, missCount := m.missCount + 1 }

/-- The member updates of a completion, with the zeroing of R92 (R56). -/
def Section.completeMembers (x : Section) : Section :=
  x.mapMembers fun j m => if j.val < x.cfg.memberCount then m.completed x.cfg.missLimit x.runState else m

/-- The members that became LOST between two views of a section. -/
def Section.newlyLost (x y : Section) : List (Fin 4) :=
  x.slots.filter fun j => (x.member j).state != .lost && (y.member j).state == .lost

/-! ## Trips and degradation (R58 to R62) -/

/-- Some member with a VALID result, not LOST, shows FAULT: the lowest such slot (R58, R62). -/
def Section.faultSlot (x : Section) : Option (Fin 4) :=
  x.sharers.find? fun j => (x.member j).result == .valid && (x.member j).status.fault

/-- The trip a moving section takes at its completion (R58). -/
def Section.tripCause (x : Section) (lost : List (Fin 4)) : Option (StopCause × Option (Fin 4)) :=
  if lost.contains 0 then some (.leadLost, none)
  else
    match x.faultSlot with
    | some j => some (.memberFault, some j)
    | none =>
      match lost with
      | j :: _ => if x.cfg.degradeAllowed then none else some (.memberLost, some j)
      | [] => none

/-- Entry to TRIPPED: the section's own part (R59, R91). -/
def Section.trip (x : Section) (cause : StopCause) (slot : Option (Fin 4)) : Section :=
  { x.zeroTrims with
    runState := .tripped, cause := cause, causeSlot := slot, applied := 0, stopSeen := false
    flags := { x.zeroTrims.flags with ramping := false, saturated := false } }

/-- Entry to TRIPPED with the notice (R59, R62). -/
def State.enterTripped (s : State) (i : Fin 16) (cause : StopCause) (slot : Option (Fin 4)) : State :=
  (s.modSec i fun x => x.trip cause slot).modNotices Notices.setSectionTrip

/-- DEGRADED set when a follower became LOST and no trip was taken (R58, R60). -/
def Section.degrade (x : Section) (lost : List (Fin 4)) : Section :=
  if lost.isEmpty then x else { x with flags := { x.flags with degraded := true } }

/-- The member monitor's judgement of a moving section (R58 to R60). -/
def State.judgeMoving (s : State) (i : Fin 16) (lost : List (Fin 4)) : State :=
  match (s.sec i).tripCause lost with
  | some (c, j) => (s.enterTripped i c j).abortClaimant i .sectionLeftRunning
  | none => s.modSec i fun x => x.degrade lost

/-- The release check disarmed. -/
def Section.disarm (x : Section) : Section := { x with release := .off }

/-- The release check, when it is due: a remaining fault trips the section again; either way it is disarmed (R62). -/
def State.releaseCheck (s : State) (i : Fin 16) : State :=
  let x := s.sec i
  if x.release = .due then
    let t := s.modSec i Section.disarm
    match x.faultSlot with
    | some j => if x.runState = .stopped then t.enterTripped i .memberFault (some j) else t
    | none => t
  else s

/-- The member monitor at a window completion (R56 to R62). -/
def State.monitorCompletion (s : State) (i : Fin 16) : State :=
  let x := s.sec i
  let t := s.modSec i Section.completeMembers
  if x.moving then t.judgeMoving i (x.newlyLost (t.sec i)) else t.releaseCheck i

/-- RELEASE TRIP carried out (R61). -/
def Section.releaseTrip (x : Section) : Section :=
  { x.mapMembers (fun j m =>
      if j.val < x.cfg.memberCount ∧ m.status.fault = true then { m with faultReset := true } else m) with
    runState := .stopped, flags := { x.flags with degraded := false }, release := .armed }

/-! ## Making present and withdrawing (R44 to R48) -/

/-- FFh: no index named. -/
abbrev noIndex : Byte := 0xFF

/-- An index as the offending index of a reply. -/
def indexByte {n : Nat} (i : Fin n) : Byte := BitVec.ofNat 8 i.val

/-- The windows of two entries share an address (R44, check 3). -/
def Settings.overlaps (a b : Settings) : Bool :=
  decide (a.memberBase.toNat < b.memberBase.toNat + b.window) && decide (b.memberBase.toNat < a.memberBase.toNat + a.window)

/-- The member counts of the present sections together (R44, check 6). -/
def State.membersPresent (s : State) : Nat := (s.presentSecs.map fun i => (s.sec i).cfg.memberCount).sum

/-- The present checks in order: the code and offending index of the first that fails (R44). -/
def State.presentRefusal (s : State) (i : Fin 16) : Option (ResultCode × Byte) :=
  let x := s.sec i
  let c := x.cfg
  let others := s.presentSecs.filter fun k => k != i
  if c.upAddr = 0 then some (.range, noIndex)
  else match others.find? fun k => (s.sec k).cfg.upAddr == c.upAddr with
  | some k => some (.conflict, indexByte k)
  | none =>
  if c.upAddr = s.part.mgmtAddr ∨ s.mgmt.pendingMove = some c.upAddr then some (.conflict, noIndex)
  else if c.memberBase = 0 ∨ c.memberBase.toNat % c.window ≠ 0 then some (.range, noIndex)
  else match others.find? fun k => (s.sec k).cfg.overlaps c with
  | some k => some (.conflict, indexByte k)
  | none =>
  if c.maxSpeed ≤ 0 then some (.range, noIndex)
  else match c.drawBase.filter fun b => !others.contains b with
  | some b => some (.absent, indexByte b)
  | none =>
  if 32 < s.membersPresent + c.memberCount then some (.limit, noIndex)
  else match x.slots.find? fun j => decide ((x.member j).rating < 100) with
  | some j => some (.range, indexByte j)
  | none => none

/-- The values an entry takes when it is made present (R46), at a depth. -/
def Section.madePresent (x : Section) (depth : Nat) : Section :=
  { x.mapMembers (fun _ m =>
      { m with state := .absent, missCount := 0, result := .none, faultReset := false, speed := 0, torque := 0,
               converted := 0, shareTarget := 0, shareError := 0, trim := 0, status := MemberStatus.clear }) with
    present := true, runState := .stopped, cause := .none, causeSlot := none, refused := .none, refusedSlot := none,
    stopSeen := false, orderAge := 0, source := x.cfg.initSource, draw := x.cfg.initDraw, observed := 1000000,
    master := 0, target := 0, applied := 0, flags := SectionFlags.clear, load := 0, release := .off,
    depth := some depth }

/-- The depth an entry takes: 1 for LINE, else one more than its draw base (R47). -/
def State.depthFor (s : State) (i : Fin 16) : Nat :=
  match (s.sec i).cfg.drawBase with
  | none => 1
  | some b => (s.sec b).depth.getD 0 + 1

/-- Whether section `k` of the list stands before a new section by depth, then index (R47). -/
def State.standsBefore (s : State) (k i : Fin 16) (depth : Nat) : Bool :=
  let e := (s.sec k).depth.getD 0
  decide (e < depth) || (e == depth && decide (k < i))

/-- Insert an entry in the chain order list, the others keeping their order (R47). -/
def State.insertChain (s : State) (i : Fin 16) (depth : Nat) : List (Fin 16) :=
  (s.chain.takeWhile fun k => s.standsBefore k i depth) ++ i :: (s.chain.dropWhile fun k => s.standsBefore k i depth)

/-- Make an entry present: values, chain order list, report image (R46, R47, R24). -/
def State.makePresent (s : State) (i : Fin 16) : State :=
  let t := (s.modSec i fun x => x.madePresent (s.depthFor i)).setChain (s.insertChain i (s.depthFor i))
  t.setImage i (some (t.takeImage i))

/-- The refusals of a withdrawal, in order (R48). -/
def State.withdrawRefusal (s : State) (i : Fin 16) : Option (ResultCode × Byte) :=
  match s.claimant i with
  | some r => some (.claimed, indexByte r)
  | none =>
    if (s.sec i).runState ≠ .stopped then some (.state, noIndex)
    else
      match s.presentSecs.find? fun k => (s.sec k).cfg.drawBase == some i with
      | some k => some (.dependent, indexByte k)
      | none => none

/-- A cycle in flight drops the results of a section withdrawn (R35, R38). -/
def Cycle.dropSection (c : Cycle) (i : Fin 16) : Cycle := { c with dropped := i :: c.dropped }

/-- The entry withdrawn: every other field keeps its value (R48, R62). -/
def Section.withdrawn (x : Section) : Section := { x with present := false, depth := none, release := .off }

/-- Withdraw an entry: chain order list, report image, cycle in flight (R35, R47, R48). -/
def State.withdraw (s : State) (i : Fin 16) : State :=
  (((s.modSec i Section.withdrawn).setChain (s.chain.filter fun k => k != i)).setImage i none).modCyc fun c =>
    { c with inFlight := c.inFlight.map fun y => y.dropSection i }

end Sys2Proof.Machine
end

