-- ==== Sys2Proof/Machine/Tables.lean ====
section
/-! DEFINITION. The five tables reached by the cursor: field reads, field writes with their owners' checks, the cursor
(R42, R43, R102 to R107, R160 to R166, R170). -/

namespace Sys2Proof.Machine

open Sys2Proof

/-! ## Reading (R162, R165, R166) -/

/-- A SECTIONS field (R165). -/
def State.sectionField (s : State) (i : Fin 16) (f : Nat) : Int :=
  let x := s.sec i
  let c := x.cfg
  match f with
  | 0 => boolCode x.present
  | 1 => c.upAddr.toNat
  | 2 => c.memberBase.toNat
  | 3 => c.memberCount
  | 4 => indexCode c.drawBase
  | 5 => c.initDraw
  | 6 => c.initSource.code
  | 7 => c.maxSpeed
  | 8 => c.accel
  | 9 => c.stopRamp
  | 10 => c.quickRamp
  | 11 => c.orderHold
  | 12 => c.missLimit
  | 13 => boolCode c.degradeAllowed
  | 14 => c.guard.code
  | 15 => c.ki
  | 16 => c.deadband
  | 17 => c.trimLimit
  | 18 => c.shareEnable
  | 19 => x.runState.code
  | 20 => x.source.code
  | 21 => boolCode x.stopSeen
  | 22 => x.cause.code
  | 23 => indexCode x.causeSlot
  | 24 => x.refused.code
  | 25 => indexCode x.refusedSlot
  | 26 => x.orderAge
  | 27 => match x.depth with
    | none => -1
    | some d => d
  | 28 => x.draw
  | 29 => x.ratio
  | 30 => x.observed
  | 31 => x.master
  | 32 => x.target
  | 33 => x.applied
  | 34 => boolCode x.flags.ramping
  | 35 => boolCode x.flags.saturated
  | 36 => boolCode x.flags.ratioLimit
  | 37 => boolCode x.flags.trimLimit
  | 38 => boolCode x.flags.degraded
  | 39 => x.load
  | 40 => indexCode (s.claimant i)
  | _ => 0

/-- A MEMBERS field (R165). -/
def Member.field (m : Member) : Nat → Int
  | 0 => m.rating
  | 1 => m.weight
  | 2 => m.state.code
  | 3 => m.missCount
  | 4 => m.result.code
  | 5 => m.speed
  | 6 => m.torque
  | 7 => m.status.code
  | 8 => boolCode m.faultReset
  | 9 => m.converted
  | 10 => m.shareTarget
  | 11 => m.shareError
  | 12 => m.trim
  | _ => 0

/-- A field of a condition, counted from its present field (R102). -/
def Condition.field (c : Condition) : Nat → Int
  | 0 => boolCode c.present
  | 1 => c.quantity.code
  | 2 => c.relation.code
  | 3 => c.limit
  | 4 => c.band
  | 5 => c.settle
  | _ => 0

/-- A STEPS field (R102). -/
def StepRecord.field (r : StepRecord) (f : Nat) : Int :=
  match f with
  | 0 => boolCode r.present
  | 1 => r.action.code
  | 2 => r.v
  | 3 => r.v2
  | 4 => r.d
  | 5 => r.d2
  | 6 => r.repeats
  | 7 => r.memberSlot.val
  | 8 => r.drawMode.code
  | 9 => r.onTimeout.code
  | 10 => boolCode r.captureAtEnd
  | 11 => indexCode r.nextStep
  | _ => if f < 18 then r.advance.field (f - 12) else r.abort.field (f - 18)

/-- A RUNNERS field (R119). -/
def Runner.field (u : Runner) : Nat → Int
  | 0 => u.state.code
  | 1 => indexCode u.claimed
  | 2 => indexCode u.step
  | 3 => u.elapsed
  | 4 => u.advanceCount
  | 5 => u.abortCount
  | 6 => u.phase.code
  | 7 => u.phaseCount
  | 8 => u.repeatsLeft
  | 9 => u.rampStart
  | 10 => u.offset
  | 11 => match u.pendingRecord with
    | none => -1
    | some c => c.kind.code
  | 12 => u.flags.code
  | 13 => u.outcome.code
  | 14 => u.abortCause.code
  | 15 => u.stepsRun
  | _ => 0

/-- A PART field (R165, R170). -/
def State.partField (s : State) (f : Nat) : Int :=
  match f with
  | 0 => s.part.config.toNat
  | 1 => s.part.mgmtAddr.toNat
  | 2 => s.mgmt.access.code
  | 3 => s.cyc.upState.code
  | 4 => s.cyc.lastUpCycle.toNat
  | 5 => s.cyc.cycleCount.toNat
  | 6 => s.part.lossLimit
  | 7 => boolCode s.part.notices.upstreamLoss
  | 8 => boolCode s.part.notices.storeInvalid
  | 9 => boolCode s.part.notices.overrun
  | 10 => boolCode s.part.notices.lineClamped
  | 11 => boolCode s.part.notices.sectionTrip
  | 12 => boolCode s.part.notices.testEnded
  | 13 => s.up.lastError.code
  | 14 => s.dn.lastError.code
  | 15 => s.log.records.length
  | 16 => s.freePlaces
  | 17 => (s.runner 0).state.code
  | 18 => (s.runner 1).state.code
  | 19 => (s.runner 2).state.code
  | 20 => (s.runner 3).state.code
  | 21 => s.store.state.code
  | 22 => s.store.lastSave.code
  | 23 => boolCode s.link.running
  | 24 => s.link.result.code
  | 25 => s.link.result.badCode
  | 26 => s.link.result.firstCode
  | _ => 0

/-- The section and slot of a MEMBERS entry: section × 4 + slot (R41). -/
def memberIndex (e : Nat) : Fin 16 × Fin 4 := (Fin.ofNat 16 (e / 4), Fin.ofNat 4 (e % 4))

/-- A field of a table (R165). -/
def State.readField (s : State) (t : Table) (e f : Nat) : Int :=
  match t with
  | .sections => s.sectionField (Fin.ofNat 16 e) f
  | .members => ((s.sec (memberIndex e).1).member (memberIndex e).2).field f
  | .steps => (s.stepRec (Fin.ofNat 96 e)).field f
  | .runners => (s.runner (Fin.ofNat 4 e)).field f
  | .part => s.partField f

/-! ## Writing (R43, R104 to R106, R163) -/

/-- A refused value: the code and the offending index. -/
abbrev Refused := ResultCode × Byte

/-- A field number as offending index. -/
def fieldByte (f : Nat) : Byte := BitVec.ofNat 8 f

/-- A SECTIONS setting written within its range; `none` is outside (R40). -/
def Settings.writeField (c : Settings) (f : Nat) (v : Int) : Option Settings :=
  match f with
  | 1 => (ranged 0 63 v).map fun x => { c with upAddr := toByte x }
  | 2 => (ranged 0 63 v).map fun x => { c with memberBase := toByte x }
  | 3 => (ranged 1 4 v).map fun x => { c with memberCount := x.toNat }
  | 4 => (indexOf 16 v).map fun x => { c with drawBase := x }
  | 5 => (ranged (-500) 500 v).map fun x => { c with initDraw := x }
  | 6 => (Source.ofCode v).map fun x => { c with initSource := x }
  | 7 => (ranged 0 250000 v).map fun x => { c with maxSpeed := x }
  | 8 => (ranged 1 5000 v).map fun x => { c with accel := x }
  | 9 => (ranged 1 5000 v).map fun x => { c with stopRamp := x }
  | 10 => (ranged 1 5000 v).map fun x => { c with quickRamp := x }
  | 11 => (ranged 2 50 v).map fun x => { c with orderHold := x.toNat }
  | 12 => (ranged 1 15 v).map fun x => { c with missLimit := x.toNat }
  | 13 => (boolOf v).map fun x => { c with degradeAllowed := x }
  | 14 => (GuardLevel.ofCode v).map fun x => { c with guard := x }
  | 15 => (ranged 0 1000 v).map fun x => { c with ki := x }
  | 16 => (ranged 0 10000 v).map fun x => { c with deadband := x }
  | 17 => (ranged 0 1000 v).map fun x => { c with trimLimit := x }
  | 18 => (ranged 0 250000 v).map fun x => { c with shareEnable := x }
  | _ => none

/-- A setting accepted, with the effect its owner gives the write: the trim limit clamps trims (R42, R95). -/
def Section.takeSetting (x : Section) (f : Nat) (c : Settings) : Section :=
  if f = 17 then x.writeTrimLimit c.trimLimit else { x with cfg := c }

/-- A write of the present field (R44, R45, R48). -/
def State.writePresent (s : State) (i : Fin 16) (v : Int) : Except Refused State :=
  match boolOf v with
  | none => .error (.range, fieldByte 0)
  | some true =>
    if (s.sec i).present then .ok s
    else
      match s.presentRefusal i with
      | some r => .error r
      | none => .ok (s.makePresent i)
  | some false =>
    if (s.sec i).present then
      match s.withdrawRefusal i with
      | some r => .error r
      | none => .ok (s.withdraw i)
    else .ok s

/-- A structural field: 1..7 (R165). -/
def structuralField (f : Nat) : Bool := decide (1 ≤ f) && decide (f ≤ 7)

/-- The level a SECTIONS write needs (R159). -/
def State.sectionFieldLevel (s : State) (i : Fin 16) (f : Nat) : AccessLevel :=
  if f ≤ 7 ∨ f = 14 then .engineer else (s.sec i).cfg.guard.access

/-- A value written to a SECTIONS field, in the order of checks of R163. -/
def State.writeSection (s : State) (i : Fin 16) (f : Nat) (v : Int) : Except Refused State :=
  if 18 < f then .error (.readOnly, fieldByte f)
  else if !s.hasLevel (s.sectionFieldLevel i f) then .error (.level, fieldByte f)
  else if structuralField f && (s.sec i).present then .error (.state, fieldByte f)
  else if f = 0 then s.writePresent i v
  else
    match (s.sec i).cfg.writeField f v with
    | none => .error (.range, fieldByte f)
    | some c => .ok (s.modSec i fun x => x.takeSetting f c)

/-- A rating within its range, or 0 for unset (R41, R43). -/
def ratingOf (v : Int) : Option Int := if v = 0 then some 0 else ranged 100 60000 v

/-- A value written to a MEMBERS field, in the order of checks of R163. -/
def State.writeMember (s : State) (i : Fin 16) (j : Fin 4) (f : Nat) (v : Int) : Except Refused State :=
  if 1 < f then .error (.readOnly, fieldByte f)
  else if f = 0 then
    if !s.hasLevel .engineer then .error (.level, fieldByte f)
    else if (s.sec i).present then .error (.state, fieldByte f)
    else
      match ratingOf v with
      | none => .error (.range, fieldByte f)
      | some w => .ok (s.modSec i fun x => x.setMember j { x.member j with rating := w })
  else if !s.hasLevel (s.sec i).cfg.guard.access then .error (.level, fieldByte f)
  else
    match ranged 1 100 v with
    | none => .error (.range, fieldByte f)
    | some w => .ok (s.modSec i fun x => x.setWeight j w)

/-- The range of V under an action (R105). -/
def Action.acceptsV (a : Action) (v : Int) : Bool :=
  match a with
  | .draw => inRange (-500) 500 v
  | .weight => inRange 1 100 v
  | _ => inRange (-50000) 50000 v

/-- The actions that carry no advance condition (R102, R106). -/
def Action.noAdvance (a : Action) : Bool := a == .ramp || a == .square

/-- The relation matches the kind of the quantity (R103). -/
def kindsMatch (q : Quantity) (r : Relation) : Bool := q.isFlag == r.isFlag

/-- A field of a condition written; `base` is the number of its present field; an error names the offending field
(R102, R105, R106). -/
def Condition.writeField (c : Condition) (base f : Nat) (v : Int) : Except Byte Condition :=
  let bad := fieldByte (base + f)
  match f with
  | 0 =>
    match boolOf v with
    | none => .error bad
    | some b =>
      if b && !kindsMatch c.quantity c.relation then .error (fieldByte (base + 2)) else .ok { c with present := b }
  | 1 =>
    match Quantity.ofCode v with
    | none => .error bad
    | some q => if c.present && !kindsMatch q c.relation then .error bad else .ok { c with quantity := q }
  | 2 =>
    match Relation.ofCode v with
    | none => .error bad
    | some r => if c.present && !kindsMatch c.quantity r then .error bad else .ok { c with relation := r }
  | 3 => if inRange (-1000000) 1000000 v then .ok { c with limit := v } else .error bad
  | 4 => if inRange 0 50000 v then .ok { c with band := v } else .error bad
  | 5 => if inRange 1 255 v then .ok { c with settle := v.toNat } else .error bad
  | _ => .error bad

/-- A parsed field value stored, or RANGE naming the field. -/
def storedOr {α β : Type} (f : Nat) (x : Option α) (put : α → β) : Except Byte β :=
  match x with
  | none => .error (fieldByte f)
  | some a => .ok (put a)

/-- A field of a step record written; an error names the offending field (R105, R106, log 17). A write of advance present
YES that two rows of R106 refuse, the action's and the relation's, names field 12: the table gives its rows no order, and
the model takes them as they stand (DESIGN CHOICE, log 29). -/
def StepRecord.writeField (r : StepRecord) (f : Nat) (v : Int) : Except Byte StepRecord :=
  match f with
  | 0 => storedOr f (boolOf v) fun b => { r with present := b }
  | 1 =>
    match Action.ofCode v with
    | none => .error (fieldByte 1)
    | some a =>
      if !a.acceptsV r.v then .error (fieldByte 2)
      else if a.noAdvance && r.advance.present then .error (fieldByte 12)
      else .ok { r with action := a }
  | 2 => if r.action.acceptsV v then .ok { r with v := v } else .error (fieldByte 2)
  | 3 => storedOr f (ranged (-50000) 50000 v) fun x => { r with v2 := x }
  | 4 => storedOr f (ranged 1 65535 v) fun x => { r with d := x.toNat }
  | 5 => storedOr f (ranged 1 65535 v) fun x => { r with d2 := x.toNat }
  | 6 => storedOr f (ranged 1 255 v) fun x => { r with repeats := x.toNat }
  | 7 => storedOr f (toIndex 4 v) fun x => { r with memberSlot := x }
  | 8 => storedOr f (DrawMode.ofCode v) fun x => { r with drawMode := x }
  | 9 => storedOr f (OnTimeout.ofCode v) fun x => { r with onTimeout := x }
  | 10 => storedOr f (boolOf v) fun x => { r with captureAtEnd := x }
  | 11 => storedOr f (indexOf 96 v) fun x => { r with nextStep := x }
  | _ =>
    if f < 18 then
      if f = 12 ∧ v = 1 ∧ r.action.noAdvance = true then .error (fieldByte 12)
      else (r.advance.writeField 12 (f - 12) v).map fun c => { r with advance := c }
    else (r.abort.writeField 18 (f - 18) v).map fun c => { r with abort := c }

/-- The lowest-numbered runner not IDLE whose current step this record is (R104). -/
def State.stepUser (s : State) (k : Fin 96) : Option (Fin 4) := s.busyRunners.find? fun r => (s.runner r).step == some k

/-- A value written to a STEPS field (R104 to R106, R159). -/
def State.writeStep (s : State) (k : Fin 96) (f : Nat) (v : Int) : Except Refused State :=
  if 23 < f then .error (.readOnly, fieldByte f)
  else if !s.hasLevel .operate then .error (.level, fieldByte f)
  else
    match s.stepUser k with
    | some r => .error (.inUse, indexByte r)
    | none =>
      match (s.stepRec k).writeField f v with
      | .error b => .error (.range, b)
      | .ok r => .ok (s.setStep k r)

/-- A value written to a PART field: the loss limit alone (R27, R164, R170). -/
def State.writePart (s : State) (f : Nat) (v : Int) : Except Refused State :=
  if f ≠ 6 then .error (.readOnly, fieldByte f)
  else if !s.hasLevel .engineer then .error (.level, fieldByte f)
  else
    match ranged 2 20 v with
    | none => .error (.range, fieldByte f)
    | some x => .ok (s.modPart fun p => { p with lossLimit := x.toNat })

/-- A value written to a field of a table (R163, R164). -/
def State.writeField (s : State) (t : Table) (e f : Nat) (v : Int) : Except Refused State :=
  match t with
  | .sections => s.writeSection (Fin.ofNat 16 e) f v
  | .members => s.writeMember (memberIndex e).1 (memberIndex e).2 f v
  | .steps => s.writeStep (Fin.ofNat 96 e) f v
  | .runners => .error (.readOnly, fieldByte f)
  | .part => s.writePart f v

/-! ## The cursor (R160, R161, R164) -/

/-- Entries of a table (R164). -/
def Table.entries : Table → Nat
  | .sections => 16
  | .members => 64
  | .steps => 96
  | .runners => 4
  | .part => 1

/-- Fields of a table's entries (R164). -/
def Table.fields : Table → Nat
  | .sections => 41
  | .members => 13
  | .steps => 24
  | .runners => 16
  | .part => 27

/-- The cursor moves after a value read or applied (R161). -/
def Cursor.move (c : Cursor) : Cursor :=
  match c.mode with
  | .fixed => c
  | _ =>
    if c.field + 1 < c.table.fields then { c with field := c.field + 1 }
    else if c.entry + 1 < c.table.entries then { c with entry := c.entry + 1, field := 0 }
    else { c with entry := 0, field := 0 }

/-- The cursor after a READ or WRITE: a SINGLE cursor is spent (R161). -/
def Cursor.used (c : Cursor) : Cursor :=
  match c.mode with
  | .single => { c with spent := true }
  | _ => c

/-- The values of a READ and where the cursor ends (R162). -/
def State.readValues (s : State) : Nat → Cursor → List Value × Cursor
  | 0, c => ([], c)
  | n + 1, c =>
    let rest := s.readValues n c.move
    (toValue (s.readField c.table c.entry c.field) :: rest.1, rest.2)

/-- The loss timer has reached the loss limit times the strapped period (R27). -/
def State.lossDue (s : State) : Bool :=
  match s.cyc.lossTimer with
  | none => false
  | some t => decide (s.part.lossLimit * periodBits s.part.config ≤ t)

/-- How a WRITE ends. -/
structure Written where
  state   : State
  cursor  : Cursor
  applied : Nat
  refusal : Option Refused
  /-- A write of the loss limit found the timer expired (R27). -/
  expired : Bool

/-- Apply the values of a WRITE in order, stopping at the first refused (R163). -/
def applyValues : List Int → Cursor → State → Nat → Bool → Written
  | [], c, s, n, b => { state := s, cursor := c, applied := n, refusal := none, expired := b }
  | v :: vs, c, s, n, b =>
    match s.writeField c.table c.entry c.field v with
    | .error r => { state := s, cursor := c, applied := n, refusal := some r, expired := b }
    | .ok t => applyValues vs c.move t (n + 1) (b || (c.table == .part && t.lossDue))

end Sys2Proof.Machine
end

