-- ==== Sys2Proof/Machine/Cycles.lean ====
section
/-! DEFINITION. The cycle controller and the link test: line cycles, polls, loss, downstream cycle starts, slots, window
completions, cycle ends, loopback (spec 01 R16 to R18, spec 02). -/

namespace Sys2Proof.Machine

open Sys2Proof

/-! ## Loopback and ECHO TEST frames (R16, R17) -/

/-- An ECHO TEST frame is sent: it awaits judgement from now (R17). -/
def LinkTest.send (l : LinkTest) (k : Nat) : LinkTest :=
  { l with frameNo := k, awaiting := true, echoBits := 0, sendTimer := none }

/-- The DN port enters loopback and sends ECHO TEST frame 0 (R16, R17). -/
def State.enterLoopback (s : State) : State :=
  (s.setDn { s.dn.emptied with driving := true }).setLink ({ s.link with loopback := true }.send 0)

/-! ## Downstream cycle starts (R30 to R32) -/

/-- The slots of a cycle: the members of the present sections in section, then slot order (R31). -/
def State.cycleSlots (s : State) : List SlotRef :=
  s.presentSecs.flatMap fun i =>
    (s.sec i).slots.map fun j =>
      { address := (s.sec i).cfg.memberBase + BitVec.ofNat 8 j.val, sec := i, slot := j }

/-- The DN burst of a cycle: MEMBER ORDER frames, then the SLOT CALL (R32). -/
def State.cycleBurst (s : State) : List TxFrame :=
  (s.presentSecs.map fun i => (s.sec i).memberOrder s.cyc.cycleNumber)
    ++ [slotCall s.cyc.cycleNumber (s.cycleSlots.map SlotRef.address)]

/-- Stage 1: the numbers advance, and a pending start is served (R30, R31). -/
def State.advanceNumbers (s : State) : State :=
  s.modCyc fun c => { c with cycleNumber := c.cycleNumber + 1, cycleCount := c.cycleCount + 1, pendingStart := false }

/-- Put a downstream cycle in flight, or none. -/
def State.setInFlight (s : State) (c : Option Cycle) : State := s.modCyc fun x => { x with inFlight := c }

/-- The cycle that starts now, its burst not yet sent (R31). -/
def State.newCycle (s : State) : Cycle :=
  { slots := s.cycleSlots, windowOpen := false, pos := 0, slotBits := 0, report := none, dropped := [] }

/-- Stages 3 and 4: the poll list is built and the burst is queued and begun at once (R15, R31, R32). -/
def State.launchCycle (s : State) : State :=
  ((s.setInFlight (some s.newCycle)).setDn { s.dn.enable with tx := s.cycleBurst }).mapPresent Section.clearFaultResets

/-- Stages 1 and 2: numbers, order ages, the computation (R31). -/
def State.computedStart (s : State) : State := s.advanceNumbers.announceStart.computeChain

/-- A downstream cycle start. With no section present the cycle ends at its start (R31). -/
def State.startCycle (s : State) : State :=
  let t := s.computedStart
  if t.presentSecs.isEmpty then t else t.launchCycle

/-- A downstream cycle start request (R30). -/
def State.requestStart (s : State) : State :=
  if s.cyc.inFlight.isNone && !s.link.running then s.startCycle
  else s.modCyc fun c => { c with pendingStart := true }

/-- A deferred start is served when no cycle is in flight and the link test is IDLE (R18, R37). -/
def State.servePending (s : State) : State := if s.cyc.pendingStart && !s.link.running then s.startCycle else s

/-! ## The end of a cycle (R24, R37) -/

/-- The sections whose slot results a cycle delivers (R24, R35). -/
def State.delivered (s : State) (c : Cycle) : List (Fin 16) :=
  s.presentSecs.filter fun i => (c.slots.any fun q => q.sec == i) && !c.dropped.contains i

/-- The report image of a section is taken again (R24). -/
def State.retakeImage (s : State) (i : Fin 16) : State := s.setImage i (some (s.takeImage i))

/-- What follows the end of a cycle: loopback entry, or a deferred start (R37). -/
def State.afterCycle (s : State) : State :=
  if s.link.running then (if s.link.loopback then s else s.enterLoopback) else s.servePending

/-- The report images of the sections it delivered, and the cycle no longer in flight (R24, R37). -/
def State.finishCycle (s : State) (c : Cycle) : State := ((s.delivered c).foldl State.retakeImage s).setInFlight none

/-- The end of a downstream cycle: images, no longer in flight, then what is pending (R37). -/
def State.endCycle (s : State) (c : Cycle) : State := (s.finishCycle c).afterCycle

/-! ## Slots (R33 to R36) -/

/-- The slot that runs, when the slot window is open. -/
def Cycle.current (c : Cycle) : Option SlotRef := if c.windowOpen then c.slots[c.pos]? else none

/-- The conditions of a valid report for the slot that runs (R34). -/
def State.acceptsReport (s : State) (c : Cycle) (q : SlotRef) (source : Byte) (stamp : Stamp)
    (payload : List Byte) : Bool :=
  stamp.slot == some { cycle := s.cyc.cycleNumber, slot := c.pos } && source == q.address
    && charAt payload 0 == s.cyc.cycleNumber && c.report.isNone

/-- A report as its payload carries it (section 11.1). -/
def reportOf (payload : List Byte) : MemberRep :=
  { speed := num24 payload 1, torque := num16 payload 4, status := charAt payload 6 }

/-- The report of a member handed over by the DN port: a valid report of the slot it completed in, or dropped (R34). -/
def State.takeMemberReport (s : State) (source : Byte) (stamp : Stamp) (payload : List Byte) : State :=
  match s.cyc.inFlight with
  | none => s
  | some c =>
    match c.current with
    | none => s
    | some q =>
      if s.acceptsReport c q source stamp payload then s.setInFlight (some { c with report := some (reportOf payload) })
      else s

/-- A slot result reaches the member monitor, where its section delivers it (R35, R55). -/
def State.deliverSlot (s : State) (c : Cycle) (q : SlotRef) : State :=
  if c.dropped.contains q.sec then s
  else
    match c.report with
    | some r => s.modSec q.sec fun x => x.setMember q.slot ((x.member q.slot).takeReport r)
    | none =>
      if s.link.running then s
      else s.modSec q.sec fun x => x.setMember q.slot (x.member q.slot).takeMiss

/-- A section's window completion: member monitor, load-share unit, claiming runner (R36). -/
def State.windowCompletion (s : State) (i : Fin 16) : State :=
  ((s.monitorCompletion i).modSec i Section.loadShare).runnerCompletion i

/-- The slot after this one belongs to another section, or there is none (R36). -/
def Cycle.lastOfSection (c : Cycle) (q : SlotRef) : Bool :=
  match c.slots[c.pos + 1]? with
  | none => true
  | some n => n.sec != q.sec

/-- The slot window moves to the next slot. -/
def Cycle.nextSlot (c : Cycle) : Cycle := { c with pos := c.pos + 1, slotBits := 0, report := none }

/-- The slot that ends is its section's last, and its section is delivered (R36). -/
def Cycle.completes (c : Cycle) (q : SlotRef) : Bool := c.lastOfSection q && !c.dropped.contains q.sec

/-- A slot's result, and its section's window completion (R35, R36). -/
def State.closeSlot (s : State) (c : Cycle) (q : SlotRef) : State :=
  let t := (s.deliverSlot c q).setInFlight (some c.nextSlot)
  if c.completes q then t.windowCompletion q.sec else t

/-- The end of a slot: its result, its section's window completion, the cycle's end (R35 to R37). -/
def State.endSlot (s : State) : State :=
  match s.cyc.inFlight with
  | none => s
  | some c =>
    match c.current with
    | none => s
    | some q => if c.pos + 1 < c.slots.length then s.closeSlot c q else (s.closeSlot c q).endCycle c

/-! ## Link test judgements and end (R17, R18) -/

/-- The result of a link test (R18). -/
def LinkTest.verdict (l : LinkTest) : LinkResult :=
  if l.badCount = 0 then .passed else .failed l.badCount (l.firstBad.getD .check)

/-- Loopback left and the result formed: the link test is IDLE (R18). -/
def State.leaveLoopback (s : State) : State :=
  ((s.setDn { s.dn.emptied with driving := false }).setLink { LinkTest.reset with result := s.link.verdict }).modCyc
    fun c => { c with pollInForce := [] }

/-- The link test ends: loopback left, result formed, a deferred cycle starts (R18). -/
def State.endLinkTest (s : State) : State := s.leaveLoopback.servePending

/-- Count a judgement: none is good (R17). -/
def LinkTest.count (l : LinkTest) (bad : Option BadKind) : LinkTest :=
  match bad with
  | none => l
  | some k => { l with badCount := l.badCount + 1, firstBad := some (l.firstBad.getD k) }

/-- The judgement counted; the next frame is due 2 character times from now (R17). -/
def LinkTest.judged (l : LinkTest) (bad : Option BadKind) : LinkTest :=
  { l.count bad with awaiting := false, sendTimer := some 0 }

/-- The frame that awaits judgement is judged; after frame 15 the test ends (R17, R18). -/
def State.judgeEcho (s : State) (bad : Option BadKind) : State :=
  let t := s.setLink (s.link.judged bad)
  if s.link.frameNo < 15 then t else t.endLinkTest

/-- An ECHO TEST frame handed over: compared with the one sent, if one awaits judgement (R17). -/
def State.takeEcho (s : State) (payload : List Byte) : State :=
  if s.link.awaiting then s.judgeEcho (if payload = echoPayload s.link.frameNo then none else some .check) else s

/-- The judgement a discard of this kind gives (R17). -/
def ErrorKind.echoKind : ErrorKind → BadKind
  | .check => .check
  | .framing => .framing
  | .brk => .framing
  | .overrun => .framing
  | .length => .missing
  | .truncated => .missing
  | .none => .missing

/-- A discard at a port: the latch, and in loopback the judgement of the frame that awaits one (R10, R17). -/
def State.discard (s : State) (p : Side) (k : ErrorKind) : State :=
  let t := s.latchError p k
  match p with
  | .up => t
  | .dn => if t.link.loopback && t.link.awaiting then t.judgeEcho (some k.echoKind) else t

/-! ## The upstream cycle (R19, R22, R23, R26, R158) -/

/-- The number, the line command and the line speed stored (R19). -/
def State.storeLine (s : State) (number : Byte) (command : Byte) (speed : Int) : State :=
  s.modCyc fun c =>
    { c with lastUpCycle := number, lineCommand := LineCommand.ofChar command, lineSpeed := clampInt 0 250000 speed }

/-- A LINE CYCLE: number, line command, line speed with its clamp (R19), and the section table's response (R51). -/
def State.takeLineCycle (s : State) (number : Byte) (command : Byte) (speed : Int) : State :=
  let t := s.storeLine number command speed
  (if clampActs 0 250000 speed then t.modNotices Notices.setLineClamped else t).applyLineCommand
    (LineCommand.ofChar command)

/-- A pending-access record after one more valid POLL CALL (R158). -/
def PendingAccess.polled : Option PendingAccess → Option PendingAccess
  | none => none
  | some a => if a.polls = 0 then some { a with polls := 1 } else none

/-- The pending-access record at a valid POLL CALL (R158). -/
def State.pollAccess (s : State) : State :=
  s.modMgmt fun m => { m with pendingAccess := PendingAccess.polled m.pendingAccess }

/-- The upstream state and both timers at a valid POLL CALL (R26). -/
def State.pollLink (s : State) : State :=
  s.modCyc fun c => { c with upState := .linked, lossTimer := some 0, localTimer := none }

/-- The PART REPORT: the 27 PART fields, field 5 in four characters, the others in one (R170, section 11.2). -/
def State.partReport (s : State) : TxFrame :=
  { address := s.part.mgmtAddr, kind := kindPartReport, tie := .plain,
    payload := ((List.range 5).map fun f => toByte (s.partField f)) ++ chars32 s.cyc.cycleCount
      ++ (List.range' 6 21).map fun f => toByte (s.partField f) }

/-- The image a SECTION REPORT carries. -/
def State.image (s : State) (i : Fin 16) : Image := (s.cyc.images[i]).getD (s.takeImage i)

/-- The reply burst (R23). -/
def State.replyBurst (s : State) : List TxFrame :=
  (s.presentSecs.map fun i => sectionReport (s.sec i).cfg.upAddr (s.image i)) ++ [s.partReport]
    ++ (s.cyc.pendingReply.map fun r => manageReply s.part.mgmtAddr r).toList

/-- The reply burst to a frame that ended `age` bit times ago is formed and queued, unless frames are still queued (R15,
R23, R25). -/
def State.queueBurst (s : State) (age : Nat) : State :=
  if s.up.tx.isEmpty then
    (s.setUp { s.up with tx := s.replyBurst, turnaround := some (spacingAt age) }).modCyc fun c =>
      { c with pendingReply := none }
  else s

/-- What a valid POLL CALL that ended `age` bit times ago leaves before its start request (R22, R23, R26, R158). -/
def State.answerPoll (s : State) (age : Nat) : State := s.pollAccess.pollLink.queueBurst age

/-- A valid POLL CALL that ended `age` bit times ago (R22). -/
def State.takePollCall (s : State) (age : Nat) : State := (s.answerPoll age).requestStart

/-! ## The upstream loss event (R28) -/

/-- A pending MANAGE REPLY is discarded, and with it the move or restart that waits on it (R28, R168, R175, log 11). -/
def State.discardReply (s : State) : State :=
  let t := s.modCyc fun c => { c with pendingReply := none }
  match s.cyc.pendingReply with
  | none => t
  | some r =>
    match r.tie with
    | .plain => t
    | .move _ => t.modMgmt fun m => { m with pendingMove := none }
    | .restart => t.setStore { t.store with pendingRestart := false }

/-- The upstream state and timers, the section table and the runners at the upstream loss event (R28, R52, R134). -/
def State.lossOnSections (s : State) : State :=
  let t := (s.modCyc fun c => { c with upState := .lost, lossTimer := none }).mapPresent Section.upstreamLoss
  t.abortAll t.busyRunners .upstreamLoss

/-- The access level falls to MONITOR, and no request is pending (R28, R156). -/
def State.dropAccess (s : State) : State := s.modMgmt fun m => { m with access := .monitor, pendingAccess := none }

/-- The local period timer starts (R29). -/
def State.startLocal (s : State) : State := s.modCyc fun c => { c with localTimer := some 0 }

/-- What the upstream loss event leaves before its start request: section table, runners, management unit, part status
and the local period timer (R28, R29, R52, R134, R156). -/
def State.afterLoss (s : State) : State :=
  (s.lossOnSections.discardReply.dropAccess.modNotices Notices.setUpstreamLoss).startLocal

/-- The upstream loss event, with its one start request (R28, R29). -/
def State.takeLoss (s : State) : State := s.afterLoss.requestStart

end Sys2Proof.Machine
end

