-- ==== Sys2Proof/Machine/Manage.lean ====
section
/-! DEFINITION. The management unit: one function for each request, and the taking of a MANAGE frame (spec 09, with the
owners' checks of 04, 07, 08 and 10). -/

namespace Sys2Proof.Machine

open Sys2Proof

/-! ## Replies (R153) -/

/-- What a request leaves: the state, its reply, and whether a WRITE found the loss timer expired (R27). -/
structure Served where
  state   : State
  reply   : Reply
  expired : Bool

/-- A reply with a result code, an offending index and values. -/
def reply (code : ResultCode) (offending : Byte) (values : List Value) : Reply :=
  { code := code, offending := offending, count := 0, values := values, tie := .plain }

/-- A request served. -/
def served (s : State) (r : Reply) : Served := { state := s, reply := r, expired := false }

/-- A refusal: no values, no state changed (R153). -/
def refuse (s : State) (code : ResultCode) (offending : Byte) : Served := served s (reply code offending [])

/-- An accepted request: DONE, FFh and values. -/
def done (s : State) (values : List Value) : Served := served s (reply .done noIndex values)

/-! ## Access (R156 to R158) -/

/-- An ACCESS above the level in force confirms the record (R158). -/
def confirms (old : Option PendingAccess) (l : AccessLevel) : Bool := old == some { level := l, polls := 1 }

/-- The level in force as a reply value. -/
def State.levelValue (s : State) : Value := toValue s.mgmt.access.code

/-- Set the access level. -/
def State.setAccess (s : State) (l : AccessLevel) : State := s.modMgmt fun m => { m with access := l }

/-- ACCESS; `old` is the pending-access record that stood at the frame's arrival (R157, R158). -/
def reqAccess (old : Option PendingAccess) (args : List Byte) (s : State) : Served :=
  match AccessLevel.ofCode (arg args 0) with
  | none => served s (reply .range noIndex [s.levelValue])
  | some l =>
    if s.cyc.upState ≠ .linked then served s (reply .state noIndex [s.levelValue])
    else if (maxLevel s.part.config).rank < l.rank then served s (reply .level noIndex [s.levelValue])
    else if l.rank ≤ s.mgmt.access.rank then
      let t := s.setAccess l
      done t [t.levelValue]
    else if confirms old l then
      let t := s.setAccess l
      done t [t.levelValue]
    else
      let t := s.modMgmt fun m => { m with pendingAccess := some { level := l, polls := 0 } }
      served t (reply .pending noIndex [t.levelValue])

/-- CLOSE (R156). -/
def reqClose (s : State) : Served :=
  let t := s.setAccess .monitor
  done t [t.levelValue]

/-! ## Cursor, READ and WRITE (R160 to R163) -/

/-- SELECT (R160). -/
def reqSelect (args : List Byte) (s : State) : Served :=
  match Table.ofCode (arg args 0) with
  | none => refuse s .range 0
  | some t =>
    match toIndex t.entries (arg args 1) with
    | none => refuse s .limit 1
    | some e =>
      match toIndex t.fields (arg args 2) with
      | none => refuse s .limit 2
      | some f =>
        match CursorMode.ofCode (arg args 3) with
        | none => refuse s .range 3
        | some m =>
          let c : Cursor := { table := t, entry := e.val, field := f.val, mode := m, spent := false }
          done (s.modMgmt fun y => { y with cursor := some c }) []

/-- The cursor, when it is not spent (R161). -/
def State.liveCursor (s : State) : Option Cursor := s.mgmt.cursor.filter fun c => !c.spent

/-- Put the cursor where a READ or WRITE leaves it (R161). -/
def State.setCursor (s : State) (c : Cursor) : State := s.modMgmt fun m => { m with cursor := some c.used }

/-- READ (R162). -/
def reqRead (args : List Byte) (s : State) : Served :=
  match ranged 1 28 (arg args 0) with
  | none => refuse s .range noIndex
  | some n =>
    match s.liveCursor with
    | none => refuse s .noCursor noIndex
    | some c =>
      let r := s.readValues n.toNat c
      served (s.setCursor r.2)
        { code := .done, offending := noIndex, count := n.toNat, values := r.1, tie := .plain }

/-- WRITE (R163). -/
def reqWrite (args : List Byte) (s : State) : Served :=
  match s.liveCursor with
  | none => refuse s .noCursor noIndex
  | some c =>
    let w := applyValues (argList args) c s 0 false
    let code := match w.refusal with
      | none => (ResultCode.done, noIndex)
      | some r => r
    { state := w.state.setCursor w.cursor
      reply := { code := code.1, offending := code.2, count := w.applied, values := [], tie := .plain }
      expired := w.expired }

/-! ## Commands on sections (R61, R75, R80, R167) -/

/-- The guard level of a section as an access level (R159). -/
def State.guardLevel (s : State) (i : Fin 16) : AccessLevel := (s.sec i).cfg.guard.access

/-- The new d and R as reply values. -/
def State.drawValues (s : State) (i : Fin 16) : List Value := [toValue (s.sec i).draw, toValue (s.sec i).ratio]

/-- A draw delta and mode within their ranges (R75). -/
def drawArgs (args : List Byte) : Option (Int × DrawMode) :=
  match ranged (-1000) 1000 (arg args 1), DrawMode.ofCode (arg args 2) with
  | some d, some m => some (d, m)
  | _, _ => none

/-- ADJUST DRAW (R75). -/
def reqAdjustDraw (args : List Byte) (s : State) : Served :=
  match toIndex 16 (arg args 0) with
  | none => refuse s .limit 0
  | some i =>
    if !s.hasLevel (s.guardLevel i) then refuse s .level noIndex
    else
      match drawArgs args with
      | none => refuse s .range noIndex
      | some (d, m) =>
        if !(s.sec i).present then refuse s .absent (indexByte i)
        else if (s.sec i).source ≠ .cascade then refuse s .state noIndex
        else
          match s.claimant i with
          | some r => refuse s .claimed (indexByte r)
          | none =>
            let a := s.adjustDraw i d m
            let code := if a.ownClamped || !a.childClamped.isEmpty then ResultCode.doneClamped else ResultCode.done
            let off := match a.childClamped with
              | [] => noIndex
              | k :: _ => indexByte k
            served a.state (reply code off (a.state.drawValues i))

/-- A transfer to CASCADE once the common checks have passed (R80). -/
def transferCascade (i : Fin 16) (s : State) : Served :=
  if (s.sec i).source = .cascade then done s (s.drawValues i)
  else if ¬((s.sec i).runState = .running ∧ 1000 ≤ s.cyc.lineSpeed) then refuse s .noRatio noIndex
  else
    let b := s.baseRatio i
    let t := s.modSec i fun x => x.toCascade b
    let code := if clampActs (-500) 500 (backDraw b (s.sec i).observed) then ResultCode.doneClamped else ResultCode.done
    served t (reply code noIndex (t.drawValues i))

/-- A transfer to FOLLOW once the common checks have passed (R81). -/
def transferFollow (i : Fin 16) (s : State) : Served :=
  if (s.sec i).source = .follow then done s (s.drawValues i)
  else
    let t := s.modSec i Section.toFollow
    done t (t.drawValues i)

/-- TRANSFER (R80, R81). -/
def reqTransfer (args : List Byte) (s : State) : Served :=
  match toIndex 16 (arg args 0) with
  | none => refuse s .limit 0
  | some i =>
    if !s.hasLevel (s.guardLevel i) then refuse s .level noIndex
    else
      match Source.ofCode (arg args 1) with
      | none => refuse s .range noIndex
      | some m =>
        if !(s.sec i).present then refuse s .absent (indexByte i)
        else
          match s.claimant i with
          | some r => refuse s .claimed (indexByte r)
          | none =>
            match m with
            | .cascade => transferCascade i s
            | .follow => transferFollow i s

/-- RELEASE TRIP (R61). -/
def reqReleaseTrip (args : List Byte) (s : State) : Served :=
  match toIndex 16 (arg args 0) with
  | none => refuse s .limit 0
  | some i =>
    if !s.hasLevel (s.guardLevel i) then refuse s .level noIndex
    else if !(s.sec i).present then refuse s .absent (indexByte i)
    else if (s.sec i).runState ≠ .tripped then refuse s .state noIndex
    else done (s.modSec i Section.releaseTrip) []

/-! ## Commands on runners (R121, R122, R135, R136, R138) -/

/-- The runner's part of an accepted START TEST: record cleared, claim taken, about to enter its first step (R122). -/
def Runner.begin (u : Runner) (i : Fin 16) (k : Fin 96) : Runner :=
  { u with outcome := .none, abortCause := .none, stepsRun := 0, offset := 0, flags := ClampFlags.clear,
           pendingRecord := none, claimed := some i, state := .running, step := some k }

/-- The runner's state and abort cause as reply values (R122). -/
def State.runnerValues (s : State) (r : Fin 4) : List Value :=
  [toValue (s.runner r).state.code, toValue (s.runner r).abortCause.code]

/-- The runner's checks of START TEST, in order (R121). -/
def startTestRefusal (s : State) (r : Fin 4) (i : Fin 16) (k : Fin 96) : Option (ResultCode × Byte) :=
  if (s.runner r).state ≠ .idle then some (.state, noIndex)
  else if !(s.sec i).present then some (.absent, indexByte i)
  else if (s.sec i).runState ≠ .running then some (.state, noIndex)
  else
    match s.claimant i with
    | some q => some (.claimed, indexByte q)
    | none =>
      if !(s.stepRec k).present then some (.absent, indexByte k)
      else if s.freePlaces < s.notIdle + 1 then some (.log, noIndex)
      else none

/-- START TEST (R121, R122). -/
def reqStartTest (args : List Byte) (s : State) : Served :=
  match toIndex 4 (arg args 0) with
  | none => refuse s .limit 0
  | some r =>
    match toIndex 16 (arg args 1) with
    | none => refuse s .limit 1
    | some i =>
      match toIndex 96 (arg args 2) with
      | none => refuse s .limit 2
      | some k =>
        if !s.hasLevel (s.guardLevel i) then refuse s .level noIndex
        else
          match startTestRefusal s r i k with
          | some e => refuse s e.1 e.2
          | none =>
            let t := (s.setRunner r ((s.runner r).begin i k)).enterStep r k
            done t (t.runnerValues r)

/-- The level a command on a runner needs (R159). -/
def State.runnerLevel (s : State) (r : Fin 4) : AccessLevel :=
  if (s.runner r).state = .idle then .operate
  else
    match (s.runner r).claimed with
    | none => .operate
    | some i => s.guardLevel i

/-- A refusal of a command that carries no value but its code (R153). -/
def State.runnerValue (s : State) (r : Fin 4) : List Value := [toValue (s.runner r).state.code]

/-- PAUSE TEST (R135). -/
def reqPauseTest (args : List Byte) (s : State) : Served :=
  match toIndex 4 (arg args 0) with
  | none => refuse s .limit 0
  | some r =>
    if !s.hasLevel (s.runnerLevel r) then refuse s .level noIndex
    else if (s.runner r).state ≠ .running then refuse s .state noIndex
    else
      let t := s.setRunner r { s.runner r with state := .paused }
      done t (t.runnerValue r)

/-- RESUME TEST (R136). -/
def reqResumeTest (args : List Byte) (s : State) : Served :=
  match toIndex 4 (arg args 0) with
  | none => refuse s .limit 0
  | some r =>
    if !s.hasLevel (s.runnerLevel r) then refuse s .level noIndex
    else if (s.runner r).state ≠ .paused then refuse s .state noIndex
    else
      let t := s.setRunner r { s.runner r with state := .running }
      done t (t.runnerValue r)

/-- STOP TEST (R138). -/
def reqStopTest (args : List Byte) (s : State) : Served :=
  match toIndex 4 (arg args 0) with
  | none => refuse s .limit 0
  | some r =>
    if !s.hasLevel (s.runnerLevel r) then refuse s .level noIndex
    else if (s.runner r).state = .idle then refuse s .state noIndex
    else
      let t := s.stopRunner r
      done t (t.runnerValue r)

/-! ## The log (R149, R150) -/

/-- FETCH LOG (R149). -/
def reqFetchLog (args : List Byte) (s : State) : Served :=
  match ranged 1 2 (arg args 0) with
  | none => refuse s .range noIndex
  | some n =>
    let l := s.log.records.take n.toNat
    served s
      { code := if l.length < n.toNat then .doneClamped else .done, offending := noIndex, count := l.length,
        values := l.flatMap recordValues, tie := .plain }

/-- The records removed, then the waiters served if one was (R147, R150). -/
def State.dropLog (s : State) (n : Nat) : State :=
  let t := s.dropRecords n
  if s.log.records.isEmpty || n == 0 then t else t.serveWaiters t.log.waiters.length

/-- DROP LOG (R150). -/
def reqDropLog (args : List Byte) (s : State) : Served :=
  if !s.hasLevel .operate then refuse s .level noIndex
  else
    match ranged 1 64 (arg args 0) with
    | none => refuse s .range noIndex
    | some n =>
      let t := s.dropLog n.toNat
      let held := s.log.records.length
      served t
        { code := if held < n.toNat then .doneClamped else .done, offending := noIndex, count := min held n.toNat,
          values := [toValue t.log.records.length, toValue t.freePlaces], tie := .plain }

/-! ## Link test, address, notices, store, restart (R16, R168, R169, R172, R175) -/

/-- LINK TEST (R16). -/
def reqLinkTest (s : State) : Served :=
  if !s.hasLevel .engineer then refuse s .level noIndex
  else if s.link.running then refuse s .busy noIndex
  else if s.presentSecs.any fun i => (s.sec i).moving then refuse s .state noIndex
  else
    let t := s.setLink { LinkTest.reset with running := true }
    done (if t.cyc.inFlight.isNone then t.enterLoopback else t) []

/-- MOVE ADDRESS (R168). -/
def reqMoveAddress (args : List Byte) (s : State) : Served :=
  if !s.hasLevel .engineer then refuse s .level noIndex
  else
    match ranged 1 63 (arg args 0) with
    | none => refuse s .range noIndex
    | some v =>
      match s.sectionAt (toByte v) with
      | some i => refuse s .conflict (indexByte i)
      | none =>
        if toByte v = s.part.mgmtAddr then done s []
        else
          served (s.modMgmt fun m => { m with pendingMove := some (toByte v) })
            { code := .done, offending := noIndex, count := 0, values := [toValue v], tie := .move (toByte v) }

/-- CLEAR NOTICES: five notices and both latches (R169). -/
def State.clearNotices (s : State) : State :=
  ((s.modNotices Notices.cleared).latchError .up .none).latchError .dn .none

/-- CLEAR NOTICES (R169). -/
def reqClearNotices (s : State) : Served :=
  if !s.hasLevel .operate then refuse s .level noIndex else done s.clearNotices []

/-- What a save keeps of one entry: a present one with its draw and source mode in force (R172). -/
def Section.saved (x : Section) : SavedSection :=
  { present := x.present
    cfg := if x.present then { x.cfg with initDraw := x.draw, initSource := x.source } else x.cfg
    ratings := #v[(x.member 0).rating, (x.member 1).rating, (x.member 2).rating, (x.member 3).rating]
    weights := #v[(x.member 0).weight, (x.member 1).weight, (x.member 2).weight, (x.member 3).weight] }

/-- The snapshot of the tables (R172). -/
def State.snapshot (s : State) : SavedTables :=
  { mgmtAddr := s.part.mgmtAddr, lossLimit := s.part.lossLimit, steps := s.steps
    sections := #v[(s.sec 0).saved, (s.sec 1).saved, (s.sec 2).saved, (s.sec 3).saved, (s.sec 4).saved,
      (s.sec 5).saved, (s.sec 6).saved, (s.sec 7).saved, (s.sec 8).saved, (s.sec 9).saved, (s.sec 10).saved,
      (s.sec 11).saved, (s.sec 12).saved, (s.sec 13).saved, (s.sec 14).saved, (s.sec 15).saved] }

/-- SAVE TABLES: the old copy is lost from now, the new one not yet complete (R172, section 10.3). -/
def reqSaveTables (s : State) : Served :=
  if !s.hasLevel .engineer then refuse s .level noIndex
  else if s.store.state = .saving then refuse s .busy noIndex
  else done (s.setStore { s.store with state := .saving, snapshot := some s.snapshot, copy := none }) []

/-- RESTART (R175). -/
def reqRestart (s : State) : Served :=
  if !s.hasLevel .engineer then refuse s .level noIndex
  else if s.store.state = .saving then refuse s .busy noIndex
  else if s.presentSecs.any fun i => (s.sec i).moving then refuse s .state noIndex
  else
    served (s.setStore { s.store with pendingRestart := true })
      { code := .done, offending := noIndex, count := 0, values := [], tie := .restart }

/-! ## Taking a MANAGE frame (R152, R154, R155) -/

/-- A request whose payload has the length its kind asks for, else RANGE (R152, section 11.1). -/
def sized (n : Nat) (args : List Byte) (s : State) (f : List Byte → State → Served) : Served :=
  if args.length = n then f args s else refuse s .range noIndex

/-- A COMMAND by its verb (R152, R167, section 11.1). -/
def command (verb : Byte) (args : List Byte) (s : State) : Served :=
  if verb = 0x01 then sized 12 args s reqAdjustDraw
  else if verb = 0x02 then sized 8 args s reqTransfer
  else if verb = 0x03 then sized 4 args s reqReleaseTrip
  else if verb = 0x04 then sized 12 args s reqStartTest
  else if verb = 0x05 then sized 4 args s reqStopTest
  else if verb = 0x06 then sized 4 args s reqPauseTest
  else if verb = 0x07 then sized 4 args s reqResumeTest
  else if verb = 0x08 then sized 4 args s reqFetchLog
  else if verb = 0x09 then sized 4 args s reqDropLog
  else if verb = 0x0A then sized 0 args s fun _ => reqLinkTest
  else if verb = 0x0B then sized 0 args s fun _ => reqSaveTables
  else if verb = 0x0C then sized 0 args s fun _ => reqRestart
  else if verb = 0x0D then sized 4 args s reqMoveAddress
  else if verb = 0x0E then sized 0 args s fun _ => reqClearNotices
  else refuse s .unknown noIndex

/-- A WRITE payload of 1 + 4 × n characters, n = 1..28 (section 11.1). -/
def writeSized (args : List Byte) : Bool :=
  args.length % 4 == 0 && decide (4 ≤ args.length) && decide (args.length ≤ 112)

/-- A COMMAND frame: its verb, then its arguments; with no verb character the answer is left open (log 7). -/
def commandFrame (args : List Byte) (s : State) : Served :=
  match args with
  | [] => refuse s (if Config.verblessCommandUnknown then .unknown else .range) noIndex
  | verb :: rest => command verb rest s

/-- A request by its sub-kind (R152, section 11.1). -/
def request (old : Option PendingAccess) (kind : Byte) (args : List Byte) (s : State) : Served :=
  if kind = 0x01 then sized 4 args s (reqAccess old)
  else if kind = 0x02 then sized 0 args s fun _ => reqClose
  else if kind = 0x03 then sized 16 args s reqSelect
  else if kind = 0x04 then sized 4 args s reqRead
  else if kind = 0x05 then (if writeSized args then reqWrite args s else refuse s .range noIndex)
  else if kind = 0x06 then commandFrame args s
  else refuse s .unknown noIndex

/-- The reply to a frame that ended `age` bit times ago is held while LINKED, else queued at the UP port at once, behind
what is queued there (R15, R25, R154; with 18 frames queued it is lost, log 27). -/
def State.sendReplyAfter (s : State) (age : Nat) (r : Reply) : State :=
  if s.cyc.upState = .linked then s.modCyc fun c => { c with pendingReply := some r }
  else
    s.setUp { s.up.queueFrame (manageReply s.part.mgmtAddr r) with
      turnaround := if s.up.tx.isEmpty then some (spacingAt age) else s.up.turnaround }

/-- The reply to a frame that ends now. -/
def State.sendReply (s : State) (r : Reply) : State := s.sendReplyAfter 0 r

/-- A request served: its reply sent or held, then the loss a WRITE may have found (R27, R154). -/
def Served.finish (v : Served) (age : Nat) : State :=
  let t := v.state.sendReplyAfter age v.reply
  if v.expired then t.takeLoss else t

/-- A MANAGE frame meets a reply still pending in LINKED (R152). -/
def State.overruns (s : State) : Bool := s.cyc.upState == .linked && s.cyc.pendingReply.isSome

/-- A taken MANAGE frame discards the pending-access record (R152). -/
def State.spendAccess (s : State) : State := s.modMgmt fun m => { m with pendingAccess := none }

/-- A MANAGE frame that ended `age` bit times ago handed over: overrun, else the pending-access record is spent and the
request is served (R152, R155). -/
def State.takeManage (s : State) (payload : List Byte) (age : Nat) : State :=
  if s.overruns then s.modNotices Notices.setOverrun
  else
    match payload with
    | [] => s
    | kind :: args =>
      (request s.mgmt.pendingAccess kind args s.spendAccess).finish age

end Sys2Proof.Machine
end

