-- ==== Sys2Proof/Machine/StartUp.lean ====
section
/-! DEFINITION. Resets, start-up, the restore, coming into service, the completion of a save, and the sending of queued
frames (spec 01 R13 to R15, spec 10 R171 to R178). -/

namespace Sys2Proof.Machine

open Sys2Proof

/-! ## Resets (R171, R174, R176) -/

/-- A complete copy whose CRC matches (section 10.3). -/
def StoreCopy.good : Option StoreCopy → Bool
  | none => false
  | some c => c.crcMatches

/-- The store after a reset: the copy is kept unless a save was in flight (R174), and start-up's check sets the state
(R176). -/
def Store.afterReset (x : Store) : Store :=
  let copy := if x.state = .saving then none else x.copy
  { state := if StoreCopy.good copy then .valid else .invalid, lastSave := .none, snapshot := none, copy := copy,
    pendingRestart := false }

/-- Part status after a reset: the strapped address, loss limit 5, STORE INVALID by the store's state (R170, R176). -/
def Part.afterReset (config : Byte) (x : Store) : Part :=
  { config := config, mgmtAddr := strappedAddr config, lossLimit := 5,
    notices := Notices.reset (x.state != .valid) }

/-- Every block at its reset values, in a phase and under a configuration word; the queue of commands and the store copy
stay (R174, R176, log 14, log 18). -/
def State.resetBlocks (s : State) (phase : Phase) (config : Byte) : State :=
  { State.reset with
    pending := s.pending, phase := phase, part := Part.afterReset config s.store.afterReset,
    store := s.store.afterReset, freeUses := s.freeUses }

/-- A full reset under a configuration word; start-up begins (R176). -/
def State.takeReset (s : State) (config : Byte) : State := s.resetBlocks .startUp config

/-! ## The restore (R177) -/

/-- A withdrawn entry with its saved fields 1 to 18, and its members with their saved ratings and weights; everything
else stands as the reset left it. -/
def Section.ofSaved (v : SavedSection) : Section :=
  { Section.reset.mapMembers (fun j m => { m with rating := v.ratings[j], weight := v.weights[j] }) with cfg := v.cfg }

/-- The saved tables loaded, every entry withdrawn. -/
def State.loadTables (s : State) (t : SavedTables) : State :=
  let u := ((s.modPart fun p => { p with mgmtAddr := t.mgmtAddr, lossLimit := t.lossLimit }).setSteps t.steps).setChain []
  allSections.foldl (fun w i => w.setSec i (Section.ofSaved t.sections[i])) u

/-- One entry tried in a restore pass. -/
def State.tryPresent (t : SavedTables) (s : State) (i : Fin 16) : State :=
  if t.sections[i].present && !(s.sec i).present && (s.presentRefusal i).isNone then s.makePresent i else s

/-- One pass of the restore over the entries in ascending index order. -/
def State.restorePass (s : State) (t : SavedTables) : State := allSections.foldl (State.tryPresent t) s

/-- Passes, repeated as long as a pass makes an entry present. -/
def restorePasses (t : SavedTables) : Nat → State → State
  | 0, s => s
  | n + 1, s =>
    let u := s.restorePass t
    if s.presentSecs.length < u.presentSecs.length then restorePasses t n u else u

/-- The restore, when the restore choice is YES and the store VALID: at most 16 passes that make entries present, and
the final one. -/
def State.restore (s : State) : State :=
  if restoreChosen s.part.config && s.store.state == .valid then
    match s.store.copy with
    | none => s
    | some c => restorePasses c.tables 17 (s.loadTables c.tables)
  else s

/-- Put the part in a phase. -/
def State.setPhase (s : State) (p : Phase) : State := { s with phase := p }

/-- The part in service, its tables restored, the local period timer started (R29, R177, R178). -/
def State.enterService (s : State) : State := (s.restore.setPhase .inService).startLocal

/-- The part comes into service, with one start request at once (R29, R178). -/
def State.comeIntoService (s : State) : State := s.enterService.requestStart

/-! ## The end of a save (R173) -/

/-- STORE INVALID as a save leaves it. -/
def State.noteStore (s : State) (invalid : Bool) : State := s.modNotices fun n => n.withStoreInvalid invalid

/-- The store after a save that wrote and confirmed its copy. -/
def Store.saved (x : Store) (t : SavedTables) : Store :=
  { x with state := .valid, lastSave := .valid, snapshot := none, copy := some { tables := t, crcMatches := true } }

/-- The store after a failed save. -/
def Store.failed (x : Store) : Store :=
  { x with state := .invalid, lastSave := .failed, snapshot := none, copy := none }

/-- The completion of the save in flight (R173). -/
def State.completeSave (s : State) (outcome : SaveOutcome) : State :=
  match s.store.state, s.store.snapshot, outcome with
  | .saving, some t, .confirmed => (s.setStore (s.store.saved t)).noteStore false
  | .saving, _, .writeFailed => (s.setStore s.store.failed).noteStore true
  | .saving, _, .crcDiffers => (s.setStore s.store.failed).noteStore true
  | _, _, _ => s

/-! ## Sending (R11 to R15, R168, R175) -/

/-- What the sending of a frame's last character completes: the poll list in force, a pending move, a pending
restart. -/
def State.frameSent (s : State) (f : TxFrame) : State :=
  match f.tie with
  | .plain =>
    if f.kind = kindSlotCall then s.modCyc fun c => { c with pollInForce := f.payload.drop 2 } else s
  | .move a =>
    if s.mgmt.pendingMove = some a then
      (s.modPart fun p => { p with mgmtAddr := a }).modMgmt fun m => { m with pendingMove := none }
    else s
  | .restart => if s.store.pendingRestart then s.takeReset s.part.config else s

/-- The frame at the head of a transmit queue leaves it (R14). -/
def State.sendHead (s : State) (p : Side) : State :=
  match (s.port p).tx with
  | [] => s
  | f :: rest => (s.setPort p { s.port p with tx := rest, sentBits := 0 }).frameSent f

/-- The frames of a burst leave the queue one after the other. -/
def State.sendAll (p : Side) : Nat → State → State
  | 0, s => s
  | n + 1, s => State.sendAll p n (s.sendHead p)

/-- The driver of a port is released (R13). -/
def State.releasePort (s : State) (p : Side) : State := s.setPort p (s.port p).release

/-- The slot window begins (R15, R33). -/
def State.openWindow (s : State) : State :=
  s.setInFlight (s.cyc.inFlight.map fun c => { c with windowOpen := true, pos := 0, slotBits := 0 })

/-- The burst of a port is complete. -/
def State.completeBurst (s : State) (p : Side) : State :=
  match p with
  | .up => if s.up.driving then (State.sendAll .up s.up.tx.length s).releasePort .up else s
  | .dn =>
    if s.dn.driving && !s.link.loopback then ((State.sendAll .dn s.dn.tx.length s).releasePort .dn).openWindow
    else s

/-- The burst queued at the UP port begins (R15). -/
def State.beginReply (s : State) : State :=
  if s.phase == .inService && !s.up.tx.isEmpty && s.up.turnaround.isSome && !s.up.driving then
    s.setUp s.up.enable
  else s

end Sys2Proof.Machine
end

