-- ==== Sys2Proof/Machine/Assemble.lean ====
section
/-! DEFINITION. The frame assembler, the address filters and the hand-off of frames to their consumers (spec 01 R7 to
R12). -/

namespace Sys2Proof.Machine

open Sys2Proof

/-! ## Filters (R11, R12) -/

/-- The address filter of a port. -/
def State.filterKeeps (s : State) (p : Side) (a : Byte) : Bool :=
  match p with
  | .up => a == 0 || a == s.part.mgmtAddr || (s.sectionAt a).isSome
  | .dn => if s.link.loopback then a == 0 else s.cyc.pollInForce.contains a

/-! ## Hand-off (R9) -/

/-- A frame whose kind and address are served: handed over when its length fits, else discarded with LENGTH. -/
def State.lengthOr (s : State) (p : Side) (fits : Bool) (t : State) : State := if fits then t else s.discard p .length

/-- A SECTION ORDER for a section: any run request but 01h asks STOP (R179). -/
def State.takeSectionOrder (s : State) (i : Fin 16) (payload : List Byte) : State :=
  if charAt payload 0 = 1 then s.sectionRun i (num24 payload 1).toInt else s.sectionStop i (num24 payload 1).toInt

/-- A LINE CYCLE by its payload (section 11.1). -/
def State.takeLineCycleFrame (s : State) (payload : List Byte) : State :=
  s.takeLineCycle (charAt payload 0) (charAt payload 1) (num24 payload 2).toInt

/-- Hand-off at the UP port of a frame that ended `age` bit times ago. -/
def State.handOffUp (s : State) (a kind : Byte) (payload : List Byte) (age : Nat) : State :=
  if kind = kindLineCycle ∧ a = 0 then s.lengthOr .up (payload.length == 5) (s.takeLineCycleFrame payload)
  else if kind = kindPollCall ∧ a = 0 then s.lengthOr .up (payload.length == 0) (s.takePollCall age)
  else if kind = kindManage ∧ a = s.part.mgmtAddr then
    s.lengthOr .up (decide (1 ≤ payload.length ∧ payload.length ≤ 124)) (s.takeManage payload age)
  else if kind = kindSectionOrder then
    match s.sectionAt a with
    | none => s
    | some i => s.lengthOr .up (payload.length == 4) (s.takeSectionOrder i payload)
  else s

/-- Hand-off at the DN port. -/
def State.handOffDn (s : State) (a kind : Byte) (payload : List Byte) (stamp : Stamp) : State :=
  if s.link.loopback then
    if kind = kindEchoTest ∧ a = 0 then s.lengthOr .dn (payload.length == 16) (s.takeEcho payload) else s
  else if kind = kindMemberReport then
    s.lengthOr .dn (payload.length == 7) (s.takeMemberReport a stamp payload)
  else s

/-- A frame that passed its check is handed off. -/
def State.handOff (s : State) (p : Side) (a kind : Byte) (payload : List Byte) (stamp : Stamp) : State :=
  match p with
  | .up => s.handOffUp a kind payload stamp.age
  | .dn => s.handOffDn a kind payload stamp

/-! ## The assembler (R7, R8) -/

/-- Put a port's assembler in a state. -/
def State.setAsm (s : State) (p : Side) (m : Assembler) : State := s.setPort p { s.port p with asm := m }

/-- The kind of a tagged entry: OVERRUN, else BREAK, else FRAMING. -/
def Entry.tagKind (e : Entry) : Option ErrorKind :=
  if e.overrun then some .overrun else if e.brk then some .brk else if e.framing then some .framing else none

/-- The check of a complete frame (R4). -/
def checkPasses (cs : List Byte) : Bool := crc16 (cs.take (cs.length - 2)) == num16 cs (cs.length - 2)

/-- The payload of a complete frame. -/
def payloadOf (cs : List Byte) : List Byte := (cs.drop 3).take (cs.length - 5)

/-- The last check character was taken (R8). -/
def State.completeFrame (s : State) (p : Side) (cs : List Byte) (stamp : Stamp) : State :=
  let t := s.setAsm p .wait
  if checkPasses cs then t.handOff p (charAt cs 0) (charAt cs 1) (payloadOf cs) stamp else t.discard p .check

/-- The open frame has all its characters: the length is known, and payload and check are there. -/
def frameComplete (cs : List Byte) : Bool := decide (3 ≤ cs.length) && decide (cs.length = (charAt cs 2).toNat + 5)

/-- An untagged unmarked character appended to the open frame (R8). -/
def State.appendChar (s : State) (p : Side) (cs : List Byte) (stamp : Stamp) : State :=
  if cs.length = 3 ∧ 124 < (charAt cs 2).toNat then (s.setAsm p .wait).discard p .length
  else if frameComplete cs then s.completeFrame p cs stamp
  else s.setAsm p (.collect cs)

/-- The open frame, if there is one, is abandoned with TRUNCATED. -/
def State.abandon (s : State) (p : Side) : State :=
  match (s.port p).asm with
  | .wait => s
  | .collect _ => (s.setAsm p .wait).discard p .truncated

/-- The filter decides on an untagged marked character. -/
def State.openFrame (s : State) (p : Side) (a : Byte) : State :=
  if s.filterKeeps p a then s.setAsm p (.collect [a]) else s

/-- A marked character taken from the FIFO. -/
def State.takeMarked (s : State) (p : Side) (data : Byte) (tag : Option ErrorKind) : State :=
  match tag with
  | none => (s.abandon p).openFrame p data
  | some k => (s.abandon p).discard p k

/-- An unmarked character taken from the FIFO. -/
def State.takeUnmarked (s : State) (p : Side) (data : Byte) (tag : Option ErrorKind) (stamp : Stamp) : State :=
  match (s.port p).asm, tag with
  | .wait, none => s
  | .wait, some k => if k = .overrun then s.latchError p .overrun else s
  | .collect cs, none => s.appendChar p (cs ++ [data]) stamp
  | .collect _, some k => (s.setAsm p .wait).discard p k

/-- A gap entry taken from the FIFO. -/
def State.takeGap (s : State) (p : Side) (overrun : Bool) : State :=
  match (s.port p).asm with
  | .wait => if overrun then s.latchError p .overrun else s
  | .collect _ => (s.setAsm p .wait).discard p (if overrun then .overrun else .truncated)

/-- An entry taken from the FIFO head (R7). -/
def State.takeEntry (s : State) (p : Side) (e : Entry) : State :=
  match e.body with
  | .gap => s.takeGap p e.overrun
  | .char data true => s.takeMarked p data e.tagKind
  | .char data false => s.takeUnmarked p data e.tagKind e.stamp

/-! ## Taking entries as long as there are some (section 1.3) -/

/-- Take up to `n` entries from the FIFO head. -/
def State.takeEntries (p : Side) : Nat → State → State
  | 0, s => s
  | n + 1, s =>
    match (s.port p).fifo with
    | [] => s
    | e :: rest => State.takeEntries p n ((s.setPort p { s.port p with fifo := rest }).takeEntry p e)

/-- The assembler takes every entry its FIFO holds; the one added place is for a gap entry its work may store. -/
def State.drain (s : State) (p : Side) : State := State.takeEntries p ((s.port p).fifo.length + 1) s

/-- Both assemblers take what their FIFOs hold. -/
def State.settle (s : State) : State := (s.drain .up).drain .dn

/-! ## Frames on a link -/

/-- A character or a return to mark reaches a port, whose assembler takes it at once (R2, R7). -/
def State.receiveNow (p : Side) (s : State) (e : LineEvent) : State := (s.receiveEvent p e).drain p

/-- A whole frame arrives, its check right, on a line at mark (R1, R4, log 19). -/
def State.receiveFrame (s : State) (p : Side) (a kind : Byte) (payload : List Byte) : State :=
  ((LineEvent.markReturn :: frameEvents a kind payload).foldl (State.receiveNow p) s.settle).settle

/-- A MANAGE frame to the management address in force (log 24). -/
def State.receiveManage (s : State) (payload : List Byte) : State :=
  s.receiveFrame .up s.part.mgmtAddr kindManage payload

/-- Line events reach a port, then its assembler takes up to `taken` entries, and the other one all it has (log 5). -/
def State.receiveRaw (s : State) (p : Side) (arrivals : List LineEvent) (taken : Nat) : State :=
  let t := State.takeEntries p taken (arrivals.foldl (fun u e => u.receiveEvent p e) s)
  match p with
  | .up => t.drain .dn
  | .dn => t.drain .up

/-- The gap timer of a port expires (R3). -/
def State.expireGap (s : State) (p : Side) : State :=
  if s.receives p && (s.port p).gapTimer.isSome then (s.setPort p (s.port p).storeGap).settle else s

end Sys2Proof.Machine
end

