-- ==== Sys2Proof/Machine/LinkCommands.lean ====
section
/-! DEFINITION. The meanings of the commands of the line, the ports, the line controller's frames, the timers, the slots
and the link test's own events (spec 01, 02, 03). An event that cannot occur in a state has no effect there (log 4). -/

namespace Sys2Proof.Machine

open Sys2Proof

/-! ## Ports -/

/-- FRAME_DISCARD (R2, R6 to R10): arrivals of any kind, and entries taken. -/
def execFrameDiscard (p : Side) (arrivals : List LineEvent) (taken : Nat) (s : State) :
    Host.Outcome State Fault Refusal :=
  .next (s.serving fun t => t.receiveRaw p arrivals taken)

/-- GAP_TIMER_EXPIRY (R3). -/
def execGapTimerExpiry (p : Side) (s : State) : Host.Outcome State Fault Refusal :=
  .next (s.serving fun t => t.expireGap p)

/-- REPLY_BURST_START (R13, R15). -/
def execReplyBurstStart (s : State) : Host.Outcome State Fault Refusal :=
  .next (s.serving fun t => t.beginReply.settle)

/-- BURST_COMPLETE (R13 to R15, R168, R175). -/
def execBurstComplete (p : Side) (s : State) : Host.Outcome State Fault Refusal :=
  .next (s.serving fun t => t.completeBurst p)

/-! ## Frames of the line controller -/

/-- LINE_CYCLE (R19, R51). -/
def execLineCycle (number command : Byte) (speed : Speed24) (s : State) : Host.Outcome State Fault Refusal :=
  .next (s.serving fun t => t.receiveFrame .up 0 kindLineCycle (number :: command :: chars24 speed))

/-- SECTION_ORDER_STOP (R20, R49, R64, R179). -/
def execSectionOrderStop (a run : Byte) (m : Speed24) (s : State) : Host.Outcome State Fault Refusal :=
  .next (s.serving fun t => t.receiveFrame .up a kindSectionOrder (run :: chars24 m))

/-- SECTION_ORDER_RUN (R20, R50, R64). -/
def execSectionOrderRun (a : Byte) (m : Speed24) (s : State) : Host.Outcome State Fault Refusal :=
  .next (s.serving fun t => t.receiveFrame .up a kindSectionOrder (1 :: chars24 m))

/-- POLL_CALL (R22 to R26, R30, R158). -/
def execPollCall (s : State) : Host.Outcome State Fault Refusal :=
  .next (s.serving fun t => t.receiveFrame .up 0 kindPollCall [])

/-! ## Timers of the cycle controller -/

/-- The loss timer runs: only in LINKED (R26). -/
def State.lossTimerRuns (s : State) : Bool := s.cyc.upState == .linked && s.cyc.lossTimer.isSome

/-- LOSS_TIMER_EXPIRY (R27, R28). -/
def execLossTimerExpiry (s : State) : Host.Outcome State Fault Refusal :=
  .next (s.serving fun t => if t.lossTimerRuns then t.takeLoss.settle else t)

/-- The local period timer expires and restarts itself (R29). -/
def State.expireLocal (s : State) : State := s.startLocal.requestStart

/-- LOCAL_PERIOD_TIMER_EXPIRY (R29). -/
def execLocalPeriodTimerExpiry (s : State) : Host.Outcome State Fault Refusal :=
  .next (s.serving fun t => if t.cyc.localTimer.isSome then t.expireLocal.settle else t)

/-! ## Slots -/

/-- The payload of a MEMBER REPORT (section 11.1). -/
def memberReportPayload (echo : Byte) (speed : Speed24) (torque : Torque16) (status : Byte) : List Byte :=
  echo :: chars24 speed ++ chars16 torque ++ [status]

/-- MEMBER_REPORT (R34). In loopback the pair is not connected to the receiver (R16). -/
def execMemberReport (source echo : Byte) (speed : Speed24) (torque : Torque16) (status : Byte) (s : State) :
    Host.Outcome State Fault Refusal :=
  .next (s.serving fun t => if t.link.loopback then t
    else t.receiveFrame .dn source kindMemberReport (memberReportPayload echo speed torque status))

/-- SLOT_END (R33, R35 to R37). -/
def execSlotEnd (s : State) : Host.Outcome State Fault Refusal :=
  .next (s.serving fun t => t.endSlot.settle)

/-! ## The link test's own events (R17) -/

/-- The next ECHO TEST frame may be sent: in loopback, the frame before it judged. -/
def State.echoSendDue (s : State) : Bool := s.link.loopback && !s.link.awaiting && s.link.sendTimer.isSome

/-- The next ECHO TEST frame is sent; its looped start bit stops the gap timer (R3, R17). -/
def State.sendEcho (s : State) : State :=
  (s.setLink (s.link.send (s.link.frameNo + 1))).setDn { s.dn with gapTimer := none }

/-- ECHO_TEST_SEND (R17). -/
def execEchoTestSend (s : State) : Host.Outcome State Fault Refusal :=
  .next (s.serving fun t => if t.echoSendDue then t.sendEcho else t)

/-- ECHO_TEST: a looped frame with this payload (R16, R17). -/
def execEchoTest (payload : List Byte) (s : State) : Host.Outcome State Fault Refusal :=
  .next (s.serving fun t => if t.link.loopback then t.receiveFrame .dn 0 kindEchoTest payload else t)

/-- ECHO_TEST_TIMEOUT (R17). -/
def execEchoTestTimeout (s : State) : Host.Outcome State Fault Refusal :=
  .next (s.serving fun t => if t.link.loopback && t.link.awaiting then (t.judgeEcho (some .missing)).settle else t)

end Sys2Proof.Machine
end

