-- ==== Sys2Proof/Machine/ManageCommands.lean ====
section
/-! DEFINITION. The meanings of the MANAGE frames: each sends its sub-kind, verb and arguments through the UP port to the
management unit (spec 09 R152 to R155, section 11.1). -/

namespace Sys2Proof.Machine

open Sys2Proof

/-! ## Sub-kinds -/

/-- ACCESS (R157, R158). -/
def execAccess (args : List Byte) (s : State) : Host.Outcome State Fault Refusal :=
  .next (s.serving fun t => t.receiveManage (0x01 :: args))

/-- CLOSE (R156). -/
def execClose (args : List Byte) (s : State) : Host.Outcome State Fault Refusal :=
  .next (s.serving fun t => t.receiveManage (0x02 :: args))

/-- SELECT (R160). -/
def execSelect (args : List Byte) (s : State) : Host.Outcome State Fault Refusal :=
  .next (s.serving fun t => t.receiveManage (0x03 :: args))

/-- READ (R161, R162). -/
def execRead (args : List Byte) (s : State) : Host.Outcome State Fault Refusal :=
  .next (s.serving fun t => t.receiveManage (0x04 :: args))

/-- WRITE (R163). -/
def execWrite (args : List Byte) (s : State) : Host.Outcome State Fault Refusal :=
  .next (s.serving fun t => t.receiveManage (0x05 :: args))

/-! ## Commands -/

/-- A COMMAND frame with a verb and its arguments. -/
def State.receiveCommand (s : State) (verb : Byte) (args : List Byte) : State :=
  s.receiveManage (0x06 :: verb :: args)

/-- ADJUST_DRAW (R74, R75, R77). -/
def execAdjustDraw (args : List Byte) (s : State) : Host.Outcome State Fault Refusal :=
  .next (s.serving fun t => t.receiveCommand 0x01 args)

/-- TRANSFER_TO_CASCADE (R80; a frame whose target mode is not CASCADE is served as what it asks). -/
def execTransferToCascade (args : List Byte) (s : State) : Host.Outcome State Fault Refusal :=
  .next (s.serving fun t => t.receiveCommand 0x02 args)

/-- TRANSFER_TO_FOLLOW (R81; a frame whose target mode is not FOLLOW is served as what it asks). -/
def execTransferToFollow (args : List Byte) (s : State) : Host.Outcome State Fault Refusal :=
  .next (s.serving fun t => t.receiveCommand 0x02 args)

/-- RELEASE_TRIP (R61, R62). -/
def execReleaseTrip (args : List Byte) (s : State) : Host.Outcome State Fault Refusal :=
  .next (s.serving fun t => t.receiveCommand 0x03 args)

/-- START_TEST (R121 to R124). -/
def execStartTest (args : List Byte) (s : State) : Host.Outcome State Fault Refusal :=
  .next (s.serving fun t => t.receiveCommand 0x04 args)

/-- STOP_TEST (R138). -/
def execStopTest (args : List Byte) (s : State) : Host.Outcome State Fault Refusal :=
  .next (s.serving fun t => t.receiveCommand 0x05 args)

/-- PAUSE_TEST (R135). -/
def execPauseTest (args : List Byte) (s : State) : Host.Outcome State Fault Refusal :=
  .next (s.serving fun t => t.receiveCommand 0x06 args)

/-- RESUME_TEST (R136). -/
def execResumeTest (args : List Byte) (s : State) : Host.Outcome State Fault Refusal :=
  .next (s.serving fun t => t.receiveCommand 0x07 args)

/-- FETCH_LOG (R149). -/
def execFetchLog (args : List Byte) (s : State) : Host.Outcome State Fault Refusal :=
  .next (s.serving fun t => t.receiveCommand 0x08 args)

/-- DROP_LOG (R147, R150). -/
def execDropLog (args : List Byte) (s : State) : Host.Outcome State Fault Refusal :=
  .next (s.serving fun t => t.receiveCommand 0x09 args)

/-- LINK_TEST (R16). -/
def execLinkTest (args : List Byte) (s : State) : Host.Outcome State Fault Refusal :=
  .next (s.serving fun t => t.receiveCommand 0x0A args)

/-- SAVE_TABLES (R172). -/
def execSaveTables (args : List Byte) (s : State) : Host.Outcome State Fault Refusal :=
  .next (s.serving fun t => t.receiveCommand 0x0B args)

/-- RESTART (R175). -/
def execRestart (args : List Byte) (s : State) : Host.Outcome State Fault Refusal :=
  .next (s.serving fun t => t.receiveCommand 0x0C args)

/-- MOVE_ADDRESS (R168). -/
def execMoveAddress (args : List Byte) (s : State) : Host.Outcome State Fault Refusal :=
  .next (s.serving fun t => t.receiveCommand 0x0D args)

/-- CLEAR_NOTICES (R169). -/
def execClearNotices (args : List Byte) (s : State) : Host.Outcome State Fault Refusal :=
  .next (s.serving fun t => t.receiveCommand 0x0E args)

/-! ## Anything else -/

/-- UNKNOWN_SUB_KIND: a whole MANAGE payload (R152, R179). -/
def execUnknownSubKind (payload : List Byte) (s : State) : Host.Outcome State Fault Refusal :=
  .next (s.serving fun t => t.receiveManage payload)

end Sys2Proof.Machine
end

