-- ==== Sys2Proof/Machine/ResetCommands.lean ====
section
/-! DEFINITION. The meanings of the commands of the supply, the reset pin, start-up and the table store (spec 10). -/

namespace Sys2Proof.Machine

open Sys2Proof

/-- SAVE_COMPLETION (R173). -/
def execSaveCompletion (outcome : SaveOutcome) (s : State) : Host.Outcome State Fault Refusal :=
  .next (s.serving fun t => t.completeSave outcome)

/-- RESET_PIN: the release of RESET# (R171, R174, R176); with no supply there is nothing to release (log 14). -/
def execResetPin (p : Straps) (s : State) : Host.Outcome State Fault Refusal :=
  .next (if s.phase = .off then s else s.takeReset (configWord p))

/-- POWER_ON (R171, R174, R176). -/
def execPowerOn (p : Straps) (s : State) : Host.Outcome State Fault Refusal := .next (s.takeReset (configWord p))

/-- COME_INTO_SERVICE: start-up finishes (R177, R178). -/
def execComeIntoService (s : State) : Host.Outcome State Fault Refusal :=
  .next (if s.phase = .startUp then s.comeIntoService.settle else s)

/-- RESET_PIN_ASSERTED: the part is held in reset, and a save in flight is cut short (R174, log 14). -/
def execResetPinAsserted (s : State) : Host.Outcome State Fault Refusal :=
  .next (if s.phase = .off then s else s.resetBlocks .held s.part.config)

/-- LOSS_OF_SUPPLY: the part stops, and a save in flight is cut short (R174, log 14). -/
def execLossOfSupply (s : State) : Host.Outcome State Fault Refusal := .next (s.resetBlocks .off s.part.config)

end Sys2Proof.Machine
end

