-- ==== Sys2Proof/Machine/Dispatch.lean ====
section
/-! DEFINITION. The dispatch: one arm per command. -/

namespace Sys2Proof.Machine

open Sys2Proof

def exec (i : Instr) (s : State) : Host.Outcome State Fault Refusal :=
  match i with
  | .frameDiscard port arrivals taken => Sys2Proof.Machine.execFrameDiscard port arrivals taken s
  | .gapTimerExpiry port => Sys2Proof.Machine.execGapTimerExpiry port s
  | .replyBurstStart => Sys2Proof.Machine.execReplyBurstStart s
  | .burstComplete port => Sys2Proof.Machine.execBurstComplete port s
  | .lineCycle cycleNo command speed => Sys2Proof.Machine.execLineCycle cycleNo command speed s
  | .sectionOrderStop address run m => Sys2Proof.Machine.execSectionOrderStop address run m s
  | .sectionOrderRun address m => Sys2Proof.Machine.execSectionOrderRun address m s
  | .pollCall => Sys2Proof.Machine.execPollCall s
  | .lossTimerExpiry => Sys2Proof.Machine.execLossTimerExpiry s
  | .localPeriodTimerExpiry => Sys2Proof.Machine.execLocalPeriodTimerExpiry s
  | .memberReport source echo speed torque status => Sys2Proof.Machine.execMemberReport source echo speed torque status s
  | .slotEnd => Sys2Proof.Machine.execSlotEnd s
  | .linkTest args => Sys2Proof.Machine.execLinkTest args s
  | .echoTestSend => Sys2Proof.Machine.execEchoTestSend s
  | .echoTest payload => Sys2Proof.Machine.execEchoTest payload s
  | .echoTestTimeout => Sys2Proof.Machine.execEchoTestTimeout s
  | .access args => Sys2Proof.Machine.execAccess args s
  | .close args => Sys2Proof.Machine.execClose args s
  | .select args => Sys2Proof.Machine.execSelect args s
  | .read args => Sys2Proof.Machine.execRead args s
  | .write args => Sys2Proof.Machine.execWrite args s
  | .adjustDraw args => Sys2Proof.Machine.execAdjustDraw args s
  | .transferToCascade args => Sys2Proof.Machine.execTransferToCascade args s
  | .transferToFollow args => Sys2Proof.Machine.execTransferToFollow args s
  | .releaseTrip args => Sys2Proof.Machine.execReleaseTrip args s
  | .startTest args => Sys2Proof.Machine.execStartTest args s
  | .pauseTest args => Sys2Proof.Machine.execPauseTest args s
  | .resumeTest args => Sys2Proof.Machine.execResumeTest args s
  | .stopTest args => Sys2Proof.Machine.execStopTest args s
  | .fetchLog args => Sys2Proof.Machine.execFetchLog args s
  | .dropLog args => Sys2Proof.Machine.execDropLog args s
  | .moveAddress args => Sys2Proof.Machine.execMoveAddress args s
  | .clearNotices args => Sys2Proof.Machine.execClearNotices args s
  | .saveTables args => Sys2Proof.Machine.execSaveTables args s
  | .saveCompletion outcome => Sys2Proof.Machine.execSaveCompletion outcome s
  | .restart args => Sys2Proof.Machine.execRestart args s
  | .resetPin straps => Sys2Proof.Machine.execResetPin straps s
  | .powerOn straps => Sys2Proof.Machine.execPowerOn straps s
  | .comeIntoService => Sys2Proof.Machine.execComeIntoService s
  | .unknownSubKind payload => Sys2Proof.Machine.execUnknownSubKind payload s
  | .resetPinAsserted => Sys2Proof.Machine.execResetPinAsserted s
  | .lossOfSupply => Sys2Proof.Machine.execLossOfSupply s

end Sys2Proof.Machine
end

