-- ==== Sys2Proof/Machine/Ticks.lean ====
section
/-! DEFINITION. One bit time (section 1.1): every running timer and every frame being sent advances, and the row of each
timer that reaches its end joins the queue (log 3, log 25, log 26). -/

namespace Sys2Proof.Machine

open Sys2Proof

/-- A timer one bit time on; a stopped one stays stopped. -/
def bump : Option Nat → Option Nat
  | none => none
  | some n => some (n + 1)

/-- A timer stands exactly at its end. -/
def atEnd (n : Nat) (t : Option Nat) : Bool := t == some n

/-- A row that falls due. -/
def due (b : Bool) (c : Instr) : List Instr := if b then [c] else []

/-- The gap timer's end: 4 character times (R3). -/
abbrev gapBits : Nat := 4 * Config.charBits

/-- A slot: 16 character times (R33). -/
abbrev slotLength : Nat := 16 * Config.charBits

/-- An ECHO TEST frame: 21 characters (R17). -/
abbrev echoLength : Nat := 21 * Config.charBits

/-- The end of an ECHO TEST frame's judgement: 8 character times after the frame (R17). -/
abbrev echoLimit : Nat := 29 * Config.charBits

/-! ## Ports -/

/-- A port sends a burst of frames: the DN port in loopback sends none (R16). -/
def State.sending (s : State) (p : Side) : Bool :=
  match p with
  | .up => s.up.driving
  | .dn => s.dn.driving && !s.link.loopback

/-- The poll list of a SLOT CALL is in force from its first character (R12, log 21). -/
def State.slotCallBegins (s : State) : State :=
  match s.dn.tx with
  | [] => s
  | f :: _ => if s.sending .dn && s.dn.sentBits == 0 then s.frameSent { f with tie := .plain } else s

/-- One bit of the head frame is sent; a frame that is not the last of its burst leaves the queue with its last bit
(R14), the last one at BURST_COMPLETE. -/
def State.sendBit (s : State) (p : Side) : State :=
  if !s.sending p then s
  else
    match (s.port p).tx with
    | [] => s
    | [_] => s.setPort p { s.port p with sentBits := (s.port p).sentBits + 1 }
    | f :: _ :: _ =>
      if f.bits ≤ (s.port p).sentBits + 1 then s.sendHead p
      else s.setPort p { s.port p with sentBits := (s.port p).sentBits + 1 }

/-- The burst of a port has been sent to its end. -/
def State.burstEnds (s : State) (p : Side) : Bool :=
  s.sending p &&
    match (s.port p).tx with
    | [f] => (s.port p).sentBits == f.bits
    | _ => false

/-- A FIFO entry one bit time older (R15, log 28). -/
def Entry.older (e : Entry) : Entry := { e with stamp := { e.stamp with age := e.stamp.age + 1 } }

/-- The timers of a port, and the age of what its FIFO holds, one bit time on. -/
def Port.bumpTimers (x : Port) : Port :=
  { x with gapTimer := bump x.gapTimer, turnaround := bump x.turnaround, fifo := x.fifo.map Entry.older }

/-- The slot position one bit time on (R33). -/
def Cycle.bumpSlot (c : Cycle) : Cycle := if c.windowOpen then { c with slotBits := c.slotBits + 1 } else c

/-- The slot of the open window ends now (R33). -/
def State.slotEnds (s : State) : Bool :=
  match s.cyc.inFlight with
  | none => false
  | some c => c.windowOpen && c.slotBits == slotLength

/-- The link test's timers one bit time on (R17). -/
def LinkTest.bumpTimers (l : LinkTest) : LinkTest :=
  { l with echoBits := if l.awaiting then l.echoBits + 1 else l.echoBits, sendTimer := bump l.sendTimer }

/-! ## The bit time -/

/-- The cycle controller's timers one bit time on. -/
def CycleCtl.bumpTimers (c : CycleCtl) : CycleCtl :=
  { c with
    lossTimer := bump c.lossTimer, localTimer := bump c.localTimer, inFlight := c.inFlight.map Cycle.bumpSlot }

/-- Every timer one bit time on. -/
def State.bumpTimers (s : State) : State :=
  (((s.setUp s.up.bumpTimers).setDn s.dn.bumpTimers).setLink s.link.bumpTimers).modCyc CycleCtl.bumpTimers

/-- The rows that fall due. -/
def State.dueRows (s : State) : List Instr :=
  due (atEnd gapBits s.up.gapTimer) (.gapTimerExpiry .up)
    ++ due (atEnd gapBits s.dn.gapTimer) (.gapTimerExpiry .dn)
    ++ due (s.burstEnds .up) (.burstComplete .up)
    ++ due (s.burstEnds .dn) (.burstComplete .dn)
    ++ due (atEnd spacingBits s.up.turnaround) .replyBurstStart
    ++ due s.slotEnds .slotEnd
    ++ due (s.link.awaiting && s.link.echoBits == echoLength) (.echoTest (echoPayload s.link.frameNo))
    ++ due (s.link.awaiting && s.link.echoBits == echoLimit) .echoTestTimeout
    ++ due (atEnd spacingBits s.link.sendTimer) .echoTestSend
    ++ due (atEnd (s.part.lossLimit * periodBits s.part.config) s.cyc.lossTimer) .lossTimerExpiry
    ++ due (atEnd (periodBits s.part.config) s.cyc.localTimer) .localPeriodTimerExpiry

/-- Rows join the queue at its tail. -/
def State.enqueue (s : State) (l : List Instr) : State := { s with pending := s.pending ++ l }

/-- One bit time of a part in service; otherwise nothing happens by itself. -/
def State.tick (s : State) : State :=
  if s.phase = .inService then
    let t := ((s.slotCallBegins.sendBit .up).sendBit .dn).bumpTimers
    t.enqueue t.dueRows
  else s

end Sys2Proof.Machine
end

