-- ==== Sys2Proof/Safety.lean ====
section
/-! DEFINITION. What the statements speak of: a port that is ready to hear a frame, what a request leaves, and the
properties every step keeps. -/

namespace Sys2Proof

/-! ## The frames of the line -/

/-- The payload of a MANAGE row's frame (section 11.1). -/
def Instr.managePayload : Instr → Option (List Byte)
  | .access args => some (0x01 :: args)
  | .close args => some (0x02 :: args)
  | .select args => some (0x03 :: args)
  | .read args => some (0x04 :: args)
  | .write args => some (0x05 :: args)
  | .adjustDraw args => some (0x06 :: 0x01 :: args)
  | .transferToCascade args => some (0x06 :: 0x02 :: args)
  | .transferToFollow args => some (0x06 :: 0x02 :: args)
  | .releaseTrip args => some (0x06 :: 0x03 :: args)
  | .startTest args => some (0x06 :: 0x04 :: args)
  | .stopTest args => some (0x06 :: 0x05 :: args)
  | .pauseTest args => some (0x06 :: 0x06 :: args)
  | .resumeTest args => some (0x06 :: 0x07 :: args)
  | .fetchLog args => some (0x06 :: 0x08 :: args)
  | .dropLog args => some (0x06 :: 0x09 :: args)
  | .linkTest args => some (0x06 :: 0x0A :: args)
  | .saveTables args => some (0x06 :: 0x0B :: args)
  | .restart args => some (0x06 :: 0x0C :: args)
  | .moveAddress args => some (0x06 :: 0x0D :: args)
  | .clearNotices args => some (0x06 :: 0x0E :: args)
  | .unknownSubKind payload => some payload
  | _ => none

/-- The commands that are not a reset, a change of supply or the end of start-up. -/
def Instr.needsService : Instr → Bool
  | .resetPin _ => false
  | .powerOn _ => false
  | .comeIntoService => false
  | .resetPinAsserted => false
  | .lossOfSupply => false
  | _ => true

end Sys2Proof

namespace Sys2Proof.Machine

open Sys2Proof

/-! ## A port that is ready -/

/-- Both FIFOs are empty: each assembler has taken what its port received. -/
def State.Quiet (s : State) : Prop := s.up.fifo = [] ∧ s.dn.fifo = []

/-- The part is in service and the UP port listens, with no frame open. -/
structure State.UpReady (s : State) : Prop where
  inService : s.phase = .inService
  quiet : s.Quiet
  waiting : s.up.asm = .wait
  listening : s.up.driving = false

/-- The part is in service and the DN port listens, with no frame open. -/
structure State.DnReady (s : State) : Prop where
  inService : s.phase = .inService
  quiet : s.Quiet
  waiting : s.dn.asm = .wait
  listening : s.link.loopback = true ∨ s.dn.driving = false

/-- A port listens to its line, at mark, with no frame open; the DN port is not in loopback. -/
structure State.Hears (s : State) (p : Side) : Prop where
  quiet : s.Quiet
  waiting : (s.port p).asm = .wait
  listening : s.receives p = true
  atMark : (s.port p).awaitMark = false
  outside : p = .dn → s.link.loopback = false

/-- The management unit takes the next MANAGE frame: no reply is pending in LINKED (R152). -/
structure State.MgmtReady (s : State) : Prop extends s.UpReady where
  free : s.cyc.upState = .linked → s.cyc.pendingReply = none

/-- A port after the last character of a frame: its gap timer runs from there, the line at mark (R3). -/
def Port.heard (x : Port) : Port := { x with gapTimer := some 0, awaitMark := false }

/-- The state in which a frame just heard is handed off. -/
def State.heard (s : State) (p : Side) : State := s.setPort p (s.port p).heard

/-- The state in which a taken MANAGE frame is served: heard, the pending-access record spent (R152). -/
def State.asked (s : State) : State := (s.heard .up).spendAccess

/-- The access level in force is at least the guard level of a section (R159). -/
def State.LevelFor (s : State) (i : Fin 16) : Prop := (s.sec i).cfg.guard.access.rank ≤ s.mgmt.access.rank

/-- A READ or WRITE finds this cursor (R161). -/
def State.CursorIs (s : State) (c : Cursor) : Prop := s.mgmt.cursor = some c ∧ c.spent = false

/-! ## A downstream cycle that may start, and a slot that ends -/

/-- Both FIFOs are empty, and no frame is open at the DN port. -/
structure State.Still (s : State) : Prop where
  quiet : s.Quiet
  waiting : s.dn.asm = .wait

/-- A start request made now is served at once (R30). -/
structure State.Free (s : State) : Prop extends s.Still where
  noCycle : s.cyc.inFlight = none
  noTest : s.link.running = false

/-- Slot `q` of cycle `c` runs (R33). -/
structure State.SlotRuns (s : State) (c : Cycle) (q : SlotRef) : Prop where
  inService : s.phase = .inService
  quiet : s.Quiet
  inFlight : s.cyc.inFlight = some c
  windowOpen : c.windowOpen = true
  slot : c.slots[c.pos]? = some q

/-- Slot `q` is the last of its section, which this cycle delivers (R36). -/
structure State.Completes (s : State) (c : Cycle) (q : SlotRef) : Prop extends s.SlotRuns c q where
  delivered : q.sec ∉ c.dropped
  last : ∀ n, c.slots[c.pos + 1]? = some n → n.sec ≠ q.sec

/-- What follows a slot whose result, and whose section's window completion, left this state: the next slot, or after
the last one the end of the cycle (R33, R37). -/
def State.afterSlot (u : State) (c : Cycle) : State :=
  if c.pos + 1 < c.slots.length then u else (u.endCycle c).settle

/-- Command `k` makes a downstream cycle start from `b`: what the command itself leaves before the start, which is served
at once (R18, R22, R28, R29, R30, R37, R178). -/
inductive State.StartsFrom (s : State) : Instr → State → Prop
  | localPeriod : s.Free → s.phase = .inService → s.cyc.localTimer ≠ none →
    StartsFrom s .localPeriodTimerExpiry s.startLocal
  | poll : s.Free → s.UpReady → StartsFrom s .pollCall ((s.heard .up).answerPoll 0)
  | loss : s.Free → s.phase = .inService → s.cyc.upState = .linked → s.cyc.lossTimer ≠ none →
    StartsFrom s .lossTimerExpiry s.afterLoss
  | cycleEnd {c : Cycle} {q : SlotRef} : s.Still → s.SlotRuns c q → c.slots.length ≤ c.pos + 1 →
    s.cyc.pendingStart = true → s.link.running = false →
    StartsFrom s .slotEnd ((s.closeSlot c q).finishCycle c)
  | testEnd : s.Still → s.phase = .inService → s.link.loopback = true → s.link.awaiting = true →
    15 ≤ s.link.frameNo → s.cyc.inFlight = none → s.cyc.pendingStart = true →
    StartsFrom s .echoTestTimeout (s.setLink (s.link.judged (some .missing))).leaveLoopback
  | testJudged {payload : List Byte} : s.Still → s.phase = .inService → s.link.loopback = true →
    s.link.awaiting = true → 15 ≤ s.link.frameNo → s.cyc.inFlight = none → s.cyc.pendingStart = true →
    payload.length = 16 → StartsFrom s (.echoTest payload)
      (s.setLink (s.link.judged (if payload = echoPayload s.link.frameNo then none else some .check))).leaveLoopback
  | service : s.Free → s.phase = .startUp → StartsFrom s .comeIntoService s.enterService

/-- A section that is RUNNING and stays so at the next start: its order age does not reach the hold limit (R53). -/
def Section.StaysRunning (x : Section) : Prop :=
  x.runState = .running ∧ min 255 (x.orderAge + 1) < x.cfg.orderHold

/-! ## Section entries in their ranges (R40, R41, R44, R72, R91) -/

/-- Settings in the ranges of R40. -/
structure Settings.Sound (c : Settings) : Prop where
  upAddr : c.upAddr.toNat ≤ 63
  memberBase : c.memberBase.toNat ≤ 63
  memberCount : 1 ≤ c.memberCount ∧ c.memberCount ≤ 4
  initDraw : -500 ≤ c.initDraw ∧ c.initDraw ≤ 500
  maxSpeed : 0 ≤ c.maxSpeed ∧ c.maxSpeed ≤ 250000
  accel : 1 ≤ c.accel ∧ c.accel ≤ 5000
  stopRamp : 1 ≤ c.stopRamp ∧ c.stopRamp ≤ 5000
  quickRamp : 1 ≤ c.quickRamp ∧ c.quickRamp ≤ 5000
  orderHold : 2 ≤ c.orderHold ∧ c.orderHold ≤ 50
  missLimit : 1 ≤ c.missLimit ∧ c.missLimit ≤ 15
  ki : 0 ≤ c.ki ∧ c.ki ≤ 1000
  deadband : 0 ≤ c.deadband ∧ c.deadband ≤ 10000
  trimLimit : 0 ≤ c.trimLimit ∧ c.trimLimit ≤ 1000
  shareEnable : 0 ≤ c.shareEnable ∧ c.shareEnable ≤ 250000

/-- A rating unset, or in its range (R41). -/
def RatingSound (v : Int) : Prop := v = 0 ∨ (100 ≤ v ∧ v ≤ 60000)

/-- A weight in its range (R41). -/
def WeightSound (v : Int) : Prop := 1 ≤ v ∧ v ≤ 100

/-- A member in its ranges, its trim within the trim limit (R41, R89, R95). -/
structure Member.Sound (m : Member) (trimLimit : Int) : Prop where
  rating : RatingSound m.rating
  weight : WeightSound m.weight
  speed : -250000 ≤ m.speed ∧ m.speed ≤ 250000
  torque : -3000 ≤ m.torque ∧ m.torque ≤ 3000
  trim : -trimLimit ≤ m.trim ∧ m.trim ≤ trimLimit

/-- What the checks of R44 leave of a present entry alone. -/
structure Section.Fit (x : Section) : Prop where
  upAddr : x.cfg.upAddr ≠ 0
  memberBase : x.cfg.memberBase ≠ 0
  aligned : x.cfg.memberBase.toNat % x.cfg.window = 0
  maxSpeed : 0 < x.cfg.maxSpeed
  rated : ∀ j : Fin 4, j.val < x.cfg.memberCount → 100 ≤ (x.member j).rating

/-- A section entry in its ranges: draw, ratios, M and A; at rest A and every trim are 0; the lead has no trim. -/
structure Section.Sound (x : Section) : Prop where
  cfg : x.cfg.Sound
  draw : -500 ≤ x.draw ∧ x.draw ≤ 500
  ratio : 900000 ≤ x.ratio ∧ x.ratio ≤ 1100000
  observed : 900000 ≤ x.observed ∧ x.observed ≤ 1100000
  master : 0 ≤ x.master ∧ x.master ≤ 250000
  orderAge : x.orderAge ≤ 255
  applied : 0 ≤ x.applied ∧ (x.present = true → x.applied ≤ x.cfg.maxSpeed)
  atRest : x.runState = .stopped ∨ x.runState = .tripped → x.applied = 0 ∧ ∀ j, (x.member j).trim = 0
  lead : (x.member 0).trim = 0
  members : ∀ j, (x.member j).Sound x.cfg.trimLimit
  fit : x.present = true → x.Fit

/-- What a save keeps of an entry, in its ranges. -/
structure SavedSection.Sound (v : SavedSection) : Prop where
  cfg : v.cfg.Sound
  ratings : ∀ j : Fin 4, RatingSound v.ratings[j]
  weights : ∀ j : Fin 4, WeightSound v.weights[j]

/-! ## Step records in their ranges (R102, R103, R105, R106) -/

/-- A condition in its ranges; a present one has a relation of its quantity's kind. -/
structure Condition.Sound (c : Condition) : Prop where
  limit : -1000000 ≤ c.limit ∧ c.limit ≤ 1000000
  band : 0 ≤ c.band ∧ c.band ≤ 50000
  settle : 1 ≤ c.settle ∧ c.settle ≤ 255
  kinds : c.present = true → c.quantity.isFlag = c.relation.isFlag

/-- A step record in its ranges: V fits the action, and RAMP and SQUARE carry no advance condition. -/
structure StepRecord.Sound (k : StepRecord) : Prop where
  v : k.action.acceptsV k.v = true
  v2 : -50000 ≤ k.v2 ∧ k.v2 ≤ 50000
  d : 1 ≤ k.d ∧ k.d ≤ 65535
  d2 : 1 ≤ k.d2 ∧ k.d2 ≤ 65535
  repeats : 1 ≤ k.repeats ∧ k.repeats ≤ 255
  noAdvance : k.action = .ramp ∨ k.action = .square → k.advance.present = false
  advance : k.advance.Sound
  abort : k.abort.Sound

/-! ## The tables as a whole -/

/-- Saved tables in their ranges. -/
structure SavedTables.Sound (t : SavedTables) : Prop where
  sections : ∀ i : Fin 16, t.sections[i].Sound
  steps : ∀ k : Fin 96, t.steps[k].Sound

/-- Every section entry and step record, and everything saved, in its ranges. -/
structure State.TablesSound (s : State) : Prop where
  sections : ∀ i, (s.sec i).Sound
  steps : ∀ k, (s.stepRec k).Sound
  snapshot : ∀ t, s.store.snapshot = some t → t.Sound
  copy : ∀ c, s.store.copy = some c → c.tables.Sound

/-! ## Buffers (R6, R14) -/

/-- No FIFO holds more entries, and no transmit queue more frames, than it has places. -/
structure State.BuffersBounded (s : State) : Prop where
  up : s.up.fifo.length ≤ 128
  dn : s.dn.fifo.length ≤ 128
  upQueue : s.up.tx.length ≤ 18
  dnQueue : s.dn.tx.length ≤ 17

/-! ## The log's numbers (R144) -/

/-- Each record's sequence number is one more, modulo 65536, than the record before it, up to the next number. -/
def Log.Numbered (l : Log) : Prop :=
  ∀ k (h : k < l.records.length), l.records[k].seq = l.nextSeq - BitVec.ofNat 16 (l.records.length - k)

/-! ## Claims, waiters and the reserve of the log (R119, R120, R127, R133, R145, R146) -/

/-- A section a runner may claim: present and RUNNING (R121, R133). -/
def Section.Live (x : Section) : Prop := x.present = true ∧ x.runState = .running

/-- A runner that was not IDLE, after an abort (R131): a record that waited is gone. -/
def Runner.abortedBy (u : Runner) (cause : AbortCause) : Runner :=
  { u with
    state := .idle, claimed := none, offset := 0, outcome := .aborted, abortCause := cause,
    pendingRecord := if u.state = .waiting then none else u.pendingRecord }

/-- Runners, claims, waiters and log agree. -/
structure State.TestsSound (s : State) : Prop where
  idle : ∀ r, (s.runner r).state = .idle → (s.runner r).claimed = none ∧ (s.runner r).offset = 0
  busy : ∀ r, (s.runner r).state ≠ .idle → (s.runner r).claimed ≠ none ∧ (s.runner r).step ≠ none
  live : ∀ r i, (s.runner r).claimed = some i → (s.sec i).Live
  once : ∀ r q i, (s.runner r).claimed = some i → (s.runner q).claimed = some i → r = q
  waiters : s.log.waiters.Nodup ∧ ∀ r, r ∈ s.log.waiters ↔ (s.runner r).state = .waiting
  held : ∀ r, (s.runner r).pendingRecord ≠ none ↔ (s.runner r).state = .waiting
  reserve : s.log.records.length + s.notIdle ≤ 64
  outOfService : s.phase ≠ .inService → ∀ r, (s.runner r).state = .idle

/-! ## The chain order list (R47, R48) -/

/-- Earlier in chain order: by depth, then by index. -/
def State.ChainBefore (s : State) (a b : Fin 16) : Prop :=
  (s.sec a).depth.getD 0 < (s.sec b).depth.getD 0 ∨ ((s.sec a).depth.getD 0 = (s.sec b).depth.getD 0 ∧ a < b)

/-- The depth of a present section: 1 for LINE, else one more than its draw base, which is present (R47). -/
def State.DepthRight (s : State) (i : Fin 16) : Prop :=
  match (s.sec i).cfg.drawBase with
  | none => (s.sec i).depth = some 1
  | some b => (s.sec b).present = true ∧ (s.sec i).depth = some ((s.sec b).depth.getD 0 + 1)

/-- The chain order list holds the present sections once each, in chain order. -/
structure State.ChainSound (s : State) : Prop where
  listed : ∀ i, i ∈ s.chain ↔ (s.sec i).present = true
  ordered : s.chain.Pairwise s.ChainBefore
  depths : ∀ i, (s.sec i).present = true → s.DepthRight i
  withdrawn : ∀ i, (s.sec i).present = false → (s.sec i).depth = none

end Sys2Proof.Machine
end

