-- ==== Sys2Proof/Certificates/Slice0/Obligations.lean ====
section
/-! DEFINITION. The statements for the provers. A statement that rests on a choice of the model names its log entry. -/

open Sys2Proof Sys2Proof.Machine

/-! ## The step -/

/-- A step takes the command at the front of the queue and runs it on the queue's rest. -/
def Obligations.StepRunsFrontCommand : Prop :=
  ∀ (s : State) (c : Instr) (rest : List Instr),
    s.pending = c :: rest → step s = exec c { s with pending := rest }

/-- A step on an empty queue is one bit time (log 3, log 25): timers that run advance, what a FIFO holds grows older
(log 28), a port that sends a burst sends one bit (a frame not the last of its burst leaves with its last bit, and a SLOT
CALL's list is in force from its first, log 21), and each row that falls due joins the queue; in loopback ECHO_TEST with
the payload sent is such a row (log 26). A part out of service does nothing by itself. -/
def Obligations.IdleStepIsOneBitTime : Prop :=
  ∀ s : State, s.pending = [] →
    (s.phase ≠ .inService → step s = .next s) ∧
    ∀ (sends : Side → Prop) (aged : Entry → Entry), s.phase = .inService →
      sends = (fun p => (s.port p).driving = true ∧ (p = .dn → s.link.loopback = false)) →
      aged = (fun e => { e with stamp := { e.stamp with age := e.stamp.age + 1 } }) →
      ((∀ p f g rest, sends p → (s.port p).tx = f :: g :: rest → f.bits ≤ (s.port p).sentBits + 1 →
          f.tie = .plain ∧ f.kind ≠ kindSlotCall) →
        ∃ (rows : List Instr) (tx : Side → List TxFrame) (sent : Side → Nat) (polls : List Byte),
          step s = .next { s with
            pending := rows
            up := { s.up with
              gapTimer := s.up.gapTimer.map (· + 1), turnaround := s.up.turnaround.map (· + 1)
              fifo := s.up.fifo.map aged, tx := tx .up, sentBits := sent .up }
            dn := { s.dn with
              gapTimer := s.dn.gapTimer.map (· + 1), turnaround := s.dn.turnaround.map (· + 1)
              fifo := s.dn.fifo.map aged, tx := tx .dn, sentBits := sent .dn }
            link := { s.link with
              echoBits := if s.link.awaiting then s.link.echoBits + 1 else s.link.echoBits
              sendTimer := s.link.sendTimer.map (· + 1) }
            cyc := { s.cyc with
              pollInForce := polls
              lossTimer := s.cyc.lossTimer.map (· + 1)
              localTimer := s.cyc.localTimer.map (· + 1)
              inFlight := s.cyc.inFlight.map fun c =>
                if c.windowOpen then { c with slotBits := c.slotBits + 1 } else c } } ∧
          (∀ p, ¬sends p ∨ (s.port p).tx = [] → tx p = (s.port p).tx ∧ sent p = (s.port p).sentBits) ∧
          (∀ p f rest, sends p → (s.port p).tx = f :: rest → rest = [] ∨ (s.port p).sentBits + 1 < f.bits →
            tx p = f :: rest ∧ sent p = (s.port p).sentBits + 1) ∧
          (∀ p f g rest, sends p → (s.port p).tx = f :: g :: rest → f.bits ≤ (s.port p).sentBits + 1 →
            tx p = g :: rest ∧ sent p = 0) ∧
          (∀ f rest, sends .dn → s.dn.tx = f :: rest → s.dn.sentBits = 0 → f.kind = kindSlotCall →
            polls = f.payload.drop 2) ∧
          (¬sends .dn ∨ s.dn.sentBits ≠ 0 ∨ (∀ f rest, s.dn.tx = f :: rest → f.kind ≠ kindSlotCall) →
            polls = s.cyc.pollInForce) ∧
          (∀ p, Instr.gapTimerExpiry p ∈ rows ↔ (s.port p).gapTimer = some 43) ∧
          (∀ p, Instr.burstComplete p ∈ rows ↔ sends p ∧ ∃ f, tx p = [f] ∧ sent p = 11 * (f.payload.length + 5)) ∧
          (Instr.replyBurstStart ∈ rows ↔ s.up.turnaround = some 21) ∧
          (Instr.slotEnd ∈ rows ↔ ∃ c, s.cyc.inFlight = some c ∧ c.windowOpen = true ∧ c.slotBits = 175) ∧
          (Instr.lossTimerExpiry ∈ rows ↔
            ∃ n, s.cyc.lossTimer = some n ∧ n + 1 = s.part.lossLimit * periodBits s.part.config) ∧
          (Instr.localPeriodTimerExpiry ∈ rows ↔
            ∃ n, s.cyc.localTimer = some n ∧ n + 1 = periodBits s.part.config) ∧
          (Instr.echoTestSend ∈ rows ↔ s.link.sendTimer = some 21) ∧
          (Instr.echoTest (echoPayload s.link.frameNo) ∈ rows ↔ s.link.awaiting = true ∧ s.link.echoBits = 230) ∧
          (Instr.echoTestTimeout ∈ rows ↔ s.link.awaiting = true ∧ s.link.echoBits = 318) ∧
          (∀ c ∈ rows, (∃ p, c = .gapTimerExpiry p) ∨ (∃ p, c = .burstComplete p) ∨ c = .replyBurstStart ∨
            c = .slotEnd ∨ c = .lossTimerExpiry ∨ c = .localPeriodTimerExpiry ∨ c = .echoTestSend ∨
            c = .echoTest (echoPayload s.link.frameNo) ∨ c = .echoTestTimeout)) ∧
      ∀ f g rest, s.up.driving = true → s.dn.driving = false → s.up.tx = f :: g :: rest →
        f.bits ≤ s.up.sentBits + 1 →
        ∃ t, step s = .next t ∧
          (∀ a, f.tie = .move a → s.mgmt.pendingMove = some a → t.part.mgmtAddr = a ∧ t.mgmt.pendingMove = none) ∧
          (f.tie = .restart → s.store.pendingRestart = true → t.phase = .startUp ∧ t.store.pendingRestart = false)

/-- Every step has a next state: no event stops the part. -/
def Obligations.NothingStopsThePart : Prop := ∀ s : State, ∃ t, step s = .next t

/-- Held in reset, starting up or without supply, the part takes no frame, timer or save completion (R176, log 14). -/
def Obligations.OutOfServiceNothingHappens : Prop :=
  ∀ (s : State) (c : Instr), c.needsService = true → s.phase ≠ .inService → exec c s = .next s

/-! ## The ports -/

/-- While a port drives its line, its receiver takes nothing of what is on the line (R13). -/
def Obligations.DrivingPortIgnoresTheLine : Prop :=
  ∀ s : State, s.Quiet →
    (s.up.driving = true →
      (∀ n c v, exec (.lineCycle n c v) s = .next s) ∧
      (∀ a r m, exec (.sectionOrderStop a r m) s = .next s) ∧
      (∀ a m, exec (.sectionOrderRun a m) s = .next s) ∧
      exec .pollCall s = .next s ∧
      (∀ (c : Instr) (pl : List Byte), c.managePayload = some pl → exec c s = .next s) ∧
      (∀ l n, exec (.frameDiscard .up l n) s = .next s)) ∧
    (s.dn.driving = true → s.link.loopback = false →
      (∀ a e v q f, exec (.memberReport a e v q f) s = .next s) ∧
      (∀ l n, exec (.frameDiscard .dn l n) s = .next s))

/-- A frame with one character changed has another check (R4); numbers of 2, 3 and 4 characters go high character first,
and read back as they were (R5). -/
def Obligations.ChecksAndNumbers : Prop :=
  (∀ (cs : List Byte) (k : Nat) (h : k < cs.length) (c : Byte), c ≠ cs[k] → crc16 (cs.set k c) ≠ crc16 cs) ∧
  (∀ v : BitVec 16, (chars16 v).map BitVec.toNat = [v.toNat / 256, v.toNat % 256] ∧ num16 (chars16 v) 0 = v) ∧
  (∀ v : BitVec 24, (chars24 v).map BitVec.toNat = [v.toNat / 65536, v.toNat / 256 % 256, v.toNat % 256] ∧
    num24 (chars24 v) 0 = v) ∧
  (∀ v : BitVec 32, (chars32 v).map BitVec.toNat =
      [v.toNat / 16777216, v.toNat / 65536 % 256, v.toNat / 256 % 256, v.toNat % 256] ∧
    num32 (chars32 v) 0 = v) ∧
  (∀ x : Int, -2147483648 ≤ x → x ≤ 2147483647 → arg (chars32 (toValue x)) 0 = x)

/-- What each kind of bad frame leaves at a port outside loopback: its kind latched, and no frame open but the one that
a marked character the filter keeps opens as it truncates another (R7 to R10; the entries are taken as they arrive,
log 5). LENGTH is the kind of a length above 124, and of a known kind handed over with a wrong length; OVERRUN that of
any entry with its tag, whatever the assembler held. -/
def Obligations.FrameErrorsAreLatched : Prop :=
  (∀ (s : State) (p : Side) (a : Byte), s.Hears p → s.filterKeeps p a = true →
    (∀ d m, ¬(d = 0 ∧ m = false) →
      exec (.frameDiscard p [.char a true true, .char d m false] 2) s =
        .next (s.setPort p { s.port p with gapTimer := some 0, lastError := .framing })) ∧
    exec (.frameDiscard p [.char a true true, .char 0 false false] 2) s =
      .next (s.setPort p { s.port p with gapTimer := none, awaitMark := true, lastError := .brk }) ∧
    (∀ b, s.filterKeeps p b = false →
      exec (.frameDiscard p [.char a true true, .char b true true] 2) s =
        .next (s.setPort p { s.port p with gapTimer := some 0, lastError := .truncated })) ∧
    (∀ b, s.filterKeeps p b = true →
      exec (.frameDiscard p [.char a true true, .char b true true] 2) s =
        .next (s.setPort p { s.port p with gapTimer := some 0, lastError := .truncated, asm := .collect [b] })) ∧
    (∀ k n, 124 < n.toNat →
      exec (.frameDiscard p [.char a true true, .char k false true, .char n false true] 3) s =
        .next (s.setPort p { s.port p with gapTimer := some 0, lastError := .length })) ∧
    (∀ k c d, c ++ d ≠ crc16 [a, k, 0] →
      exec (.frameDiscard p
        [.char a true true, .char k false true, .char 0 false true, .char c false true, .char d false true] 5) s =
        .next (s.setPort p { s.port p with gapTimer := some 0, lastError := .check })) ∧
    (∀ k pl, pl.length ≤ 123 →
      (p = .up ∧ k = 0x01 ∧ a = 0 ∧ pl.length ≠ 5) ∨ (p = .up ∧ k = 0x03 ∧ a = 0 ∧ pl ≠ []) ∨
      (p = .up ∧ k = 0x04 ∧ a = s.part.mgmtAddr ∧ pl = []) ∨
      (p = .up ∧ k = 0x02 ∧ s.sectionAt a ≠ none ∧ pl.length ≠ 4) ∨ (p = .dn ∧ k = 0x31 ∧ pl.length ≠ 7) →
      exec (.frameDiscard p (frameEvents a k pl) (pl.length + 5)) s =
        .next (s.setPort p { s.port p with gapTimer := some 0, lastError := .length }))) ∧
  ∀ (s : State) (p : Side) (e : Entry), s.phase = .inService → (p = .dn → s.link.loopback = false) →
    (∀ q, q ≠ p → (s.port q).fifo = []) → (s.port p).fifo = [e] → e.overrun = true →
    exec (.frameDiscard p [] 1) s =
      .next (s.setPort p { s.port p with fifo := [], asm := .wait, lastError := .overrun })

/-- A character is stored at the tail of a FIFO that has a place; else it is lost and the newest entry takes the
OVERRUN tag (R2, R6). -/
def Obligations.FullFifoMarksNewest : Prop :=
  ∀ (s : State) (p : Side) (d : Byte) (m : Bool),
    s.receives p = true → (s.port p).awaitMark = false → (∀ q, q ≠ p → (s.port q).fifo = []) →
    ((s.port p).fifo.length < 128 →
      exec (.frameDiscard p [.char d m true] 0) s = .next (s.setPort p { s.port p with
        gapTimer := some 0
        fifo := (s.port p).fifo ++
          [{ body := .char d m, framing := false, brk := false, overrun := false, stamp := s.stamp p }] })) ∧
    (∀ es e, (s.port p).fifo = es ++ [e] → 127 ≤ es.length →
      exec (.frameDiscard p [.char d m true] 0) s = .next (s.setPort p { s.port p with
        gapTimer := some 0, fifo := es ++ [{ e with overrun := true }] }))

/-- The gap timer expires: a gap entry, which abandons an open frame with TRUNCATED (R3, R7); with the timer stopped the
row changes nothing (log 4). -/
def Obligations.GapTimerExpiryAbandonsFrame : Prop :=
  ∀ (s : State) (p : Side), s.Quiet → s.receives p = true → (p = .dn → s.link.loopback = false) →
    ((s.port p).gapTimer = none → exec (.gapTimerExpiry p) s = .next s) ∧
    ((s.port p).gapTimer ≠ none → (s.port p).asm = .wait →
      exec (.gapTimerExpiry p) s = .next (s.setPort p { s.port p with gapTimer := none })) ∧
    (∀ cs, (s.port p).gapTimer ≠ none → (s.port p).asm = .collect cs →
      exec (.gapTimerExpiry p) s =
        .next (s.setPort p { s.port p with gapTimer := none, asm := .wait, lastError := .truncated }))

/-- The queued burst begins: the UP driver is enabled, and a frame still arriving is abandoned; when it is complete the
queue is empty, the driver released, and a move whose reply was its last frame is in force (R3, R13 to R15, R168). With
nothing queued REPLY_BURST_START, and with the driver released BURST_COMPLETE, changes nothing (log 4). -/
def Obligations.UpBurstStartsAndCompletes : Prop :=
  (∀ s : State, s.phase = .inService → s.Quiet →
    (s.up.tx = [] → exec .replyBurstStart s = .next s) ∧
    (s.up.tx ≠ [] → s.up.turnaround ≠ none → s.up.driving = false → s.up.asm = .wait →
      exec .replyBurstStart s = .next { s with
        up := { s.up with driving := true, sentBits := 0, turnaround := none, awaitMark := false, gapTimer := none } }) ∧
    (∀ cs, s.up.tx ≠ [] → s.up.turnaround ≠ none → s.up.driving = false → s.up.asm = .collect cs →
      s.up.gapTimer ≠ none →
      exec .replyBurstStart s = .next { s with
        up := { s.up with
          driving := true, sentBits := 0, turnaround := none, awaitMark := false, gapTimer := none
          asm := .wait, lastError := .truncated } })) ∧
  ∀ s : State, s.phase = .inService →
    (s.up.driving = false → exec (.burstComplete .up) s = .next s) ∧
    (s.up.driving = true → (∀ f ∈ s.up.tx, f.tie = .plain ∧ f.kind ≠ kindSlotCall) →
      exec (.burstComplete .up) s = .next { s with
        up := { s.up with tx := [], driving := false, sentBits := 0, gapTimer := none } }) ∧
    (∀ fs f a, s.up.driving = true → s.up.tx = fs ++ [f] → (∀ g ∈ fs, g.tie = .plain ∧ g.kind ≠ kindSlotCall) →
      f.tie = .move a → s.mgmt.pendingMove = some a →
      exec (.burstComplete .up) s = .next { s with
        up := { s.up with tx := [], driving := false, sentBits := 0, gapTimer := none }
        part := { s.part with mgmtAddr := a }
        mgmt := { s.mgmt with pendingMove := none } })

/-- The DN burst is complete: the driver is released, the SLOT CALL's list is in force, and the slot window opens at its
first slot (R12, R13, R15, R33). -/
def Obligations.DnBurstCompleteOpensWindow : Prop :=
  ∀ (s : State) (orders : List TxFrame) (n : Byte) (addresses : List Byte) (c : Cycle),
    s.phase = .inService → s.dn.driving = true → s.link.loopback = false →
    s.dn.tx = orders ++ [slotCall n addresses] → (∀ f ∈ orders, f.tie = .plain ∧ f.kind ≠ kindSlotCall) →
    s.cyc.inFlight = some c →
    exec (.burstComplete .dn) s = .next { s with
      dn := { s.dn with tx := [], driving := false, sentBits := 0, gapTimer := none }
      cyc := { s.cyc with
        pollInForce := addresses, inFlight := some { c with windowOpen := true, pos := 0, slotBits := 0 } } }

/-! ## Frames of the line controller -/

/-- A LINE CYCLE stores its number, its command (an unknown code is QUICK STOP) and its speed, clamped with a notice; it
reaches nothing but these, the sections, the tests and their log (R19, R51). -/
def Obligations.LineCycleStores : Prop :=
  ∀ (s : State) (n c : Byte) (v : Speed24), s.UpReady →
    ∃ t, exec (.lineCycle n c v) s = .next t ∧
      t = { s.heard .up with
        cyc := { s.cyc with
          lastUpCycle := n
          lineCommand := if c = 0 then .stop else if c = 1 then .run else .quickStop
          lineSpeed := max 0 (min 250000 v.toInt) }
        sections := t.sections, runners := t.runners, log := t.log, freeUses := t.freeUses
        part := { s.part with notices := { s.part.notices with
          lineClamped := s.part.notices.lineClamped || decide (v.toInt < 0 ∨ 250000 < v.toInt)
          testEnded := t.part.notices.testEnded } } }

/-- A LINE CYCLE with STOP or QUICK STOP acts on the run states; the runner of a section that leaves RUNNING aborts, and
no other runner changes (R51, R131, R133). -/
def Obligations.LineStopsSections : Prop :=
  ∀ (s : State) (n c : Byte) (v : Speed24) (i : Fin 16), s.UpReady →
    ∃ t, exec (.lineCycle n c v) s = .next t ∧
      (c = 1 ∨ (s.sec i).present = false ∨ (s.sec i).runState = .stopped ∨ (s.sec i).runState = .tripped →
        t.sec i = s.sec i) ∧
      (c = 0 → (s.sec i).present = true →
        ((s.sec i).runState = .running ∨ ((s.sec i).runState = .stopping ∧
            ((s.sec i).cause = .request ∨ (s.sec i).cause = .orderLost)) →
          t.sec i = { s.sec i with
            runState := .stopping, cause := .lineStop, causeSlot := none, stopSeen := false }) ∧
        ((s.sec i).runState = .stopping → (s.sec i).cause ≠ .request → (s.sec i).cause ≠ .orderLost →
          t.sec i = s.sec i)) ∧
      (c ≠ 0 → c ≠ 1 → (s.sec i).present = true →
        ((s.sec i).runState = .running ∨ ((s.sec i).runState = .stopping ∧
            ((s.sec i).cause = .request ∨ (s.sec i).cause = .orderLost)) →
          t.sec i = { s.sec i with
            runState := .stopping, cause := .quickStop, causeSlot := none, stopSeen := false }) ∧
        ((s.sec i).runState = .stopping → (s.sec i).cause = .lineStop →
          t.sec i = { s.sec i with cause := .quickStop }) ∧
        ((s.sec i).runState = .stopping → (s.sec i).cause = .quickStop ∨ (s.sec i).cause = .upstreamLoss →
          t.sec i = s.sec i)) ∧
      (∀ r j, (s.runner r).state ≠ .idle → (s.runner r).claimed = some j → (s.sec j).present = true →
        (s.sec j).runState = .running → c ≠ 1 → t.runner r = (s.runner r).abortedBy .sectionLeftRunning) ∧
      (∀ r, ((s.runner r).state = .idle ∨ c = 1 ∨ (s.runner r).claimed = none ∨
          ∃ j, (s.runner r).claimed = some j ∧ ((s.sec j).present = false ∨ (s.sec j).runState ≠ .running)) →
        t.runner r = s.runner r)

/-- A SECTION ORDER with STOP: order age 0, M stored, the run state by its table, start-refused cause as it was; with
RUN, age and M likewise; an order for no present section changes nothing (R11, R20, R49, R64, R133). -/
def Obligations.SectionOrderStop : Prop :=
  ∀ (s : State) (a : Byte) (m : Speed24), s.UpReady →
    (∀ i, s.sectionAt a = some i →
      (∀ run, run ≠ 1 → ∃ t, exec (.sectionOrderStop a run m) s = .next t ∧
        ((s.sec i).runState = .stopped → t.sec i = { s.sec i with
          orderAge := 0, master := max 0 (min 250000 m.toInt), stopSeen := true }) ∧
        ((s.sec i).runState = .running → t.sec i = { s.sec i with
          orderAge := 0, master := max 0 (min 250000 m.toInt), stopSeen := true
          runState := .stopping, cause := .request, causeSlot := none }) ∧
        ((s.sec i).runState = .stopping → (s.sec i).cause = .request → t.sec i = { s.sec i with
          orderAge := 0, master := max 0 (min 250000 m.toInt), stopSeen := true }) ∧
        ((s.sec i).runState = .stopping ∧ (s.sec i).cause ≠ .request ∨ (s.sec i).runState = .tripped →
          t.sec i = { s.sec i with orderAge := 0, master := max 0 (min 250000 m.toInt) }) ∧
        (∀ j, j ≠ i → t.sec j = s.sec j) ∧
        (∀ r, s.claimant i = some r → (s.sec i).runState = .running →
          t.runner r = (s.runner r).abortedBy .sectionLeftRunning ∧ t.part.notices.testEnded = true ∧
          ∀ q, q ≠ r → t.runner q = s.runner q) ∧
        (s.claimant i = none ∨ (s.sec i).runState ≠ .running → t = (s.heard .up).setSec i (t.sec i)) ∧
        t = { s.heard .up with
          sections := t.sections, runners := t.runners, log := t.log
          part := { s.part with notices := { s.part.notices with testEnded := t.part.notices.testEnded } } }) ∧
      (∃ t, exec (.sectionOrderRun a m) s = .next t ∧ (t.sec i).orderAge = 0 ∧
        (t.sec i).master = max 0 (min 250000 m.toInt))) ∧
    (s.sectionAt a = none →
      (∀ run, exec (.sectionOrderStop a run m) s = .next (s.heard .up)) ∧
      exec (.sectionOrderRun a m) s = .next (s.heard .up))

/-- A SECTION ORDER with RUN: the start conditions in their order, the start, and RUN in the other run states (R50,
R62). -/
def Obligations.SectionOrderRun : Prop :=
  ∀ (s : State) (a : Byte) (m : Speed24) (i : Fin 16), s.UpReady → s.sectionAt a = some i →
    ∃ x, exec (.sectionOrderRun a m) s = .next ((s.heard .up).setSec i
        { x with orderAge := 0, master := max 0 (min 250000 m.toInt) }) ∧
      ((s.sec i).runState = .running ∨ (s.sec i).runState = .tripped → x = s.sec i) ∧
      ((s.sec i).runState = .stopping → (s.sec i).cause = .request → x = { s.sec i with
        runState := .running, cause := .none, causeSlot := none, refused := .none, refusedSlot := none }) ∧
      ((s.sec i).runState = .stopping → (s.sec i).cause ≠ .request → x = { s.sec i with
        refused := .noStopSeen, refusedSlot := none }) ∧
      ((s.sec i).runState = .stopped → s.cyc.lineCommand ≠ .run → x = { s.sec i with
        refused := .lineNotRun, refusedSlot := none }) ∧
      ((s.sec i).runState = .stopped → s.cyc.lineCommand = .run → (s.sec i).stopSeen = false → x = { s.sec i with
        refused := .noStopSeen, refusedSlot := none }) ∧
      (∀ j : Fin 4, (s.sec i).runState = .stopped → s.cyc.lineCommand = .run → (s.sec i).stopSeen = true →
        j.val < (s.sec i).cfg.memberCount → ((s.sec i).member j).state ≠ .active →
        (∀ k, k < j → ((s.sec i).member k).state = .active) →
        x = { s.sec i with refused := .memberNotActive, refusedSlot := some j }) ∧
      (∀ j : Fin 4, (s.sec i).runState = .stopped → s.cyc.lineCommand = .run → (s.sec i).stopSeen = true →
        (∀ k : Fin 4, k.val < (s.sec i).cfg.memberCount → ((s.sec i).member k).state = .active) →
        j.val < (s.sec i).cfg.memberCount →
        (((s.sec i).member j).status.ready = false ∨ ((s.sec i).member j).status.fault = true) →
        (∀ k, k < j → ((s.sec i).member k).status.ready = true ∧ ((s.sec i).member k).status.fault = false) →
        x = { s.sec i with refused := .memberNotReady, refusedSlot := some j }) ∧
      ((s.sec i).runState = .stopped → s.cyc.lineCommand = .run → (s.sec i).stopSeen = true →
        (∀ k : Fin 4, k.val < (s.sec i).cfg.memberCount → ((s.sec i).member k).state = .active ∧
          ((s.sec i).member k).status.ready = true ∧ ((s.sec i).member k).status.fault = false) →
        (s.link.running = true → x = { s.sec i with refused := .linkTest, refusedSlot := none }) ∧
        (s.link.running = false → x = { s.sec i with
          runState := .running, cause := .none, causeSlot := none, refused := .none, refusedSlot := none
          release := .off }))

/-! ## Polls, loss and the local period -/

/-- A valid POLL CALL: LINKED with the loss timer from zero, the access record counted, the reply burst queued if the
UP queue is empty, and one start request (R22, R25, R26, R30, R158). The reply spacing counts from the end of the frame
(R15), so less of it is left for a frame taken late from the FIFO; one taken 22 bit times after its end or later is answered
in the next bit time (log 28). -/
def Obligations.PollCall : Prop :=
  (∀ s : State, s.UpReady → s.dn.asm = .wait →
    ∃ t, exec .pollCall s = .next t ∧
      t.cyc.upState = .linked ∧ t.cyc.lossTimer = some 0 ∧ t.cyc.localTimer = none ∧
      (s.mgmt.pendingAccess = none → t.mgmt = s.mgmt) ∧
      (∀ l, s.mgmt.pendingAccess = some { level := l, polls := 0 } →
        t.mgmt = { s.mgmt with pendingAccess := some { level := l, polls := 1 } }) ∧
      (∀ l k, s.mgmt.pendingAccess = some { level := l, polls := k + 1 } →
        t.mgmt = { s.mgmt with pendingAccess := none }) ∧
      (s.up.tx ≠ [] → t.up = s.up.heard ∧ t.cyc.pendingReply = s.cyc.pendingReply) ∧
      (s.up.tx = [] → t.cyc.pendingReply = none ∧
        t.up = { s.up.heard with tx := t.up.tx, turnaround := some 0 }) ∧
      (s.cyc.inFlight = none → s.link.running = false →
        t.cyc.cycleNumber = s.cyc.cycleNumber + 1 ∧ t.cyc.cycleCount = s.cyc.cycleCount + 1 ∧
        t.cyc.pendingStart = false ∧
        t = { s with
          up := t.up, dn := t.dn, cyc := t.cyc, mgmt := t.mgmt
          sections := t.sections, runners := t.runners, log := t.log, freeUses := t.freeUses
          part := { s.part with notices := { s.part.notices with testEnded := t.part.notices.testEnded } } } ∧
        s.StartsFrom .pollCall { s with
          up := t.up, mgmt := t.mgmt
          cyc := { s.cyc with
            upState := .linked, lossTimer := some 0, localTimer := none, pendingReply := t.cyc.pendingReply } }) ∧
      (s.cyc.inFlight ≠ none ∨ s.link.running = true →
        t = { s with
          up := t.up, mgmt := t.mgmt
          cyc := { s.cyc with
            upState := .linked, lossTimer := some 0, localTimer := none, pendingStart := true
            pendingReply := t.cyc.pendingReply } })) ∧
  ∀ (s : State) (n : Nat), s.phase = .inService → s.up.asm = .wait → s.up.tx = [] → s.dn.fifo = [] → s.dn.asm = .wait →
    s.up.fifo = (frameChars 0 0x03 []).mapIdx (fun k x =>
      { body := .char x (decide (k = 0)), framing := false, brk := false, overrun := false
        stamp := { slot := none, age := n + 11 * (4 - k) } }) →
    ∃ t, exec (.frameDiscard .up [] 5) s = .next t ∧
      t.up = { s.up with fifo := [], tx := t.up.tx, turnaround := some (min n 21) } ∧ t.up.tx ≠ [] ∧
      t.cyc.upState = .linked ∧ t.cyc.lossTimer = some 0 ∧ t.cyc.pendingReply = none

/-- The reply burst of a POLL CALL: a SECTION REPORT of each present section in ascending order from its own address
with its image, the PART REPORT from the management address, the pending MANAGE REPLY; and every position of both reports,
in the codes of R166 and R170 (R23, R24, R170). -/
def Obligations.ReplyBurstFrames : Prop :=
  (∀ s : State, s.UpReady → s.dn.asm = .wait → s.up.tx = [] →
    ∃ t reports part, exec .pollCall s = .next t ∧
      t.up.tx = reports ++ part :: (s.cyc.pendingReply.map fun r => manageReply s.part.mgmtAddr r).toList ∧
      reports.map TxFrame.address = s.presentSecs.map (fun i => (s.sec i).cfg.upAddr) ∧
      reports = s.presentSecs.map (fun i => sectionReport (s.sec i).cfg.upAddr (s.image i)) ∧
      (∀ i g, s.cyc.images[i] = some g → s.image i = g) ∧
      part.address = s.part.mgmtAddr ∧ part.kind = 0x12 ∧ part.payload.length = 30 ∧
      charAt part.payload 0 = s.part.config ∧ charAt part.payload 1 = s.part.mgmtAddr ∧
      (charAt part.payload 2).toNat = s.mgmt.access.rank ∧ charAt part.payload 3 = 1 ∧
      charAt part.payload 4 = s.cyc.lastUpCycle ∧ num32 part.payload 5 = s.cyc.cycleCount ∧
      charAt part.payload 9 = BitVec.ofNat 8 s.part.lossLimit ∧
      (part.payload.drop 10).take 6 = [s.part.notices.upstreamLoss, s.part.notices.storeInvalid,
        s.part.notices.overrun, s.part.notices.lineClamped, s.part.notices.sectionTrip,
        s.part.notices.testEnded].map (fun b => if b then 1 else 0) ∧
      (part.payload.drop 16).take 4 = [toByte s.up.lastError.code, toByte s.dn.lastError.code,
        BitVec.ofNat 8 s.log.records.length, BitVec.ofNat 8 (64 - s.log.records.length)] ∧
      (part.payload.drop 20).take 4 = [0, 1, 2, 3].map (fun r => toByte (s.runner r).state.code) ∧
      part.payload.drop 24 = [toByte s.store.state.code, toByte s.store.lastSave.code,
        if s.link.running then 1 else 0, toByte s.link.result.code, toByte s.link.result.badCode,
        toByte s.link.result.firstCode]) ∧
  ∀ (a : Byte) (g : Image) (p : List Byte), p = (sectionReport a g).payload →
    (sectionReport a g).address = a ∧ (sectionReport a g).kind = 0x11 ∧ p.length = 14 ∧
    charAt p 0 = toByte g.runState.code ∧ charAt p 1 = toByte g.source.code ∧
    (charAt p 2).toNat = (if g.flags.ramping then 1 else 0) + (if g.flags.saturated then 2 else 0) +
      (if g.flags.ratioLimit then 4 else 0) + (if g.flags.trimLimit then 8 else 0) +
      (if g.flags.degraded then 16 else 0) ∧
    charAt p 3 = toByte g.cause.code ∧
    charAt p 4 = (match g.causeSlot with
      | none => 0xFF
      | some j => BitVec.ofNat 8 j.val) ∧
    num24 p 5 = BitVec.ofInt 24 g.applied ∧ num24 p 8 = BitVec.ofInt 24 g.leadSpeed ∧
    num16 p 11 = BitVec.ofInt 16 g.load ∧
    charAt p 13 = (match g.runner with
      | none => 0xFF
      | some r => BitVec.ofNat 8 r.val)

/-- The loss timer expires in LINKED: the state `b` in LOST at MONITOR, no reply pending (and with it no move or restart
that waits on it, log 11), every section by its table, every test aborted, the local period timer started, and one start
request from there: deferred, or served at once with every section's cause and stop-seen as the table left them
(R26 to R29, R52, R134, R156, R168, R175); in any other state, or with the timer stopped, nothing (log 4). -/
def Obligations.UpstreamLoss : Prop :=
  ∀ s : State, s.phase = .inService → s.Quiet → s.dn.asm = .wait →
    (s.cyc.upState ≠ .linked ∨ s.cyc.lossTimer = none → exec .lossTimerExpiry s = .next s) ∧
    (s.cyc.upState = .linked → s.cyc.lossTimer ≠ none →
      ∃ b t, exec .lossTimerExpiry s = .next t ∧
        b = { s with
          cyc := { s.cyc with upState := .lost, lossTimer := none, localTimer := some 0, pendingReply := none }
          mgmt := { s.mgmt with access := .monitor, pendingAccess := none, pendingMove := b.mgmt.pendingMove }
          store := { s.store with pendingRestart := b.store.pendingRestart }
          sections := b.sections, runners := b.runners, log := b.log, freeUses := b.freeUses
          part := { s.part with notices := { s.part.notices with
            upstreamLoss := true, testEnded := b.part.notices.testEnded } } } ∧
        (∀ r a, s.cyc.pendingReply = some r → r.tie = .move a → b.mgmt.pendingMove = none) ∧
        ((∀ r a, s.cyc.pendingReply = some r → r.tie ≠ .move a) → b.mgmt.pendingMove = s.mgmt.pendingMove) ∧
        (∀ r, s.cyc.pendingReply = some r → r.tie = .restart → b.store.pendingRestart = false) ∧
        ((∀ r, s.cyc.pendingReply = some r → r.tie ≠ .restart) →
          b.store.pendingRestart = s.store.pendingRestart) ∧
        (∀ r, (s.runner r).state ≠ .idle → b.runner r = (s.runner r).abortedBy .upstreamLoss) ∧
        (∀ r, (s.runner r).state = .idle → b.runner r = s.runner r) ∧
        ((∃ r, (s.runner r).state ≠ .idle) → b.part.notices.testEnded = true) ∧
        (∀ i,
          ((s.sec i).present = false → b.sec i = s.sec i) ∧
          ((s.sec i).present = true → (s.sec i).runState = .running → b.sec i = { s.sec i with
            runState := .stopping, cause := .upstreamLoss, causeSlot := none, stopSeen := false }) ∧
          ((s.sec i).present = true → (s.sec i).runState = .stopping → (s.sec i).cause ≠ .quickStop →
            b.sec i = { s.sec i with cause := .upstreamLoss, stopSeen := false }) ∧
          ((s.sec i).present = true → (s.sec i).runState = .stopping → (s.sec i).cause = .quickStop →
            b.sec i = { s.sec i with stopSeen := false }) ∧
          ((s.sec i).present = true → (s.sec i).runState = .stopped ∨ (s.sec i).runState = .tripped →
            b.sec i = { s.sec i with stopSeen := false })) ∧
        (s.cyc.inFlight ≠ none ∨ s.link.running = true →
          t = { b with cyc := { b.cyc with pendingStart := true } }) ∧
        (s.cyc.inFlight = none → s.link.running = false →
          s.StartsFrom .lossTimerExpiry b ∧
          t = { b with
            dn := t.dn, sections := t.sections, freeUses := t.freeUses
            cyc := { b.cyc with
              cycleNumber := s.cyc.cycleNumber + 1, cycleCount := s.cyc.cycleCount + 1, pendingStart := false
              inFlight := t.cyc.inFlight } } ∧
          ∀ i, (t.sec i).cause = (b.sec i).cause ∧ (t.sec i).causeSlot = (b.sec i).causeSlot ∧
            (t.sec i).stopSeen = (b.sec i).stopSeen))

/-- The local period timer restarts itself at its expiry and makes a start request, which a cycle in flight or a link
test defers (R29, R30); a stopped timer does not expire, and the row changes nothing (log 4). -/
def Obligations.LocalPeriodRequestsStart : Prop :=
  ∀ s : State, s.phase = .inService → s.Quiet → s.dn.asm = .wait →
    (s.cyc.localTimer = none → exec .localPeriodTimerExpiry s = .next s) ∧
    (s.cyc.localTimer ≠ none → s.cyc.inFlight ≠ none ∨ s.link.running = true →
      exec .localPeriodTimerExpiry s = .next { s with
        cyc := { s.cyc with localTimer := some 0, pendingStart := true } }) ∧
    (s.cyc.localTimer ≠ none → s.cyc.inFlight = none → s.link.running = false →
      ∃ t, exec .localPeriodTimerExpiry s = .next t ∧ t.cyc.localTimer = some 0 ∧ t.cyc.pendingStart = false ∧
        t.cyc.cycleNumber = s.cyc.cycleNumber + 1 ∧ t.cyc.cycleCount = s.cyc.cycleCount + 1 ∧
        s.StartsFrom .localPeriodTimerExpiry { s with cyc := { s.cyc with localTimer := some 0 } })

/-! ## Downstream cycle starts -/

/-- A downstream cycle start, from the state `b` that its command leaves (the local period timer's expiry, a POLL CALL,
the loss event, the end of a cycle or of a link test with a start deferred, or the entry into service): the numbers
advance, order ages count, window results clear, and the DN driver is enabled with one MEMBER ORDER per present section and
the SLOT CALL of every member address in order; with no section present nothing is sent and no cycle is in flight
(R31, R32, R53, R55, R99). -/
def Obligations.CycleStartSendsOrders : Prop :=
  ∀ (s b : State) (k : Instr), s.StartsFrom k b → s.ChainSound → s.TablesSound →
    ∃ t, exec k s = .next t ∧
      t = { b with
        sections := t.sections, runners := t.runners, log := t.log, freeUses := t.freeUses, dn := t.dn
        part := { b.part with notices := { b.part.notices with testEnded := t.part.notices.testEnded } }
        cyc := { b.cyc with
          cycleNumber := b.cyc.cycleNumber + 1, cycleCount := b.cyc.cycleCount + 1
          pendingStart := false, inFlight := t.cyc.inFlight } } ∧
      (b.presentSecs = [] → t.dn = b.dn ∧ t.cyc.inFlight = none) ∧
      (b.presentSecs ≠ [] →
        t.dn = { b.dn with
          tx := t.dn.tx, driving := true, sentBits := 0, turnaround := none, awaitMark := false, gapTimer := none } ∧
        ∃ slots orders,
          t.cyc.inFlight = some
            { slots := slots, windowOpen := false, pos := 0, slotBits := 0, report := none, dropped := [] } ∧
          slots.map SlotRef.address = b.presentSecs.flatMap (fun i =>
            (List.range (b.sec i).cfg.memberCount).map fun j => (b.sec i).cfg.memberBase + BitVec.ofNat 8 j) ∧
          slots.map SlotRef.sec = b.presentSecs.flatMap (fun i => List.replicate (b.sec i).cfg.memberCount i) ∧
          t.dn.tx = orders ++ [slotCall (b.cyc.cycleNumber + 1) (slots.map SlotRef.address)] ∧
          orders.map TxFrame.address = b.presentSecs.map fun i => (b.sec i).cfg.memberBase) ∧
      ∀ i,
        ((b.sec i).present = false → t.sec i = b.sec i) ∧
        ((b.sec i).present = true → (t.sec i).orderAge = min 255 ((b.sec i).orderAge + 1) ∧
          ∀ j, ((t.sec i).member j).result = .none ∧
            (j.val < (b.sec i).cfg.memberCount → ((t.sec i).member j).faultReset = false))

/-- What a MEMBER ORDER carries: the cycle number, the member count, and for each slot its control character (slot, RUN,
fault reset) and its speed reference; a LOST member gets STOP and 0 (R97, R98, R99, R180). -/
def Obligations.MemberOrderEntries : Prop :=
  ∀ (s b : State) (k : Instr) (i : Fin 16), s.StartsFrom k b → s.TablesSound → (b.sec i).present = true →
    ∃ t f, exec k s = .next t ∧ f ∈ t.dn.tx ∧
      f.address = (b.sec i).cfg.memberBase ∧ f.kind = 0x21 ∧
      f.payload.length = 2 + 4 * (b.sec i).cfg.memberCount ∧
      charAt f.payload 0 = b.cyc.cycleNumber + 1 ∧ (charAt f.payload 1).toNat = (b.sec i).cfg.memberCount ∧
      ∀ j : Fin 4, j.val < (b.sec i).cfg.memberCount →
        (((b.sec i).member j).state = .lost → (num24 f.payload (3 + 4 * j.val)).toInt = 0) ∧
        (((b.sec i).member j).state ≠ .lost → j = 0 →
          (num24 f.payload (3 + 4 * j.val)).toInt = (t.sec i).applied) ∧
        (((b.sec i).member j).state ≠ .lost → j ≠ 0 →
          (num24 f.payload (3 + 4 * j.val)).toInt =
            max 0 (min (b.sec i).cfg.maxSpeed ((t.sec i).applied + ((t.sec i).member j).trim))) ∧
        (charAt f.payload (2 + 4 * j.val)).toNat = j.val +
          (if ((b.sec i).member j).state ≠ .lost ∧ ((t.sec i).runState = .running ∨
              ((t.sec i).runState = .stopping ∧ 0 < (t.sec i).applied)) then 16 else 0) +
          (if ((b.sec i).member j).faultReset then 32 else 0)

/-- ORDER LOST at a start, before the computation: a section whose order age reaches its hold limit leaves RUNNING and
its test aborts; under STOPPING by REQUEST the cause changes; a STOPPING section whose A is then 0 is STOPPED (R53, R72,
R133). -/
def Obligations.OrderLostAtStart : Prop :=
  ∀ (s b : State) (k : Instr) (i : Fin 16), s.StartsFrom k b → s.ChainSound → (b.sec i).present = true →
    ∃ t, exec k s = .next t ∧
      ((b.sec i).StaysRunning → (t.sec i).runState = .running ∧ (t.sec i).cause = (b.sec i).cause ∧
        ∀ r, (b.runner r).claimed = some i → t.runner r = b.runner r) ∧
      ((b.sec i).runState = .running → ¬(b.sec i).StaysRunning →
        (t.sec i).cause = .orderLost ∧ (t.sec i).causeSlot = none ∧ (t.sec i).stopSeen = false ∧
        ∀ r, (b.runner r).state ≠ .idle → (b.runner r).claimed = some i →
          t.runner r = (b.runner r).abortedBy .sectionLeftRunning) ∧
      ((b.sec i).runState = .stopping → (b.sec i).cause = .request →
        (b.sec i).cfg.orderHold ≤ min 255 ((b.sec i).orderAge + 1) →
        (t.sec i).cause = .orderLost ∧ (t.sec i).stopSeen = false) ∧
      ((b.sec i).runState = .stopping → ((b.sec i).cause ≠ .request ∨
          min 255 ((b.sec i).orderAge + 1) < (b.sec i).cfg.orderHold) →
        (t.sec i).cause = (b.sec i).cause ∧ (t.sec i).stopSeen = (b.sec i).stopSeen) ∧
      ((b.sec i).runState = .stopping ∨ ((b.sec i).runState = .running ∧ ¬(b.sec i).StaysRunning) →
        (t.sec i).runState = if (t.sec i).applied = 0 then .stopped else .stopping) ∧
      ((b.sec i).runState = .stopped ∨ (b.sec i).runState = .tripped →
        (t.sec i).runState = (b.sec i).runState ∧ (t.sec i).cause = (b.sec i).cause ∧
        (t.sec i).stopSeen = (b.sec i).stopSeen)

/-- The ratio a start forms: from the base formed at this same start and the draw in CASCADE; observed, or held, in
FOLLOW (R65 to R68). -/
def Obligations.RatioFormed : Prop :=
  ∀ (s b : State) (k : Instr) (i : Fin 16), s.StartsFrom k b → s.ChainSound → (b.sec i).present = true →
    ∃ (t : State) (base exact obs : Int), exec k s = .next t ∧
      ((b.sec i).cfg.drawBase = none → base = 1000000) ∧
      (∀ d, (b.sec i).cfg.drawBase = some d → base = (t.sec d).ratio) ∧
      exact = (2 * (base * (10000 + (b.sec i).draw)) + 10000) / 20000 ∧
      obs = (2 * ((b.sec i).master * 1000000) + b.cyc.lineSpeed) / (2 * b.cyc.lineSpeed) ∧
      (t.sec i).draw = (b.sec i).draw ∧
      ((b.sec i).source = .cascade →
        (t.sec i).ratio = max 900000 (min 1100000 exact) ∧ (t.sec i).observed = (b.sec i).observed ∧
        ((t.sec i).flags.ratioLimit = true ↔ exact < 900000 ∨ 1100000 < exact)) ∧
      ((b.sec i).source = .follow → (b.sec i).StaysRunning → 1000 ≤ b.cyc.lineSpeed → 0 < (b.sec i).master →
        (t.sec i).ratio = max 900000 (min 1100000 obs) ∧ (t.sec i).observed = (t.sec i).ratio ∧
        ((t.sec i).flags.ratioLimit = true ↔ obs < 900000 ∨ 1100000 < obs)) ∧
      ((b.sec i).source = .follow →
        ¬((b.sec i).StaysRunning ∧ 1000 ≤ b.cyc.lineSpeed ∧ 0 < (b.sec i).master) →
        (t.sec i).ratio = (b.sec i).observed ∧ (t.sec i).observed = (b.sec i).observed ∧
        (t.sec i).flags.ratioLimit = (b.sec i).flags.ratioLimit)

/-- The target a start forms, in every run state: L × R / 1,000,000 rounded half up in CASCADE, M in FOLLOW. -/
def Obligations.TargetFormed : Prop :=
  ∀ (s b : State) (k : Instr) (i : Fin 16), s.StartsFrom k b → s.ChainSound → (b.sec i).present = true →
    ∃ t, exec k s = .next t ∧
      ((b.sec i).source = .cascade →
        2000000 * (t.sec i).target ≤ 2 * (b.cyc.lineSpeed * (t.sec i).ratio) + 1000000 ∧
        2 * (b.cyc.lineSpeed * (t.sec i).ratio) + 1000000 < 2000000 * ((t.sec i).target + 1) ∧
        (b.cyc.lineSpeed = 0 → (t.sec i).target = 0)) ∧
      ((b.sec i).source = .follow → (t.sec i).target = (b.sec i).master)

/-- Goal, SATURATED, ramp limiter and RAMPING at a start, and the entry to STOPPED where A reaches 0 (R54, R70 to R72,
R91). -/
def Obligations.GoalAndRamp : Prop :=
  ∀ (s b : State) (k : Instr) (i : Fin 16), s.StartsFrom k b → s.ChainSound → s.TablesSound → (b.sec i).present = true →
    ∃ (t : State) (goal step : Int), exec k s = .next t ∧
      goal = max 0 (min (b.sec i).cfg.maxSpeed ((t.sec i).target + b.offsetOf i)) ∧
      (((t.sec i).cause = .quickStop ∨ (t.sec i).cause = .upstreamLoss) → step = (b.sec i).cfg.quickRamp) ∧
      ((t.sec i).cause ≠ .quickStop → (t.sec i).cause ≠ .upstreamLoss → step = (b.sec i).cfg.stopRamp) ∧
      ((b.sec i).StaysRunning →
        ((b.sec i).applied + (b.sec i).cfg.accel < goal →
          (t.sec i).applied = (b.sec i).applied + (b.sec i).cfg.accel) ∧
        (goal < (b.sec i).applied - (b.sec i).cfg.accel →
          (t.sec i).applied = (b.sec i).applied - (b.sec i).cfg.accel) ∧
        (goal ≤ (b.sec i).applied + (b.sec i).cfg.accel → (b.sec i).applied - (b.sec i).cfg.accel ≤ goal →
          (t.sec i).applied = goal) ∧
        ((t.sec i).flags.ramping = true ↔ (t.sec i).applied ≠ goal) ∧
        ((t.sec i).flags.saturated = true ↔
          (t.sec i).target + b.offsetOf i < 0 ∨ (b.sec i).cfg.maxSpeed < (t.sec i).target + b.offsetOf i)) ∧
      ((b.sec i).runState = .stopping ∨ ((b.sec i).runState = .running ∧ ¬(b.sec i).StaysRunning) →
        (t.sec i).flags.saturated = false ∧
        (step < (b.sec i).applied → (t.sec i).applied = (b.sec i).applied - step ∧ (t.sec i).runState = .stopping ∧
          (t.sec i).flags.ramping = true) ∧
        ((b.sec i).applied ≤ step → (t.sec i).applied = 0 ∧ (t.sec i).runState = .stopped ∧
          (t.sec i).flags.ramping = false ∧ (t.sec i).flags.degraded = false ∧ (t.sec i).flags.trimLimit = false ∧
          ∀ j, ((t.sec i).member j).trim = 0)) ∧
      ((b.sec i).runState = .stopped ∨ (b.sec i).runState = .tripped →
        (t.sec i).applied = 0 ∧ (t.sec i).flags.ramping = false ∧ (t.sec i).flags.saturated = false)

/-! ## Slots and window completions -/

/-- A MEMBER REPORT heard while slot `q` runs: taken when it comes from the slot's address with the current cycle number
and the slot has none yet; otherwise dropped, as one from an address off the poll list or outside the window is (R12,
R34; the moment of completion is the slot that runs, log 16). -/
def Obligations.MemberReportTaken : Prop :=
  ∀ (s : State) (a e : Byte) (v : Speed24) (q : Torque16) (f : Byte), s.Hears .dn →
    (∀ c n, s.cyc.inFlight = some c → c.windowOpen = true → c.slots[c.pos]? = some n →
      (a ∈ s.cyc.pollInForce → a = n.address → e = s.cyc.cycleNumber → c.report = none →
        exec (.memberReport a e v q f) s = .next { s with
          dn := { s.dn with gapTimer := some 0, awaitMark := false }
          cyc := { s.cyc with inFlight := some { c with
            report := some { speed := v, torque := q, status := f } } } }) ∧
      (a ∉ s.cyc.pollInForce ∨ a ≠ n.address ∨ e ≠ s.cyc.cycleNumber ∨ c.report ≠ none →
        exec (.memberReport a e v q f) s = .next { s with
          dn := { s.dn with gapTimer := some 0, awaitMark := false } })) ∧
    ((s.cyc.inFlight = none ∨ ∃ c, s.cyc.inFlight = some c ∧ c.windowOpen = false) →
      exec (.memberReport a e v q f) s = .next { s with
        dn := { s.dn with gapTimer := some 0, awaitMark := false } })

/-- The end of a slot: the report with its clamps, or the miss, reaches the member (`t`); the result of a withdrawn section
and a miss during a link test reach nobody. A slot that is not its section's last, or whose section was withdrawn, does
nothing more (`u`). Then the next slot begins, or after the last one the cycle ends (R33, R35, R55). With no open window
there is no slot to end (log 4). -/
def Obligations.SlotResultDelivered : Prop :=
  (∀ s : State, s.phase = .inService → s.Quiet →
    (s.cyc.inFlight = none ∨ ∃ c, s.cyc.inFlight = some c ∧ c.windowOpen = false) →
    exec .slotEnd s = .next s) ∧
  ∀ (s : State) (c : Cycle) (q : SlotRef), s.SlotRuns c q →
    ∃ t u, exec .slotEnd s = .next (u.afterSlot c) ∧ u = s.closeSlot c q ∧ t = s.deliverSlot c q ∧
      (c.pos + 1 < c.slots.length → u.afterSlot c = u) ∧
      ((∃ n, c.slots[c.pos + 1]? = some n ∧ n.sec = q.sec) ∨ q.sec ∈ c.dropped → u = { t with
        cyc := { s.cyc with inFlight := some { c with pos := c.pos + 1, slotBits := 0, report := none } } }) ∧
      (q.sec ∈ c.dropped → t = s) ∧
      (q.sec ∉ c.dropped → c.report = none → s.link.running = true → t = s) ∧
      (q.sec ∉ c.dropped → c.report = none → s.link.running = false →
        t = s.setSec q.sec ((s.sec q.sec).setMember q.slot
          { (s.sec q.sec).member q.slot with result := .miss })) ∧
      (∀ r, q.sec ∉ c.dropped → c.report = some r →
        t = s.setSec q.sec ((s.sec q.sec).setMember q.slot
          { (s.sec q.sec).member q.slot with
            result := .valid
            speed := max (-250000) (min 250000 r.speed.toInt)
            torque := max (-3000) (min 3000 r.torque.toInt)
            status := { ready := r.status.getLsbD 0, running := r.status.getLsbD 1, fault := r.status.getLsbD 2
                        limit := r.status.getLsbD 3 } }))

/-- The member states at a window completion, whose slot results stand in `x`; a member that becomes LOST loses its trim
and its share (R56, R57, R92). Here and in the statements after it `u` is what the completion leaves, from which the next
slot goes on or, after the last slot, the cycle ends. -/
def Obligations.MemberStateTable : Prop :=
  ∀ (s : State) (c : Cycle) (q : SlotRef), s.Completes c q →
    ∃ u, u = s.closeSlot c q ∧ exec .slotEnd s = .next (u.afterSlot c) ∧ ∀ (x y : Section) (j : Fin 4),
      x = (s.deliverSlot c q).sec q.sec → y = u.sec q.sec →
      (x.cfg.memberCount ≤ j.val →
        (y.member j).state = (x.member j).state ∧ (y.member j).missCount = (x.member j).missCount) ∧
      (j.val < x.cfg.memberCount →
        ((x.member j).result = .none → (y.member j).state = (x.member j).state ∧
          (y.member j).missCount = (x.member j).missCount) ∧
        ((x.member j).result = .valid → (x.member j).state ≠ .lost ∨ x.runState = .stopped ∨ x.runState = .tripped →
          (y.member j).state = .active ∧ (y.member j).missCount = 0) ∧
        ((x.member j).result = .valid → (x.member j).state = .lost → x.runState = .running ∨ x.runState = .stopping →
          (y.member j).state = .lost ∧ (y.member j).missCount = (x.member j).missCount) ∧
        ((x.member j).result = .miss → (x.member j).state = .absent ∨ (x.member j).state = .lost →
          (y.member j).state = (x.member j).state ∧ (y.member j).missCount = (x.member j).missCount) ∧
        ((x.member j).result = .miss → (x.member j).state = .active ∨ (x.member j).state = .missing →
          (y.member j).missCount = (x.member j).missCount + 1 ∧
          ((x.member j).missCount + 1 < x.cfg.missLimit → (y.member j).state = .missing) ∧
          (x.cfg.missLimit ≤ (x.member j).missCount + 1 → (y.member j).state = .lost ∧ (y.member j).trim = 0 ∧
            (y.member j).shareTarget = 0 ∧ (y.member j).shareError = 0)))

/-- Trips, degradation and the release check at a window completion: the first condition of the table that holds trips a
moving section, and its test aborts; else followers lost set DEGRADED; a due release check trips a STOPPED section whose
fault remains (R58 to R60, R62, R91, R133). -/
def Obligations.TripAtCompletion : Prop :=
  ∀ (s : State) (c : Cycle) (q : SlotRef), s.Completes c q →
    ∃ u, u = s.closeSlot c q ∧ exec .slotEnd s = .next (u.afterSlot c) ∧
      u = { s with
        cyc := { s.cyc with inFlight := some { c with pos := c.pos + 1, slotBits := 0, report := none } }
        sections := u.sections, runners := u.runners, log := u.log
        part := { s.part with notices := { s.part.notices with
          sectionTrip := u.part.notices.sectionTrip, testEnded := u.part.notices.testEnded } } } ∧
      (c.pos + 1 < c.slots.length → u.afterSlot c = u) ∧
      (s.claimant q.sec = none → u.runners = s.runners ∧ u.log = s.log ∧ ∀ i, i ≠ q.sec → u.sec i = s.sec i) ∧
      ∀ (x y : Section) (gone faulty : Fin 4 → Prop) (tripped : StopCause → Option (Fin 4) → Prop),
      x = (s.deliverSlot c q).sec q.sec → y = u.sec q.sec →
      gone = (fun j => j.val < x.cfg.memberCount ∧ (x.member j).state ≠ .lost ∧ (y.member j).state = .lost) →
      faulty = (fun j => j.val < x.cfg.memberCount ∧ (y.member j).state ≠ .lost ∧ (x.member j).result = .valid ∧
        (x.member j).status.fault = true) →
      tripped = (fun cause slot => y.runState = .tripped ∧ y.cause = cause ∧ y.causeSlot = slot ∧ y.applied = 0 ∧
        y.stopSeen = false ∧ y.flags.ramping = false ∧ y.flags.saturated = false ∧ y.flags.trimLimit = false ∧
        y.flags.degraded = x.flags.degraded ∧ (∀ j, (y.member j).trim = 0) ∧
        u.part.notices.sectionTrip = true) →
      (x.runState = .running ∨ x.runState = .stopping →
        (gone 0 → tripped .leadLost none) ∧
        (∀ j, ¬gone 0 → faulty j → (∀ k, k < j → ¬faulty k) → tripped .memberFault (some j)) ∧
        (∀ j, ¬gone 0 → (∀ k, ¬faulty k) → gone j → (∀ k, k < j → ¬gone k) → x.cfg.degradeAllowed = false →
          tripped .memberLost (some j)) ∧
        (¬gone 0 → (∀ k, ¬faulty k) → (x.cfg.degradeAllowed = true ∨ ∀ j, ¬gone j) →
          y.runState = x.runState ∧ y.cause = x.cause ∧
          (y.flags.degraded = true ↔ x.flags.degraded = true ∨ ∃ j, gone j)) ∧
        (∀ r, s.claimant q.sec = some r → y.runState = .tripped →
          u.runner r = (s.runner r).abortedBy .sectionLeftRunning)) ∧
      (x.runState = .stopped ∨ x.runState = .tripped →
        (x.release ≠ .due → y.runState = x.runState ∧ y.cause = x.cause ∧ y.release = x.release) ∧
        (x.release = .due → y.release = .off ∧
          (∀ j, x.runState = .stopped → faulty j → (∀ k, k < j → ¬faulty k) → tripped .memberFault (some j)) ∧
          (x.runState = .tripped ∨ (∀ k, ¬faulty k) → y.runState = x.runState ∧ y.cause = x.cause)))

/-- Converted torques, the section load, share targets and share errors at a window completion, in every run state (R84
to R87). -/
def Obligations.LoadAndShares : Prop :=
  ∀ (s : State) (c : Cycle) (q : SlotRef), s.Completes c q →
    ∃ u, u = s.closeSlot c q ∧ exec .slotEnd s = .next (u.afterSlot c) ∧
      ∀ (x y : Section) (present loaded : List (Fin 4)) (total weights : Int),
      x = (s.deliverSlot c q).sec q.sec → y = u.sec q.sec →
      present = [0, 1, 2, 3].filter (fun j => decide (j.val < x.cfg.memberCount ∧ (y.member j).state ≠ .lost)) →
      loaded = present.filter (fun j => decide ((x.member j).result = .valid)) →
      total = (present.map fun j => (y.member j).converted).sum →
      weights = (present.map fun j => (x.member j).weight).sum →
      (∀ j, j.val < x.cfg.memberCount → (x.member j).result = .valid →
        (y.member j).converted = ((x.member j).torque * (x.member j).rating).tdiv 1000) ∧
      (∀ j, (x.cfg.memberCount ≤ j.val ∨ (x.member j).result ≠ .valid) →
        (y.member j).converted = (x.member j).converted) ∧
      (loaded = [] → y.load = x.load) ∧
      (loaded ≠ [] → y.load = ((loaded.map fun j => (y.member j).converted).sum * 1000).tdiv
        (loaded.map fun j => (x.member j).rating).sum) ∧
      (present ≠ [] → (∀ j ∈ present, (x.member j).result = .valid) → ∀ j ∈ present,
        (y.member j).shareTarget = divHalfAway (total * (x.member j).weight) weights ∧
        (y.member j).shareError = (y.member j).shareTarget - (y.member j).converted) ∧
      ((∃ j ∈ present, (x.member j).result ≠ .valid) → ∀ j ∈ present,
        (y.member j).shareTarget = (x.member j).shareTarget ∧ (y.member j).shareError = (x.member j).shareError)

/-- The trim update of a RUNNING section at or above its share enable speed at a full completion; at any other
completion that does not trip the section, the trims of members not lost and TRIM LIMIT stand; the lead has no update
(R86, R88 to R90). -/
def Obligations.TrimUpdates : Prop :=
  ∀ (s : State) (c : Cycle) (q : SlotRef), s.Completes c q →
    ∃ u, u = s.closeSlot c q ∧ exec .slotEnd s = .next (u.afterSlot c) ∧
      ∀ (x y : Section) (present : List (Fin 4)) (sum : Fin 4 → Int) (outside : Fin 4 → Prop) (updates : Prop),
      x = (s.deliverSlot c q).sec q.sec → y = u.sec q.sec →
      present = [0, 1, 2, 3].filter (fun j => decide (j.val < x.cfg.memberCount ∧ (y.member j).state ≠ .lost)) →
      sum = (fun j => (x.member j).trim + divHalfAway ((y.member j).shareError * x.cfg.ki) 100000) →
      outside = (fun j => j ≠ 0 ∧ j ∈ present ∧
        (x.cfg.deadband < (y.member j).shareError ∨ (y.member j).shareError < -x.cfg.deadband)) →
      updates = (y.runState = .running ∧ x.cfg.shareEnable ≤ x.applied ∧ present ≠ [] ∧
        ∀ j ∈ present, (x.member j).result = .valid) →
      0 ≤ x.cfg.trimLimit → 0 ≤ x.cfg.deadband →
      (updates →
        (∀ j, outside j → (y.member j).trim = max (-x.cfg.trimLimit) (min x.cfg.trimLimit (sum j))) ∧
        (∀ j ∈ present, ¬outside j → (y.member j).trim = (x.member j).trim) ∧
        (y.flags.trimLimit = true ↔ ∃ j, outside j ∧ (sum j < -x.cfg.trimLimit ∨ x.cfg.trimLimit < sum j))) ∧
      (¬updates → y.runState ≠ .tripped →
        (∀ j ∈ present, (y.member j).trim = (x.member j).trim) ∧ y.flags.trimLimit = x.flags.trimLimit)

/-- The end of a downstream cycle, after the last slot left `u`: the image of every section whose results the cycle
delivered is taken again from `u`, and the cycle is no longer in flight; then the part rests, or a link test enters
loopback with frame 0 (the gap timer and the wait for mark stopped, log 20), or a deferred start is made from there
(R16, R17, R18, R24, R37). -/
def Obligations.CycleEnds : Prop :=
  ∀ (s u : State) (c : Cycle) (q : SlotRef), s.SlotRuns c q → s.dn.asm = .wait → c.pos + 1 = c.slots.length →
    u = s.closeSlot c q →
    ∃ (t b : State) (images : Vector (Option Image) 16), exec .slotEnd s = .next t ∧
      u.pending = s.pending ∧ u.phase = s.phase ∧ u.up = s.up ∧ u.dn = s.dn ∧ u.link = s.link ∧
      u.chain = s.chain ∧ u.steps = s.steps ∧ u.mgmt = s.mgmt ∧ u.store = s.store ∧
      u.cyc = { s.cyc with inFlight := u.cyc.inFlight } ∧
      (∀ i : Fin 16,
        ((u.sec i).present = true → (∃ n ∈ c.slots, n.sec = i) → i ∉ c.dropped →
          images[i] = some
            { runState := (u.sec i).runState, source := (u.sec i).source, flags := (u.sec i).flags
              cause := (u.sec i).cause, causeSlot := (u.sec i).causeSlot, applied := (u.sec i).applied
              leadSpeed := ((u.sec i).member 0).speed, load := (u.sec i).load, runner := u.claimant i }) ∧
        ((u.sec i).present = false ∨ (∀ n ∈ c.slots, n.sec ≠ i) ∨ i ∈ c.dropped →
          images[i] = s.cyc.images[i])) ∧
      b = { u with cyc := { s.cyc with inFlight := none, images := images } } ∧
      (s.link.running = false → s.cyc.pendingStart = false → t = b) ∧
      (s.link.running = true → s.link.loopback = false → t = { b with
        link := { s.link with loopback := true, frameNo := 0, awaiting := true, echoBits := 0, sendTimer := none }
        dn := { s.dn with
          fifo := [], asm := .wait, gapTimer := none, awaitMark := false, sentBits := 0, driving := true } }) ∧
      (s.link.running = false → s.cyc.pendingStart = true → s.StartsFrom .slotEnd b ∧
        t.cyc.cycleNumber = s.cyc.cycleNumber + 1 ∧ t.cyc.cycleCount = s.cyc.cycleCount + 1 ∧
        t.cyc.pendingStart = false)

/-! ## Test runners and the capture log -/

/-- When a condition holds, by relation and quantity, and what each quantity reads: SPREAD over the members below the
member count that are not LOST, SHARE ERROR and TRIM the greatest magnitude over the followers of them; below 0 a magnitude
never is (R103, R112, R113). -/
def Obligations.ConditionHolds : Prop :=
  ∀ (k : Condition) (x : Section) (taken followers : List (Fin 4)) (size : Int → Int),
    taken = [0, 1, 2, 3].filter (fun j => decide (j.val < x.cfg.memberCount ∧ (x.member j).state ≠ .lost)) →
    followers = taken.filter (fun j => decide (j ≠ 0)) → size = (fun v => max v (-v)) →
    (∀ v, k.quantity.reading x = .inl v →
      (k.relation = .below → (k.holds x = true ↔ v < k.limit)) ∧
      (k.relation = .above → (k.holds x = true ↔ k.limit < v)) ∧
      (k.relation = .within → (k.holds x = true ↔ v - k.limit ≤ k.band ∧ k.limit - v ≤ k.band)) ∧
      (k.relation = .outside → (k.holds x = true ↔ k.band < v - k.limit ∨ k.band < k.limit - v)) ∧
      (k.relation = .within → k.band = 0 → (k.holds x = true ↔ v = k.limit))) ∧
    (∀ b, k.quantity.reading x = .inr b →
      (k.relation = .set → (k.holds x = true ↔ b = true)) ∧
      (k.relation = .clear → (k.holds x = true ↔ b = false))) ∧
    (k.quantity = .shareError ∨ k.quantity = .trim ∨ k.quantity = .spread → k.relation = .below → k.limit ≤ 0 →
      k.holds x = false) ∧
    (k.quantity = .spread → taken ≠ [] → ∃ hi ∈ taken, ∃ lo ∈ taken,
      (∀ j ∈ taken, (x.member lo).speed ≤ (x.member j).speed ∧ (x.member j).speed ≤ (x.member hi).speed) ∧
      k.quantity.reading x = .inl ((x.member hi).speed - (x.member lo).speed)) ∧
    (k.quantity = .shareError →
      (followers = [] → k.quantity.reading x = .inl 0) ∧
      (followers ≠ [] → ∃ m ∈ followers,
        (∀ j ∈ followers, size (x.member j).shareError ≤ size (x.member m).shareError) ∧
        k.quantity.reading x = .inl (size (x.member m).shareError))) ∧
    (k.quantity = .trim →
      (followers = [] → k.quantity.reading x = .inl 0) ∧
      (followers ≠ [] → ∃ m ∈ followers, (∀ j ∈ followers, size (x.member j).trim ≤ size (x.member m).trim) ∧
        k.quantity.reading x = .inl (size (x.member m).trim))) ∧
    (k.quantity = .speedError → k.quantity.reading x = .inl ((x.member 0).speed - x.applied)) ∧
    (k.quantity = .load → k.quantity.reading x = .inl x.load) ∧
    (k.quantity = .leadTorque → k.quantity.reading x = .inl (x.member 0).torque) ∧
    (k.quantity = .saturated → k.quantity.reading x = .inr x.flags.saturated) ∧
    (k.quantity = .trimLimit → k.quantity.reading x = .inr x.flags.trimLimit) ∧
    (k.quantity = .ratioLimit → k.quantity.reading x = .inr x.flags.ratioLimit) ∧
    (k.quantity = .degraded → k.quantity.reading x = .inr x.flags.degraded)

/-- A window completion that does not end the step of the runner that claims the section (it leaves `t`): elapsed, the
action's progress, SATURATED SEEN and the settle counters; `base` is the state the member monitor and the load-share unit leave. A paused or
waiting runner takes no progress (R109 to R111, R114, R115, R125, R126, R128, R135). -/
def Obligations.ProgressContinues : Prop :=
  ∀ (s : State) (c : Cycle) (q : SlotRef) (r : Fin 4) (k : Fin 96), s.Completes c q → s.claimant q.sec = some r →
    ∃ t, t = s.closeSlot c q ∧ exec .slotEnd s = .next (t.afterSlot c) ∧
      ∀ (base : State) (x : Section) (u : Runner) (sr : StepRecord) (full : Bool),
      base = (((s.deliverSlot c q).setInFlight (some { c with
        pos := c.pos + 1, slotBits := 0, report := none })).monitorCompletion q.sec).modSec q.sec Section.loadShare →
      x = base.sec q.sec → u = s.runner r → sr = s.stepRec k → full = x.full → x.runState = .running →
      ((u.state = .paused ∨ u.state = .waiting) → t = base) ∧
      (u.state = .running → u.step = some k →
        sr.abort.reached x full u.abortCount = false → sr.advance.reached x full u.advanceCount = false →
        ∀ w : Runner,
          w = { u with
            elapsed := u.elapsed + 1
            flags := { u.flags with saturated := u.flags.saturated || x.flags.saturated }
            advanceCount := if sr.advance.present = true ∧ full = true then
              (if sr.advance.holds x = true then u.advanceCount + 1 else 0) else u.advanceCount
            abortCount := if sr.abort.present = true ∧ full = true then
              (if sr.abort.holds x = true then u.abortCount + 1 else 0) else u.abortCount } →
          (sr.action ≠ .ramp → sr.action ≠ .square → u.elapsed + 1 < sr.d → t = base.setRunner r w) ∧
          (sr.action = .ramp → u.elapsed + 1 < sr.d → t = base.setRunner r { w with
            offset := u.rampStart + divHalfAway ((sr.v - u.rampStart) * (u.elapsed + 1)) sr.d }) ∧
          (sr.action = .square → u.repeatsLeft ≠ 0 → u.phase = .first → u.phaseCount + 1 < sr.d →
            t = base.setRunner r { w with phaseCount := u.phaseCount + 1 }) ∧
          (sr.action = .square → u.repeatsLeft ≠ 0 → u.phase = .first → sr.d ≤ u.phaseCount + 1 →
            t = base.setRunner r { w with offset := sr.v2, phase := .second, phaseCount := 0 }) ∧
          (sr.action = .square → u.repeatsLeft ≠ 0 → u.phase = .second → u.phaseCount + 1 < sr.d2 →
            t = base.setRunner r { w with phaseCount := u.phaseCount + 1 }) ∧
          (sr.action = .square → 1 < u.repeatsLeft → u.phase = .second → sr.d2 ≤ u.phaseCount + 1 →
            t = base.setRunner r { w with
              offset := sr.v, phase := .first, phaseCount := 0, repeatsLeft := u.repeatsLeft - 1 }))

/-- How a window completion, which leaves `t`, ends a step: the abort condition first, then the advance condition (MET),
then the dwell (DONE, TIMEOUT or an abort with TIMEOUT); what a step end leaves is stated apart (R115, R116, R126, R131, R132). -/
def Obligations.ProgressEnds : Prop :=
  ∀ (s : State) (c : Cycle) (q : SlotRef) (r : Fin 4) (k : Fin 96), s.Completes c q → s.claimant q.sec = some r →
    (s.runner r).state = .running → (s.runner r).step = some k →
    ∃ t, t = s.closeSlot c q ∧ exec .slotEnd s = .next (t.afterSlot c) ∧
      ∀ (base : State) (x : Section) (u w : Runner) (sr : StepRecord) (full : Bool),
      base = (((s.deliverSlot c q).setInFlight (some { c with
        pos := c.pos + 1, slotBits := 0, report := none })).monitorCompletion q.sec).modSec q.sec Section.loadShare →
      x = base.sec q.sec → u = s.runner r → sr = s.stepRec k → full = x.full → x.runState = .running →
      w = u.judged sr x full →
      (sr.abort.reached x full u.abortCount = true →
        t.runner r = w.abortedBy .abortCondition ∧ t.part.notices.testEnded = true) ∧
      (sr.abort.reached x full u.abortCount = false →
        (sr.advance.reached x full u.advanceCount = true → t = (base.setRunner r w).stepEnd r sr .met) ∧
        (sr.advance.reached x full u.advanceCount = false →
          (sr.action = .ramp → sr.d ≤ u.elapsed + 1 → t = (base.setRunner r w).stepEnd r sr .done) ∧
          (sr.action = .square → u.phase = .second → u.repeatsLeft ≤ 1 → sr.d2 ≤ u.phaseCount + 1 →
            t = (base.setRunner r w).stepEnd r sr .done) ∧
          (sr.action ≠ .ramp → sr.action ≠ .square → sr.d ≤ u.elapsed + 1 →
            (sr.advance.present = false → t = (base.setRunner r w).stepEnd r sr .done) ∧
            (sr.advance.present = true → sr.onTimeout = .next →
              t = (base.setRunner r w).stepEnd r sr .timeout) ∧
            (sr.advance.present = true → sr.onTimeout = .abort →
              t.runner r = w.abortedBy .timeout ∧ t.part.notices.testEnded = true))))

/-- A step end: the record due is written while the free places exceed the runners not IDLE, else the runner waits with
it; then the next step is entered, or the test completes with a TEST END record (R117, R118, R127 to R130, R137, R144,
R145). -/
def Obligations.StepEndRecordsAndGoesOn : Prop :=
  ∀ (s : State) (r : Fin 4) (i : Fin 16) (k : Fin 96) (sr : StepRecord) (out : RecordOutcome) (rec : CaptureRecord)
    (due : Bool) (place : Prop),
    (s.runner r).state = .running → (s.runner r).claimed = some i → (s.runner r).step = some k → sr = s.stepRec k →
    rec = { seq := 0, count := s.cyc.cycleCount, kind := if sr.action = .capture then .capture else .stepEnd
            runner := r, sec := i, step := k, outcome := out, elapsed := (s.runner r).elapsed
            applied := (s.sec i).applied, leadSpeed := ((s.sec i).member 0).speed, load := (s.sec i).load
            offset := (s.runner r).offset, flags := (s.runner r).flags, members := (s.sec i).memberList } →
    due = (decide (sr.action = .capture) || sr.captureAtEnd) →
    place = (s.notIdle < 64 - s.log.records.length) →
    (due = true → ¬place → s.stepEnd r sr out = { s.setRunner r { s.runner r with
        state := .waiting, pendingRecord := some rec } with
      log := { s.log with waiters := s.log.waiters ++ [r] } }) ∧
    (∀ (t : State), (t = if due then { s with
        log := { s.log with
          records := s.log.records ++ [{ rec with seq := s.log.nextSeq }], nextSeq := s.log.nextSeq + 1 } } else s) →
      (due = true → place) →
      (∀ n, sr.nextStep = some n → s.stepEnd r sr out = t.enterStep r n) ∧
      (sr.nextStep = none →
        s.stepEnd r sr out = { t with
          runners := s.runners.set r { s.runner r with
            offset := 0, claimed := none, state := .idle, outcome := .completed, abortCause := .none }
          log := { t.log with
            records := t.log.records ++ [{ rec with seq := t.log.nextSeq, kind := .testEnd, outcome := .completed }]
            nextSeq := t.log.nextSeq + 1 }
          part := { s.part with notices := { s.part.notices with testEnded := true } } }))

/-- The entry into a step: the three checks in order, each with its abort; then current step, steps run, counters and
flags, and the entry effect of each action (R79, R94, R108, R118, R123, R124). -/
def Obligations.StepEntry : Prop :=
  ∀ (s : State) (r : Fin 4) (i : Fin 16) (n : Fin 96) (sr : StepRecord) (u e : Runner),
    (s.runner r).state = .running → (s.runner r).claimed = some i → sr = s.stepRec n → u = s.runner r →
    e = { u with
      step := some n, stepsRun := if u.stepsRun < 65535 then u.stepsRun + 1 else u.stepsRun, elapsed := 0
      advanceCount := 0, abortCount := 0, phaseCount := 0
      flags := { draw := false, compensation := false, saturated := false } } →
    (sr.present = false ∨ (sr.action = .weight ∧ (s.sec i).cfg.memberCount ≤ sr.memberSlot.val) →
      (s.enterStep r n).runner r = { u with
        step := some n, elapsed := 0, flags := { draw := false, compensation := false, saturated := false }
        state := .idle, claimed := none, offset := 0, outcome := .aborted, abortCause := .badStep } ∧
      (s.enterStep r n).sections = s.sections) ∧
    (sr.present = true → sr.action = .draw → (s.sec i).source = .follow →
      (s.enterStep r n).runner r = { u with
        step := some n, elapsed := 0, flags := { draw := false, compensation := false, saturated := false }
        state := .idle, claimed := none, offset := 0, outcome := .aborted, abortCause := .wrongSource } ∧
      (s.enterStep r n).sections = s.sections) ∧
    (sr.present = true →
      (sr.action = .hold ∨ sr.action = .capture → s.enterStep r n = s.setRunner r e) ∧
      (sr.action = .step → s.enterStep r n = s.setRunner r { e with offset := sr.v }) ∧
      (sr.action = .ramp → s.enterStep r n = s.setRunner r { e with rampStart := u.offset }) ∧
      (sr.action = .square → s.enterStep r n = s.setRunner r { e with
        offset := sr.v, phase := .first, repeatsLeft := sr.repeats }) ∧
      (sr.action = .weight → sr.memberSlot.val < (s.sec i).cfg.memberCount →
        s.enterStep r n = (s.setRunner r e).setSec i ((s.sec i).setMember sr.memberSlot
          { (s.sec i).member sr.memberSlot with weight := sr.v })) ∧
      (sr.action = .draw → (s.sec i).source = .cascade →
        s.enterStep r n = (s.adjustDraw i sr.v sr.drawMode).state.setRunner r { e with
          flags := { draw := (s.adjustDraw i sr.v sr.drawMode).ownClamped
                     compensation := !(s.adjustDraw i sr.v sr.drawMode).childClamped.isEmpty, saturated := false } }))

/-! ## The link test -/

/-- The link test's own events in loopback: the next frame sent; the frame that awaits judgement judged good, or bad by
CHECK (another payload, a discard with CHECK), FRAMING (a discard with FRAMING, BREAK or OVERRUN) or MISSING (a discard with
LENGTH or TRUNCATED, as a marked character causes in an open frame; the timeout); a discard with no frame awaiting writes
the latch alone; and the end after frame 15 with its result, from which a deferred start is made (R10, R16 to R18; the gap
timer and the wait for mark stopped at the exit, log 20). Outside loopback none of its rows has an effect (log 4). -/
def Obligations.LinkTestEvents : Prop :=
  ∀ s : State, s.phase = .inService → s.Quiet →
    (s.link.loopback = false → exec .echoTestSend s = .next s ∧ exec .echoTestTimeout s = .next s ∧
      ∀ pl, exec (.echoTest pl) s = .next s) ∧
    (s.link.loopback = true → s.link.awaiting = false → s.link.sendTimer ≠ none →
      exec .echoTestSend s = .next { s with
        link := { s.link with frameNo := s.link.frameNo + 1, awaiting := true, echoBits := 0, sendTimer := none }
        dn := { s.dn with gapTimer := none } }) ∧
    ∀ (bad : BadKind → LinkTest) (good : LinkTest),
      bad = (fun k => { s.link with
        awaiting := false, sendTimer := some 0, badCount := s.link.badCount + 1
        firstBad := some (s.link.firstBad.getD k) }) →
      good = { s.link with awaiting := false, sendTimer := some 0 } →
      (s.link.loopback = true → s.link.awaiting = true → s.link.frameNo < 15 →
        exec .echoTestTimeout s = .next { s with link := bad .missing }) ∧
      (∀ pl, s.link.loopback = true → s.link.awaiting = true → s.link.frameNo < 15 → s.dn.asm = .wait →
        s.dn.awaitMark = false → pl.length = 16 →
        exec (.echoTest pl) s = .next { s with
          dn := { s.dn with gapTimer := some 0 }
          link := if pl = (List.range 16).map (fun n => BitVec.ofNat 8 (16 * s.link.frameNo + n)) then good
            else bad .check }) ∧
      (∀ judged : BadKind → LinkTest, s.link.loopback = true → s.dn.asm = .wait → s.dn.awaitMark = false →
        (s.link.awaiting = false ∧ judged = (fun _ => s.link)) ∨
          (s.link.awaiting = true ∧ s.link.frameNo < 15 ∧ judged = bad) →
        (∀ pl, pl.length ≤ 124 → pl.length ≠ 16 → exec (.echoTest pl) s = .next { s with
          dn := { s.dn with gapTimer := some 0, lastError := .length }, link := judged .missing }) ∧
        (∀ d, d ≠ 0 → exec (.frameDiscard .dn [.char 0 true true, .char d false false] 2) s = .next { s with
          dn := { s.dn with gapTimer := some 0, lastError := .framing }, link := judged .framing }) ∧
        (∀ d, exec (.frameDiscard .dn [.char 0 true true, .char d true false] 2) s = .next { s with
          dn := { s.dn with gapTimer := some 0, lastError := .framing }, link := judged .missing }) ∧
        exec (.frameDiscard .dn [.char 0 true true, .char 0 false false] 2) s = .next { s with
          dn := { s.dn with gapTimer := none, awaitMark := true, lastError := .brk }, link := judged .framing } ∧
        (∀ b, b ≠ 0 → exec (.frameDiscard .dn [.char 0 true true, .char b true true] 2) s = .next { s with
          dn := { s.dn with gapTimer := some 0, lastError := .truncated }, link := judged .missing }) ∧
        (∀ k n, 124 < n.toNat →
          exec (.frameDiscard .dn [.char 0 true true, .char k false true, .char n false true] 3) s = .next { s with
            dn := { s.dn with gapTimer := some 0, lastError := .length }, link := judged .missing }) ∧
        ∀ k c d, c ++ d ≠ crc16 [0, k, 0] →
          exec (.frameDiscard .dn
            [.char 0 true true, .char k false true, .char 0 false true, .char c false true, .char d false true] 5) s =
            .next { s with dn := { s.dn with gapTimer := some 0, lastError := .check }, link := judged .check }) ∧
      (∀ cs e, s.link.loopback = true → s.link.awaiting = true → s.link.frameNo < 15 → e.overrun = true →
        (∀ d, e.body ≠ .char d true) →
        exec (.frameDiscard .dn [] 1) { s with dn := { s.dn with fifo := [e], asm := .collect cs } } =
          .next { s with dn := { s.dn with asm := .wait, lastError := .overrun }, link := bad .framing }) ∧
      ∀ left : LinkResult → State,
        left = (fun r => { s with
          link := { running := false, loopback := false, frameNo := 0, awaiting := false, badCount := 0
                    firstBad := none, echoBits := 0, sendTimer := none, result := r }
          dn := { s.dn with
            fifo := [], asm := .wait, gapTimer := none, awaitMark := false, sentBits := 0, driving := false }
          cyc := { s.cyc with pollInForce := [] } }) →
        s.link.loopback = true → s.link.awaiting = true → s.link.frameNo = 15 → s.dn.asm = .wait →
        ∀ (k : Instr) (b : State),
          (k = .echoTestTimeout ∧ b = left (.failed (s.link.badCount + 1) (s.link.firstBad.getD .missing))) ∨
          (∃ pl, k = .echoTest pl ∧ pl.length = 16 ∧ pl ≠ echoPayload 15 ∧
            b = left (.failed (s.link.badCount + 1) (s.link.firstBad.getD .check))) ∨
          (k = .echoTest (echoPayload 15) ∧ s.link.badCount = 0 ∧ b = left .passed) ∨
          (∃ first, k = .echoTest (echoPayload 15) ∧ s.link.badCount ≠ 0 ∧ s.link.firstBad = some first ∧
            b = left (.failed s.link.badCount first)) →
          (s.cyc.pendingStart = false → exec k s = .next b) ∧
          (s.cyc.pendingStart = true → s.cyc.inFlight = none → s.StartsFrom k b ∧
            ∃ t, exec k s = .next t ∧ t.link = b.link ∧ t.cyc.cycleNumber = s.cyc.cycleNumber + 1 ∧
              t.cyc.cycleCount = s.cyc.cycleCount + 1 ∧ t.cyc.pendingStart = false)

/-! ## Requests of the line controller -/

/-- ACCESS in its order of checks: RANGE, STATE, LEVEL; a level not above the one in force at once; a confirmation; else
a first request, answered PENDING. The one value is the level in force after it (R157, R158). -/
def Obligations.AccessRequest : Prop :=
  ∀ (s : State) (args : List Byte) (max : Nat), s.MgmtReady → args.length = 4 →
    max = (if s.part.config.getLsbD 4 then 2 else 1) →
    (arg args 0 < 0 ∨ 2 < arg args 0 →
      exec (.access args) s = .next (s.asked.sendReply (reply .range 0xFF [toValue s.mgmt.access.rank]))) ∧
    ∀ l : AccessLevel, arg args 0 = l.rank →
      (s.cyc.upState ≠ .linked →
        exec (.access args) s = .next (s.asked.sendReply (reply .state 0xFF [toValue s.mgmt.access.rank]))) ∧
      (s.cyc.upState = .linked → max < l.rank →
        exec (.access args) s = .next (s.asked.sendReply (reply .level 0xFF [toValue s.mgmt.access.rank]))) ∧
      (s.cyc.upState = .linked → l.rank ≤ max →
        l.rank ≤ s.mgmt.access.rank ∨ s.mgmt.pendingAccess = some { level := l, polls := 1 } →
        exec (.access args) s = .next (State.sendReply { s.asked with
          mgmt := { s.mgmt with access := l, pendingAccess := none } } (reply .done 0xFF [toValue l.rank]))) ∧
      (s.cyc.upState = .linked → l.rank ≤ max → s.mgmt.access.rank < l.rank →
        s.mgmt.pendingAccess ≠ some { level := l, polls := 1 } →
        exec (.access args) s = .next (State.sendReply { s.asked with
          mgmt := { s.mgmt with pendingAccess := some { level := l, polls := 0 } } }
          (reply .pending 0xFF [toValue s.mgmt.access.rank])))

/-- CLOSE falls to MONITOR; SELECT checks its arguments in order and sets the cursor unspent (R156, R160, R164); a negative
entry or field is refused with LIMIT too (log 22). -/
def Obligations.CloseAndSelect : Prop :=
  (∀ s : State, s.MgmtReady → exec (.close []) s = .next (State.sendReply { s.asked with
    mgmt := { s.mgmt with access := .monitor, pendingAccess := none } } (reply .done 0xFF [0]))) ∧
  ∀ (s : State) (args : List Byte), s.MgmtReady → args.length = 16 →
    (arg args 0 < 0 ∨ 4 < arg args 0 → exec (.select args) s = .next (s.asked.sendReply (reply .range 0 []))) ∧
    ∀ (t : Table) (code : Int) (entries fields : Nat),
      (t, code, entries, fields) ∈ [(Table.sections, (0 : Int), 16, 41), (.members, 1, 64, 13), (.steps, 2, 96, 24),
        (.runners, 3, 4, 16), (.part, 4, 1, 27)] →
      arg args 0 = code →
      (arg args 1 < 0 ∨ entries ≤ arg args 1 →
        exec (.select args) s = .next (s.asked.sendReply (reply .limit 1 []))) ∧
      (∀ e : Nat, arg args 1 = e → e < entries →
        (arg args 2 < 0 ∨ fields ≤ arg args 2 →
          exec (.select args) s = .next (s.asked.sendReply (reply .limit 2 []))) ∧
        (∀ f : Nat, arg args 2 = f → f < fields →
          (arg args 3 < 0 ∨ 2 < arg args 3 →
            exec (.select args) s = .next (s.asked.sendReply (reply .range 3 []))) ∧
          (∀ m : CursorMode, arg args 3 = (match m with
              | .fixed => 0
              | .advance => 1
              | .single => 2) →
            exec (.select args) s = .next (State.sendReply { s.asked with
              mgmt := { s.mgmt with
                pendingAccess := none
                cursor := some { table := t, entry := e, field := f, mode := m, spent := false } } }
              (reply .done 0xFF [])))))

/-- READ returns its count of values from the cursor on, and the cursor moves as its mode says; without a live cursor
NO-CURSOR. What every field of the five tables reads, in the order of their numbers, and the codes of named values
(R102, R119, R161, R162, R165, R166, R170). -/
def Obligations.ReadFromCursor : Prop :=
  (∀ (s : State) (args : List Byte), s.MgmtReady → args.length = 4 →
    (arg args 0 < 1 ∨ 28 < arg args 0 →
      exec (.read args) s = .next (s.asked.sendReply (reply .range 0xFF []))) ∧
    (1 ≤ arg args 0 → arg args 0 ≤ 28 →
      (s.mgmt.cursor = none ∨ (∃ c, s.mgmt.cursor = some c ∧ c.spent = true) →
        exec (.read args) s = .next (s.asked.sendReply (reply .noCursor 0xFF []))) ∧
      ∀ (c d : Cursor) (n : Nat), s.CursorIs c → arg args 0 = n → d = Cursor.move^[n] c →
        exec (.read args) s = .next (State.sendReply { s.asked with
          mgmt := { s.mgmt with
            pendingAccess := none, cursor := some { d with spent := decide (c.mode = .single) } } }
          { code := .done, offending := 0xFF, count := n, tie := .plain
            values := (List.range n).map fun k =>
              toValue (s.asked.readField c.table (Cursor.move^[k] c).entry (Cursor.move^[k] c).field) }))) ∧
  (∀ c : Cursor,
    (c.mode = .fixed → c.move = c) ∧
    (c.mode ≠ .fixed → c.field + 1 < c.table.fields → c.move = { c with field := c.field + 1 }) ∧
    (c.mode ≠ .fixed → c.table.fields ≤ c.field + 1 → c.entry + 1 < c.table.entries →
      c.move = { c with entry := c.entry + 1, field := 0 }) ∧
    (c.mode ≠ .fixed → c.table.fields ≤ c.field + 1 → c.table.entries ≤ c.entry + 1 →
      c.move = { c with entry := 0, field := 0 })) ∧
  (∀ (s : State) (i : Fin 16) (x : Section) (g : Settings), x = s.sec i → g = x.cfg →
    (List.range 41).map (s.readField .sections i.val) =
      [boolCode x.present, g.upAddr.toNat, g.memberBase.toNat, g.memberCount, indexCode g.drawBase, g.initDraw,
        g.initSource.code, g.maxSpeed, g.accel, g.stopRamp, g.quickRamp, g.orderHold, g.missLimit,
        boolCode g.degradeAllowed, g.guard.code, g.ki, g.deadband, g.trimLimit, g.shareEnable, x.runState.code,
        x.source.code, boolCode x.stopSeen, x.cause.code, indexCode x.causeSlot, x.refused.code,
        indexCode x.refusedSlot, x.orderAge, (x.depth.map Int.ofNat).getD (-1), x.draw, x.ratio, x.observed, x.master,
        x.target, x.applied, boolCode x.flags.ramping, boolCode x.flags.saturated, boolCode x.flags.ratioLimit,
        boolCode x.flags.trimLimit, boolCode x.flags.degraded, x.load, indexCode (s.claimant i)]) ∧
  (∀ (s : State) (i : Fin 16) (j : Fin 4) (m : Member), m = (s.sec i).member j →
    (List.range 13).map (s.readField .members (4 * i.val + j.val)) =
      [m.rating, m.weight, m.state.code, m.missCount, m.result.code, m.speed, m.torque,
        (if m.status.ready then 1 else 0) + (if m.status.running then 2 else 0) + (if m.status.fault then 4 else 0) +
          (if m.status.limit then 8 else 0),
        boolCode m.faultReset, m.converted, m.shareTarget, m.shareError, m.trim]) ∧
  (∀ (s : State) (k : Fin 96) (r : StepRecord) (fields : Condition → List Int), r = s.stepRec k →
    fields = (fun c => [boolCode c.present, c.quantity.code, c.relation.code, c.limit, c.band, c.settle]) →
    (List.range 24).map (s.readField .steps k.val) =
      [boolCode r.present, r.action.code, r.v, r.v2, r.d, r.d2, r.repeats, r.memberSlot.val, r.drawMode.code,
        r.onTimeout.code, boolCode r.captureAtEnd, indexCode r.nextStep] ++ fields r.advance ++ fields r.abort) ∧
  (∀ (s : State) (r : Fin 4) (u : Runner), u = s.runner r →
    (List.range 16).map (s.readField .runners r.val) =
      [u.state.code, indexCode u.claimed, indexCode u.step, u.elapsed, u.advanceCount, u.abortCount, u.phase.code,
        u.phaseCount, u.repeatsLeft, u.rampStart, u.offset,
        (u.pendingRecord.map fun c => c.kind.code).getD (-1),
        (if u.flags.draw then 1 else 0) + (if u.flags.compensation then 2 else 0) +
          (if u.flags.saturated then 4 else 0),
        u.outcome.code, u.abortCause.code, u.stepsRun]) ∧
  (∀ (s : State) (n : Notices), n = s.part.notices →
    (List.range 27).map (s.readField .part 0) =
      [(s.part.config.toNat : Int), s.part.mgmtAddr.toNat, s.mgmt.access.code, s.cyc.upState.code, s.cyc.lastUpCycle.toNat,
        s.cyc.cycleCount.toNat, s.part.lossLimit] ++
      [n.upstreamLoss, n.storeInvalid, n.overrun, n.lineClamped, n.sectionTrip, n.testEnded].map boolCode ++
      [s.up.lastError.code, s.dn.lastError.code, s.log.records.length, (64 - s.log.records.length : Nat)] ++
      [0, 1, 2, 3].map (fun r => (s.runner r).state.code) ++
      [s.store.state.code, s.store.lastSave.code, boolCode s.link.running, s.link.result.code, s.link.result.badCode,
        s.link.result.firstCode]) ∧
  [false, true].map boolCode = [0, 1] ∧ (∀ n, indexCode (none : Option (Fin n)) = -1 ∧
    ∀ i : Fin n, indexCode (some i) = i.val) ∧
  [Source.follow, .cascade].map Source.code = [0, 1] ∧
  [AccessLevel.monitor, .operate, .engineer].map AccessLevel.code = [0, 1, 2] ∧
  [GuardLevel.operate, .engineer].map GuardLevel.code = [1, 2] ∧
  [RunState.stopped, .running, .stopping, .tripped].map RunState.code = [0, 1, 2, 3] ∧
  [StopCause.none, .request, .lineStop, .quickStop, .upstreamLoss, .orderLost, .leadLost, .memberFault,
    .memberLost].map StopCause.code = [0, 1, 2, 3, 4, 5, 6, 7, 8] ∧
  [RefusedCause.none, .lineNotRun, .noStopSeen, .memberNotActive, .memberNotReady, .linkTest].map
    RefusedCause.code = [0, 1, 2, 3, 4, 5] ∧
  [MemberState.absent, .active, .missing, .lost].map MemberState.code = [0, 1, 2, 3] ∧
  [WindowResult.none, .valid, .miss].map WindowResult.code = [0, 1, 2] ∧
  [Action.hold, .step, .ramp, .square, .draw, .weight, .capture].map Action.code = [0, 1, 2, 3, 4, 5, 6] ∧
  [DrawMode.carry, .hold].map DrawMode.code = [0, 1] ∧ [OnTimeout.next, .abort].map OnTimeout.code = [0, 1] ∧
  [Quantity.speedError, .spread, .shareError, .load, .leadTorque, .trim, .saturated, .trimLimit, .ratioLimit,
    .degraded].map Quantity.code = [0, 1, 2, 3, 4, 5, 6, 7, 8, 9] ∧
  [Relation.below, .above, .within, .outside, .set, .clear].map Relation.code = [0, 1, 2, 3, 4, 5] ∧
  [RunnerState.idle, .running, .paused, .waiting].map RunnerState.code = [0, 1, 2, 3] ∧
  [Phase2.first, .second].map Phase2.code = [0, 1] ∧ [RecordKind.stepEnd, .capture].map RecordKind.code = [0, 1] ∧
  [TestOutcome.none, .completed, .stopped, .aborted].map TestOutcome.code = [0, 1, 2, 3] ∧
  [AbortCause.none, .sectionLeftRunning, .upstreamLoss, .abortCondition, .timeout, .badStep, .wrongSource].map
    AbortCause.code = [0, 1, 2, 3, 4, 5, 6] ∧
  [UpState.unlinked, .linked, .lost].map UpState.code = [0, 1, 2] ∧
  [ErrorKind.none, .framing, .brk, .overrun, .check, .length, .truncated].map ErrorKind.code =
    [0, 1, 2, 3, 4, 5, 6] ∧
  [StoreState.invalid, .valid, .saving].map StoreState.code = [0, 1, 2] ∧
  [SaveResult.none, .valid, .failed].map SaveResult.code = [0, 1, 2] ∧
  (LinkResult.none.code, LinkResult.none.badCode, LinkResult.none.firstCode) = (0, 0, 0) ∧
  (LinkResult.passed.code, LinkResult.passed.badCode, LinkResult.passed.firstCode) = (1, 0, 0) ∧
  ∀ (n : Nat) (k : BadKind), (LinkResult.failed n k).code = 2 ∧ (LinkResult.failed n k).badCode = n ∧
    (LinkResult.failed n k).firstCode = (match k with
      | .check => 1
      | .framing => 2
      | .missing => 3)

/-- The five tables: their entries and fields as SELECT admits them, and the writable fields as WRITE meets them, at
whatever value of the WRITE the cursor reaches a field outside them. -/
def Obligations.WritableFields : Prop :=
  ∀ (t : Table) (code : Int) (entries fields : Nat) (writable : Nat → Prop),
    (t = .sections ∧ code = 0 ∧ entries = 16 ∧ fields = 41 ∧ writable = (· ≤ 18)) ∨
    (t = .members ∧ code = 1 ∧ entries = 64 ∧ fields = 13 ∧ writable = (· ≤ 1)) ∨
    (t = .steps ∧ code = 2 ∧ entries = 96 ∧ fields = 24 ∧ writable = fun _ => True) ∨
    (t = .runners ∧ code = 3 ∧ entries = 4 ∧ fields = 16 ∧ writable = fun _ => False) ∨
    (t = .part ∧ code = 4 ∧ entries = 1 ∧ fields = 27 ∧ writable = (· = 6)) →
    t.entries = entries ∧ t.fields = fields ∧
    (∀ (s : State) (args : List Byte) (e f : Nat), s.MgmtReady → args.length = 16 → arg args 0 = code →
      arg args 1 = e → arg args 2 = f → arg args 3 = 0 → e < entries → f < fields →
      exec (.select args) s = .next (State.sendReply { s.asked with
        mgmt := { s.mgmt with
          pendingAccess := none
          cursor := some { table := t, entry := e, field := f, mode := .fixed, spent := false } } }
        (reply .done 0xFF []))) ∧
    (∀ (s : State) (e f : Nat) (v : Int) (i : Byte), f < fields → writable f →
      s.writeField t e f v ≠ .error (.readOnly, i)) ∧
    ∀ (s u : State) (args : List Byte) (c d : Cursor) (before after : List Int) (v : Int), s.MgmtReady →
      writeSized args = true → s.CursorIs c → argList args = before ++ v :: after →
      applyValues before c s.asked 0 false =
        { state := u, cursor := d, applied := before.length, refusal := none, expired := false } →
      d.table = t → d.field < fields → ¬writable d.field →
      exec (.write args) s = .next (State.sendReply { u with
        mgmt := { u.mgmt with cursor := some d.used } }
        { code := .readOnly, offending := BitVec.ofNat 8 d.field, count := before.length, values := [], tie := .plain })

/-- A WRITE of one value: its refusals in their order, and the effects of present, of max speed, a trim limit, a rating, a
weight, D of a step and the loss limit, which may bring the loss event. Present YES on a withdrawn entry runs the checks of
R44 in their order; an entry that passes takes the values of R46, its place in the chain order list and its image; present
NO withdraws a present entry, or is refused as R48 says (R24, R27, R42 to R48, R62, R95, R104, R159, R163). -/
def Obligations.WriteOfOneValue : Prop :=
  ∀ (s : State) (args : List Byte) (c : Cursor) (v : Int), s.MgmtReady → args.length = 4 → s.CursorIs c →
    v = arg args 0 →
    ∀ (answer : State → Host.Outcome State Fault Refusal) (no : ResultCode → Byte → Host.Outcome State Fault Refusal),
      answer = (fun t => .next (State.sendReply { t with mgmt := { s.asked.mgmt with cursor := some c.move.used } }
        { code := .done, offending := 0xFF, count := 1, values := [], tie := .plain })) →
      no = (fun code i => .next (State.sendReply { s.asked with mgmt := { s.asked.mgmt with cursor := some c.used } }
        { code := code, offending := i, count := 0, values := [], tie := .plain })) →
      (∀ i : Fin 16, c.table = .sections → c.entry = i.val →
        (c.field ≤ 7 ∨ c.field = 14 → s.mgmt.access ≠ .engineer →
          exec (.write args) s = no .level (BitVec.ofNat 8 c.field)) ∧
        (c.field = 0 → s.mgmt.access = .engineer → ∀ (x : Section) (g : Settings) (other : Fin 16 → Prop)
            (window : Settings → Nat) (before : Fin 16 → Nat → Prop),
          x = s.sec i → g = x.cfg → other = (fun k => k ≠ i ∧ (s.sec k).present = true) →
          window = (fun h => if h.memberCount ≤ 1 then 1 else if h.memberCount = 2 then 2 else 4) →
          before = (fun k d => (s.sec k).depth.getD 0 < d ∨ ((s.sec k).depth.getD 0 = d ∧ k < i)) →
          (v ≠ 0 → v ≠ 1 → exec (.write args) s = no .range 0) ∧
          ((v = 1 ∧ x.present = true) ∨ (v = 0 ∧ x.present = false) → exec (.write args) s = answer s.asked) ∧
          (v = 1 → x.present = false →
            (∀ e, s.presentRefusal i = some e → exec (.write args) s = no e.1 e.2) ∧
            (s.presentRefusal i = none → exec (.write args) s = answer (s.asked.makePresent i)) ∧
            (g.upAddr = 0 → s.presentRefusal i = some (.range, 0xFF)) ∧
            (g.upAddr ≠ 0 →
              (∀ k, other k → (s.sec k).cfg.upAddr = g.upAddr →
                (∀ j, j < k → other j → (s.sec j).cfg.upAddr ≠ g.upAddr) →
                s.presentRefusal i = some (.conflict, BitVec.ofNat 8 k.val)) ∧
              ((∀ k, other k → (s.sec k).cfg.upAddr ≠ g.upAddr) →
                (g.upAddr = s.part.mgmtAddr ∨ s.mgmt.pendingMove = some g.upAddr →
                  s.presentRefusal i = some (.conflict, 0xFF)) ∧
                (g.upAddr ≠ s.part.mgmtAddr → s.mgmt.pendingMove ≠ some g.upAddr →
                  (g.memberBase = 0 ∨ g.memberBase.toNat % window g ≠ 0 →
                    s.presentRefusal i = some (.range, 0xFF)) ∧
                  (g.memberBase ≠ 0 → g.memberBase.toNat % window g = 0 →
                    ∀ shares : Fin 16 → Prop, shares = (fun k => other k ∧
                      g.memberBase.toNat < (s.sec k).cfg.memberBase.toNat + window (s.sec k).cfg ∧
                      (s.sec k).cfg.memberBase.toNat < g.memberBase.toNat + window g) →
                    (∀ k, shares k → (∀ j, j < k → ¬shares j) →
                      s.presentRefusal i = some (.conflict, BitVec.ofNat 8 k.val)) ∧
                    ((∀ k, ¬shares k) →
                      (g.maxSpeed ≤ 0 → s.presentRefusal i = some (.range, 0xFF)) ∧
                      (0 < g.maxSpeed →
                        (∀ b, g.drawBase = some b → ¬other b →
                          s.presentRefusal i = some (.absent, BitVec.ofNat 8 b.val)) ∧
                        ((∀ b, g.drawBase = some b → other b) → ∀ total : Nat,
                          total = (s.presentSecs.map fun k => (s.sec k).cfg.memberCount).sum + g.memberCount →
                          (32 < total → s.presentRefusal i = some (.limit, 0xFF)) ∧
                          (total ≤ 32 →
                            (∀ j : Fin 4, j.val < g.memberCount → (x.member j).rating < 100 →
                              (∀ k : Fin 4, k < j → 100 ≤ (x.member k).rating) →
                              s.presentRefusal i = some (.range, BitVec.ofNat 8 j.val)) ∧
                            ((∀ j : Fin 4, j.val < g.memberCount → 100 ≤ (x.member j).rating) →
                              s.presentRefusal i = none))))))))) ∧
            (s.claimant i = none → ∃ (y : Section) (earlier later : List (Fin 16)) (d : Nat),
              s.asked.makePresent i = { s.asked with
                sections := s.sections.set i y, chain := earlier ++ i :: later
                cyc := { s.cyc with images := s.cyc.images.set i (some
                  { runState := .stopped, source := g.initSource, cause := .none, causeSlot := none, applied := 0
                    leadSpeed := 0, load := 0, runner := none
                    flags := { ramping := false, saturated := false, ratioLimit := false, trimLimit := false
                               degraded := false } }) } } ∧
              (g.drawBase = none → d = 1) ∧ (∀ b, g.drawBase = some b → d = (s.sec b).depth.getD 0 + 1) ∧
              s.chain = earlier ++ later ∧ (∀ k ∈ earlier, before k d) ∧
              (s.ChainSound → ∀ k ∈ later, ¬before k d) ∧
              y = { x with
                present := true, runState := .stopped, cause := .none, causeSlot := none, refused := .none
                refusedSlot := none, stopSeen := false, orderAge := 0, source := g.initSource, draw := g.initDraw
                observed := 1000000, master := 0, target := 0, applied := 0, load := 0, release := .off
                flags := { ramping := false, saturated := false, ratioLimit := false, trimLimit := false
                           degraded := false }
                depth := some d, members := y.members } ∧
              ∀ j, y.member j = { x.member j with
                state := .absent, missCount := 0, result := .none, faultReset := false, speed := 0, torque := 0
                converted := 0, shareTarget := 0, shareError := 0, trim := 0
                status := { ready := false, running := false, fault := false, limit := false } })) ∧
          (v = 0 → x.present = true →
            (∀ r, s.claimant i = some r → exec (.write args) s = no .claimed (BitVec.ofNat 8 r.val)) ∧
            (s.claimant i = none → x.runState ≠ .stopped → exec (.write args) s = no .state 0xFF) ∧
            (s.claimant i = none → x.runState = .stopped → ∀ dependent : Fin 16 → Prop,
              dependent = (fun k => (s.sec k).present = true ∧ (s.sec k).cfg.drawBase = some i) →
              (∀ k, dependent k → (∀ j, j < k → ¬dependent j) →
                exec (.write args) s = no .dependent (BitVec.ofNat 8 k.val)) ∧
              ((∀ k, ¬dependent k) → exec (.write args) s = answer { s.asked with
                sections := s.sections.set i { x with present := false, depth := none, release := .off }
                chain := s.chain.filter (fun k => decide (k ≠ i))
                cyc := { s.cyc with
                  images := s.cyc.images.set i none
                  inFlight := s.cyc.inFlight.map fun y => { y with dropped := i :: y.dropped } } })))) ∧
        (1 ≤ c.field → c.field ≤ 7 → s.mgmt.access = .engineer → (s.sec i).present = true →
          exec (.write args) s = no .state (BitVec.ofNat 8 c.field)) ∧
        (c.field = 7 → s.mgmt.access = .engineer → (s.sec i).present = false → v < 0 ∨ 250000 < v →
          exec (.write args) s = no .range 7) ∧
        (c.field = 7 → s.mgmt.access = .engineer → (s.sec i).present = false → 0 ≤ v → v ≤ 250000 →
          exec (.write args) s = answer (s.asked.setSec i { s.sec i with
            cfg := { (s.sec i).cfg with maxSpeed := v } })) ∧
        (c.field = 17 → ¬s.LevelFor i → exec (.write args) s = no .level 17) ∧
        (c.field = 17 → s.LevelFor i → v < 0 ∨ 1000 < v → exec (.write args) s = no .range 17) ∧
        (c.field = 17 → s.LevelFor i → 0 ≤ v → v ≤ 1000 →
          ∃ x : Section, exec (.write args) s = answer (s.asked.setSec i { x with
              cfg := { (s.sec i).cfg with trimLimit := v }
              flags := { (s.sec i).flags with
                trimLimit := (s.sec i).flags.trimLimit || decide (∃ j : Fin 4, j ≠ 0 ∧
                  (v < ((s.sec i).member j).trim ∨ ((s.sec i).member j).trim < -v)) } }) ∧
            { x with members := (s.sec i).members } = s.sec i ∧
            (x.member 0) = (s.sec i).member 0 ∧
            ∀ j, j ≠ 0 → x.member j = { (s.sec i).member j with
              trim := max (-v) (min v ((s.sec i).member j).trim) })) ∧
      (∀ (i : Fin 16) (j : Fin 4), c.table = .members → c.entry = 4 * i.val + j.val →
        (c.field = 0 → s.mgmt.access = .engineer → (s.sec i).present = true → exec (.write args) s = no .state 0) ∧
        (c.field = 0 → s.mgmt.access = .engineer → (s.sec i).present = false → v = 0 ∨ (100 ≤ v ∧ v ≤ 60000) →
          exec (.write args) s = answer (s.asked.setSec i ((s.sec i).setMember j
            { (s.sec i).member j with rating := v }))) ∧
        (c.field = 1 → s.LevelFor i → 1 ≤ v → v ≤ 100 →
          exec (.write args) s = answer (s.asked.setSec i ((s.sec i).setMember j
            { (s.sec i).member j with weight := v })))) ∧
      (∀ k : Fin 96, c.table = .steps → c.entry = k.val → c.field ≤ 23 →
        (s.mgmt.access = .monitor → exec (.write args) s = no .level (BitVec.ofNat 8 c.field)) ∧
        (∀ r, s.mgmt.access ≠ .monitor → (s.runner r).state ≠ .idle → (s.runner r).step = some k →
          (∀ q, q < r → (s.runner q).state = .idle ∨ (s.runner q).step ≠ some k) →
          exec (.write args) s = no .inUse (BitVec.ofNat 8 r.val)) ∧
        (s.mgmt.access ≠ .monitor → (∀ q, (s.runner q).state = .idle ∨ (s.runner q).step ≠ some k) →
          c.field = 4 → 1 ≤ v → v ≤ 65535 →
          exec (.write args) s = answer (s.asked.setStep k { s.stepRec k with d := v.toNat }))) ∧
      (c.table = .part → c.entry = 0 → c.field = 6 →
        (s.mgmt.access ≠ .engineer → exec (.write args) s = no .level 6) ∧
        (s.mgmt.access = .engineer → v < 2 ∨ 20 < v → exec (.write args) s = no .range 6) ∧
        (s.mgmt.access = .engineer → 2 ≤ v → v ≤ 20 →
          (∀ n, s.cyc.lossTimer = some n → n < v.toNat * periodBits s.part.config) →
          exec (.write args) s = answer { s.asked with part := { s.part with lossLimit := v.toNat } }) ∧
        (∀ n, s.mgmt.access = .engineer → 2 ≤ v → v ≤ 20 → s.cyc.lossTimer = some n →
          v.toNat * periodBits s.part.config ≤ n → s.dn.asm = .wait →
          ∃ t, exec (.write args) s = .next t ∧ t.part.lossLimit = v.toNat ∧ t.cyc.upState = .lost ∧
            t.mgmt.access = .monitor ∧ t.part.notices.upstreamLoss = true))

/-- ADJUST DRAW: its refusals in their order; the new draw and ratio in both modes, the children's draws in HOLD mode,
and the reply (R67, R74 to R77). -/
def Obligations.AdjustDraw : Prop :=
  ∀ (s : State) (args : List Byte), s.MgmtReady → args.length = 12 →
    (arg args 0 < 0 ∨ 15 < arg args 0 → exec (.adjustDraw args) s = .next (s.asked.sendReply (reply .limit 0 []))) ∧
    ∀ i : Fin 16, arg args 0 = i.val → s.LevelFor i →
      ∀ (mode : Int) (valid : Prop), mode = arg args 2 →
        valid = (-1000 ≤ arg args 1 ∧ arg args 1 ≤ 1000 ∧ (mode = 0 ∨ mode = 1)) →
        (¬valid → exec (.adjustDraw args) s = .next (s.asked.sendReply (reply .range 0xFF []))) ∧
        (valid → (s.sec i).present = false →
          exec (.adjustDraw args) s = .next (s.asked.sendReply (reply .absent (BitVec.ofNat 8 i.val) []))) ∧
        (valid → (s.sec i).present = true → (s.sec i).source = .follow →
          exec (.adjustDraw args) s = .next (s.asked.sendReply (reply .state 0xFF []))) ∧
        (∀ r, valid → (s.sec i).present = true → (s.sec i).source = .cascade → s.claimant i = some r →
          exec (.adjustDraw args) s = .next (s.asked.sendReply (reply .claimed (BitVec.ofNat 8 r.val) []))) ∧
        (valid → (s.sec i).present = true → (s.sec i).source = .cascade → s.claimant i = none →
          (s.sec i).cfg.drawBase ≠ some i →
          ∃ (t : State) (code : ResultCode) (off : Byte) (base exact : Int) (x : Section) (hold : Fin 16 → Int)
              (child clamped : Fin 16 → Prop),
            base = (match (s.sec i).cfg.drawBase with
              | none => 1000000
              | some b => (s.sec b).ratio) ∧
            x = { s.sec i with
              draw := max (-500) (min 500 ((s.sec i).draw + arg args 1)), ratio := max 900000 (min 1100000 exact)
              flags := { (s.sec i).flags with ratioLimit := decide (exact < 900000 ∨ 1100000 < exact) } } ∧
            exact = (2 * (base * (10000 + x.draw)) + 10000) / 20000 ∧
            hold = (fun k => divHalfAway (10000 * ((s.sec k).ratio - x.ratio)) x.ratio) ∧
            child = (fun k => k ≠ i ∧ mode = 1 ∧ (s.sec k).present = true ∧ (s.sec k).cfg.drawBase = some i ∧
              (s.sec k).source = .cascade) ∧
            clamped = (fun k => child k ∧ (hold k < -500 ∨ 500 < hold k)) ∧
            exec (.adjustDraw args) s = .next (State.sendReply { s.asked with sections := t.sections }
              (reply code off [toValue x.draw, toValue x.ratio])) ∧
            t.sec i = x ∧
            (∀ k, child k → t.sec k = { s.sec k with draw := max (-500) (min 500 (hold k)) }) ∧
            (∀ k, k ≠ i → ¬child k → t.sec k = s.sec k) ∧
            ((s.sec i).draw + arg args 1 < -500 ∨ 500 < (s.sec i).draw + arg args 1 ∨ (∃ k, clamped k) →
              code = .doneClamped) ∧
            (-500 ≤ (s.sec i).draw + arg args 1 → (s.sec i).draw + arg args 1 ≤ 500 → (∀ k, ¬clamped k) →
              code = .done) ∧
            ((∀ k, ¬clamped k) → off = 0xFF) ∧
            (∀ k, clamped k → (∀ j, j < k → ¬clamped j) → off = BitVec.ofNat 8 k.val))

/-- TRANSFER in both directions: its refusals, the request for the mode in force, the back-computed draw, and the
observed ratio set to R (R80, R81). -/
def Obligations.Transfers : Prop :=
  ∀ (s : State) (args : List Byte) (i : Fin 16), s.MgmtReady → args.length = 8 → arg args 0 = i.val → s.LevelFor i →
    (arg args 1 < 0 ∨ 1 < arg args 1 →
      exec (.transferToCascade args) s = .next (s.asked.sendReply (reply .range 0xFF []))) ∧
    (arg args 1 = 0 ∨ arg args 1 = 1 → ∀ c, (c = Instr.transferToCascade args ∨ c = Instr.transferToFollow args) →
      ((s.sec i).present = false →
        exec c s = .next (s.asked.sendReply (reply .absent (BitVec.ofNat 8 i.val) []))) ∧
      (∀ r, (s.sec i).present = true → s.claimant i = some r →
        exec c s = .next (s.asked.sendReply (reply .claimed (BitVec.ofNat 8 r.val) [])))) ∧
    ((s.sec i).present = true → s.claimant i = none →
      (∀ x, (arg args 1 = 1 ∧ (s.sec i).source = .cascade ∧ x = exec (.transferToCascade args) s) ∨
          (arg args 1 = 0 ∧ (s.sec i).source = .follow ∧ x = exec (.transferToFollow args) s) →
        x = .next (s.asked.sendReply (reply .done 0xFF [toValue (s.sec i).draw, toValue (s.sec i).ratio]))) ∧
      (arg args 1 = 0 → (s.sec i).source = .cascade →
        exec (.transferToFollow args) s = .next ((s.asked.setSec i { s.sec i with
          observed := (s.sec i).ratio, source := .follow }).sendReply
          (reply .done 0xFF [toValue (s.sec i).draw, toValue (s.sec i).ratio]))) ∧
      (arg args 1 = 1 → (s.sec i).source = .follow → (s.sec i).runState ≠ .running ∨ s.cyc.lineSpeed < 1000 →
        exec (.transferToCascade args) s = .next (s.asked.sendReply (reply .noRatio 0xFF []))) ∧
      (arg args 1 = 1 → (s.sec i).source = .follow → (s.sec i).runState = .running → 1000 ≤ s.cyc.lineSpeed →
        ∃ (base back exact : Int) (x : Section) (code : ResultCode),
          base = (match (s.sec i).cfg.drawBase with
            | none => 1000000
            | some b => (s.sec b).ratio) ∧
          back = divHalfAway (10000 * ((s.sec i).observed - base)) base ∧
          x = { s.sec i with
            draw := max (-500) (min 500 back), source := .cascade, ratio := max 900000 (min 1100000 exact)
            flags := { (s.sec i).flags with ratioLimit := decide (exact < 900000 ∨ 1100000 < exact) } } ∧
          exact = (2 * (base * (10000 + x.draw)) + 10000) / 20000 ∧
          (code = if back < -500 ∨ 500 < back then .doneClamped else .done) ∧
          exec (.transferToCascade args) s = .next ((s.asked.setSec i x).sendReply
            (reply code 0xFF [toValue x.draw, toValue x.ratio]))))

/-- RELEASE TRIP: refused for a section absent or not TRIPPED; else STOPPED, DEGRADED clear, the cause kept, a fault
reset asked of each member that showed FAULT, the release check armed (R61, R62). -/
def Obligations.ReleaseTrip : Prop :=
  ∀ (s : State) (args : List Byte) (i : Fin 16), s.MgmtReady → args.length = 4 → arg args 0 = i.val → s.LevelFor i →
    ((s.sec i).present = false →
      exec (.releaseTrip args) s = .next (s.asked.sendReply (reply .absent (BitVec.ofNat 8 i.val) []))) ∧
    ((s.sec i).present = true → (s.sec i).runState ≠ .tripped →
      exec (.releaseTrip args) s = .next (s.asked.sendReply (reply .state 0xFF []))) ∧
    ((s.sec i).present = true → (s.sec i).runState = .tripped →
      ∃ x : Section, exec (.releaseTrip args) s = .next ((s.asked.setSec i { x with
          runState := .stopped, flags := { (s.sec i).flags with degraded := false }, release := .armed }).sendReply
          (reply .done 0xFF [])) ∧
        { x with members := (s.sec i).members } = s.sec i ∧
        ∀ j : Fin 4, x.member j = { (s.sec i).member j with
          faultReset := ((s.sec i).member j).faultReset ||
            (decide (j.val < (s.sec i).cfg.memberCount) && ((s.sec i).member j).status.fault) })

/-- START TEST: six checks in their order; on success the record is cleared, the claim taken and the first step entered,
and the reply shows the runner's state and abort cause after it (R121, R122). -/
def Obligations.StartTest : Prop :=
  ∀ (s : State) (args : List Byte), s.MgmtReady → args.length = 12 →
    (arg args 0 < 0 ∨ 3 < arg args 0 → exec (.startTest args) s = .next (s.asked.sendReply (reply .limit 0 []))) ∧
    (0 ≤ arg args 0 → arg args 0 ≤ 3 → arg args 1 < 0 ∨ 15 < arg args 1 →
      exec (.startTest args) s = .next (s.asked.sendReply (reply .limit 1 []))) ∧
    (0 ≤ arg args 0 → arg args 0 ≤ 3 → 0 ≤ arg args 1 → arg args 1 ≤ 15 → arg args 2 < 0 ∨ 95 < arg args 2 →
      exec (.startTest args) s = .next (s.asked.sendReply (reply .limit 2 []))) ∧
    ∀ (r : Fin 4) (i : Fin 16) (k : Fin 96), arg args 0 = r.val → arg args 1 = i.val → arg args 2 = k.val →
      s.LevelFor i →
      ((s.runner r).state ≠ .idle →
        exec (.startTest args) s = .next (s.asked.sendReply (reply .state 0xFF []))) ∧
      ((s.runner r).state = .idle →
        ((s.sec i).present = false →
          exec (.startTest args) s = .next (s.asked.sendReply (reply .absent (BitVec.ofNat 8 i.val) []))) ∧
        ((s.sec i).present = true → (s.sec i).runState ≠ .running →
          exec (.startTest args) s = .next (s.asked.sendReply (reply .state 0xFF []))) ∧
        ((s.sec i).present = true → (s.sec i).runState = .running →
          (∀ q, s.claimant i = some q →
            exec (.startTest args) s = .next (s.asked.sendReply (reply .claimed (BitVec.ofNat 8 q.val) []))) ∧
          (s.claimant i = none →
            ((s.stepRec k).present = false →
              exec (.startTest args) s = .next (s.asked.sendReply (reply .absent (BitVec.ofNat 8 k.val) []))) ∧
            ((s.stepRec k).present = true → 64 - s.log.records.length < s.notIdle + 1 →
              exec (.startTest args) s = .next (s.asked.sendReply (reply .log 0xFF []))) ∧
            ((s.stepRec k).present = true → s.notIdle + 1 ≤ 64 - s.log.records.length →
              ∃ t, t = (s.asked.setRunner r { s.runner r with
                  outcome := .none, abortCause := .none, stepsRun := 0, offset := 0, pendingRecord := none
                  flags := { draw := false, compensation := false, saturated := false }
                  claimed := some i, state := .running, step := some k }).enterStep r k ∧
                exec (.startTest args) s = .next (t.sendReply (reply .done 0xFF
                  [toValue (t.runner r).state.code, toValue (t.runner r).abortCause.code]))))))

/-- PAUSE, RESUME and STOP TEST: their refusals, the runner's new state, and what STOP leaves, its TEST END record in the
log (R135, R136, R138, R146; no notice). -/
def Obligations.PauseResumeStop : Prop :=
  ∀ (s : State) (args : List Byte) (r : Fin 4) (i : Fin 16), s.MgmtReady → args.length = 4 → arg args 0 = r.val →
    ((s.runner r).state = .idle → s.mgmt.access ≠ .monitor →
      ∀ c, c = Instr.pauseTest args ∨ c = Instr.resumeTest args ∨ c = Instr.stopTest args →
        exec c s = .next (s.asked.sendReply (reply .state 0xFF []))) ∧
    ((s.runner r).claimed = some i → s.LevelFor i →
      ((s.runner r).state = .running →
        exec (.resumeTest args) s = .next (s.asked.sendReply (reply .state 0xFF [])) ∧
        exec (.pauseTest args) s = .next ((s.asked.setRunner r { s.runner r with state := .paused }).sendReply
          (reply .done 0xFF [2]))) ∧
      ((s.runner r).state = .paused →
        exec (.pauseTest args) s = .next (s.asked.sendReply (reply .state 0xFF [])) ∧
        exec (.resumeTest args) s = .next ((s.asked.setRunner r { s.runner r with state := .running }).sendReply
          (reply .done 0xFF [1]))) ∧
      ((s.runner r).state = .waiting →
        exec (.pauseTest args) s = .next (s.asked.sendReply (reply .state 0xFF [])) ∧
        exec (.resumeTest args) s = .next (s.asked.sendReply (reply .state 0xFF []))) ∧
      ((s.runner r).state ≠ .idle →
        exec (.stopTest args) s = .next (State.sendReply { s.asked with
          runners := s.runners.set r { s.runner r with
            offset := 0, claimed := none, state := .idle, outcome := .stopped, abortCause := .none
            pendingRecord := if (s.runner r).state = .waiting then none else (s.runner r).pendingRecord }
          log := { s.log with
            waiters := if (s.runner r).state = .waiting then s.log.waiters.filter (· != r) else s.log.waiters
            nextSeq := s.log.nextSeq + 1
            records := s.log.records ++ [
              { seq := s.log.nextSeq, count := s.cyc.cycleCount, kind := .testEnd, runner := r, sec := i
                step := (s.runner r).step.getD 0, outcome := .stopped, elapsed := (s.runner r).elapsed
                applied := (s.sec i).applied, leadSpeed := ((s.sec i).member 0).speed, load := (s.sec i).load
                offset := (s.runner r).offset, flags := (s.runner r).flags, members := (s.sec i).memberList }] } }
          (reply .done 0xFF [0]))))

/-- FETCH LOG returns the oldest records, each in the 14 values of section 11.3, and changes nothing; DROP LOG removes the
oldest and then serves the waiters, oldest first, while the free places exceed the runners not IDLE (R128, R142, R147, R149,
R150). -/
def Obligations.FetchAndDropLog : Prop :=
  (∀ (s : State) (args : List Byte), s.MgmtReady → args.length = 4 →
    (arg args 0 < 1 ∨ 2 < arg args 0 → exec (.fetchLog args) s = .next (s.asked.sendReply (reply .range 0xFF []))) ∧
    (∀ n : Nat, arg args 0 = n → 1 ≤ n → n ≤ 2 →
      exec (.fetchLog args) s = .next (s.asked.sendReply
        { code := if s.log.records.length < n then .doneClamped else .done, offending := 0xFF
          count := min n s.log.records.length, tie := .plain
          values := (s.log.records.take n).flatMap recordValues })) ∧
    (s.mgmt.access ≠ .monitor → arg args 0 < 1 ∨ 64 < arg args 0 →
      exec (.dropLog args) s = .next (s.asked.sendReply (reply .range 0xFF []))) ∧
    (∀ n : Nat, s.mgmt.access ≠ .monitor → arg args 0 = n → 1 ≤ n → n ≤ 64 →
      ∃ t u, u = { s.asked with log := { s.log with records := s.log.records.drop n } } ∧
        (s.log.records = [] ∨ s.log.waiters = [] → t = u) ∧
        (s.log.records ≠ [] → s.log.waiters.length ≤ 4 → t = State.serveWaiters u.log.waiters.length u) ∧
        exec (.dropLog args) s = .next (t.sendReply
          { code := if s.log.records.length < n then .doneClamped else .done, offending := 0xFF
            count := min s.log.records.length n, tie := .plain
            values := [toValue t.log.records.length, toValue ((64 - t.log.records.length : Nat) : Int)] }))) ∧
  (∀ (u : State) (n : Nat), (u.log.waiters = [] ∨ 64 - u.log.records.length ≤ u.notIdle →
      State.serveWaiters n u = u)) ∧
  (∀ (u : State) (n : Nat) (r : Fin 4) (rest : List (Fin 4)) (rec : CaptureRecord),
    u.log.waiters = r :: rest → r ∉ rest → u.notIdle < 64 - u.log.records.length →
    (u.runner r).pendingRecord = some rec →
    State.serveWaiters (n + 1) u = State.serveWaiters n (State.goOn
      { u.setRunner r { u.runner r with pendingRecord := none, state := .running } with
        log := { u.log with
          waiters := rest, records := u.log.records ++ [{ rec with seq := u.log.nextSeq }]
          nextSeq := u.log.nextSeq + 1 } } r)) ∧
  ∀ (r : CaptureRecord) (cs : List Byte), cs = (recordValues r).flatMap chars32 →
    (recordValues r).length = 14 ∧ cs.length = 56 ∧
    cs.take 28 = [match r.kind with
        | .stepEnd => 0
        | .capture => 1
        | .testEnd => 2, BitVec.ofNat 8 r.runner.val] ++ chars16 r.seq ++ chars32 r.count ++
      [BitVec.ofNat 8 r.sec.val, BitVec.ofNat 8 r.step.val] ++
      (match r.outcome with
        | .met => [0, 0]
        | .done => [1, 0]
        | .timeout => [2, 0]
        | .completed => [3, 0]
        | .stopped => [4, 0]
        | .aborted cause => [5, toByte cause.code]) ++
      chars32 (BitVec.ofNat 32 r.elapsed) ++
      [(if r.flags.draw then 1 else 0) + (if r.flags.compensation then 2 else 0) +
        (if r.flags.saturated then 4 else 0)] ++
      chars24 (BitVec.ofInt 24 r.applied) ++ chars24 (BitVec.ofInt 24 r.leadSpeed) ++
      chars24 (BitVec.ofInt 24 r.offset) ++ chars16 (BitVec.ofInt 16 r.load) ∧
    ∀ k : Fin 4,
      ((∀ e ∈ r.members, e.slot ≠ k) → (cs.drop (28 + 7 * k.val)).take 7 = List.replicate 7 0) ∧
      ∀ before e after, r.members = before ++ e :: after → e.slot = k → (∀ x ∈ before, x.slot ≠ k) →
        (cs.drop (28 + 7 * k.val)).take 7 = chars24 (BitVec.ofInt 24 e.speed) ++
          chars16 (BitVec.ofInt 16 e.torque) ++ chars16 (BitVec.ofInt 16 e.trim)

/-- LINK TEST, MOVE ADDRESS and CLEAR NOTICES (R16, R17, R168, R169; an address equal to the one in force is answered
without a value, log 9; at loopback entry the gap timer and the wait for mark stop, log 20). -/
def Obligations.MaintenanceCommands : Prop :=
  ∀ s : State, s.MgmtReady →
    (s.mgmt.access = .engineer → s.link.running = true →
      exec (.linkTest []) s = .next (s.asked.sendReply (reply .busy 0xFF []))) ∧
    (s.mgmt.access = .engineer → s.link.running = false →
      ((∃ i, (s.sec i).present = true ∧ ((s.sec i).runState = .running ∨ (s.sec i).runState = .stopping)) →
        exec (.linkTest []) s = .next (s.asked.sendReply (reply .state 0xFF []))) ∧
      ((∀ i, (s.sec i).present = true → (s.sec i).runState = .stopped ∨ (s.sec i).runState = .tripped) →
        ∀ l : LinkTest,
          l = { running := true, result := .none, loopback := false, frameNo := 0, awaiting := false, badCount := 0
                firstBad := none, echoBits := 0, sendTimer := none } →
          (s.cyc.inFlight ≠ none →
            exec (.linkTest []) s = .next (State.sendReply { s.asked with link := l } (reply .done 0xFF []))) ∧
          (s.cyc.inFlight = none →
            exec (.linkTest []) s = .next (State.sendReply { s.asked with
              link := { l with loopback := true, awaiting := true }
              dn := { s.dn with
                fifo := [], asm := .wait, gapTimer := none, awaitMark := false, sentBits := 0, driving := true } }
              (reply .done 0xFF []))))) ∧
    (∀ args : List Byte, s.mgmt.access = .engineer → args.length = 4 →
      (arg args 0 < 1 ∨ 63 < arg args 0 →
        exec (.moveAddress args) s = .next (s.asked.sendReply (reply .range 0xFF []))) ∧
      (1 ≤ arg args 0 → arg args 0 ≤ 63 → ∀ a : Byte, a.toNat = (arg args 0).toNat →
        (∀ i, s.sectionAt a = some i →
          exec (.moveAddress args) s = .next (s.asked.sendReply (reply .conflict (BitVec.ofNat 8 i.val) []))) ∧
        (s.sectionAt a = none → a = s.part.mgmtAddr →
          exec (.moveAddress args) s = .next (s.asked.sendReply (reply .done 0xFF []))) ∧
        (s.sectionAt a = none → a ≠ s.part.mgmtAddr →
          exec (.moveAddress args) s = .next (State.sendReply { s.asked with
            mgmt := { s.asked.mgmt with pendingMove := some a } }
            { code := .done, offending := 0xFF, count := 0, values := [toValue (arg args 0)], tie := .move a })))) ∧
    (s.mgmt.access ≠ .monitor →
      exec (.clearNotices []) s = .next (State.sendReply { s.asked with
        up := { s.asked.up with lastError := .none }, dn := { s.dn with lastError := .none }
        part := { s.part with notices := {
          upstreamLoss := false, storeInvalid := s.part.notices.storeInvalid, overrun := false, lineClamped := false
          sectionTrip := false, testEnded := false } } }
        (reply .done 0xFF [])))

/-- SAVE TABLES snapshots the tables, a present section with its draw and mode in force; the save's completion, which after
a failure leaves no copy (log 13), after a confirmed save one that matches its CRC (log 12), and outside a save changes
nothing (log 4); RESTART armed, and its reset when its reply's burst completes (R172, R173, R175). -/
def Obligations.SaveAndRestart : Prop :=
  ∀ s : State,
    (s.MgmtReady → s.mgmt.access = .engineer → s.store.state = .saving →
      exec (.saveTables []) s = .next (s.asked.sendReply (reply .busy 0xFF [])) ∧
      exec (.restart []) s = .next (s.asked.sendReply (reply .busy 0xFF []))) ∧
    (s.MgmtReady → s.mgmt.access = .engineer → s.store.state ≠ .saving →
      (∃ t : SavedTables,
        exec (.saveTables []) s = .next (State.sendReply { s.asked with
          store := { s.store with state := .saving, snapshot := some t, copy := none } } (reply .done 0xFF [])) ∧
        t.mgmtAddr = s.part.mgmtAddr ∧ t.lossLimit = s.part.lossLimit ∧ t.steps = s.steps ∧
        ∀ i : Fin 16, t.sections[i].present = (s.sec i).present ∧
          ((s.sec i).present = false → t.sections[i].cfg = (s.sec i).cfg) ∧
          ((s.sec i).present = true → t.sections[i].cfg = { (s.sec i).cfg with
            initDraw := (s.sec i).draw, initSource := (s.sec i).source }) ∧
          ∀ j : Fin 4, t.sections[i].ratings[j] = ((s.sec i).member j).rating ∧
            t.sections[i].weights[j] = ((s.sec i).member j).weight) ∧
      ((∃ i, (s.sec i).present = true ∧ ((s.sec i).runState = .running ∨ (s.sec i).runState = .stopping)) →
        exec (.restart []) s = .next (s.asked.sendReply (reply .state 0xFF []))) ∧
      ((∀ i, (s.sec i).present = true → (s.sec i).runState = .stopped ∨ (s.sec i).runState = .tripped) →
        exec (.restart []) s = .next (State.sendReply { s.asked with
          store := { s.store with pendingRestart := true } }
          { code := .done, offending := 0xFF, count := 0, values := [], tie := .restart }))) ∧
    (s.phase = .inService →
      (s.store.state ≠ .saving → ∀ o, exec (.saveCompletion o) s = .next s) ∧
      (∀ t, s.store.state = .saving → s.store.snapshot = some t →
        exec (.saveCompletion .confirmed) s = .next { s with
          store := { s.store with
            state := .valid, lastSave := .valid, snapshot := none
            copy := some { tables := t, crcMatches := true } }
          part := { s.part with notices := { s.part.notices with storeInvalid := false } } }) ∧
      (∀ o, s.store.state = .saving → o ≠ .confirmed →
        exec (.saveCompletion o) s = .next { s with
          store := { s.store with state := .invalid, lastSave := .failed, snapshot := none, copy := none }
          part := { s.part with notices := { s.part.notices with storeInvalid := true } } }) ∧
      (∀ fs f, s.up.driving = true → s.up.tx = fs ++ [f] → (∀ g ∈ fs, g.tie = .plain ∧ g.kind ≠ kindSlotCall) →
        f.tie = .restart → s.store.pendingRestart = true → s.store.state ≠ .saving →
        ∃ t, exec (.burstComplete .up) s = .next t ∧ t.phase = .startUp ∧ t.part.config = s.part.config ∧
          t.part.mgmtAddr = 60 + (s.part.config &&& 3) ∧ t.store.copy = s.store.copy ∧
          t.store.pendingRestart = false ∧ t.up = Port.reset ∧ t.dn = Port.reset ∧ t.link = LinkTest.reset ∧
          t.cyc = CycleCtl.reset ∧ t.mgmt = Mgmt.reset ∧ t.chain = [] ∧ (∀ k, t.stepRec k = StepRecord.reset) ∧
          (∀ i, t.sec i = Section.reset) ∧ (∀ r, t.runner r = Runner.reset) ∧ t.log = Log.reset))

/-- A request below the level it needs is refused with LEVEL and changes nothing else (R159). -/
def Obligations.LevelRefusals : Prop :=
  ∀ s : State, s.MgmtReady →
    (s.mgmt.access ≠ .engineer →
      (∀ c, c = Instr.linkTest [] ∨ c = Instr.saveTables [] ∨ c = Instr.restart [] →
        exec c s = .next (s.asked.sendReply (reply .level 0xFF []))) ∧
      ∀ args : List Byte, args.length = 4 →
        exec (.moveAddress args) s = .next (s.asked.sendReply (reply .level 0xFF []))) ∧
    (s.mgmt.access = .monitor → exec (.clearNotices []) s = .next (s.asked.sendReply (reply .level 0xFF [])) ∧
      ∀ args : List Byte, args.length = 4 →
        exec (.dropLog args) s = .next (s.asked.sendReply (reply .level 0xFF []))) ∧
    (∀ (args : List Byte) (i : Fin 16), ¬s.LevelFor i → arg args 0 = i.val →
      (args.length = 12 → exec (.adjustDraw args) s = .next (s.asked.sendReply (reply .level 0xFF []))) ∧
      (args.length = 8 → exec (.transferToCascade args) s = .next (s.asked.sendReply (reply .level 0xFF [])) ∧
        exec (.transferToFollow args) s = .next (s.asked.sendReply (reply .level 0xFF []))) ∧
      (args.length = 4 → exec (.releaseTrip args) s = .next (s.asked.sendReply (reply .level 0xFF [])))) ∧
    (∀ (args : List Byte) (r : Fin 4) (i : Fin 16) (k : Fin 96), ¬s.LevelFor i → args.length = 12 →
      arg args 0 = r.val → arg args 1 = i.val → arg args 2 = k.val →
      exec (.startTest args) s = .next (s.asked.sendReply (reply .level 0xFF []))) ∧
    ∀ (args : List Byte) (r : Fin 4), args.length = 4 → arg args 0 = r.val →
      ((s.runner r).state = .idle ∧ s.mgmt.access = .monitor) ∨
        ((s.runner r).state ≠ .idle ∧ ∃ i, (s.runner r).claimed = some i ∧ ¬s.LevelFor i) →
      ∀ c, c = Instr.pauseTest args ∨ c = Instr.resumeTest args ∨ c = Instr.stopTest args →
        exec c s = .next (s.asked.sendReply (reply .level 0xFF []))

/-- Codes the part does not know are answered UNKNOWN, payloads of a wrong length RANGE; in LINKED the reply is held, else
it is queued at the UP port, or lost where 18 frames are queued already (log 27); a frame that meets a pending reply is
discarded with the notice (R14, R152 to R155, R179). -/
def Obligations.UnknownLengthsAndOverrun : Prop :=
  ∀ s : State,
    (s.MgmtReady → ∀ (code : ResultCode) (pl : List Byte) (c : Instr),
      c.managePayload = some pl → pl.length ≤ 124 →
      ((∃ k rest, pl = k :: rest ∧ (k = 0 ∨ 6 < k.toNat) ∧ code = .unknown) ∨
        (∃ v rest, pl = 6 :: v :: rest ∧ (v = 0 ∨ 14 < v.toNat) ∧ code = .unknown) ∨
        (code = .range ∧ ∃ args : List Byte,
          (c = .access args ∧ args.length ≠ 4) ∨ (c = .close args ∧ args ≠ []) ∨
          (c = .select args ∧ args.length ≠ 16) ∨ (c = .read args ∧ args.length ≠ 4) ∨
          (c = .write args ∧ (args.length % 4 ≠ 0 ∨ args.length < 4 ∨ 112 < args.length)) ∨
          (c = .adjustDraw args ∧ args.length ≠ 12) ∨ (c = .transferToCascade args ∧ args.length ≠ 8) ∨
          (c = .releaseTrip args ∧ args.length ≠ 4) ∨ (c = .startTest args ∧ args.length ≠ 12) ∨
          (c = .stopTest args ∧ args.length ≠ 4) ∨ (c = .pauseTest args ∧ args.length ≠ 4) ∨
          (c = .resumeTest args ∧ args.length ≠ 4) ∨ (c = .fetchLog args ∧ args.length ≠ 4) ∨
          (c = .dropLog args ∧ args.length ≠ 4) ∨ (c = .linkTest args ∧ args ≠ []) ∨
          (c = .saveTables args ∧ args ≠ []) ∨ (c = .restart args ∧ args ≠ []) ∨
          (c = .moveAddress args ∧ args.length ≠ 4) ∨ (c = .clearNotices args ∧ args ≠ []))) →
      (s.cyc.upState = .linked → exec c s = .next { s.asked with
        cyc := { s.cyc with
          pendingReply := some { code := code, offending := 0xFF, count := 0, values := [], tie := .plain } } }) ∧
      (s.cyc.upState ≠ .linked → 18 ≤ s.up.tx.length → exec c s = .next s.asked) ∧
      (s.cyc.upState ≠ .linked → s.up.tx.length < 18 → exec c s = .next { s.asked with
        up := { s.asked.up with
          tx := s.up.tx ++ [{ address := s.part.mgmtAddr, kind := 0x13, tie := .plain
                              payload := [code.code, 0xFF, 0] }]
          turnaround := if s.up.tx = [] then some 0 else s.up.turnaround } })) ∧
    (s.UpReady → s.cyc.upState = .linked → s.cyc.pendingReply ≠ none → ∀ (c : Instr) (pl : List Byte),
      c.managePayload = some pl → pl ≠ [] → pl.length ≤ 124 →
      exec c s = .next { s.heard .up with
        part := { s.part with notices := { s.part.notices with overrun := true } } })

/-! ## Resets, start-up and supply -/

/-- POWER ON, the release and the assertion of the reset pin, the loss of supply: every block at its reset values, the
straps latched where they are, the store copy kept unless a save was cut short (R171, R174, R176; log 14, log 18). -/
def Obligations.ResetsAndSupply : Prop :=
  ∀ (s : State) (p : Straps) (config : Byte) (t : State → Phase → Byte → State),
    config.toNat = (if p.ma0 = .low then 0 else 1) + (if p.ma1 = .low then 0 else 2) +
      (if p.cp0 = .low then 0 else 4) + (if p.cp1 = .high then 8 else 0) + (if p.lvl = .low then 0 else 16) +
      (if p.rst = .low then 0 else 32) →
    t = (fun u phase word => { State.reset with
      pending := u.pending, phase := phase, freeUses := u.freeUses
      part := { config := word, mgmtAddr := 60 + (word &&& 3), lossLimit := 5
                notices := { upstreamLoss := false, overrun := false, lineClamped := false, sectionTrip := false
                             testEnded := false
                             storeInvalid := decide (u.store.state = .saving ∨
                               ∀ c, u.store.copy = some c → c.crcMatches = false) } }
      store := {
        state := if u.store.state = .saving ∨ ∀ c, u.store.copy = some c → c.crcMatches = false then .invalid
          else .valid
        lastSave := .none, snapshot := none, pendingRestart := false
        copy := if u.store.state = .saving then none else u.store.copy } }) →
    exec (.powerOn p) s = .next (t s .startUp config) ∧
    (s.phase ≠ .off → exec (.resetPin p) s = .next (t s .startUp config)) ∧
    (s.phase = .off → exec (.resetPin p) s = .next s ∧ exec .resetPinAsserted s = .next s) ∧
    (s.phase ≠ .off → exec .resetPinAsserted s = .next (t s .held s.part.config)) ∧
    exec .lossOfSupply s = .next (t s .off s.part.config)

/-- The part comes into service: the tables restored when the straps and the store allow it (`loaded`, then the entries
saved present made present in passes until one makes none, `r`), the local period timer started with one downstream cycle
from there; outside start-up nothing (R29, R176 to R178; log 4). What makes an entry present, and what refuses it, is as in
a WRITE of present. -/
def Obligations.ComesIntoService : Prop :=
  ∀ s : State,
    (s.phase ≠ .startUp → exec .comeIntoService s = .next s) ∧
    (s.phase = .startUp → s.Quiet → s.dn.asm = .wait → s.cyc.inFlight = none → s.link = LinkTest.reset →
      ∃ t r, exec .comeIntoService s = .next t ∧ t.phase = .inService ∧ t.cyc.upState = s.cyc.upState ∧
        t.cyc.localTimer = some 0 ∧ t.cyc.cycleNumber = s.cyc.cycleNumber + 1 ∧
        t.cyc.cycleCount = s.cyc.cycleCount + 1 ∧ t.up = s.up ∧ t.link = s.link ∧ t.mgmt = s.mgmt ∧
        s.StartsFrom .comeIntoService { r with
          phase := .inService, cyc := { r.cyc with localTimer := some 0 } } ∧
        t.part.mgmtAddr = r.part.mgmtAddr ∧ t.part.lossLimit = r.part.lossLimit ∧ t.steps = r.steps ∧
        t.chain = r.chain ∧
        (∀ i, (t.sec i).cfg = (r.sec i).cfg ∧ (t.sec i).present = (r.sec i).present ∧
          ∀ j, ((t.sec i).member j).rating = ((r.sec i).member j).rating ∧
            ((t.sec i).member j).weight = ((r.sec i).member j).weight) ∧
        (s.part.config.getLsbD 5 = false ∨ s.store.state ≠ .valid → r = s) ∧
        (∀ c, s.part.config.getLsbD 5 = true → s.store.state = .valid → s.store.copy = some c →
          ∃ (loaded : State) (pass : State → State) (n : Nat),
            loaded = { s with
              part := { s.part with mgmtAddr := c.tables.mgmtAddr, lossLimit := c.tables.lossLimit }
              steps := c.tables.steps, chain := [], sections := loaded.sections } ∧
            (∀ i : Fin 16, loaded.sec i = { Section.reset with
                cfg := c.tables.sections[i].cfg, members := (loaded.sec i).members } ∧
              ∀ j : Fin 4, (loaded.sec i).member j = { Member.reset with
                rating := c.tables.sections[i].ratings[j], weight := c.tables.sections[i].weights[j] }) ∧
            pass = (fun u => (List.finRange 16).foldl (fun u i =>
              if c.tables.sections[i].present = true ∧ (u.sec i).present = false ∧ u.presentRefusal i = none then
                u.makePresent i
              else u) u) ∧
            n ≤ 17 ∧ r = pass^[n] loaded ∧ pass r = r ∧
            r.part = loaded.part ∧ r.steps = loaded.steps ∧
            ∀ i : Fin 16, (r.sec i).cfg = c.tables.sections[i].cfg ∧
              (∀ j : Fin 4, ((r.sec i).member j).rating = c.tables.sections[i].ratings[j] ∧
                ((r.sec i).member j).weight = c.tables.sections[i].weights[j]) ∧
              (c.tables.sections[i].present = false → (r.sec i).present = false) ∧
              ((t.sec i).present = true → (t.sec i).runState = .stopped ∧ (t.sec i).stopSeen = false ∧
                (t.sec i).source = c.tables.sections[i].cfg.initSource ∧
                (t.sec i).draw = c.tables.sections[i].cfg.initDraw ∧ ∀ j, ((t.sec i).member j).state = .absent)))

/-! ## What every step keeps -/

/-- Every step keeps the section entries, the step records and the saved tables in their ranges, A within 0 and the
section's maximum speed, and A and every trim at 0 at rest (R40, R41, R67, R71, R74, R89, R90, R102, R103). -/
def Obligations.TablesSoundKept : Prop :=
  ∀ s t : State, s.TablesSound → step s = .next t → t.TablesSound

/-- Every step keeps the runners and the log in agreement: claims exclusive and on RUNNING sections, waiters exactly the
WAITING runners, a place in the log for each runner not IDLE (R120, R121, R127, R133, R145, R146). -/
def Obligations.TestsSoundKept : Prop :=
  ∀ s t : State, s.TestsSound → step s = .next t → t.TestsSound

/-- Every step keeps the chain order list: the present sections once each, by depth and index, each depth one more than
its draw base's, and every draw base present (R44, R47, R48). -/
def Obligations.ChainSoundKept : Prop :=
  ∀ s t : State, s.ChainSound → step s = .next t → t.ChainSound

/-- Every step keeps both FIFOs within 128 entries, the transmit queues within 18 and 17 frames, and the log's sequence
numbers in one unbroken run (R6, R14, R143, R144; a reply that finds the UP queue full is lost, log 27). -/
def Obligations.BuffersAndNumbersKept : Prop :=
  ∀ s t : State, step s = .next t →
    (s.BuffersBounded → t.BuffersBounded) ∧ (s.log.Numbered → t.log.Numbered)

/-- What every step keeps holds at the reset state. -/
def Obligations.ResetStateIsSound : Prop :=
  State.reset.TablesSound ∧ State.reset.TestsSound ∧ State.reset.ChainSound ∧ State.reset.BuffersBounded ∧
    State.reset.log.Numbered
end

