-- ==== Sys2Proof/Laws/State.lean ====
section
/-! SUPPORT. One lemma per field per update: what an update of State leaves unchanged, and what it puts in place. -/

namespace Sys2Proof.Machine

open Sys2Proof

/-! ### modCyc -/

@[simp] theorem modCyc_pending (s : State) (f : CycleCtl → CycleCtl) : (s.modCyc f).pending = s.pending := rfl
@[simp] theorem modCyc_phase (s : State) (f : CycleCtl → CycleCtl) : (s.modCyc f).phase = s.phase := rfl
@[simp] theorem modCyc_up (s : State) (f : CycleCtl → CycleCtl) : (s.modCyc f).up = s.up := rfl
@[simp] theorem modCyc_dn (s : State) (f : CycleCtl → CycleCtl) : (s.modCyc f).dn = s.dn := rfl
@[simp] theorem modCyc_link (s : State) (f : CycleCtl → CycleCtl) : (s.modCyc f).link = s.link := rfl
@[simp] theorem modCyc_cyc (s : State) (f : CycleCtl → CycleCtl) : (s.modCyc f).cyc = f s.cyc := rfl
@[simp] theorem modCyc_sections (s : State) (f : CycleCtl → CycleCtl) : (s.modCyc f).sections = s.sections := rfl
@[simp] theorem modCyc_chain (s : State) (f : CycleCtl → CycleCtl) : (s.modCyc f).chain = s.chain := rfl
@[simp] theorem modCyc_steps (s : State) (f : CycleCtl → CycleCtl) : (s.modCyc f).steps = s.steps := rfl
@[simp] theorem modCyc_runners (s : State) (f : CycleCtl → CycleCtl) : (s.modCyc f).runners = s.runners := rfl
@[simp] theorem modCyc_log (s : State) (f : CycleCtl → CycleCtl) : (s.modCyc f).log = s.log := rfl
@[simp] theorem modCyc_mgmt (s : State) (f : CycleCtl → CycleCtl) : (s.modCyc f).mgmt = s.mgmt := rfl
@[simp] theorem modCyc_part (s : State) (f : CycleCtl → CycleCtl) : (s.modCyc f).part = s.part := rfl
@[simp] theorem modCyc_store (s : State) (f : CycleCtl → CycleCtl) : (s.modCyc f).store = s.store := rfl
@[simp] theorem modCyc_freeUses (s : State) (f : CycleCtl → CycleCtl) : (s.modCyc f).freeUses = s.freeUses := rfl

/-! ### setLink -/

@[simp] theorem setLink_pending (s : State) (l : LinkTest) : (s.setLink l).pending = s.pending := rfl
@[simp] theorem setLink_phase (s : State) (l : LinkTest) : (s.setLink l).phase = s.phase := rfl
@[simp] theorem setLink_up (s : State) (l : LinkTest) : (s.setLink l).up = s.up := rfl
@[simp] theorem setLink_dn (s : State) (l : LinkTest) : (s.setLink l).dn = s.dn := rfl
@[simp] theorem setLink_link (s : State) (l : LinkTest) : (s.setLink l).link = l := rfl
@[simp] theorem setLink_cyc (s : State) (l : LinkTest) : (s.setLink l).cyc = s.cyc := rfl
@[simp] theorem setLink_sections (s : State) (l : LinkTest) : (s.setLink l).sections = s.sections := rfl
@[simp] theorem setLink_chain (s : State) (l : LinkTest) : (s.setLink l).chain = s.chain := rfl
@[simp] theorem setLink_steps (s : State) (l : LinkTest) : (s.setLink l).steps = s.steps := rfl
@[simp] theorem setLink_runners (s : State) (l : LinkTest) : (s.setLink l).runners = s.runners := rfl
@[simp] theorem setLink_log (s : State) (l : LinkTest) : (s.setLink l).log = s.log := rfl
@[simp] theorem setLink_mgmt (s : State) (l : LinkTest) : (s.setLink l).mgmt = s.mgmt := rfl
@[simp] theorem setLink_part (s : State) (l : LinkTest) : (s.setLink l).part = s.part := rfl
@[simp] theorem setLink_store (s : State) (l : LinkTest) : (s.setLink l).store = s.store := rfl
@[simp] theorem setLink_freeUses (s : State) (l : LinkTest) : (s.setLink l).freeUses = s.freeUses := rfl

/-! ### modMgmt -/

@[simp] theorem modMgmt_pending (s : State) (f : Mgmt → Mgmt) : (s.modMgmt f).pending = s.pending := rfl
@[simp] theorem modMgmt_phase (s : State) (f : Mgmt → Mgmt) : (s.modMgmt f).phase = s.phase := rfl
@[simp] theorem modMgmt_up (s : State) (f : Mgmt → Mgmt) : (s.modMgmt f).up = s.up := rfl
@[simp] theorem modMgmt_dn (s : State) (f : Mgmt → Mgmt) : (s.modMgmt f).dn = s.dn := rfl
@[simp] theorem modMgmt_link (s : State) (f : Mgmt → Mgmt) : (s.modMgmt f).link = s.link := rfl
@[simp] theorem modMgmt_cyc (s : State) (f : Mgmt → Mgmt) : (s.modMgmt f).cyc = s.cyc := rfl
@[simp] theorem modMgmt_sections (s : State) (f : Mgmt → Mgmt) : (s.modMgmt f).sections = s.sections := rfl
@[simp] theorem modMgmt_chain (s : State) (f : Mgmt → Mgmt) : (s.modMgmt f).chain = s.chain := rfl
@[simp] theorem modMgmt_steps (s : State) (f : Mgmt → Mgmt) : (s.modMgmt f).steps = s.steps := rfl
@[simp] theorem modMgmt_runners (s : State) (f : Mgmt → Mgmt) : (s.modMgmt f).runners = s.runners := rfl
@[simp] theorem modMgmt_log (s : State) (f : Mgmt → Mgmt) : (s.modMgmt f).log = s.log := rfl
@[simp] theorem modMgmt_mgmt (s : State) (f : Mgmt → Mgmt) : (s.modMgmt f).mgmt = f s.mgmt := rfl
@[simp] theorem modMgmt_part (s : State) (f : Mgmt → Mgmt) : (s.modMgmt f).part = s.part := rfl
@[simp] theorem modMgmt_store (s : State) (f : Mgmt → Mgmt) : (s.modMgmt f).store = s.store := rfl
@[simp] theorem modMgmt_freeUses (s : State) (f : Mgmt → Mgmt) : (s.modMgmt f).freeUses = s.freeUses := rfl

/-! ### modPart -/

@[simp] theorem modPart_pending (s : State) (f : Part → Part) : (s.modPart f).pending = s.pending := rfl
@[simp] theorem modPart_phase (s : State) (f : Part → Part) : (s.modPart f).phase = s.phase := rfl
@[simp] theorem modPart_up (s : State) (f : Part → Part) : (s.modPart f).up = s.up := rfl
@[simp] theorem modPart_dn (s : State) (f : Part → Part) : (s.modPart f).dn = s.dn := rfl
@[simp] theorem modPart_link (s : State) (f : Part → Part) : (s.modPart f).link = s.link := rfl
@[simp] theorem modPart_cyc (s : State) (f : Part → Part) : (s.modPart f).cyc = s.cyc := rfl
@[simp] theorem modPart_sections (s : State) (f : Part → Part) : (s.modPart f).sections = s.sections := rfl
@[simp] theorem modPart_chain (s : State) (f : Part → Part) : (s.modPart f).chain = s.chain := rfl
@[simp] theorem modPart_steps (s : State) (f : Part → Part) : (s.modPart f).steps = s.steps := rfl
@[simp] theorem modPart_runners (s : State) (f : Part → Part) : (s.modPart f).runners = s.runners := rfl
@[simp] theorem modPart_log (s : State) (f : Part → Part) : (s.modPart f).log = s.log := rfl
@[simp] theorem modPart_mgmt (s : State) (f : Part → Part) : (s.modPart f).mgmt = s.mgmt := rfl
@[simp] theorem modPart_part (s : State) (f : Part → Part) : (s.modPart f).part = f s.part := rfl
@[simp] theorem modPart_store (s : State) (f : Part → Part) : (s.modPart f).store = s.store := rfl
@[simp] theorem modPart_freeUses (s : State) (f : Part → Part) : (s.modPart f).freeUses = s.freeUses := rfl

/-! ### setStore -/

@[simp] theorem setStore_pending (s : State) (x : Store) : (s.setStore x).pending = s.pending := rfl
@[simp] theorem setStore_phase (s : State) (x : Store) : (s.setStore x).phase = s.phase := rfl
@[simp] theorem setStore_up (s : State) (x : Store) : (s.setStore x).up = s.up := rfl
@[simp] theorem setStore_dn (s : State) (x : Store) : (s.setStore x).dn = s.dn := rfl
@[simp] theorem setStore_link (s : State) (x : Store) : (s.setStore x).link = s.link := rfl
@[simp] theorem setStore_cyc (s : State) (x : Store) : (s.setStore x).cyc = s.cyc := rfl
@[simp] theorem setStore_sections (s : State) (x : Store) : (s.setStore x).sections = s.sections := rfl
@[simp] theorem setStore_chain (s : State) (x : Store) : (s.setStore x).chain = s.chain := rfl
@[simp] theorem setStore_steps (s : State) (x : Store) : (s.setStore x).steps = s.steps := rfl
@[simp] theorem setStore_runners (s : State) (x : Store) : (s.setStore x).runners = s.runners := rfl
@[simp] theorem setStore_log (s : State) (x : Store) : (s.setStore x).log = s.log := rfl
@[simp] theorem setStore_mgmt (s : State) (x : Store) : (s.setStore x).mgmt = s.mgmt := rfl
@[simp] theorem setStore_part (s : State) (x : Store) : (s.setStore x).part = s.part := rfl
@[simp] theorem setStore_store (s : State) (x : Store) : (s.setStore x).store = x := rfl
@[simp] theorem setStore_freeUses (s : State) (x : Store) : (s.setStore x).freeUses = s.freeUses := rfl

/-! ### modLog -/

@[simp] theorem modLog_pending (s : State) (f : Log → Log) : (s.modLog f).pending = s.pending := rfl
@[simp] theorem modLog_phase (s : State) (f : Log → Log) : (s.modLog f).phase = s.phase := rfl
@[simp] theorem modLog_up (s : State) (f : Log → Log) : (s.modLog f).up = s.up := rfl
@[simp] theorem modLog_dn (s : State) (f : Log → Log) : (s.modLog f).dn = s.dn := rfl
@[simp] theorem modLog_link (s : State) (f : Log → Log) : (s.modLog f).link = s.link := rfl
@[simp] theorem modLog_cyc (s : State) (f : Log → Log) : (s.modLog f).cyc = s.cyc := rfl
@[simp] theorem modLog_sections (s : State) (f : Log → Log) : (s.modLog f).sections = s.sections := rfl
@[simp] theorem modLog_chain (s : State) (f : Log → Log) : (s.modLog f).chain = s.chain := rfl
@[simp] theorem modLog_steps (s : State) (f : Log → Log) : (s.modLog f).steps = s.steps := rfl
@[simp] theorem modLog_runners (s : State) (f : Log → Log) : (s.modLog f).runners = s.runners := rfl
@[simp] theorem modLog_log (s : State) (f : Log → Log) : (s.modLog f).log = f s.log := rfl
@[simp] theorem modLog_mgmt (s : State) (f : Log → Log) : (s.modLog f).mgmt = s.mgmt := rfl
@[simp] theorem modLog_part (s : State) (f : Log → Log) : (s.modLog f).part = s.part := rfl
@[simp] theorem modLog_store (s : State) (f : Log → Log) : (s.modLog f).store = s.store := rfl
@[simp] theorem modLog_freeUses (s : State) (f : Log → Log) : (s.modLog f).freeUses = s.freeUses := rfl

/-! ### setChain -/

@[simp] theorem setChain_pending (s : State) (l : List (Fin 16)) : (s.setChain l).pending = s.pending := rfl
@[simp] theorem setChain_phase (s : State) (l : List (Fin 16)) : (s.setChain l).phase = s.phase := rfl
@[simp] theorem setChain_up (s : State) (l : List (Fin 16)) : (s.setChain l).up = s.up := rfl
@[simp] theorem setChain_dn (s : State) (l : List (Fin 16)) : (s.setChain l).dn = s.dn := rfl
@[simp] theorem setChain_link (s : State) (l : List (Fin 16)) : (s.setChain l).link = s.link := rfl
@[simp] theorem setChain_cyc (s : State) (l : List (Fin 16)) : (s.setChain l).cyc = s.cyc := rfl
@[simp] theorem setChain_sections (s : State) (l : List (Fin 16)) : (s.setChain l).sections = s.sections := rfl
@[simp] theorem setChain_chain (s : State) (l : List (Fin 16)) : (s.setChain l).chain = l := rfl
@[simp] theorem setChain_steps (s : State) (l : List (Fin 16)) : (s.setChain l).steps = s.steps := rfl
@[simp] theorem setChain_runners (s : State) (l : List (Fin 16)) : (s.setChain l).runners = s.runners := rfl
@[simp] theorem setChain_log (s : State) (l : List (Fin 16)) : (s.setChain l).log = s.log := rfl
@[simp] theorem setChain_mgmt (s : State) (l : List (Fin 16)) : (s.setChain l).mgmt = s.mgmt := rfl
@[simp] theorem setChain_part (s : State) (l : List (Fin 16)) : (s.setChain l).part = s.part := rfl
@[simp] theorem setChain_store (s : State) (l : List (Fin 16)) : (s.setChain l).store = s.store := rfl
@[simp] theorem setChain_freeUses (s : State) (l : List (Fin 16)) : (s.setChain l).freeUses = s.freeUses := rfl

/-! ### setSteps -/

@[simp] theorem setSteps_pending (s : State) (v : Vector StepRecord 96) : (s.setSteps v).pending = s.pending := rfl
@[simp] theorem setSteps_phase (s : State) (v : Vector StepRecord 96) : (s.setSteps v).phase = s.phase := rfl
@[simp] theorem setSteps_up (s : State) (v : Vector StepRecord 96) : (s.setSteps v).up = s.up := rfl
@[simp] theorem setSteps_dn (s : State) (v : Vector StepRecord 96) : (s.setSteps v).dn = s.dn := rfl
@[simp] theorem setSteps_link (s : State) (v : Vector StepRecord 96) : (s.setSteps v).link = s.link := rfl
@[simp] theorem setSteps_cyc (s : State) (v : Vector StepRecord 96) : (s.setSteps v).cyc = s.cyc := rfl
@[simp] theorem setSteps_sections (s : State) (v : Vector StepRecord 96) : (s.setSteps v).sections = s.sections := rfl
@[simp] theorem setSteps_chain (s : State) (v : Vector StepRecord 96) : (s.setSteps v).chain = s.chain := rfl
@[simp] theorem setSteps_steps (s : State) (v : Vector StepRecord 96) : (s.setSteps v).steps = v := rfl
@[simp] theorem setSteps_runners (s : State) (v : Vector StepRecord 96) : (s.setSteps v).runners = s.runners := rfl
@[simp] theorem setSteps_log (s : State) (v : Vector StepRecord 96) : (s.setSteps v).log = s.log := rfl
@[simp] theorem setSteps_mgmt (s : State) (v : Vector StepRecord 96) : (s.setSteps v).mgmt = s.mgmt := rfl
@[simp] theorem setSteps_part (s : State) (v : Vector StepRecord 96) : (s.setSteps v).part = s.part := rfl
@[simp] theorem setSteps_store (s : State) (v : Vector StepRecord 96) : (s.setSteps v).store = s.store := rfl
@[simp] theorem setSteps_freeUses (s : State) (v : Vector StepRecord 96) : (s.setSteps v).freeUses = s.freeUses := rfl

/-! ### setUp -/

@[simp] theorem setUp_pending (s : State) (x : Port) : (s.setUp x).pending = s.pending := rfl
@[simp] theorem setUp_phase (s : State) (x : Port) : (s.setUp x).phase = s.phase := rfl
@[simp] theorem setUp_up (s : State) (x : Port) : (s.setUp x).up = x := rfl
@[simp] theorem setUp_dn (s : State) (x : Port) : (s.setUp x).dn = s.dn := rfl
@[simp] theorem setUp_link (s : State) (x : Port) : (s.setUp x).link = s.link := rfl
@[simp] theorem setUp_cyc (s : State) (x : Port) : (s.setUp x).cyc = s.cyc := rfl
@[simp] theorem setUp_sections (s : State) (x : Port) : (s.setUp x).sections = s.sections := rfl
@[simp] theorem setUp_chain (s : State) (x : Port) : (s.setUp x).chain = s.chain := rfl
@[simp] theorem setUp_steps (s : State) (x : Port) : (s.setUp x).steps = s.steps := rfl
@[simp] theorem setUp_runners (s : State) (x : Port) : (s.setUp x).runners = s.runners := rfl
@[simp] theorem setUp_log (s : State) (x : Port) : (s.setUp x).log = s.log := rfl
@[simp] theorem setUp_mgmt (s : State) (x : Port) : (s.setUp x).mgmt = s.mgmt := rfl
@[simp] theorem setUp_part (s : State) (x : Port) : (s.setUp x).part = s.part := rfl
@[simp] theorem setUp_store (s : State) (x : Port) : (s.setUp x).store = s.store := rfl
@[simp] theorem setUp_freeUses (s : State) (x : Port) : (s.setUp x).freeUses = s.freeUses := rfl

/-! ### setDn -/

@[simp] theorem setDn_pending (s : State) (x : Port) : (s.setDn x).pending = s.pending := rfl
@[simp] theorem setDn_phase (s : State) (x : Port) : (s.setDn x).phase = s.phase := rfl
@[simp] theorem setDn_up (s : State) (x : Port) : (s.setDn x).up = s.up := rfl
@[simp] theorem setDn_dn (s : State) (x : Port) : (s.setDn x).dn = x := rfl
@[simp] theorem setDn_link (s : State) (x : Port) : (s.setDn x).link = s.link := rfl
@[simp] theorem setDn_cyc (s : State) (x : Port) : (s.setDn x).cyc = s.cyc := rfl
@[simp] theorem setDn_sections (s : State) (x : Port) : (s.setDn x).sections = s.sections := rfl
@[simp] theorem setDn_chain (s : State) (x : Port) : (s.setDn x).chain = s.chain := rfl
@[simp] theorem setDn_steps (s : State) (x : Port) : (s.setDn x).steps = s.steps := rfl
@[simp] theorem setDn_runners (s : State) (x : Port) : (s.setDn x).runners = s.runners := rfl
@[simp] theorem setDn_log (s : State) (x : Port) : (s.setDn x).log = s.log := rfl
@[simp] theorem setDn_mgmt (s : State) (x : Port) : (s.setDn x).mgmt = s.mgmt := rfl
@[simp] theorem setDn_part (s : State) (x : Port) : (s.setDn x).part = s.part := rfl
@[simp] theorem setDn_store (s : State) (x : Port) : (s.setDn x).store = s.store := rfl
@[simp] theorem setDn_freeUses (s : State) (x : Port) : (s.setDn x).freeUses = s.freeUses := rfl

/-! ### useFree -/

@[simp] theorem useFree_pending (s : State) : s.useFree.pending = s.pending := rfl
@[simp] theorem useFree_phase (s : State) : s.useFree.phase = s.phase := rfl
@[simp] theorem useFree_up (s : State) : s.useFree.up = s.up := rfl
@[simp] theorem useFree_dn (s : State) : s.useFree.dn = s.dn := rfl
@[simp] theorem useFree_link (s : State) : s.useFree.link = s.link := rfl
@[simp] theorem useFree_cyc (s : State) : s.useFree.cyc = s.cyc := rfl
@[simp] theorem useFree_sections (s : State) : s.useFree.sections = s.sections := rfl
@[simp] theorem useFree_chain (s : State) : s.useFree.chain = s.chain := rfl
@[simp] theorem useFree_steps (s : State) : s.useFree.steps = s.steps := rfl
@[simp] theorem useFree_runners (s : State) : s.useFree.runners = s.runners := rfl
@[simp] theorem useFree_log (s : State) : s.useFree.log = s.log := rfl
@[simp] theorem useFree_mgmt (s : State) : s.useFree.mgmt = s.mgmt := rfl
@[simp] theorem useFree_part (s : State) : s.useFree.part = s.part := rfl
@[simp] theorem useFree_store (s : State) : s.useFree.store = s.store := rfl
@[simp] theorem useFree_freeUses (s : State) : s.useFree.freeUses = s.freeUses + 1 := rfl

/-! ### setPhase -/

@[simp] theorem setPhase_pending (s : State) (p : Phase) : (s.setPhase p).pending = s.pending := rfl
@[simp] theorem setPhase_phase (s : State) (p : Phase) : (s.setPhase p).phase = p := rfl
@[simp] theorem setPhase_up (s : State) (p : Phase) : (s.setPhase p).up = s.up := rfl
@[simp] theorem setPhase_dn (s : State) (p : Phase) : (s.setPhase p).dn = s.dn := rfl
@[simp] theorem setPhase_link (s : State) (p : Phase) : (s.setPhase p).link = s.link := rfl
@[simp] theorem setPhase_cyc (s : State) (p : Phase) : (s.setPhase p).cyc = s.cyc := rfl
@[simp] theorem setPhase_sections (s : State) (p : Phase) : (s.setPhase p).sections = s.sections := rfl
@[simp] theorem setPhase_chain (s : State) (p : Phase) : (s.setPhase p).chain = s.chain := rfl
@[simp] theorem setPhase_steps (s : State) (p : Phase) : (s.setPhase p).steps = s.steps := rfl
@[simp] theorem setPhase_runners (s : State) (p : Phase) : (s.setPhase p).runners = s.runners := rfl
@[simp] theorem setPhase_log (s : State) (p : Phase) : (s.setPhase p).log = s.log := rfl
@[simp] theorem setPhase_mgmt (s : State) (p : Phase) : (s.setPhase p).mgmt = s.mgmt := rfl
@[simp] theorem setPhase_part (s : State) (p : Phase) : (s.setPhase p).part = s.part := rfl
@[simp] theorem setPhase_store (s : State) (p : Phase) : (s.setPhase p).store = s.store := rfl
@[simp] theorem setPhase_freeUses (s : State) (p : Phase) : (s.setPhase p).freeUses = s.freeUses := rfl

/-! ### enqueue -/

@[simp] theorem enqueue_pending (s : State) (l : List Instr) : (s.enqueue l).pending = s.pending ++ l := rfl
@[simp] theorem enqueue_phase (s : State) (l : List Instr) : (s.enqueue l).phase = s.phase := rfl
@[simp] theorem enqueue_up (s : State) (l : List Instr) : (s.enqueue l).up = s.up := rfl
@[simp] theorem enqueue_dn (s : State) (l : List Instr) : (s.enqueue l).dn = s.dn := rfl
@[simp] theorem enqueue_link (s : State) (l : List Instr) : (s.enqueue l).link = s.link := rfl
@[simp] theorem enqueue_cyc (s : State) (l : List Instr) : (s.enqueue l).cyc = s.cyc := rfl
@[simp] theorem enqueue_sections (s : State) (l : List Instr) : (s.enqueue l).sections = s.sections := rfl
@[simp] theorem enqueue_chain (s : State) (l : List Instr) : (s.enqueue l).chain = s.chain := rfl
@[simp] theorem enqueue_steps (s : State) (l : List Instr) : (s.enqueue l).steps = s.steps := rfl
@[simp] theorem enqueue_runners (s : State) (l : List Instr) : (s.enqueue l).runners = s.runners := rfl
@[simp] theorem enqueue_log (s : State) (l : List Instr) : (s.enqueue l).log = s.log := rfl
@[simp] theorem enqueue_mgmt (s : State) (l : List Instr) : (s.enqueue l).mgmt = s.mgmt := rfl
@[simp] theorem enqueue_part (s : State) (l : List Instr) : (s.enqueue l).part = s.part := rfl
@[simp] theorem enqueue_store (s : State) (l : List Instr) : (s.enqueue l).store = s.store := rfl
@[simp] theorem enqueue_freeUses (s : State) (l : List Instr) : (s.enqueue l).freeUses = s.freeUses := rfl

/-! ### setInFlight -/

@[simp] theorem setInFlight_pending (s : State) (c : Option Cycle) : (s.setInFlight c).pending = s.pending := rfl
@[simp] theorem setInFlight_phase (s : State) (c : Option Cycle) : (s.setInFlight c).phase = s.phase := rfl
@[simp] theorem setInFlight_up (s : State) (c : Option Cycle) : (s.setInFlight c).up = s.up := rfl
@[simp] theorem setInFlight_dn (s : State) (c : Option Cycle) : (s.setInFlight c).dn = s.dn := rfl
@[simp] theorem setInFlight_link (s : State) (c : Option Cycle) : (s.setInFlight c).link = s.link := rfl
@[simp] theorem setInFlight_cyc (s : State) (c : Option Cycle) : (s.setInFlight c).cyc = { s.cyc with inFlight := c } := rfl
@[simp] theorem setInFlight_sections (s : State) (c : Option Cycle) : (s.setInFlight c).sections = s.sections := rfl
@[simp] theorem setInFlight_chain (s : State) (c : Option Cycle) : (s.setInFlight c).chain = s.chain := rfl
@[simp] theorem setInFlight_steps (s : State) (c : Option Cycle) : (s.setInFlight c).steps = s.steps := rfl
@[simp] theorem setInFlight_runners (s : State) (c : Option Cycle) : (s.setInFlight c).runners = s.runners := rfl
@[simp] theorem setInFlight_log (s : State) (c : Option Cycle) : (s.setInFlight c).log = s.log := rfl
@[simp] theorem setInFlight_mgmt (s : State) (c : Option Cycle) : (s.setInFlight c).mgmt = s.mgmt := rfl
@[simp] theorem setInFlight_part (s : State) (c : Option Cycle) : (s.setInFlight c).part = s.part := rfl
@[simp] theorem setInFlight_store (s : State) (c : Option Cycle) : (s.setInFlight c).store = s.store := rfl
@[simp] theorem setInFlight_freeUses (s : State) (c : Option Cycle) : (s.setInFlight c).freeUses = s.freeUses := rfl

/-! ### setSec -/

@[simp] theorem setSec_pending (s : State) (i : Fin 16) (x : Section) : (s.setSec i x).pending = s.pending := rfl
@[simp] theorem setSec_phase (s : State) (i : Fin 16) (x : Section) : (s.setSec i x).phase = s.phase := rfl
@[simp] theorem setSec_up (s : State) (i : Fin 16) (x : Section) : (s.setSec i x).up = s.up := rfl
@[simp] theorem setSec_dn (s : State) (i : Fin 16) (x : Section) : (s.setSec i x).dn = s.dn := rfl
@[simp] theorem setSec_link (s : State) (i : Fin 16) (x : Section) : (s.setSec i x).link = s.link := rfl
@[simp] theorem setSec_cyc (s : State) (i : Fin 16) (x : Section) : (s.setSec i x).cyc = s.cyc := rfl
@[simp] theorem setSec_chain (s : State) (i : Fin 16) (x : Section) : (s.setSec i x).chain = s.chain := rfl
@[simp] theorem setSec_steps (s : State) (i : Fin 16) (x : Section) : (s.setSec i x).steps = s.steps := rfl
@[simp] theorem setSec_runners (s : State) (i : Fin 16) (x : Section) : (s.setSec i x).runners = s.runners := rfl
@[simp] theorem setSec_log (s : State) (i : Fin 16) (x : Section) : (s.setSec i x).log = s.log := rfl
@[simp] theorem setSec_mgmt (s : State) (i : Fin 16) (x : Section) : (s.setSec i x).mgmt = s.mgmt := rfl
@[simp] theorem setSec_part (s : State) (i : Fin 16) (x : Section) : (s.setSec i x).part = s.part := rfl
@[simp] theorem setSec_store (s : State) (i : Fin 16) (x : Section) : (s.setSec i x).store = s.store := rfl
@[simp] theorem setSec_freeUses (s : State) (i : Fin 16) (x : Section) : (s.setSec i x).freeUses = s.freeUses := rfl

/-! ### modSec -/

@[simp] theorem modSec_pending (s : State) (i : Fin 16) (f : Section → Section) : (s.modSec i f).pending = s.pending := rfl
@[simp] theorem modSec_phase (s : State) (i : Fin 16) (f : Section → Section) : (s.modSec i f).phase = s.phase := rfl
@[simp] theorem modSec_up (s : State) (i : Fin 16) (f : Section → Section) : (s.modSec i f).up = s.up := rfl
@[simp] theorem modSec_dn (s : State) (i : Fin 16) (f : Section → Section) : (s.modSec i f).dn = s.dn := rfl
@[simp] theorem modSec_link (s : State) (i : Fin 16) (f : Section → Section) : (s.modSec i f).link = s.link := rfl
@[simp] theorem modSec_cyc (s : State) (i : Fin 16) (f : Section → Section) : (s.modSec i f).cyc = s.cyc := rfl
@[simp] theorem modSec_chain (s : State) (i : Fin 16) (f : Section → Section) : (s.modSec i f).chain = s.chain := rfl
@[simp] theorem modSec_steps (s : State) (i : Fin 16) (f : Section → Section) : (s.modSec i f).steps = s.steps := rfl
@[simp] theorem modSec_runners (s : State) (i : Fin 16) (f : Section → Section) : (s.modSec i f).runners = s.runners := rfl
@[simp] theorem modSec_log (s : State) (i : Fin 16) (f : Section → Section) : (s.modSec i f).log = s.log := rfl
@[simp] theorem modSec_mgmt (s : State) (i : Fin 16) (f : Section → Section) : (s.modSec i f).mgmt = s.mgmt := rfl
@[simp] theorem modSec_part (s : State) (i : Fin 16) (f : Section → Section) : (s.modSec i f).part = s.part := rfl
@[simp] theorem modSec_store (s : State) (i : Fin 16) (f : Section → Section) : (s.modSec i f).store = s.store := rfl
@[simp] theorem modSec_freeUses (s : State) (i : Fin 16) (f : Section → Section) : (s.modSec i f).freeUses = s.freeUses := rfl

/-! ### setRunner -/

@[simp] theorem setRunner_pending (s : State) (r : Fin 4) (u : Runner) : (s.setRunner r u).pending = s.pending := rfl
@[simp] theorem setRunner_phase (s : State) (r : Fin 4) (u : Runner) : (s.setRunner r u).phase = s.phase := rfl
@[simp] theorem setRunner_up (s : State) (r : Fin 4) (u : Runner) : (s.setRunner r u).up = s.up := rfl
@[simp] theorem setRunner_dn (s : State) (r : Fin 4) (u : Runner) : (s.setRunner r u).dn = s.dn := rfl
@[simp] theorem setRunner_link (s : State) (r : Fin 4) (u : Runner) : (s.setRunner r u).link = s.link := rfl
@[simp] theorem setRunner_cyc (s : State) (r : Fin 4) (u : Runner) : (s.setRunner r u).cyc = s.cyc := rfl
@[simp] theorem setRunner_sections (s : State) (r : Fin 4) (u : Runner) : (s.setRunner r u).sections = s.sections := rfl
@[simp] theorem setRunner_chain (s : State) (r : Fin 4) (u : Runner) : (s.setRunner r u).chain = s.chain := rfl
@[simp] theorem setRunner_steps (s : State) (r : Fin 4) (u : Runner) : (s.setRunner r u).steps = s.steps := rfl
@[simp] theorem setRunner_log (s : State) (r : Fin 4) (u : Runner) : (s.setRunner r u).log = s.log := rfl
@[simp] theorem setRunner_mgmt (s : State) (r : Fin 4) (u : Runner) : (s.setRunner r u).mgmt = s.mgmt := rfl
@[simp] theorem setRunner_part (s : State) (r : Fin 4) (u : Runner) : (s.setRunner r u).part = s.part := rfl
@[simp] theorem setRunner_store (s : State) (r : Fin 4) (u : Runner) : (s.setRunner r u).store = s.store := rfl
@[simp] theorem setRunner_freeUses (s : State) (r : Fin 4) (u : Runner) : (s.setRunner r u).freeUses = s.freeUses := rfl

/-! ### setStep -/

@[simp] theorem setStep_pending (s : State) (k : Fin 96) (r : StepRecord) : (s.setStep k r).pending = s.pending := rfl
@[simp] theorem setStep_phase (s : State) (k : Fin 96) (r : StepRecord) : (s.setStep k r).phase = s.phase := rfl
@[simp] theorem setStep_up (s : State) (k : Fin 96) (r : StepRecord) : (s.setStep k r).up = s.up := rfl
@[simp] theorem setStep_dn (s : State) (k : Fin 96) (r : StepRecord) : (s.setStep k r).dn = s.dn := rfl
@[simp] theorem setStep_link (s : State) (k : Fin 96) (r : StepRecord) : (s.setStep k r).link = s.link := rfl
@[simp] theorem setStep_cyc (s : State) (k : Fin 96) (r : StepRecord) : (s.setStep k r).cyc = s.cyc := rfl
@[simp] theorem setStep_sections (s : State) (k : Fin 96) (r : StepRecord) : (s.setStep k r).sections = s.sections := rfl
@[simp] theorem setStep_chain (s : State) (k : Fin 96) (r : StepRecord) : (s.setStep k r).chain = s.chain := rfl
@[simp] theorem setStep_runners (s : State) (k : Fin 96) (r : StepRecord) : (s.setStep k r).runners = s.runners := rfl
@[simp] theorem setStep_log (s : State) (k : Fin 96) (r : StepRecord) : (s.setStep k r).log = s.log := rfl
@[simp] theorem setStep_mgmt (s : State) (k : Fin 96) (r : StepRecord) : (s.setStep k r).mgmt = s.mgmt := rfl
@[simp] theorem setStep_part (s : State) (k : Fin 96) (r : StepRecord) : (s.setStep k r).part = s.part := rfl
@[simp] theorem setStep_store (s : State) (k : Fin 96) (r : StepRecord) : (s.setStep k r).store = s.store := rfl
@[simp] theorem setStep_freeUses (s : State) (k : Fin 96) (r : StepRecord) : (s.setStep k r).freeUses = s.freeUses := rfl

/-! ### modNotices -/

@[simp] theorem modNotices_pending (s : State) (f : Notices → Notices) : (s.modNotices f).pending = s.pending := rfl
@[simp] theorem modNotices_phase (s : State) (f : Notices → Notices) : (s.modNotices f).phase = s.phase := rfl
@[simp] theorem modNotices_up (s : State) (f : Notices → Notices) : (s.modNotices f).up = s.up := rfl
@[simp] theorem modNotices_dn (s : State) (f : Notices → Notices) : (s.modNotices f).dn = s.dn := rfl
@[simp] theorem modNotices_link (s : State) (f : Notices → Notices) : (s.modNotices f).link = s.link := rfl
@[simp] theorem modNotices_cyc (s : State) (f : Notices → Notices) : (s.modNotices f).cyc = s.cyc := rfl
@[simp] theorem modNotices_sections (s : State) (f : Notices → Notices) : (s.modNotices f).sections = s.sections := rfl
@[simp] theorem modNotices_chain (s : State) (f : Notices → Notices) : (s.modNotices f).chain = s.chain := rfl
@[simp] theorem modNotices_steps (s : State) (f : Notices → Notices) : (s.modNotices f).steps = s.steps := rfl
@[simp] theorem modNotices_runners (s : State) (f : Notices → Notices) : (s.modNotices f).runners = s.runners := rfl
@[simp] theorem modNotices_log (s : State) (f : Notices → Notices) : (s.modNotices f).log = s.log := rfl
@[simp] theorem modNotices_mgmt (s : State) (f : Notices → Notices) : (s.modNotices f).mgmt = s.mgmt := rfl
@[simp] theorem modNotices_part (s : State) (f : Notices → Notices) : (s.modNotices f).part = { s.part with notices := f s.part.notices } := rfl
@[simp] theorem modNotices_store (s : State) (f : Notices → Notices) : (s.modNotices f).store = s.store := rfl
@[simp] theorem modNotices_freeUses (s : State) (f : Notices → Notices) : (s.modNotices f).freeUses = s.freeUses := rfl

/-! ### setImage -/

@[simp] theorem setImage_pending (s : State) (i : Fin 16) (g : Option Image) : (s.setImage i g).pending = s.pending := rfl
@[simp] theorem setImage_phase (s : State) (i : Fin 16) (g : Option Image) : (s.setImage i g).phase = s.phase := rfl
@[simp] theorem setImage_up (s : State) (i : Fin 16) (g : Option Image) : (s.setImage i g).up = s.up := rfl
@[simp] theorem setImage_dn (s : State) (i : Fin 16) (g : Option Image) : (s.setImage i g).dn = s.dn := rfl
@[simp] theorem setImage_link (s : State) (i : Fin 16) (g : Option Image) : (s.setImage i g).link = s.link := rfl
@[simp] theorem setImage_sections (s : State) (i : Fin 16) (g : Option Image) : (s.setImage i g).sections = s.sections := rfl
@[simp] theorem setImage_chain (s : State) (i : Fin 16) (g : Option Image) : (s.setImage i g).chain = s.chain := rfl
@[simp] theorem setImage_steps (s : State) (i : Fin 16) (g : Option Image) : (s.setImage i g).steps = s.steps := rfl
@[simp] theorem setImage_runners (s : State) (i : Fin 16) (g : Option Image) : (s.setImage i g).runners = s.runners := rfl
@[simp] theorem setImage_log (s : State) (i : Fin 16) (g : Option Image) : (s.setImage i g).log = s.log := rfl
@[simp] theorem setImage_mgmt (s : State) (i : Fin 16) (g : Option Image) : (s.setImage i g).mgmt = s.mgmt := rfl
@[simp] theorem setImage_part (s : State) (i : Fin 16) (g : Option Image) : (s.setImage i g).part = s.part := rfl
@[simp] theorem setImage_store (s : State) (i : Fin 16) (g : Option Image) : (s.setImage i g).store = s.store := rfl
@[simp] theorem setImage_freeUses (s : State) (i : Fin 16) (g : Option Image) : (s.setImage i g).freeUses = s.freeUses := rfl

/-! ### writeRecord -/

@[simp] theorem writeRecord_pending (s : State) (c : CaptureRecord) : (s.writeRecord c).pending = s.pending := rfl
@[simp] theorem writeRecord_phase (s : State) (c : CaptureRecord) : (s.writeRecord c).phase = s.phase := rfl
@[simp] theorem writeRecord_up (s : State) (c : CaptureRecord) : (s.writeRecord c).up = s.up := rfl
@[simp] theorem writeRecord_dn (s : State) (c : CaptureRecord) : (s.writeRecord c).dn = s.dn := rfl
@[simp] theorem writeRecord_link (s : State) (c : CaptureRecord) : (s.writeRecord c).link = s.link := rfl
@[simp] theorem writeRecord_cyc (s : State) (c : CaptureRecord) : (s.writeRecord c).cyc = s.cyc := rfl
@[simp] theorem writeRecord_sections (s : State) (c : CaptureRecord) : (s.writeRecord c).sections = s.sections := rfl
@[simp] theorem writeRecord_chain (s : State) (c : CaptureRecord) : (s.writeRecord c).chain = s.chain := rfl
@[simp] theorem writeRecord_steps (s : State) (c : CaptureRecord) : (s.writeRecord c).steps = s.steps := rfl
@[simp] theorem writeRecord_runners (s : State) (c : CaptureRecord) : (s.writeRecord c).runners = s.runners := rfl
@[simp] theorem writeRecord_log (s : State) (c : CaptureRecord) : (s.writeRecord c).log = s.log.write c := rfl
@[simp] theorem writeRecord_mgmt (s : State) (c : CaptureRecord) : (s.writeRecord c).mgmt = s.mgmt := rfl
@[simp] theorem writeRecord_part (s : State) (c : CaptureRecord) : (s.writeRecord c).part = s.part := rfl
@[simp] theorem writeRecord_store (s : State) (c : CaptureRecord) : (s.writeRecord c).store = s.store := rfl
@[simp] theorem writeRecord_freeUses (s : State) (c : CaptureRecord) : (s.writeRecord c).freeUses = s.freeUses := rfl

/-! ### joinWaiters -/

@[simp] theorem joinWaiters_pending (s : State) (r : Fin 4) : (s.joinWaiters r).pending = s.pending := rfl
@[simp] theorem joinWaiters_phase (s : State) (r : Fin 4) : (s.joinWaiters r).phase = s.phase := rfl
@[simp] theorem joinWaiters_up (s : State) (r : Fin 4) : (s.joinWaiters r).up = s.up := rfl
@[simp] theorem joinWaiters_dn (s : State) (r : Fin 4) : (s.joinWaiters r).dn = s.dn := rfl
@[simp] theorem joinWaiters_link (s : State) (r : Fin 4) : (s.joinWaiters r).link = s.link := rfl
@[simp] theorem joinWaiters_cyc (s : State) (r : Fin 4) : (s.joinWaiters r).cyc = s.cyc := rfl
@[simp] theorem joinWaiters_sections (s : State) (r : Fin 4) : (s.joinWaiters r).sections = s.sections := rfl
@[simp] theorem joinWaiters_chain (s : State) (r : Fin 4) : (s.joinWaiters r).chain = s.chain := rfl
@[simp] theorem joinWaiters_steps (s : State) (r : Fin 4) : (s.joinWaiters r).steps = s.steps := rfl
@[simp] theorem joinWaiters_runners (s : State) (r : Fin 4) : (s.joinWaiters r).runners = s.runners := rfl
@[simp] theorem joinWaiters_log (s : State) (r : Fin 4) : (s.joinWaiters r).log = { s.log with waiters := s.log.waiters ++ [r] } := rfl
@[simp] theorem joinWaiters_mgmt (s : State) (r : Fin 4) : (s.joinWaiters r).mgmt = s.mgmt := rfl
@[simp] theorem joinWaiters_part (s : State) (r : Fin 4) : (s.joinWaiters r).part = s.part := rfl
@[simp] theorem joinWaiters_store (s : State) (r : Fin 4) : (s.joinWaiters r).store = s.store := rfl
@[simp] theorem joinWaiters_freeUses (s : State) (r : Fin 4) : (s.joinWaiters r).freeUses = s.freeUses := rfl

/-! ### leaveWaiters -/

@[simp] theorem leaveWaiters_pending (s : State) (r : Fin 4) : (s.leaveWaiters r).pending = s.pending := rfl
@[simp] theorem leaveWaiters_phase (s : State) (r : Fin 4) : (s.leaveWaiters r).phase = s.phase := rfl
@[simp] theorem leaveWaiters_up (s : State) (r : Fin 4) : (s.leaveWaiters r).up = s.up := rfl
@[simp] theorem leaveWaiters_dn (s : State) (r : Fin 4) : (s.leaveWaiters r).dn = s.dn := rfl
@[simp] theorem leaveWaiters_link (s : State) (r : Fin 4) : (s.leaveWaiters r).link = s.link := rfl
@[simp] theorem leaveWaiters_cyc (s : State) (r : Fin 4) : (s.leaveWaiters r).cyc = s.cyc := rfl
@[simp] theorem leaveWaiters_sections (s : State) (r : Fin 4) : (s.leaveWaiters r).sections = s.sections := rfl
@[simp] theorem leaveWaiters_chain (s : State) (r : Fin 4) : (s.leaveWaiters r).chain = s.chain := rfl
@[simp] theorem leaveWaiters_steps (s : State) (r : Fin 4) : (s.leaveWaiters r).steps = s.steps := rfl
@[simp] theorem leaveWaiters_runners (s : State) (r : Fin 4) : (s.leaveWaiters r).runners = s.runners := rfl
@[simp] theorem leaveWaiters_log (s : State) (r : Fin 4) : (s.leaveWaiters r).log = { s.log with waiters := s.log.waiters.filter fun q => q != r } := rfl
@[simp] theorem leaveWaiters_mgmt (s : State) (r : Fin 4) : (s.leaveWaiters r).mgmt = s.mgmt := rfl
@[simp] theorem leaveWaiters_part (s : State) (r : Fin 4) : (s.leaveWaiters r).part = s.part := rfl
@[simp] theorem leaveWaiters_store (s : State) (r : Fin 4) : (s.leaveWaiters r).store = s.store := rfl
@[simp] theorem leaveWaiters_freeUses (s : State) (r : Fin 4) : (s.leaveWaiters r).freeUses = s.freeUses := rfl

/-! ### dropRecords -/

@[simp] theorem dropRecords_pending (s : State) (n : Nat) : (s.dropRecords n).pending = s.pending := rfl
@[simp] theorem dropRecords_phase (s : State) (n : Nat) : (s.dropRecords n).phase = s.phase := rfl
@[simp] theorem dropRecords_up (s : State) (n : Nat) : (s.dropRecords n).up = s.up := rfl
@[simp] theorem dropRecords_dn (s : State) (n : Nat) : (s.dropRecords n).dn = s.dn := rfl
@[simp] theorem dropRecords_link (s : State) (n : Nat) : (s.dropRecords n).link = s.link := rfl
@[simp] theorem dropRecords_cyc (s : State) (n : Nat) : (s.dropRecords n).cyc = s.cyc := rfl
@[simp] theorem dropRecords_sections (s : State) (n : Nat) : (s.dropRecords n).sections = s.sections := rfl
@[simp] theorem dropRecords_chain (s : State) (n : Nat) : (s.dropRecords n).chain = s.chain := rfl
@[simp] theorem dropRecords_steps (s : State) (n : Nat) : (s.dropRecords n).steps = s.steps := rfl
@[simp] theorem dropRecords_runners (s : State) (n : Nat) : (s.dropRecords n).runners = s.runners := rfl
@[simp] theorem dropRecords_log (s : State) (n : Nat) : (s.dropRecords n).log = { s.log with records := s.log.records.drop n } := rfl
@[simp] theorem dropRecords_mgmt (s : State) (n : Nat) : (s.dropRecords n).mgmt = s.mgmt := rfl
@[simp] theorem dropRecords_part (s : State) (n : Nat) : (s.dropRecords n).part = s.part := rfl
@[simp] theorem dropRecords_store (s : State) (n : Nat) : (s.dropRecords n).store = s.store := rfl
@[simp] theorem dropRecords_freeUses (s : State) (n : Nat) : (s.dropRecords n).freeUses = s.freeUses := rfl

/-! ### setAccess -/

@[simp] theorem setAccess_pending (s : State) (l : AccessLevel) : (s.setAccess l).pending = s.pending := rfl
@[simp] theorem setAccess_phase (s : State) (l : AccessLevel) : (s.setAccess l).phase = s.phase := rfl
@[simp] theorem setAccess_up (s : State) (l : AccessLevel) : (s.setAccess l).up = s.up := rfl
@[simp] theorem setAccess_dn (s : State) (l : AccessLevel) : (s.setAccess l).dn = s.dn := rfl
@[simp] theorem setAccess_link (s : State) (l : AccessLevel) : (s.setAccess l).link = s.link := rfl
@[simp] theorem setAccess_cyc (s : State) (l : AccessLevel) : (s.setAccess l).cyc = s.cyc := rfl
@[simp] theorem setAccess_sections (s : State) (l : AccessLevel) : (s.setAccess l).sections = s.sections := rfl
@[simp] theorem setAccess_chain (s : State) (l : AccessLevel) : (s.setAccess l).chain = s.chain := rfl
@[simp] theorem setAccess_steps (s : State) (l : AccessLevel) : (s.setAccess l).steps = s.steps := rfl
@[simp] theorem setAccess_runners (s : State) (l : AccessLevel) : (s.setAccess l).runners = s.runners := rfl
@[simp] theorem setAccess_log (s : State) (l : AccessLevel) : (s.setAccess l).log = s.log := rfl
@[simp] theorem setAccess_mgmt (s : State) (l : AccessLevel) : (s.setAccess l).mgmt = { s.mgmt with access := l } := rfl
@[simp] theorem setAccess_part (s : State) (l : AccessLevel) : (s.setAccess l).part = s.part := rfl
@[simp] theorem setAccess_store (s : State) (l : AccessLevel) : (s.setAccess l).store = s.store := rfl
@[simp] theorem setAccess_freeUses (s : State) (l : AccessLevel) : (s.setAccess l).freeUses = s.freeUses := rfl

/-! ### setCursor -/

@[simp] theorem setCursor_pending (s : State) (c : Cursor) : (s.setCursor c).pending = s.pending := rfl
@[simp] theorem setCursor_phase (s : State) (c : Cursor) : (s.setCursor c).phase = s.phase := rfl
@[simp] theorem setCursor_up (s : State) (c : Cursor) : (s.setCursor c).up = s.up := rfl
@[simp] theorem setCursor_dn (s : State) (c : Cursor) : (s.setCursor c).dn = s.dn := rfl
@[simp] theorem setCursor_link (s : State) (c : Cursor) : (s.setCursor c).link = s.link := rfl
@[simp] theorem setCursor_cyc (s : State) (c : Cursor) : (s.setCursor c).cyc = s.cyc := rfl
@[simp] theorem setCursor_sections (s : State) (c : Cursor) : (s.setCursor c).sections = s.sections := rfl
@[simp] theorem setCursor_chain (s : State) (c : Cursor) : (s.setCursor c).chain = s.chain := rfl
@[simp] theorem setCursor_steps (s : State) (c : Cursor) : (s.setCursor c).steps = s.steps := rfl
@[simp] theorem setCursor_runners (s : State) (c : Cursor) : (s.setCursor c).runners = s.runners := rfl
@[simp] theorem setCursor_log (s : State) (c : Cursor) : (s.setCursor c).log = s.log := rfl
@[simp] theorem setCursor_mgmt (s : State) (c : Cursor) : (s.setCursor c).mgmt = { s.mgmt with cursor := some c.used } := rfl
@[simp] theorem setCursor_part (s : State) (c : Cursor) : (s.setCursor c).part = s.part := rfl
@[simp] theorem setCursor_store (s : State) (c : Cursor) : (s.setCursor c).store = s.store := rfl
@[simp] theorem setCursor_freeUses (s : State) (c : Cursor) : (s.setCursor c).freeUses = s.freeUses := rfl

/-! ### setPort -/

@[simp] theorem setPort_same (s : State) (p : Side) (x : Port) : (s.setPort p x).port p = x := by cases p <;> rfl
@[simp] theorem setPort_up_up (s : State) (x : Port) : (s.setPort .up x).up = x := rfl
@[simp] theorem setPort_dn_up (s : State) (x : Port) : (s.setPort .dn x).up = s.up := rfl
@[simp] theorem setPort_up_dn (s : State) (x : Port) : (s.setPort .up x).dn = s.dn := rfl
@[simp] theorem setPort_dn_dn (s : State) (x : Port) : (s.setPort .dn x).dn = x := rfl
@[simp] theorem port_up (s : State) : s.port .up = s.up := rfl
@[simp] theorem port_dn (s : State) : s.port .dn = s.dn := rfl
@[simp] theorem setPort_setPort (s : State) (p : Side) (x y : Port) : (s.setPort p x).setPort p y = s.setPort p y := by
  cases p <;> rfl
@[simp] theorem setPort_port (s : State) (p : Side) : s.setPort p (s.port p) = s := by cases p <;> rfl
@[simp] theorem setPort_pending (s : State) (p : Side) (x : Port) : (s.setPort p x).pending = s.pending := by cases p <;> rfl
@[simp] theorem setPort_phase (s : State) (p : Side) (x : Port) : (s.setPort p x).phase = s.phase := by cases p <;> rfl
@[simp] theorem setPort_link (s : State) (p : Side) (x : Port) : (s.setPort p x).link = s.link := by cases p <;> rfl
@[simp] theorem setPort_cyc (s : State) (p : Side) (x : Port) : (s.setPort p x).cyc = s.cyc := by cases p <;> rfl
@[simp] theorem setPort_sections (s : State) (p : Side) (x : Port) : (s.setPort p x).sections = s.sections := by cases p <;> rfl
@[simp] theorem setPort_chain (s : State) (p : Side) (x : Port) : (s.setPort p x).chain = s.chain := by cases p <;> rfl
@[simp] theorem setPort_steps (s : State) (p : Side) (x : Port) : (s.setPort p x).steps = s.steps := by cases p <;> rfl
@[simp] theorem setPort_runners (s : State) (p : Side) (x : Port) : (s.setPort p x).runners = s.runners := by cases p <;> rfl
@[simp] theorem setPort_log (s : State) (p : Side) (x : Port) : (s.setPort p x).log = s.log := by cases p <;> rfl
@[simp] theorem setPort_mgmt (s : State) (p : Side) (x : Port) : (s.setPort p x).mgmt = s.mgmt := by cases p <;> rfl
@[simp] theorem setPort_part (s : State) (p : Side) (x : Port) : (s.setPort p x).part = s.part := by cases p <;> rfl
@[simp] theorem setPort_store (s : State) (p : Side) (x : Port) : (s.setPort p x).store = s.store := by cases p <;> rfl
@[simp] theorem setPort_freeUses (s : State) (p : Side) (x : Port) : (s.setPort p x).freeUses = s.freeUses := by cases p <;> rfl

/-! ### What an update puts in place -/

/-- An entry read after one was put in place. -/
@[simp] theorem sec_setSec (s : State) (i j : Fin 16) (x : Section) :
    (s.setSec i x).sec j = if i = j then x else s.sec j := by
  simp [State.sec, State.setSec, Vector.getElem_set, Fin.ext_iff]

/-- An entry read after one was changed. -/
@[simp] theorem sec_modSec (s : State) (i j : Fin 16) (f : Section → Section) :
    (s.modSec i f).sec j = if i = j then f (s.sec i) else s.sec j := by
  simp [State.modSec]

/-- A runner read after one was put in place. -/
@[simp] theorem runner_setRunner (s : State) (r q : Fin 4) (u : Runner) :
    (s.setRunner r u).runner q = if r = q then u else s.runner q := by
  simp [State.runner, State.setRunner, Vector.getElem_set, Fin.ext_iff]

/-- A step record read after one was put in place. -/
@[simp] theorem stepRec_setStep (s : State) (k l : Fin 96) (r : StepRecord) :
    (s.setStep k r).stepRec l = if k = l then r else s.stepRec l := by
  simp [State.stepRec, State.setStep, Vector.getElem_set, Fin.ext_iff]

/-- A member read after one was put in place. -/
@[simp] theorem member_setMember (x : Section) (i j : Fin 4) (m : Member) :
    (x.setMember i m).member j = if i = j then m else x.member j := by
  simp [Section.member, Section.setMember, Vector.getElem_set, Fin.ext_iff]

/-- A member read after every member was changed. -/
@[simp] theorem member_mapMembers (x : Section) (f : Fin 4 → Member → Member) (j : Fin 4) :
    (x.mapMembers f).member j = f j (x.member j) := by
  fin_cases j <;> rfl

/-- The entry itself but for its members. -/
@[simp] theorem mapMembers_runState (x : Section) (f : Fin 4 → Member → Member) :
    (x.mapMembers f).runState = x.runState := rfl
@[simp] theorem mapMembers_cfg (x : Section) (f : Fin 4 → Member → Member) : (x.mapMembers f).cfg = x.cfg := rfl
@[simp] theorem mapMembers_flags (x : Section) (f : Fin 4 → Member → Member) : (x.mapMembers f).flags = x.flags := rfl
@[simp] theorem mapMembers_draw (x : Section) (f : Fin 4 → Member → Member) : (x.mapMembers f).draw = x.draw := rfl
@[simp] theorem mapMembers_ratio (x : Section) (f : Fin 4 → Member → Member) : (x.mapMembers f).ratio = x.ratio := rfl
@[simp] theorem mapMembers_observed (x : Section) (f : Fin 4 → Member → Member) :
    (x.mapMembers f).observed = x.observed := rfl
@[simp] theorem mapMembers_applied (x : Section) (f : Fin 4 → Member → Member) :
    (x.mapMembers f).applied = x.applied := rfl

/-! ### Readings that an update leaves as they were -/

/-- Entries are read from `sections` alone. -/
theorem sec_congr {s t : State} (h : t.sections = s.sections) (i : Fin 16) : t.sec i = s.sec i := by
  simp [State.sec, h]

/-- Runners are read from `runners` alone. -/
theorem runner_congr {s t : State} (h : t.runners = s.runners) (r : Fin 4) : t.runner r = s.runner r := by
  simp [State.runner, h]

/-- Step records are read from `steps` alone. -/
theorem stepRec_congr {s t : State} (h : t.steps = s.steps) (k : Fin 96) : t.stepRec k = s.stepRec k := by
  simp [State.stepRec, h]

@[simp] theorem sec_modCyc (s : State) (f : CycleCtl → CycleCtl) (i0 : Fin 16) : (s.modCyc f).sec i0 = s.sec i0 := rfl
@[simp] theorem runner_modCyc (s : State) (f : CycleCtl → CycleCtl) (r0 : Fin 4) : (s.modCyc f).runner r0 = s.runner r0 := rfl
@[simp] theorem stepRec_modCyc (s : State) (f : CycleCtl → CycleCtl) (k0 : Fin 96) : (s.modCyc f).stepRec k0 = s.stepRec k0 := rfl
@[simp] theorem sec_setLink (s : State) (l : LinkTest) (i0 : Fin 16) : (s.setLink l).sec i0 = s.sec i0 := rfl
@[simp] theorem runner_setLink (s : State) (l : LinkTest) (r0 : Fin 4) : (s.setLink l).runner r0 = s.runner r0 := rfl
@[simp] theorem stepRec_setLink (s : State) (l : LinkTest) (k0 : Fin 96) : (s.setLink l).stepRec k0 = s.stepRec k0 := rfl
@[simp] theorem sec_modMgmt (s : State) (f : Mgmt → Mgmt) (i0 : Fin 16) : (s.modMgmt f).sec i0 = s.sec i0 := rfl
@[simp] theorem runner_modMgmt (s : State) (f : Mgmt → Mgmt) (r0 : Fin 4) : (s.modMgmt f).runner r0 = s.runner r0 := rfl
@[simp] theorem stepRec_modMgmt (s : State) (f : Mgmt → Mgmt) (k0 : Fin 96) : (s.modMgmt f).stepRec k0 = s.stepRec k0 := rfl
@[simp] theorem sec_modPart (s : State) (f : Part → Part) (i0 : Fin 16) : (s.modPart f).sec i0 = s.sec i0 := rfl
@[simp] theorem runner_modPart (s : State) (f : Part → Part) (r0 : Fin 4) : (s.modPart f).runner r0 = s.runner r0 := rfl
@[simp] theorem stepRec_modPart (s : State) (f : Part → Part) (k0 : Fin 96) : (s.modPart f).stepRec k0 = s.stepRec k0 := rfl
@[simp] theorem sec_setStore (s : State) (x : Store) (i0 : Fin 16) : (s.setStore x).sec i0 = s.sec i0 := rfl
@[simp] theorem runner_setStore (s : State) (x : Store) (r0 : Fin 4) : (s.setStore x).runner r0 = s.runner r0 := rfl
@[simp] theorem stepRec_setStore (s : State) (x : Store) (k0 : Fin 96) : (s.setStore x).stepRec k0 = s.stepRec k0 := rfl
@[simp] theorem sec_modLog (s : State) (f : Log → Log) (i0 : Fin 16) : (s.modLog f).sec i0 = s.sec i0 := rfl
@[simp] theorem runner_modLog (s : State) (f : Log → Log) (r0 : Fin 4) : (s.modLog f).runner r0 = s.runner r0 := rfl
@[simp] theorem stepRec_modLog (s : State) (f : Log → Log) (k0 : Fin 96) : (s.modLog f).stepRec k0 = s.stepRec k0 := rfl
@[simp] theorem sec_setChain (s : State) (l : List (Fin 16)) (i0 : Fin 16) : (s.setChain l).sec i0 = s.sec i0 := rfl
@[simp] theorem runner_setChain (s : State) (l : List (Fin 16)) (r0 : Fin 4) : (s.setChain l).runner r0 = s.runner r0 := rfl
@[simp] theorem stepRec_setChain (s : State) (l : List (Fin 16)) (k0 : Fin 96) : (s.setChain l).stepRec k0 = s.stepRec k0 := rfl
@[simp] theorem sec_setSteps (s : State) (v : Vector StepRecord 96) (i0 : Fin 16) : (s.setSteps v).sec i0 = s.sec i0 := rfl
@[simp] theorem runner_setSteps (s : State) (v : Vector StepRecord 96) (r0 : Fin 4) : (s.setSteps v).runner r0 = s.runner r0 := rfl
@[simp] theorem sec_setUp (s : State) (x : Port) (i0 : Fin 16) : (s.setUp x).sec i0 = s.sec i0 := rfl
@[simp] theorem runner_setUp (s : State) (x : Port) (r0 : Fin 4) : (s.setUp x).runner r0 = s.runner r0 := rfl
@[simp] theorem stepRec_setUp (s : State) (x : Port) (k0 : Fin 96) : (s.setUp x).stepRec k0 = s.stepRec k0 := rfl
@[simp] theorem sec_setDn (s : State) (x : Port) (i0 : Fin 16) : (s.setDn x).sec i0 = s.sec i0 := rfl
@[simp] theorem runner_setDn (s : State) (x : Port) (r0 : Fin 4) : (s.setDn x).runner r0 = s.runner r0 := rfl
@[simp] theorem stepRec_setDn (s : State) (x : Port) (k0 : Fin 96) : (s.setDn x).stepRec k0 = s.stepRec k0 := rfl
@[simp] theorem sec_useFree (s : State) (i0 : Fin 16) : s.useFree.sec i0 = s.sec i0 := rfl
@[simp] theorem runner_useFree (s : State) (r0 : Fin 4) : s.useFree.runner r0 = s.runner r0 := rfl
@[simp] theorem stepRec_useFree (s : State) (k0 : Fin 96) : s.useFree.stepRec k0 = s.stepRec k0 := rfl
@[simp] theorem sec_setPhase (s : State) (p : Phase) (i0 : Fin 16) : (s.setPhase p).sec i0 = s.sec i0 := rfl
@[simp] theorem runner_setPhase (s : State) (p : Phase) (r0 : Fin 4) : (s.setPhase p).runner r0 = s.runner r0 := rfl
@[simp] theorem stepRec_setPhase (s : State) (p : Phase) (k0 : Fin 96) : (s.setPhase p).stepRec k0 = s.stepRec k0 := rfl
@[simp] theorem sec_enqueue (s : State) (l : List Instr) (i0 : Fin 16) : (s.enqueue l).sec i0 = s.sec i0 := rfl
@[simp] theorem runner_enqueue (s : State) (l : List Instr) (r0 : Fin 4) : (s.enqueue l).runner r0 = s.runner r0 := rfl
@[simp] theorem stepRec_enqueue (s : State) (l : List Instr) (k0 : Fin 96) : (s.enqueue l).stepRec k0 = s.stepRec k0 := rfl
@[simp] theorem sec_setInFlight (s : State) (c : Option Cycle) (i0 : Fin 16) : (s.setInFlight c).sec i0 = s.sec i0 := rfl
@[simp] theorem runner_setInFlight (s : State) (c : Option Cycle) (r0 : Fin 4) : (s.setInFlight c).runner r0 = s.runner r0 := rfl
@[simp] theorem stepRec_setInFlight (s : State) (c : Option Cycle) (k0 : Fin 96) : (s.setInFlight c).stepRec k0 = s.stepRec k0 := rfl
@[simp] theorem runner_setSec (s : State) (i : Fin 16) (x : Section) (r0 : Fin 4) : (s.setSec i x).runner r0 = s.runner r0 := rfl
@[simp] theorem stepRec_setSec (s : State) (i : Fin 16) (x : Section) (k0 : Fin 96) : (s.setSec i x).stepRec k0 = s.stepRec k0 := rfl
@[simp] theorem runner_modSec (s : State) (i : Fin 16) (f : Section → Section) (r0 : Fin 4) : (s.modSec i f).runner r0 = s.runner r0 := rfl
@[simp] theorem stepRec_modSec (s : State) (i : Fin 16) (f : Section → Section) (k0 : Fin 96) : (s.modSec i f).stepRec k0 = s.stepRec k0 := rfl
@[simp] theorem sec_setRunner (s : State) (r : Fin 4) (u : Runner) (i0 : Fin 16) : (s.setRunner r u).sec i0 = s.sec i0 := rfl
@[simp] theorem stepRec_setRunner (s : State) (r : Fin 4) (u : Runner) (k0 : Fin 96) : (s.setRunner r u).stepRec k0 = s.stepRec k0 := rfl
@[simp] theorem sec_setStep (s : State) (k : Fin 96) (r : StepRecord) (i0 : Fin 16) : (s.setStep k r).sec i0 = s.sec i0 := rfl
@[simp] theorem runner_setStep (s : State) (k : Fin 96) (r : StepRecord) (r0 : Fin 4) : (s.setStep k r).runner r0 = s.runner r0 := rfl
@[simp] theorem sec_modNotices (s : State) (f : Notices → Notices) (i0 : Fin 16) : (s.modNotices f).sec i0 = s.sec i0 := rfl
@[simp] theorem runner_modNotices (s : State) (f : Notices → Notices) (r0 : Fin 4) : (s.modNotices f).runner r0 = s.runner r0 := rfl
@[simp] theorem stepRec_modNotices (s : State) (f : Notices → Notices) (k0 : Fin 96) : (s.modNotices f).stepRec k0 = s.stepRec k0 := rfl
@[simp] theorem sec_setImage (s : State) (i : Fin 16) (g : Option Image) (i0 : Fin 16) : (s.setImage i g).sec i0 = s.sec i0 := rfl
@[simp] theorem runner_setImage (s : State) (i : Fin 16) (g : Option Image) (r0 : Fin 4) : (s.setImage i g).runner r0 = s.runner r0 := rfl
@[simp] theorem stepRec_setImage (s : State) (i : Fin 16) (g : Option Image) (k0 : Fin 96) : (s.setImage i g).stepRec k0 = s.stepRec k0 := rfl
@[simp] theorem sec_writeRecord (s : State) (c : CaptureRecord) (i0 : Fin 16) : (s.writeRecord c).sec i0 = s.sec i0 := rfl
@[simp] theorem runner_writeRecord (s : State) (c : CaptureRecord) (r0 : Fin 4) : (s.writeRecord c).runner r0 = s.runner r0 := rfl
@[simp] theorem stepRec_writeRecord (s : State) (c : CaptureRecord) (k0 : Fin 96) : (s.writeRecord c).stepRec k0 = s.stepRec k0 := rfl
@[simp] theorem sec_joinWaiters (s : State) (r : Fin 4) (i0 : Fin 16) : (s.joinWaiters r).sec i0 = s.sec i0 := rfl
@[simp] theorem runner_joinWaiters (s : State) (r : Fin 4) (r0 : Fin 4) : (s.joinWaiters r).runner r0 = s.runner r0 := rfl
@[simp] theorem stepRec_joinWaiters (s : State) (r : Fin 4) (k0 : Fin 96) : (s.joinWaiters r).stepRec k0 = s.stepRec k0 := rfl
@[simp] theorem sec_leaveWaiters (s : State) (r : Fin 4) (i0 : Fin 16) : (s.leaveWaiters r).sec i0 = s.sec i0 := rfl
@[simp] theorem runner_leaveWaiters (s : State) (r : Fin 4) (r0 : Fin 4) : (s.leaveWaiters r).runner r0 = s.runner r0 := rfl
@[simp] theorem stepRec_leaveWaiters (s : State) (r : Fin 4) (k0 : Fin 96) : (s.leaveWaiters r).stepRec k0 = s.stepRec k0 := rfl
@[simp] theorem sec_dropRecords (s : State) (n : Nat) (i0 : Fin 16) : (s.dropRecords n).sec i0 = s.sec i0 := rfl
@[simp] theorem runner_dropRecords (s : State) (n : Nat) (r0 : Fin 4) : (s.dropRecords n).runner r0 = s.runner r0 := rfl
@[simp] theorem stepRec_dropRecords (s : State) (n : Nat) (k0 : Fin 96) : (s.dropRecords n).stepRec k0 = s.stepRec k0 := rfl
@[simp] theorem sec_setAccess (s : State) (l : AccessLevel) (i0 : Fin 16) : (s.setAccess l).sec i0 = s.sec i0 := rfl
@[simp] theorem runner_setAccess (s : State) (l : AccessLevel) (r0 : Fin 4) : (s.setAccess l).runner r0 = s.runner r0 := rfl
@[simp] theorem stepRec_setAccess (s : State) (l : AccessLevel) (k0 : Fin 96) : (s.setAccess l).stepRec k0 = s.stepRec k0 := rfl
@[simp] theorem sec_setCursor (s : State) (c : Cursor) (i0 : Fin 16) : (s.setCursor c).sec i0 = s.sec i0 := rfl
@[simp] theorem runner_setCursor (s : State) (c : Cursor) (r0 : Fin 4) : (s.setCursor c).runner r0 = s.runner r0 := rfl
@[simp] theorem stepRec_setCursor (s : State) (c : Cursor) (k0 : Fin 96) : (s.setCursor c).stepRec k0 = s.stepRec k0 := rfl
@[simp] theorem sec_setPort (s : State) (p : Side) (x : Port) (i0 : Fin 16) :
    (s.setPort p x).sec i0 = s.sec i0 := by cases p <;> rfl
@[simp] theorem runner_setPort (s : State) (p : Side) (x : Port) (r0 : Fin 4) :
    (s.setPort p x).runner r0 = s.runner r0 := by cases p <;> rfl
@[simp] theorem stepRec_setPort (s : State) (p : Side) (x : Port) (k0 : Fin 96) :
    (s.setPort p x).stepRec k0 = s.stepRec k0 := by cases p <;> rfl

/-! ### A frame joins a transmit queue: the queue alone changes -/

@[simp] theorem queueFrame_fifo (x : Port) (f : TxFrame) : (x.queueFrame f).fifo = x.fifo := by
  unfold Port.queueFrame; split <;> rfl
@[simp] theorem queueFrame_gapTimer (x : Port) (f : TxFrame) : (x.queueFrame f).gapTimer = x.gapTimer := by
  unfold Port.queueFrame; split <;> rfl
@[simp] theorem queueFrame_awaitMark (x : Port) (f : TxFrame) : (x.queueFrame f).awaitMark = x.awaitMark := by
  unfold Port.queueFrame; split <;> rfl
@[simp] theorem queueFrame_asm (x : Port) (f : TxFrame) : (x.queueFrame f).asm = x.asm := by
  unfold Port.queueFrame; split <;> rfl
@[simp] theorem queueFrame_lastError (x : Port) (f : TxFrame) : (x.queueFrame f).lastError = x.lastError := by
  unfold Port.queueFrame; split <;> rfl
@[simp] theorem queueFrame_driving (x : Port) (f : TxFrame) : (x.queueFrame f).driving = x.driving := by
  unfold Port.queueFrame; split <;> rfl
@[simp] theorem queueFrame_sentBits (x : Port) (f : TxFrame) : (x.queueFrame f).sentBits = x.sentBits := by
  unfold Port.queueFrame; split <;> rfl
@[simp] theorem queueFrame_turnaround (x : Port) (f : TxFrame) : (x.queueFrame f).turnaround = x.turnaround := by
  unfold Port.queueFrame; split <;> rfl

end Sys2Proof.Machine
end

