-- ==== Sys2Proof/Laws/Frames.lean ====
section
/-! SUPPORT. What the shared operations can change: a test end changes runners, log, notices and the counter of free
values; the section operations change entries besides. -/

namespace Sys2Proof.Machine

open Sys2Proof

/-! ## The two frames -/

/-- The ways a log changes: records written at its tail, the oldest dropped, waiters changed. -/
inductive LogMoves (l : Log) : Log → Prop
  | refl : LogMoves l l
  | write {m : Log} (c : CaptureRecord) (h : LogMoves l m) : LogMoves l (m.write c)
  | drop {m : Log} (n : Nat) (h : LogMoves l m) : LogMoves l { m with records := m.records.drop n }
  | waiters {m : Log} (w : List (Fin 4)) (h : LogMoves l m) : LogMoves l { m with waiters := w }

theorem LogMoves.trans {l m n : Log} (h : LogMoves l m) (k : LogMoves m n) : LogMoves l n := by
  induction k with
  | refl => exact h
  | write c _ ih => exact .write c ih
  | drop d _ ih => exact .drop d ih
  | waiters w _ ih => exact .waiters w ih

/-- Only runners, log, notices and the counter of free values may differ, and the log moves as a log does. -/
structure TestsOnly (s t : State) : Prop where
  form : ∃ rs lg nt fu, t = { s with runners := rs, log := lg, part := { s.part with notices := nt }, freeUses := fu }
  log : LogMoves s.log t.log

/-- An entry keeps its place in the cascade: present, depth and draw base. -/
structure SamePlace (x y : Section) : Prop where
  present : y.present = x.present
  depth : y.depth = x.depth
  drawBase : y.cfg.drawBase = x.cfg.drawBase

theorem SamePlace.refl (x : Section) : SamePlace x x := ⟨rfl, rfl, rfl⟩

theorem SamePlace.trans {x y z : Section} (h : SamePlace x y) (k : SamePlace y z) : SamePlace x z :=
  ⟨k.present.trans h.present, k.depth.trans h.depth, k.drawBase.trans h.drawBase⟩

/-- Only entries, runners, log, notices and the counter of free values may differ, and no entry moves in the cascade. -/
structure SecsOnly (s t : State) : Prop where
  form : ∃ ss rs lg nt fu,
    t = { s with sections := ss, runners := rs, log := lg, part := { s.part with notices := nt }, freeUses := fu }
  place : ∀ i, SamePlace (s.sec i) (t.sec i)
  log : LogMoves s.log t.log

theorem TestsOnly.refl (s : State) : TestsOnly s s := ⟨⟨_, _, _, _, rfl⟩, .refl⟩

theorem SecsOnly.refl (s : State) : SecsOnly s s := ⟨⟨_, _, _, _, _, rfl⟩, fun _ => .refl _, .refl⟩

theorem TestsOnly.trans {s t u : State} (h : TestsOnly s t) (k : TestsOnly t u) : TestsOnly s u := by
  refine ⟨?_, h.log.trans k.log⟩
  obtain ⟨_, _, _, _, rfl⟩ := h.form
  obtain ⟨_, _, _, _, rfl⟩ := k.form
  exact ⟨_, _, _, _, rfl⟩

theorem SecsOnly.trans {s t u : State} (h : SecsOnly s t) (k : SecsOnly t u) : SecsOnly s u := by
  refine ⟨?_, fun i => (h.place i).trans (k.place i), h.log.trans k.log⟩
  obtain ⟨_, _, _, _, _, rfl⟩ := h.form
  obtain ⟨_, _, _, _, _, rfl⟩ := k.form
  exact ⟨_, _, _, _, _, rfl⟩

theorem TestsOnly.sections {s t : State} (h : TestsOnly s t) : t.sections = s.sections := by
  obtain ⟨_, _, _, _, rfl⟩ := h.form; rfl

theorem TestsOnly.sec {s t : State} (h : TestsOnly s t) (i : Fin 16) : t.sec i = s.sec i := sec_congr h.sections i

theorem TestsOnly.secsOnly {s t : State} (h : TestsOnly s t) : SecsOnly s t := by
  refine ⟨?_, fun i => by rw [h.sec]; exact .refl _, h.log⟩
  obtain ⟨_, _, _, _, rfl⟩ := h.form
  exact ⟨_, _, _, _, _, rfl⟩

/-- The fields both frames keep. -/
theorem SecsOnly.keeps {s t : State} (h : SecsOnly s t) :
    t.pending = s.pending ∧ t.phase = s.phase ∧ t.up = s.up ∧ t.dn = s.dn ∧ t.link = s.link ∧ t.cyc = s.cyc ∧
      t.chain = s.chain ∧ t.steps = s.steps ∧ t.mgmt = s.mgmt ∧ t.store = s.store ∧
      t.part = { s.part with notices := t.part.notices } := by
  obtain ⟨_, _, _, _, _, rfl⟩ := h.form
  exact ⟨rfl, rfl, rfl, rfl, rfl, rfl, rfl, rfl, rfl, rfl, rfl⟩

theorem SecsOnly.store {s t : State} (h : SecsOnly s t) : t.store = s.store := h.keeps.2.2.2.2.2.2.2.2.2.1

theorem SecsOnly.steps {s t : State} (h : SecsOnly s t) : t.steps = s.steps := h.keeps.2.2.2.2.2.2.2.1

/-- A fold of operations within a frame stays within it. -/
theorem SecsOnly.foldl {α : Type} (f : State → α → State) (h : ∀ s a, SecsOnly s (f s a)) (l : List α) (s : State) :
    SecsOnly s (l.foldl f s) := by
  induction l generalizing s with
  | nil => exact .refl s
  | cons a l ih => exact (h s a).trans (ih (f s a))

theorem TestsOnly.foldl {α : Type} (f : State → α → State) (h : ∀ s a, TestsOnly s (f s a)) (l : List α) (s : State) :
    TestsOnly s (l.foldl f s) := by
  induction l generalizing s with
  | nil => exact .refl s
  | cons a l ih => exact (h s a).trans (ih (f s a))

/-! ## Updates -/

theorem modSec_secsOnly (s : State) (i : Fin 16) (f : Section → Section) (hf : SamePlace (s.sec i) (f (s.sec i))) :
    SecsOnly s (s.modSec i f) := by
  refine ⟨⟨_, _, _, _, _, rfl⟩, fun j => ?_, .refl⟩
  rw [sec_modSec]
  split
  · next e => subst e; exact hf
  · exact .refl _

theorem setRunner_testsOnly (s : State) (r : Fin 4) (u : Runner) : TestsOnly s (s.setRunner r u) :=
  ⟨⟨_, _, _, _, rfl⟩, .refl⟩

theorem writeRecord_testsOnly (s : State) (c : CaptureRecord) : TestsOnly s (s.writeRecord c) :=
  ⟨⟨_, _, _, _, rfl⟩, .write c .refl⟩

theorem joinWaiters_testsOnly (s : State) (r : Fin 4) : TestsOnly s (s.joinWaiters r) :=
  ⟨⟨_, _, _, _, rfl⟩, .waiters _ .refl⟩

theorem leaveWaiters_testsOnly (s : State) (r : Fin 4) : TestsOnly s (s.leaveWaiters r) :=
  ⟨⟨_, _, _, _, rfl⟩, .waiters _ .refl⟩

theorem dropRecords_testsOnly (s : State) (n : Nat) : TestsOnly s (s.dropRecords n) :=
  ⟨⟨_, _, _, _, rfl⟩, .drop n .refl⟩

theorem modNotices_testsOnly (s : State) (f : Notices → Notices) : TestsOnly s (s.modNotices f) :=
  ⟨⟨_, _, _, _, rfl⟩, .refl⟩

theorem mapSecs_secsOnly (s : State) (f : Section → Section) (hf : ∀ x, SamePlace x (f x)) : SecsOnly s (s.mapSecs f) :=
  .foldl _ (fun t i => modSec_secsOnly t i f (hf _)) _ s

theorem mapPresent_secsOnly (s : State) (f : Section → Section) (hf : ∀ x, SamePlace x (f x)) :
    SecsOnly s (s.mapPresent f) :=
  mapSecs_secsOnly s _ fun x => by
    split
    · exact hf x
    · exact .refl x

/-! ## The operations on one entry -/

theorem compute_place (x : Section) (l b o : Int) : SamePlace x (x.compute l b o) := by
  have h1 : SamePlace x (x.ratioStage l b) := by
    unfold Section.ratioStage Section.followRatio
    split
    · exact ⟨rfl, rfl, rfl⟩
    · split <;> exact ⟨rfl, rfl, rfl⟩
  have h2 : SamePlace x ((x.ratioStage l b).targetStage l) := by
    refine h1.trans ?_
    unfold Section.targetStage
    split <;> exact ⟨rfl, rfl, rfl⟩
  unfold Section.compute
  generalize (x.ratioStage l b).targetStage l = y at h2
  refine h2.trans ?_
  have h3 : SamePlace y (y.rampStage o) := by
    unfold Section.rampStage
    split <;> exact ⟨rfl, rfl, rfl⟩
  refine h3.trans ?_
  generalize y.rampStage o = z
  unfold Section.settleStop
  split
  · exact ⟨rfl, rfl, rfl⟩
  · exact .refl z

theorem orderStop_place (x : Section) (m : Int) : SamePlace x (x.takeOrder m).orderStop := by
  unfold Section.orderStop
  split
  · exact ⟨rfl, rfl, rfl⟩
  · exact ⟨rfl, rfl, rfl⟩
  · split <;> exact ⟨rfl, rfl, rfl⟩
  · exact ⟨rfl, rfl, rfl⟩

theorem orderRun_place (x : Section) (m : Int) (c : LineCommand) (b : Bool) :
    SamePlace x ((x.takeOrder m).orderRun c b) := by
  unfold Section.orderRun
  split
  · exact ⟨rfl, rfl, rfl⟩
  · exact ⟨rfl, rfl, rfl⟩
  · split <;> exact ⟨rfl, rfl, rfl⟩
  · split <;> exact ⟨rfl, rfl, rfl⟩

theorem lineCommand_place (x : Section) (c : LineCommand) : SamePlace x (x.lineCommand c) := by
  cases c
  · show SamePlace x x.lineStop
    unfold Section.lineStop
    split
    · exact ⟨rfl, rfl, rfl⟩
    · split <;> exact ⟨rfl, rfl, rfl⟩
    · exact ⟨rfl, rfl, rfl⟩
    · exact ⟨rfl, rfl, rfl⟩
  · exact .refl x
  · show SamePlace x x.lineQuickStop
    unfold Section.lineQuickStop
    split
    · exact ⟨rfl, rfl, rfl⟩
    · split
      · exact ⟨rfl, rfl, rfl⟩
      · split <;> exact ⟨rfl, rfl, rfl⟩
    · exact ⟨rfl, rfl, rfl⟩
    · exact ⟨rfl, rfl, rfl⟩

theorem upstreamLoss_place (x : Section) : SamePlace x x.upstreamLoss := by
  unfold Section.upstreamLoss
  split
  · exact ⟨rfl, rfl, rfl⟩
  · split <;> exact ⟨rfl, rfl, rfl⟩
  · exact ⟨rfl, rfl, rfl⟩
  · exact ⟨rfl, rfl, rfl⟩

theorem ageOrder_place (x : Section) : SamePlace x x.ageOrder := by
  have h1 : SamePlace x { x with orderAge := if x.orderAge < 255 then x.orderAge + 1 else 255 } := ⟨rfl, rfl, rfl⟩
  refine h1.trans ?_
  unfold Section.ageOrder
  generalize ({ x with orderAge := if x.orderAge < 255 then x.orderAge + 1 else 255 } : Section) = y
  dsimp only
  split
  · split
    · exact ⟨rfl, rfl, rfl⟩
    · split <;> exact ⟨rfl, rfl, rfl⟩
    · exact .refl y
    · exact .refl y
  · exact .refl y

theorem beginCycle_place (x : Section) : SamePlace x x.beginCycle := by
  have h1 : SamePlace x x.clearResults.releaseFallsDue := by
    unfold Section.releaseFallsDue
    split <;> exact ⟨rfl, rfl, rfl⟩
  exact h1.trans (ageOrder_place _)

theorem degrade_place (x : Section) (l : List (Fin 4)) : SamePlace x (x.degrade l) := by
  unfold Section.degrade
  split <;> exact ⟨rfl, rfl, rfl⟩

theorem loadShare_place (x : Section) : SamePlace x x.loadShare := by
  have h1 : SamePlace x x.convertTorques := ⟨rfl, rfl, rfl⟩
  unfold Section.loadShare
  generalize x.convertTorques = y at h1
  have h2 : SamePlace y y.formLoad := by
    unfold Section.formLoad
    split <;> exact ⟨rfl, rfl, rfl⟩
  have h2' := h1.trans h2
  generalize y.formLoad = z at h2'
  have h3 : SamePlace z z.formShares := by
    unfold Section.formShares
    split <;> exact ⟨rfl, rfl, rfl⟩
  have h3' := h2'.trans h3
  generalize z.formShares = w at h3'
  refine h3'.trans ?_
  unfold Section.updateTrims
  split <;> exact ⟨rfl, rfl, rfl⟩

/-! ## Test ends -/

theorem dropPendingRecord_testsOnly (s : State) (r : Fin 4) : TestsOnly s (s.dropPendingRecord r) := by
  unfold State.dropPendingRecord
  split
  · exact (setRunner_testsOnly s r _).trans (leaveWaiters_testsOnly _ r)
  · exact .refl s

theorem endTest_testsOnly (s : State) (r : Fin 4) (o : RecordOutcome) (t : TestOutcome) (c : AbortCause) :
    TestsOnly s (s.endTest r o t c) :=
  (writeRecord_testsOnly s _).trans (setRunner_testsOnly _ r _)

theorem completeTest_testsOnly (s : State) (r : Fin 4) : TestsOnly s (s.completeTest r) :=
  (endTest_testsOnly s r _ _ _).trans (modNotices_testsOnly _ _)

theorem stopRunner_testsOnly (s : State) (r : Fin 4) : TestsOnly s (s.stopRunner r) :=
  (dropPendingRecord_testsOnly s r).trans (endTest_testsOnly _ r _ _ _)

theorem abortRunner_testsOnly (s : State) (r : Fin 4) (c : AbortCause) : TestsOnly s (s.abortRunner r c) := by
  unfold State.abortRunner
  split
  · exact .refl s
  · exact ((dropPendingRecord_testsOnly s r).trans (endTest_testsOnly _ r _ _ _)).trans (modNotices_testsOnly _ _)

theorem abortClaimant_testsOnly (s : State) (i : Fin 16) (c : AbortCause) : TestsOnly s (s.abortClaimant i c) := by
  unfold State.abortClaimant
  split
  · exact .refl s
  · exact abortRunner_testsOnly s _ c

theorem abortAll_testsOnly (s : State) (l : List (Fin 4)) (c : AbortCause) : TestsOnly s (s.abortAll l c) := by
  unfold State.abortAll
  split
  · exact .foldl _ (fun t r => abortRunner_testsOnly t r c) l s
  · refine TestsOnly.trans ⟨⟨s.runners, s.log, s.part.notices, s.freeUses + 1, rfl⟩, .refl⟩ ?_
    exact .foldl _ (fun t r => abortRunner_testsOnly t r c) _ _

/-! ## Steps of a test -/

theorem adjustDraw_secsOnly (s : State) (i : Fin 16) (d : Int) (m : DrawMode) :
    SecsOnly s (s.adjustDraw i d m).state := by
  have h : SecsOnly s (s.adjustOwn i d) := modSec_secsOnly s i _ ⟨rfl, rfl, rfl⟩
  cases m
  · exact h
  · exact h.trans (.foldl _ (fun t c => modSec_secsOnly t c _ ⟨rfl, rfl, rfl⟩) _ _)

theorem entryEffect_secsOnly (s : State) (r : Fin 4) (i : Fin 16) (k : StepRecord) :
    SecsOnly s (s.entryEffect r i k) := by
  unfold State.entryEffect
  cases k.action
  · exact .refl s
  · exact (setRunner_testsOnly s r _).secsOnly
  · exact (setRunner_testsOnly s r _).secsOnly
  · exact (setRunner_testsOnly s r _).secsOnly
  · exact (adjustDraw_secsOnly s i _ _).trans (setRunner_testsOnly _ r _).secsOnly
  · exact modSec_secsOnly s i _ ⟨rfl, rfl, rfl⟩
  · exact .refl s

theorem enterStep_secsOnly (s : State) (r : Fin 4) (k : Fin 96) : SecsOnly s (s.enterStep r k) := by
  unfold State.enterStep
  split
  · exact .refl s
  · split
    · exact ((setRunner_testsOnly s r _).trans (abortRunner_testsOnly _ r _)).secsOnly
    · exact (setRunner_testsOnly s r _).secsOnly.trans (entryEffect_secsOnly _ r _ _)

theorem goOn_secsOnly (s : State) (r : Fin 4) : SecsOnly s (s.goOn r) := by
  unfold State.goOn
  split
  · exact .refl s
  · split
    · exact enterStep_secsOnly s r _
    · exact (completeTest_testsOnly s r).secsOnly

theorem stepEnd_secsOnly (s : State) (r : Fin 4) (k : StepRecord) (o : RecordOutcome) :
    SecsOnly s (s.stepEnd r k o) := by
  unfold State.stepEnd
  split
  · exact goOn_secsOnly s r
  · split
    · exact (writeRecord_testsOnly s _).secsOnly.trans (goOn_secsOnly _ r)
    · exact ((setRunner_testsOnly s r _).trans (joinWaiters_testsOnly _ r)).secsOnly

theorem serveRunner_secsOnly (s : State) (r : Fin 4) : SecsOnly s (s.serveRunner r) := by
  unfold State.serveRunner
  refine SecsOnly.trans ?_ (goOn_secsOnly _ r)
  refine TestsOnly.secsOnly (TestsOnly.trans ?_ (leaveWaiters_testsOnly _ r))
  refine TestsOnly.trans ?_ (setRunner_testsOnly _ r _)
  split
  · exact .refl s
  · exact writeRecord_testsOnly s _

theorem serveWaiters_secsOnly (n : Nat) (s : State) : SecsOnly s (State.serveWaiters n s) := by
  induction n generalizing s with
  | zero => exact .refl s
  | succ n ih =>
    unfold State.serveWaiters
    split
    · exact .refl s
    · split
      · exact (serveRunner_secsOnly s _).trans (ih _)
      · exact .refl s

theorem dropLog_secsOnly (s : State) (n : Nat) : SecsOnly s (s.dropLog n) := by
  unfold State.dropLog
  split
  · exact (dropRecords_testsOnly s n).secsOnly
  · exact (dropRecords_testsOnly s n).secsOnly.trans (serveWaiters_secsOnly _ _)

theorem progressStep_secsOnly (s : State) (r : Fin 4) (i : Fin 16) (k : Fin 96) (full : Bool) :
    SecsOnly s (s.progressStep r i k full) := by
  unfold State.progressStep
  have h := setRunner_testsOnly s r ((s.runner r).judged (s.stepRec k) (s.sec i) full)
  dsimp only
  split
  · exact (h.trans (abortRunner_testsOnly _ r _)).secsOnly
  · split
    · exact h.secsOnly.trans (stepEnd_secsOnly _ r _ _)
    · split
      · split
        · exact h.secsOnly.trans (stepEnd_secsOnly _ r _ _)
        · split
          · exact h.secsOnly.trans (stepEnd_secsOnly _ r _ _)
          · exact (h.trans (abortRunner_testsOnly _ r _)).secsOnly
      · exact h.secsOnly

theorem runnerCompletion_secsOnly (s : State) (i : Fin 16) : SecsOnly s (s.runnerCompletion i) := by
  unfold State.runnerCompletion
  split
  · exact .refl s
  · split
    · exact progressStep_secsOnly s _ i _ _
    · exact .refl s

/-! ## The section table -/

theorem sectionStop_secsOnly (s : State) (i : Fin 16) (m : Int) : SecsOnly s (s.sectionStop i m) := by
  unfold State.sectionStop
  dsimp only
  split
  · exact (modSec_secsOnly s i _ (orderStop_place _ m)).trans (abortClaimant_testsOnly _ i _).secsOnly
  · exact modSec_secsOnly s i _ (orderStop_place _ m)

theorem sectionRun_secsOnly (s : State) (i : Fin 16) (m : Int) : SecsOnly s (s.sectionRun i m) :=
  modSec_secsOnly s i _ (orderRun_place _ m _ _)

theorem applyLineCommand_secsOnly (s : State) (c : LineCommand) : SecsOnly s (s.applyLineCommand c) :=
  (mapPresent_secsOnly s _ fun x => lineCommand_place x c).trans (abortAll_testsOnly _ _ _).secsOnly

theorem announceStart_secsOnly (s : State) : SecsOnly s s.announceStart :=
  (mapPresent_secsOnly s _ beginCycle_place).trans (abortAll_testsOnly _ _ _).secsOnly

theorem computeChain_secsOnly (s : State) : SecsOnly s s.computeChain :=
  .foldl _ (fun t i => modSec_secsOnly t i _ (compute_place _ _ _ _)) _ s

theorem enterTripped_secsOnly (s : State) (i : Fin 16) (c : StopCause) (j : Option (Fin 4)) :
    SecsOnly s (s.enterTripped i c j) :=
  (modSec_secsOnly s i _ ⟨rfl, rfl, rfl⟩).trans (modNotices_testsOnly _ _).secsOnly

theorem judgeMoving_secsOnly (s : State) (i : Fin 16) (l : List (Fin 4)) : SecsOnly s (s.judgeMoving i l) := by
  unfold State.judgeMoving
  split
  · exact (enterTripped_secsOnly s i _ _).trans (abortClaimant_testsOnly _ i _).secsOnly
  · exact modSec_secsOnly s i _ (degrade_place _ l)

theorem releaseCheck_secsOnly (s : State) (i : Fin 16) : SecsOnly s (s.releaseCheck i) := by
  unfold State.releaseCheck
  dsimp only
  split
  · split
    · split
      · exact (modSec_secsOnly s i _ ⟨rfl, rfl, rfl⟩).trans (enterTripped_secsOnly _ i _ _)
      · exact modSec_secsOnly s i _ ⟨rfl, rfl, rfl⟩
    · exact modSec_secsOnly s i _ ⟨rfl, rfl, rfl⟩
  · exact .refl s

theorem monitorCompletion_secsOnly (s : State) (i : Fin 16) : SecsOnly s (s.monitorCompletion i) := by
  unfold State.monitorCompletion
  dsimp only
  split
  · exact (modSec_secsOnly s i _ ⟨rfl, rfl, rfl⟩).trans (judgeMoving_secsOnly _ i _)
  · exact (modSec_secsOnly s i _ ⟨rfl, rfl, rfl⟩).trans (releaseCheck_secsOnly _ i)

theorem windowCompletion_secsOnly (s : State) (i : Fin 16) : SecsOnly s (s.windowCompletion i) :=
  ((monitorCompletion_secsOnly s i).trans (modSec_secsOnly _ i _ (loadShare_place _))).trans (runnerCompletion_secsOnly _ i)

theorem deliverSlot_secsOnly (s : State) (c : Cycle) (q : SlotRef) : SecsOnly s (s.deliverSlot c q) := by
  unfold State.deliverSlot
  split
  · exact .refl s
  · split
    · exact modSec_secsOnly s _ _ ⟨rfl, rfl, rfl⟩
    · split
      · exact .refl s
      · exact modSec_secsOnly s _ _ ⟨rfl, rfl, rfl⟩

/-! ## Every entry changed by its own -/

/-- One entry read after every entry was changed. -/
@[simp] theorem sec_mapSecs (s : State) (f : Section → Section) (i : Fin 16) : (s.mapSecs f).sec i = f (s.sec i) := by
  have key : ∀ (l : List (Fin 16)) (t : State), l.Nodup →
      (l.foldl (fun t i => t.modSec i f) t).sec i = if i ∈ l then f (t.sec i) else t.sec i := by
    intro l
    induction l with
    | nil => intro t _; simp
    | cons a l ih =>
      intro t h
      obtain ⟨ha, hl⟩ := List.nodup_cons.mp h
      rw [List.foldl_cons, ih _ hl, sec_modSec]
      by_cases hia : i = a
      · subst hia; simp [ha]
      · have : ¬a = i := fun h => hia h.symm
        simp [hia, this]
  have hall : i ∈ allSections := by fin_cases i <;> simp [allSections]
  have h := key allSections s (by decide)
  simpa [State.mapSecs, hall] using h

/-- One entry read after every present entry was changed. -/
@[simp] theorem sec_mapPresent (s : State) (f : Section → Section) (i : Fin 16) :
    (s.mapPresent f).sec i = if (s.sec i).present then f (s.sec i) else s.sec i := by
  simp [State.mapPresent]

/-- The present sections are those whose entry says so. -/
@[simp] theorem mem_presentSecs (s : State) (i : Fin 16) : i ∈ s.presentSecs ↔ (s.sec i).present = true := by
  have hall : i ∈ allSections := by fin_cases i <;> simp [allSections]
  simp [State.presentSecs, hall]

/-- A LINE CYCLE's command acts on each present entry alone (R51). -/
theorem applyLineCommand_sec (s : State) (c : LineCommand) (i : Fin 16) :
    (s.applyLineCommand c).sec i = if (s.sec i).present then (s.sec i).lineCommand c else s.sec i := by
  unfold State.applyLineCommand
  rw [(abortAll_testsOnly _ _ _).sec, sec_mapPresent]

/-- What a cycle start does to each entry before the computation (R53, R55, R62). -/
theorem announceStart_sec (s : State) (i : Fin 16) :
    s.announceStart.sec i = if (s.sec i).present then (s.sec i).beginCycle else s.sec i := by
  unfold State.announceStart
  rw [(abortAll_testsOnly _ _ _).sec, sec_mapPresent]

end Sys2Proof.Machine
end

