-- ==== Sys2Proof/Laws/Kept.lean ====
section
/-! SUPPORT. What a step can do to the state, said once: a property that the leaf operations keep is kept by every
step. -/

namespace Sys2Proof.Machine

open Sys2Proof

/-- Frames the transmit queue of a port holds (R14). -/
def txPlaces : Side → Nat
  | .up => Config.upPlaces
  | .dn => Config.dnPlaces

/-- What the ports' own work does to a port: neither its FIFO nor its transmit queue grows past its places. -/
structure PortStep (p : Side) (x y : Port) : Prop where
  fifo : y.fifo.length ≤ Config.fifoPlaces ∨ y.fifo.length ≤ x.fifo.length
  tx : y.tx.length ≤ txPlaces p ∨ y.tx.length ≤ x.tx.length

theorem PortStep.calm {p : Side} {x y : Port} (h : y.fifo = x.fifo) (k : y.tx = x.tx) : PortStep p x y :=
  ⟨Or.inr (by rw [h]), Or.inr (by rw [k])⟩

/-- A change of the FIFO alone. -/
theorem PortStep.ofFifo {p : Side} {x y : Port}
    (h : y.fifo.length ≤ Config.fifoPlaces ∨ y.fifo.length ≤ x.fifo.length) (k : y.tx = x.tx) : PortStep p x y :=
  ⟨h, Or.inr (by rw [k])⟩

/-- A change of the transmit queue alone. -/
theorem PortStep.ofQueue {p : Side} {x y : Port} (h : y.fifo = x.fifo)
    (k : y.tx.length ≤ txPlaces p ∨ y.tx.length ≤ x.tx.length) : PortStep p x y := ⟨Or.inr (by rw [h]), k⟩

theorem presentSecs_length (s : State) : s.presentSecs.length ≤ 16 := List.length_filter_le _ _

/-- The burst of a downstream cycle has its places (R14, R32). -/
theorem cycleBurst_length (s : State) : s.cycleBurst.length ≤ 17 := by
  unfold State.cycleBurst
  rw [List.length_append, List.length_map]
  exact Nat.succ_le_succ (presentSecs_length s)

/-- A reply burst has its places (R14, R23). -/
theorem replyBurst_length (s : State) : s.replyBurst.length ≤ 18 := by
  unfold State.replyBurst
  have h := presentSecs_length s
  cases s.cyc.pendingReply <;> simp <;> omega

/-- A frame that joins the queue finds a place (R14). -/
theorem queueFrame_length (x : Port) (f : TxFrame) :
    (x.queueFrame f).tx.length ≤ 18 ∨ (x.queueFrame f).tx.length ≤ x.tx.length := by
  unfold Port.queueFrame
  split
  · next h => left; rw [List.length_append]; exact h
  · exact Or.inr (Nat.le_refl _)

/-- The property, in a part in service. -/
def Serving (I : State → Prop) (s : State) : Prop := I s ∧ s.phase = .inService

/-- The leaf operations keep the property; those of a part in service need to keep it there alone. -/
structure Kept (I : State → Prop) : Prop where
  resets : ∀ s ph w, ph ≠ .inService → I s → I (s.resetBlocks ph w)
  comesIntoService : ∀ s, s.phase = .startUp → I s → I (s.restore.setPhase .inService)
  queue : ∀ (s : State) l, I s → I { s with pending := l }
  port : ∀ s p x, PortStep p (s.port p) x → I s → I (s.setPort p x)
  cyc : ∀ s f, I s → I (s.modCyc f)
  mgmt : ∀ s f, I s → I (s.modMgmt f)
  part : ∀ s f, I s → I (s.modPart f)
  link : ∀ s l, I s → I (s.setLink l)
  saves : ∀ s, I s → I (s.setStore { s.store with state := .saving, snapshot := some s.snapshot, copy := none })
  store : ∀ s y, (∀ t, y.snapshot = some t → s.store.snapshot = some t) →
    (∀ c, y.copy = some c → s.store.copy = some c ∨ s.store.snapshot = some c.tables) → I s → I (s.setStore y)
  announceStart : ∀ s, Serving I s → I s.announceStart
  computeSec : ∀ s i, Serving I s → I (s.computeSec i)
  clearFaultResets : ∀ s, Serving I s → I (s.mapPresent Section.clearFaultResets)
  applyLineCommand : ∀ s c, Serving I s → I (s.applyLineCommand c)
  sectionStop : ∀ s i m, Serving I s → I (s.sectionStop i m)
  sectionRun : ∀ s i m, Serving I s → I (s.sectionRun i m)
  lossOnSections : ∀ s, Serving I s → I s.lossOnSections
  deliverSlot : ∀ s c q, Serving I s → I (s.deliverSlot c q)
  monitorCompletion : ∀ s i, Serving I s → I (s.monitorCompletion i)
  loadShare : ∀ s i, Serving I s → I (s.modSec i Section.loadShare)
  runnerCompletion : ∀ s i, Serving I s → I (s.runnerCompletion i)
  adjustDraw : ∀ s i d m, Serving I s → I (s.adjustDraw i d m).state
  toCascade : ∀ s i b, Serving I s → I (s.modSec i fun x => x.toCascade b)
  toFollow : ∀ s i, Serving I s → I (s.modSec i Section.toFollow)
  releaseTrip : ∀ s i, (s.sec i).runState = .tripped → Serving I s → I (s.modSec i Section.releaseTrip)
  startTest : ∀ s r i k, startTestRefusal s r i k = none → Serving I s →
    I ((s.setRunner r ((s.runner r).begin i k)).enterStep r k)
  pauseTest : ∀ s r, (s.runner r).state = .running → Serving I s → I (s.setRunner r { s.runner r with state := .paused })
  resumeTest : ∀ s r, (s.runner r).state = .paused → Serving I s →
    I (s.setRunner r { s.runner r with state := .running })
  stopRunner : ∀ s r, (s.runner r).state ≠ .idle → Serving I s → I (s.stopRunner r)
  dropLog : ∀ s n, Serving I s → I (s.dropLog n)
  makePresent : ∀ s i, (s.sec i).present = false → s.presentRefusal i = none → Serving I s → I (s.makePresent i)
  withdraw : ∀ s i, (s.sec i).present = true → s.withdrawRefusal i = none → Serving I s → I (s.withdraw i)
  takeSetting : ∀ (s : State) i f v c, (s.sec i).cfg.writeField f v = some c →
    (structuralField f = true → (s.sec i).present = false) → Serving I s → I (s.modSec i fun x => x.takeSetting f c)
  setRating : ∀ (s : State) i j v w, (s.sec i).present = false → ratingOf v = some w → Serving I s →
    I (s.modSec i fun x => x.setMember j { x.member j with rating := w })
  setWeight : ∀ s i j v w, ranged 1 100 v = some w → Serving I s → I (s.modSec i fun x => x.setWeight j w)
  setStep : ∀ (s : State) k f v x, s.stepUser k = none → (s.stepRec k).writeField f v = .ok x → Serving I s →
    I (s.setStep k x)

namespace Kept

variable {I : State → Prop}

theorem foldl {J : State → Prop} {α : Type} (f : State → α → State) (hf : ∀ s a, J s → J (f s a)) (l : List α)
    {s : State} (h : J s) : J (l.foldl f s) := by
  induction l generalizing s with
  | nil => exact h
  | cons a l ih => exact ih (hf s a h)

/-- An operation within the section frame leaves the part in service. -/
theorem stays {s t : State} (h : Serving I s) (k : SecsOnly s t) (ht : I t) : Serving I t :=
  ⟨ht, by rw [k.keeps.2.1]; exact h.2⟩

variable (L : Kept I)
include L

/-! ## Leaves of a part in service -/

theorem sPort {s : State} (h : Serving I s) (p : Side) (x : Port) (hx : PortStep p (s.port p) x) :
    Serving I (s.setPort p x) := ⟨L.port s p x hx h.1, by cases p <;> exact h.2⟩

theorem sUp {s : State} (h : Serving I s) (x : Port) (hx : PortStep .up s.up x) : Serving I (s.setUp x) :=
  L.sPort h .up x hx

theorem sDn {s : State} (h : Serving I s) (x : Port) (hx : PortStep .dn s.dn x) : Serving I (s.setDn x) :=
  L.sPort h .dn x hx

theorem sCyc {s : State} (h : Serving I s) (f : CycleCtl → CycleCtl) : Serving I (s.modCyc f) :=
  ⟨L.cyc s f h.1, h.2⟩

theorem sMgmt {s : State} (h : Serving I s) (f : Mgmt → Mgmt) : Serving I (s.modMgmt f) := ⟨L.mgmt s f h.1, h.2⟩

theorem sPart {s : State} (h : Serving I s) (f : Part → Part) : Serving I (s.modPart f) := ⟨L.part s f h.1, h.2⟩

theorem sLink {s : State} (h : Serving I s) (l : LinkTest) : Serving I (s.setLink l) := ⟨L.link s l h.1, h.2⟩

omit L in
theorem store_fifo (x : Port) (e : Entry) : (x.store e).fifo.length ≤ Config.fifoPlaces ∨
    (x.store e).fifo.length ≤ x.fifo.length := by
  have hm : ∀ l : List Entry, (markNewest l).length = l.length := by
    intro l
    induction l with
    | nil => rfl
    | cons a l ih =>
      cases l with
      | nil => rfl
      | cons b l => simp only [markNewest, List.length_cons] at ih ⊢; omega
  unfold Port.store
  split
  · left; simp only [List.length_append, List.length_singleton]; omega
  · right; simp [hm]

omit L in
theorem store_step {p : Side} {x y : Port} (e : Entry) (h : y.fifo = (x.store e).fifo) (k : y.tx = x.tx) :
    PortStep p x y := .ofFifo (by rw [h]; exact store_fifo x e) k

omit L in
theorem store_tx (x : Port) (e : Entry) : (x.store e).tx = x.tx := by unfold Port.store; split <;> rfl

omit L in
theorem receive_step {p : Side} (x : Port) (stamp : Stamp) (e : LineEvent) : PortStep p x (x.receive stamp e) := by
  cases e with
  | char d m st =>
    simp only [Port.receive]
    split
    · exact .calm rfl rfl
    · split
      · exact store_step _ rfl (store_tx _ _)
      · exact store_step _ rfl (store_tx _ _)
  | markReturn =>
    simp only [Port.receive]
    split <;> exact .calm rfl rfl

omit L in
theorem enable_step {p : Side} (x : Port) : PortStep p x x.enable := by
  unfold Port.enable
  split
  · exact .calm rfl rfl
  · exact store_step gapEntry rfl (store_tx _ _)

/-! ## Downstream cycles -/

theorem launchCycle {s : State} (h : Serving I s) : Serving I s.launchCycle := by
  unfold State.launchCycle
  have h1 := L.sDn (L.sCyc h fun x => { x with inFlight := some s.newCycle }) { s.dn.enable with tx := s.cycleBurst }
    ⟨(enable_step (p := .dn) s.dn).fifo, Or.inl (cycleBurst_length s)⟩
  exact stays h1 (mapPresent_secsOnly _ _ fun _ => ⟨rfl, rfl, rfl⟩) (L.clearFaultResets _ h1)

theorem computedStart {s : State} (h : Serving I s) : Serving I s.computedStart := by
  unfold State.computedStart
  have h1 : Serving I s.advanceNumbers := L.sCyc h _
  have h2 := stays h1 (announceStart_secsOnly _) (L.announceStart _ h1)
  exact foldl (J := Serving I) _ (fun t i ht => stays ht (modSec_secsOnly t i _ (compute_place _ _ _ _)) (L.computeSec t i ht)) _ h2

theorem startCycle {s : State} (h : Serving I s) : Serving I s.startCycle := by
  unfold State.startCycle
  have h1 := L.computedStart h
  dsimp only
  split
  · exact h1
  · exact L.launchCycle h1

theorem requestStart {s : State} (h : Serving I s) : Serving I s.requestStart := by
  unfold State.requestStart
  split
  · exact L.startCycle h
  · exact L.sCyc h _

theorem servePending {s : State} (h : Serving I s) : Serving I s.servePending := by
  unfold State.servePending
  split
  · exact L.startCycle h
  · exact h

theorem enterLoopback {s : State} (h : Serving I s) : Serving I s.enterLoopback :=
  L.sLink (L.sDn h { s.dn.emptied with driving := true } (.ofFifo (Or.inl (Nat.zero_le _)) rfl)) _

theorem finishCycle {s : State} (h : Serving I s) (c : Cycle) : Serving I (s.finishCycle c) := by
  have h1 := foldl (J := Serving I) State.retakeImage (fun t i ht => by exact L.sCyc ht fun y =>
    { y with images := y.images.set i (some (t.takeImage i)) }) (s.delivered c) h
  exact L.sCyc h1 fun y => { y with inFlight := none }

theorem endCycle {s : State} (h : Serving I s) (c : Cycle) : Serving I (s.endCycle c) := by
  unfold State.endCycle
  have h2 := L.finishCycle h c
  unfold State.afterCycle
  split
  · split
    · exact h2
    · exact L.enterLoopback h2
  · exact L.servePending h2

theorem windowCompletion {s : State} (h : Serving I s) (i : Fin 16) : Serving I (s.windowCompletion i) := by
  unfold State.windowCompletion
  have h1 := stays h (monitorCompletion_secsOnly s i) (L.monitorCompletion s i h)
  have h2 := stays h1 (modSec_secsOnly _ i _ (loadShare_place _)) (L.loadShare _ i h1)
  exact stays h2 (runnerCompletion_secsOnly _ i) (L.runnerCompletion _ i h2)

theorem closeSlot {s : State} (h : Serving I s) (c : Cycle) (q : SlotRef) : Serving I (s.closeSlot c q) := by
  unfold State.closeSlot
  have h1 := stays h (deliverSlot_secsOnly s c q) (L.deliverSlot s c q h)
  have h2 : Serving I ((s.deliverSlot c q).setInFlight (some c.nextSlot)) := L.sCyc h1 _
  dsimp only
  split
  · exact L.windowCompletion h2 _
  · exact h2

theorem endSlot {s : State} (h : Serving I s) : Serving I s.endSlot := by
  unfold State.endSlot
  split
  · exact h
  · next c _ =>
    split
    · exact h
    · next q _ =>
      split
      · exact L.closeSlot h c q
      · exact L.endCycle (L.closeSlot h c q) c

/-! ## The link test and discards -/

theorem leaveLoopback {s : State} (h : Serving I s) : Serving I s.leaveLoopback :=
  L.sCyc (L.sLink (L.sDn h { s.dn.emptied with driving := false } (.ofFifo (Or.inl (Nat.zero_le _)) rfl)) _) _

theorem endLinkTest {s : State} (h : Serving I s) : Serving I s.endLinkTest := L.servePending (L.leaveLoopback h)

theorem judgeEcho {s : State} (h : Serving I s) (b : Option BadKind) : Serving I (s.judgeEcho b) := by
  unfold State.judgeEcho
  dsimp only
  split
  · exact L.sLink h _
  · exact L.endLinkTest (L.sLink h _)

theorem latchError {s : State} (h : Serving I s) (p : Side) (k : ErrorKind) : Serving I (s.latchError p k) :=
  L.sPort h p _ (.calm rfl rfl)

theorem discard {s : State} (h : Serving I s) (p : Side) (k : ErrorKind) : Serving I (s.discard p k) := by
  unfold State.discard
  have h1 := L.latchError h p k
  dsimp only
  split
  · exact h1
  · split
    · exact L.judgeEcho h1 _
    · exact h1

/-! ## The line controller's frames -/

theorem takeLineCycle {s : State} (h : Serving I s) (n c : Byte) (v : Int) : Serving I (s.takeLineCycle n c v) := by
  unfold State.takeLineCycle
  have h1 : Serving I (s.storeLine n c v) := L.sCyc h _
  dsimp only
  split
  · exact stays (L.sPart h1 _) (applyLineCommand_secsOnly _ _) (L.applyLineCommand _ _ (L.sPart h1 _))
  · exact stays h1 (applyLineCommand_secsOnly _ _) (L.applyLineCommand _ _ h1)

theorem answerPoll {s : State} (h : Serving I s) (age : Nat) : Serving I (s.answerPoll age) := by
  unfold State.answerPoll
  have h1 : Serving I s.pollAccess.pollLink := L.sCyc (L.sMgmt h _) _
  unfold State.queueBurst
  split
  · refine L.sCyc (L.sUp h1 _ ?_) _
    exact .ofQueue rfl (Or.inl (replyBurst_length _))
  · exact h1

theorem takePollCall {s : State} (h : Serving I s) (age : Nat) : Serving I (s.takePollCall age) :=
  L.requestStart (L.answerPoll h age)

theorem discardReply {s : State} (h : Serving I s) : Serving I s.discardReply := by
  unfold State.discardReply
  dsimp only
  split
  · exact L.sCyc h _
  · split
    · exact L.sCyc h _
    · exact L.sMgmt (L.sCyc h _) _
    · exact ⟨L.store _ _ (fun _ ht => ht) (fun _ hc => Or.inl hc) (L.sCyc h _).1, h.2⟩

omit L in
theorem lossOnSections_phase (s : State) : s.lossOnSections.phase = s.phase := by
  unfold State.lossOnSections
  dsimp only
  rw [(abortAll_testsOnly _ _ _).secsOnly.keeps.2.1, (mapPresent_secsOnly _ _ upstreamLoss_place).keeps.2.1]
  rfl

theorem afterLoss {s : State} (h : Serving I s) : Serving I s.afterLoss :=
  have h1 : Serving I s.lossOnSections := ⟨L.lossOnSections s h, by rw [lossOnSections_phase]; exact h.2⟩
  L.sCyc (L.sPart (L.sMgmt (L.discardReply h1) fun m => { m with access := .monitor, pendingAccess := none })
    fun p => { p with notices := p.notices.setUpstreamLoss }) fun c => { c with localTimer := some 0 }

theorem takeLoss {s : State} (h : Serving I s) : Serving I s.takeLoss := L.requestStart (L.afterLoss h)

theorem takeSectionOrder {s : State} (h : Serving I s) (i : Fin 16) (pl : List Byte) :
    Serving I (s.takeSectionOrder i pl) := by
  unfold State.takeSectionOrder
  split
  · exact stays h (sectionRun_secsOnly s i _) (L.sectionRun s i _ h)
  · exact stays h (sectionStop_secsOnly s i _) (L.sectionStop s i _ h)

/-! ## Management requests -/

theorem sStore {s : State} (h : Serving I s) (y : Store) (h1 : ∀ t, y.snapshot = some t → s.store.snapshot = some t)
    (h2 : ∀ c, y.copy = some c → s.store.copy = some c ∨ s.store.snapshot = some c.tables) :
    Serving I (s.setStore y) := ⟨L.store s y h1 h2 h.1, h.2⟩

theorem reqAccess {s : State} (h : Serving I s) (o : Option PendingAccess) (args : List Byte) :
    Serving I (reqAccess o args s).state := by
  unfold Machine.reqAccess
  split
  · exact h
  · split
    · exact h
    · split
      · exact h
      · split
        · dsimp only [done, served, State.setAccess]
          exact L.sMgmt h _
        · split
          · dsimp only [done, served, State.setAccess]
            exact L.sMgmt h _
          · dsimp only [served]
            exact L.sMgmt h _

theorem reqSelect {s : State} (h : Serving I s) (args : List Byte) : Serving I (reqSelect args s).state := by
  unfold Machine.reqSelect
  split
  · exact h
  · split
    · exact h
    · split
      · exact h
      · split
        · exact h
        · dsimp only [done, served]
          exact L.sMgmt h _

theorem reqRead {s : State} (h : Serving I s) (args : List Byte) : Serving I (reqRead args s).state := by
  unfold Machine.reqRead
  split
  · exact h
  · split
    · exact h
    · dsimp only [served, State.setCursor]
      exact L.sMgmt h _

theorem setImage {s : State} (h : Serving I s) (i : Fin 16) (g : Option Image) : Serving I (s.setImage i g) := L.sCyc h _

theorem writePresent {s t : State} (h : Serving I s) (i : Fin 16) (v : Int) (ht : s.writePresent i v = .ok t) :
    Serving I t := by
  unfold State.writePresent at ht
  split at ht
  · exact absurd ht (by simp)
  · split at ht
    · cases ht; exact h
    · next hp =>
      split at ht
      · exact absurd ht (by simp)
      · next hr => cases ht; exact ⟨L.makePresent s i (by simpa using hp) hr h, h.2⟩
  · split at ht
    · next hp =>
      split at ht
      · exact absurd ht (by simp)
      · next hr => cases ht; exact ⟨L.withdraw s i hp hr h, h.2⟩
    · cases ht; exact h

theorem writeField {s t : State} (h : Serving I s) (tb : Table) (e f : Nat) (v : Int)
    (ht : s.writeField tb e f v = .ok t) : Serving I t := by
  unfold State.writeField at ht
  split at ht
  · unfold State.writeSection at ht
    split at ht
    · exact absurd ht (by simp)
    · split at ht
      · exact absurd ht (by simp)
      · split at ht
        · exact absurd ht (by simp)
        · next hs =>
          split at ht
          · exact L.writePresent h _ v ht
          · split at ht
            · exact absurd ht (by simp)
            · next c hc =>
              cases ht
              exact ⟨L.takeSetting s _ f v c hc (by
                intro hf
                simpa [hf] using hs) h, h.2⟩
  · unfold State.writeMember at ht
    split at ht
    · exact absurd ht (by simp)
    · split at ht
      · split at ht
        · exact absurd ht (by simp)
        · split at ht
          · exact absurd ht (by simp)
          · next hp =>
            split at ht
            · exact absurd ht (by simp)
            · next hw =>
              cases ht
              exact stays h (modSec_secsOnly _ _ _ ⟨rfl, rfl, rfl⟩) (L.setRating s _ _ _ _ (by simpa using hp) hw h)
      · split at ht
        · exact absurd ht (by simp)
        · split at ht
          · exact absurd ht (by simp)
          · next hw => cases ht; exact stays h (modSec_secsOnly _ _ _ ⟨rfl, rfl, rfl⟩) (L.setWeight s _ _ _ _ hw h)
  · unfold State.writeStep at ht
    split at ht
    · exact absurd ht (by simp)
    · split at ht
      · exact absurd ht (by simp)
      · split at ht
        · exact absurd ht (by simp)
        · next hu =>
          split at ht
          · exact absurd ht (by simp)
          · next hw => cases ht; exact ⟨L.setStep s _ _ _ _ hu hw h, h.2⟩
  · exact absurd ht (by simp)
  · unfold State.writePart at ht
    split at ht
    · exact absurd ht (by simp)
    · split at ht
      · exact absurd ht (by simp)
      · split at ht
        · exact absurd ht (by simp)
        · cases ht; exact L.sPart h _

theorem applyValues {vs : List Int} (c : Cursor) {s : State} (h : Serving I s) (n : Nat) (b : Bool) :
    Serving I (applyValues vs c s n b).state := by
  induction vs generalizing c s n b with
  | nil => exact h
  | cons v vs ih =>
    unfold Machine.applyValues
    split
    · exact h
    · next t ht => exact ih _ (L.writeField h _ _ _ v ht) _ _

theorem reqWrite {s : State} (h : Serving I s) (args : List Byte) : Serving I (reqWrite args s).state := by
  unfold Machine.reqWrite
  split
  · exact h
  · dsimp only [State.setCursor]
    exact L.sMgmt (L.applyValues _ h _ _) _

theorem reqAdjustDraw {s : State} (h : Serving I s) (args : List Byte) : Serving I (reqAdjustDraw args s).state := by
  unfold Machine.reqAdjustDraw
  split
  · exact h
  · split
    · exact h
    · split
      · exact h
      · split
        · exact h
        · split
          · exact h
          · split
            · exact h
            · exact stays h (adjustDraw_secsOnly _ _ _ _) (L.adjustDraw s _ _ _ h)

theorem reqTransfer {s : State} (h : Serving I s) (args : List Byte) : Serving I (reqTransfer args s).state := by
  unfold Machine.reqTransfer
  split
  · exact h
  · split
    · exact h
    · split
      · exact h
      · split
        · exact h
        · split
          · exact h
          · split
            · unfold transferCascade
              split
              · exact h
              · split
                · exact h
                · dsimp only [served]
                  exact stays h (modSec_secsOnly _ _ _ ⟨rfl, rfl, rfl⟩) (L.toCascade s _ _ h)
            · unfold transferFollow
              split
              · exact h
              · dsimp only [done, served]
                exact stays h (modSec_secsOnly _ _ _ ⟨rfl, rfl, rfl⟩) (L.toFollow s _ h)

theorem reqReleaseTrip {s : State} (h : Serving I s) (args : List Byte) : Serving I (reqReleaseTrip args s).state := by
  unfold Machine.reqReleaseTrip
  split
  · exact h
  · split
    · exact h
    · split
      · exact h
      · split
        · exact h
        · next ht => exact stays h (modSec_secsOnly _ _ _ ⟨rfl, rfl, rfl⟩) (L.releaseTrip s _ (by simpa using ht) h)

theorem reqStartTest {s : State} (h : Serving I s) (args : List Byte) : Serving I (reqStartTest args s).state := by
  unfold Machine.reqStartTest
  split
  · exact h
  · split
    · exact h
    · split
      · exact h
      · split
        · exact h
        · split
          · exact h
          · next hr =>
            exact stays h ((setRunner_testsOnly s _ _).secsOnly.trans (enterStep_secsOnly _ _ _))
              (L.startTest s _ _ _ hr h)

theorem reqPauseTest {s : State} (h : Serving I s) (args : List Byte) : Serving I (reqPauseTest args s).state := by
  unfold Machine.reqPauseTest
  split
  · exact h
  · split
    · exact h
    · split
      · exact h
      · next hr => exact stays h (setRunner_testsOnly s _ _).secsOnly (L.pauseTest s _ (by simpa using hr) h)

theorem reqResumeTest {s : State} (h : Serving I s) (args : List Byte) : Serving I (reqResumeTest args s).state := by
  unfold Machine.reqResumeTest
  split
  · exact h
  · split
    · exact h
    · split
      · exact h
      · next hr => exact stays h (setRunner_testsOnly s _ _).secsOnly (L.resumeTest s _ (by simpa using hr) h)

theorem reqStopTest {s : State} (h : Serving I s) (args : List Byte) : Serving I (reqStopTest args s).state := by
  unfold Machine.reqStopTest
  split
  · exact h
  · split
    · exact h
    · split
      · exact h
      · next hr => exact stays h (stopRunner_testsOnly s _).secsOnly (L.stopRunner s _ hr h)

theorem reqDropLog {s : State} (h : Serving I s) (args : List Byte) : Serving I (reqDropLog args s).state := by
  unfold Machine.reqDropLog
  split
  · exact h
  · split
    · exact h
    · exact stays h (dropLog_secsOnly s _) (L.dropLog s _ h)

theorem reqLinkTest {s : State} (h : Serving I s) : Serving I (reqLinkTest s).state := by
  unfold Machine.reqLinkTest
  split
  · exact h
  · split
    · exact h
    · split
      · exact h
      · have h1 := L.sLink h { LinkTest.reset with running := true }
        dsimp only [done, served]
        split
        · exact L.enterLoopback h1
        · exact h1

theorem reqMoveAddress {s : State} (h : Serving I s) (args : List Byte) : Serving I (reqMoveAddress args s).state := by
  unfold Machine.reqMoveAddress
  split
  · exact h
  · split
    · exact h
    · split
      · exact h
      · split
        · exact h
        · dsimp only [served]
          exact L.sMgmt h _

theorem reqClearNotices {s : State} (h : Serving I s) : Serving I (reqClearNotices s).state := by
  unfold Machine.reqClearNotices
  split
  · exact h
  · exact L.latchError (L.latchError (L.sPart h _) .up .none) .dn .none

theorem reqSaveTables {s : State} (h : Serving I s) : Serving I (reqSaveTables s).state := by
  unfold Machine.reqSaveTables
  split
  · exact h
  · split
    · exact h
    · exact ⟨L.saves s h.1, h.2⟩

theorem reqRestart {s : State} (h : Serving I s) : Serving I (reqRestart s).state := by
  unfold Machine.reqRestart
  split
  · exact h
  · split
    · exact h
    · split
      · exact h
      · exact L.sStore h _ (fun _ ht => ht) (fun _ hc => Or.inl hc)

omit L in
theorem reqFetchLog {s : State} (h : Serving I s) (args : List Byte) : Serving I (reqFetchLog args s).state := by
  unfold Machine.reqFetchLog
  split
  · exact h
  · exact h

omit L in
theorem sized {s : State} (h : Serving I s) (n : Nat) (args : List Byte) (f : List Byte → State → Served)
    (hf : Serving I (f args s).state) : Serving I (sized n args s f).state := by
  unfold Machine.sized
  split
  · exact hf
  · exact h

omit L in
theorem choice {c : Prop} [Decidable c] {a b : Served} (ha : Serving I a.state) (hb : Serving I b.state) :
    Serving I (if c then a else b).state := by
  split
  · exact ha
  · exact hb

theorem command {s : State} (h : Serving I s) (verb : Byte) (args : List Byte) :
    Serving I (command verb args s).state := by
  unfold Machine.command
  refine choice (sized h _ _ _ (L.reqAdjustDraw h _)) ?_
  refine choice (sized h _ _ _ (L.reqTransfer h _)) ?_
  refine choice (sized h _ _ _ (L.reqReleaseTrip h _)) ?_
  refine choice (sized h _ _ _ (L.reqStartTest h _)) ?_
  refine choice (sized h _ _ _ (L.reqStopTest h _)) ?_
  refine choice (sized h _ _ _ (L.reqPauseTest h _)) ?_
  refine choice (sized h _ _ _ (L.reqResumeTest h _)) ?_
  refine choice (sized h _ _ _ (reqFetchLog h _)) ?_
  refine choice (sized h _ _ _ (L.reqDropLog h _)) ?_
  refine choice (sized h _ _ _ (L.reqLinkTest h)) ?_
  refine choice (sized h _ _ _ (L.reqSaveTables h)) ?_
  refine choice (sized h _ _ _ (L.reqRestart h)) ?_
  refine choice (sized h _ _ _ (L.reqMoveAddress h _)) ?_
  refine choice (sized h _ _ _ (L.reqClearNotices h)) ?_
  exact h

theorem request {s : State} (h : Serving I s) (o : Option PendingAccess) (kind : Byte) (args : List Byte) :
    Serving I (request o kind args s).state := by
  unfold Machine.request
  split
  · exact sized h _ _ _ (L.reqAccess h o _)
  · split
    · refine sized h _ _ _ ?_
      dsimp only [reqClose, done, served, State.setAccess]
      exact L.sMgmt h _
    · split
      · exact sized h _ _ _ (L.reqSelect h _)
      · split
        · exact sized h _ _ _ (L.reqRead h _)
        · split
          · split
            · exact L.reqWrite h _
            · exact h
          · split
            · unfold commandFrame
              split
              · exact h
              · exact L.command h _ _
            · exact h

theorem sendReplyAfter {s : State} (h : Serving I s) (age : Nat) (r : Reply) : Serving I (s.sendReplyAfter age r) := by
  unfold State.sendReplyAfter
  split
  · exact L.sCyc h _
  · exact L.sUp h _ (.ofQueue (queueFrame_fifo _ _) (queueFrame_length _ _))

theorem takeManage {s : State} (h : Serving I s) (pl : List Byte) (age : Nat) : Serving I (s.takeManage pl age) := by
  unfold State.takeManage
  split
  · exact L.sPart h _
  · split
    · exact h
    · next k args =>
      have h1 : Serving I s.spendAccess := L.sMgmt h _
      have h2 := L.sendReplyAfter (L.request h1 s.mgmt.pendingAccess k args) age
        (Machine.request s.mgmt.pendingAccess k args s.spendAccess).reply
      unfold Served.finish
      dsimp only
      split
      · exact L.takeLoss h2
      · exact h2

/-! ## The assembler -/

theorem lengthOr {s t : State} (h : Serving I s) (ht : Serving I t) (p : Side) (b : Bool) :
    Serving I (s.lengthOr p b t) := by
  unfold State.lengthOr
  split
  · exact ht
  · exact L.discard h p _

theorem handOff {s : State} (h : Serving I s) (p : Side) (a k : Byte) (pl : List Byte) (st : Stamp) :
    Serving I (s.handOff p a k pl st) := by
  unfold State.handOff
  split
  · unfold State.handOffUp
    split
    · exact L.lengthOr h (L.takeLineCycle h _ _ _) _ _
    · split
      · exact L.lengthOr h (L.takePollCall h _) _ _
      · split
        · exact L.lengthOr h (L.takeManage h _ _) _ _
        · split
          · split
            · exact h
            · exact L.lengthOr h (L.takeSectionOrder h _ _) _ _
          · exact h
  · unfold State.handOffDn
    split
    · split
      · refine L.lengthOr h ?_ _ _
        unfold State.takeEcho
        split
        · exact L.judgeEcho h _
        · exact h
      · exact h
    · split
      · refine L.lengthOr h ?_ _ _
        unfold State.takeMemberReport
        split
        · exact h
        · split
          · exact h
          · split
            · exact L.sCyc h _
            · exact h
      · exact h

theorem setAsm {s : State} (h : Serving I s) (p : Side) (m : Assembler) : Serving I (s.setAsm p m) :=
  L.sPort h p _ (.calm rfl rfl)

theorem takeEntry {s : State} (h : Serving I s) (p : Side) (e : Entry) : Serving I (s.takeEntry p e) := by
  unfold State.takeEntry
  split
  · unfold State.takeGap
    split
    · split
      · exact L.latchError h p _
      · exact h
    · exact L.discard (L.setAsm h p _) p _
  · have h1 : Serving I (s.abandon p) := by
      unfold State.abandon
      split
      · exact h
      · exact L.discard (L.setAsm h p _) p _
    unfold State.takeMarked
    split
    · unfold State.openFrame
      split
      · exact L.setAsm h1 p _
      · exact h1
    · exact L.discard h1 p _
  · unfold State.takeUnmarked
    split
    · exact h
    · split
      · exact L.latchError h p _
      · exact h
    · unfold State.appendChar
      split
      · exact L.discard (L.setAsm h p _) p _
      · split
        · unfold State.completeFrame
          dsimp only
          split
          · exact L.handOff (L.setAsm h p _) p _ _ _ _
          · exact L.discard (L.setAsm h p _) p _
        · exact L.setAsm h p _
    · exact L.discard (L.setAsm h p _) p _

theorem takeEntries (p : Side) (n : Nat) {s : State} (h : Serving I s) : Serving I (State.takeEntries p n s) := by
  induction n generalizing s with
  | zero => exact h
  | succ n ih =>
    unfold State.takeEntries
    split
    · exact h
    · next e rest he =>
      refine ih (L.takeEntry (L.sPort h p { s.port p with fifo := rest } (.ofFifo (Or.inr ?_) rfl)) p e)
      rw [he]; simp

theorem drain {s : State} (h : Serving I s) (p : Side) : Serving I (s.drain p) := L.takeEntries p _ h

theorem settle {s : State} (h : Serving I s) : Serving I s.settle := L.drain (L.drain h _) _

theorem receiveEvent {s : State} (h : Serving I s) (p : Side) (e : LineEvent) : Serving I (s.receiveEvent p e) := by
  unfold State.receiveEvent
  split
  · exact L.sPort h p _ (receive_step _ _ e)
  · exact h

theorem receiveFrame {s : State} (h : Serving I s) (p : Side) (a k : Byte) (pl : List Byte) :
    Serving I (s.receiveFrame p a k pl) := by
  unfold State.receiveFrame
  exact L.settle (foldl (J := Serving I) _ (fun t e ht => L.drain (L.receiveEvent ht p e) p) _ (L.settle h))

theorem receiveRaw {s : State} (h : Serving I s) (p : Side) (arrivals : List LineEvent) (n : Nat) :
    Serving I (s.receiveRaw p arrivals n) := by
  unfold State.receiveRaw
  have h1 := L.takeEntries p n (foldl (J := Serving I) (fun u e => u.receiveEvent p e)
    (fun t e ht => L.receiveEvent ht p e) arrivals h)
  cases p
  · exact L.drain h1 _
  · exact L.drain h1 _

theorem expireGap {s : State} (h : Serving I s) (p : Side) : Serving I (s.expireGap p) := by
  unfold State.expireGap
  split
  · exact L.settle (L.sPort h p _ (store_step gapEntry rfl (store_tx _ _)))
  · exact h

/-! ## Sending, and the end of a save -/

theorem setUpAny {s : State} (h : I s) (x : Port) (hx : PortStep .up s.up x) : I (s.setUp x) := L.port s .up x hx h

theorem setDnAny {s : State} (h : I s) (x : Port) (hx : PortStep .dn s.dn x) : I (s.setDn x) := L.port s .dn x hx h

theorem frameSent {s : State} (h : I s) (f : TxFrame) : I (s.frameSent f) := by
  unfold State.frameSent
  split
  · split
    · exact L.cyc _ _ h
    · exact h
  · split
    · exact L.mgmt _ _ (L.part _ _ h)
    · exact h
  · split
    · exact L.resets _ _ _ (by simp) h
    · exact h

theorem sendHead {s : State} (h : I s) (p : Side) : I (s.sendHead p) := by
  unfold State.sendHead
  split
  · exact h
  · next f rest he =>
    refine L.frameSent (L.port s p { s.port p with tx := rest, sentBits := 0 } (.ofQueue rfl (Or.inr ?_)) h) _
    rw [he]; simp

theorem sendAll (p : Side) (n : Nat) {s : State} (h : I s) : I (State.sendAll p n s) := by
  induction n generalizing s with
  | zero => exact h
  | succ n ih => exact ih (L.sendHead h p)

theorem completeBurst {s : State} (h : I s) (p : Side) : I (s.completeBurst p) := by
  unfold State.completeBurst State.releasePort State.openWindow
  split
  · split
    · exact L.port _ _ _ (.calm rfl rfl) (L.sendAll _ _ h)
    · exact h
  · split
    · exact L.cyc _ _ (L.port _ _ _ (.calm rfl rfl) (L.sendAll _ _ h))
    · exact h

theorem completeSave {s : State} (h : I s) (o : SaveOutcome) : I (s.completeSave o) := by
  unfold State.completeSave State.noteStore State.modNotices
  split
  · next t _ _ hs =>
    refine L.part _ _ (L.store s _ ?_ ?_ h)
    · intro _ ht; cases ht
    · intro c hc; cases hc; exact Or.inr hs
  · refine L.part _ _ (L.store s _ ?_ ?_ h)
    · intro _ ht; cases ht
    · intro c hc; cases hc
  · refine L.part _ _ (L.store s _ ?_ ?_ h)
    · intro _ ht; cases ht
    · intro c hc; cases hc
  · exact h

/-! ## Bit times -/

theorem tick {s : State} (h : I s) : I s.tick := by
  unfold State.tick
  split
  · have hb : ∀ (u : State) (p : Side), I u → I (u.sendBit p) := fun u p hu => by
      unfold State.sendBit
      split
      · exact hu
      · split
        · exact hu
        · exact L.port _ _ _ (.calm rfl rfl) hu
        · split
          · exact L.sendHead hu p
          · exact L.port _ _ _ (.calm rfl rfl) hu
    have hc : I s.slotCallBegins := by
      unfold State.slotCallBegins
      split
      · exact h
      · split
        · exact L.frameSent h _
        · exact h
    have h1 := hb _ .dn (hb _ .up hc)
    generalize ((s.slotCallBegins.sendBit .up).sendBit .dn) = t at h1
    refine L.queue _ _ ?_
    unfold State.bumpTimers
    refine L.cyc _ _ (L.link _ _ (L.setDnAny (L.setUpAny h1 _ ?_) _ ?_))
    · exact PortStep.ofFifo (Or.inr (by simp [Port.bumpTimers])) rfl
    · exact PortStep.ofFifo (Or.inr (by simp [Port.bumpTimers])) rfl
  · exact h

/-! ## Commands -/

omit L in
theorem serving {s : State} (h : I s) (f : State → State) (hf : Serving I s → I (f s)) : I (s.serving f) := by
  unfold State.serving
  split
  · next hp => exact hf ⟨h, hp⟩
  · exact h

theorem enterService {s : State} (hp : s.phase = .startUp) (h : I s) : Serving I s.enterService :=
  have h1 : Serving I (s.restore.setPhase .inService) := ⟨L.comesIntoService s hp h, rfl⟩
  L.sCyc h1 fun c => { c with localTimer := some 0 }

theorem comeIntoService {s : State} (hp : s.phase = .startUp) (h : I s) : Serving I s.comeIntoService :=
  L.requestStart (L.enterService hp h)

theorem exec {s t : State} (h : I s) (c : Instr) (ht : exec c s = .next t) : I t := by
  have manage : ∀ pl, I (s.serving fun u => u.receiveManage pl) := fun pl =>
    serving h _ fun k => (L.receiveFrame k _ _ _ _).1
  cases c with
  | frameDiscard p a n => cases ht; exact serving h _ fun k => (L.receiveRaw k _ _ _).1
  | gapTimerExpiry p => cases ht; exact serving h _ fun k => (L.expireGap k _).1
  | replyBurstStart =>
    cases ht
    refine serving h _ fun k => (L.settle ?_).1
    unfold State.beginReply
    split
    · exact L.sUp k _ (enable_step _)
    · exact k
  | burstComplete p => cases ht; exact serving h _ fun k => L.completeBurst k.1 p
  | lineCycle n c v => cases ht; exact serving h _ fun k => (L.receiveFrame k _ _ _ _).1
  | sectionOrderStop a r m => cases ht; exact serving h _ fun k => (L.receiveFrame k _ _ _ _).1
  | sectionOrderRun a m => cases ht; exact serving h _ fun k => (L.receiveFrame k _ _ _ _).1
  | pollCall => cases ht; exact serving h _ fun k => (L.receiveFrame k _ _ _ _).1
  | lossTimerExpiry =>
    cases ht
    refine serving h _ fun k => ?_
    split
    · exact (L.settle (L.takeLoss k)).1
    · exact k.1
  | localPeriodTimerExpiry =>
    cases ht
    refine serving h _ fun k => ?_
    split
    · exact (L.settle (L.requestStart (L.sCyc k _))).1
    · exact k.1
  | memberReport a e v q st =>
    cases ht
    refine serving h _ fun k => ?_
    split
    · exact k.1
    · exact (L.receiveFrame k _ _ _ _).1
  | slotEnd => cases ht; exact serving h _ fun k => (L.settle (L.endSlot k)).1
  | linkTest args => cases ht; exact manage _
  | echoTestSend =>
    cases ht
    refine serving h _ fun k => ?_
    split
    · refine (L.sDn (L.sLink k _) _ ?_).1
      exact .calm rfl rfl
    · exact k.1
  | echoTest pl =>
    cases ht
    refine serving h _ fun k => ?_
    split
    · exact (L.receiveFrame k _ _ _ _).1
    · exact k.1
  | echoTestTimeout =>
    cases ht
    refine serving h _ fun k => ?_
    split
    · exact (L.settle (L.judgeEcho k _)).1
    · exact k.1
  | access args => cases ht; exact manage _
  | close args => cases ht; exact manage _
  | select args => cases ht; exact manage _
  | read args => cases ht; exact manage _
  | write args => cases ht; exact manage _
  | adjustDraw args => cases ht; exact manage _
  | transferToCascade args => cases ht; exact manage _
  | transferToFollow args => cases ht; exact manage _
  | releaseTrip args => cases ht; exact manage _
  | startTest args => cases ht; exact manage _
  | pauseTest args => cases ht; exact manage _
  | resumeTest args => cases ht; exact manage _
  | stopTest args => cases ht; exact manage _
  | fetchLog args => cases ht; exact manage _
  | dropLog args => cases ht; exact manage _
  | moveAddress args => cases ht; exact manage _
  | clearNotices args => cases ht; exact manage _
  | saveTables args => cases ht; exact manage _
  | saveCompletion o => cases ht; exact serving h _ fun k => L.completeSave k.1 o
  | restart args => cases ht; exact manage _
  | resetPin p =>
    cases ht
    split
    · exact h
    · exact L.resets _ _ _ (by simp) h
  | powerOn p => cases ht; exact L.resets _ _ _ (by simp) h
  | comeIntoService =>
    cases ht
    split
    · next hp => exact (L.settle (L.comeIntoService hp h)).1
    · exact h
  | unknownSubKind pl => cases ht; exact manage _
  | resetPinAsserted =>
    cases ht
    split
    · exact h
    · exact L.resets _ _ _ (by simp) h
  | lossOfSupply => cases ht; exact L.resets _ _ _ (by simp) h

/-- A property the leaf operations keep is kept by every step. -/
theorem step {s t : State} (h : I s) (ht : step s = .next t) : I t := by
  unfold Machine.step at ht
  split at ht
  · cases ht; exact L.tick h
  · exact L.exec (L.queue s _ h) _ ht

end Kept

end Sys2Proof.Machine
end

