-- ==== Sys2Proof/Laws/TestsSound.lean ====
section
/-! SUPPORT. Runners, claims, waiters and the reserve of the log under each operation. -/

namespace Sys2Proof.Machine

open Sys2Proof

/-! ## Counting the runners that are not IDLE -/

/-- One for a runner that is not IDLE. -/
def busyCount (u : Runner) : Nat := if u.state = .idle then 0 else 1

theorem notIdle_eq (s : State) :
    s.notIdle = busyCount (s.runner 0) + busyCount (s.runner 1) + busyCount (s.runner 2) + busyCount (s.runner 3) := by
  unfold State.notIdle State.busyRunners allRunners busyCount
  simp only [List.filter_cons, List.filter_nil, bne_iff_ne, ne_eq, ite_not]
  by_cases h0 : (s.runner 0).state = .idle <;> by_cases h1 : (s.runner 1).state = .idle <;>
    by_cases h2 : (s.runner 2).state = .idle <;> by_cases h3 : (s.runner 3).state = .idle <;> simp [h0, h1, h2, h3]

theorem mem_busyRunners (s : State) (r : Fin 4) : r ∈ s.busyRunners ↔ (s.runner r).state ≠ .idle := by
  have : r ∈ allRunners := by fin_cases r <;> simp [allRunners]
  simp [State.busyRunners, this]

/-- One runner changed: the count changes by that runner's part. -/
theorem notIdle_of_others {s t : State} (r : Fin 4) (h : ∀ q, q ≠ r → t.runner q = s.runner q) :
    t.notIdle + busyCount (s.runner r) = s.notIdle + busyCount (t.runner r) := by
  rw [notIdle_eq, notIdle_eq]
  have h0 := h 0
  have h1 := h 1
  have h2 := h 2
  have h3 := h 3
  have hr : r = 0 ∨ r = 1 ∨ r = 2 ∨ r = 3 := by fin_cases r <;> simp
  rcases hr with rfl | rfl | rfl | rfl
  · rw [h1 (by decide), h2 (by decide), h3 (by decide)]; omega
  · rw [h0 (by decide), h2 (by decide), h3 (by decide)]; omega
  · rw [h0 (by decide), h1 (by decide), h3 (by decide)]; omega
  · rw [h0 (by decide), h1 (by decide), h2 (by decide)]; omega

theorem notIdle_congr {s t : State} (h : ∀ r, (t.runner r).state = (s.runner r).state) : t.notIdle = s.notIdle := by
  rw [notIdle_eq, notIdle_eq]
  simp only [busyCount, h]

/-! ## The invariant without the sections -/

/-- What runners, waiters and log agree on, whatever the sections do. -/
structure State.TestsCore (s : State) : Prop where
  idle : ∀ r, (s.runner r).state = .idle → (s.runner r).claimed = none ∧ (s.runner r).offset = 0
  busy : ∀ r, (s.runner r).state ≠ .idle → (s.runner r).claimed ≠ none ∧ (s.runner r).step ≠ none
  once : ∀ r q i, (s.runner r).claimed = some i → (s.runner q).claimed = some i → r = q
  waiters : s.log.waiters.Nodup ∧ ∀ r, r ∈ s.log.waiters ↔ (s.runner r).state = .waiting
  held : ∀ r, (s.runner r).pendingRecord ≠ none ↔ (s.runner r).state = .waiting
  reserve : s.log.records.length + s.notIdle ≤ 64

/-- Every claimed section is present and RUNNING. -/
def State.ClaimsLive (s : State) : Prop := ∀ r i, (s.runner r).claimed = some i → (s.sec i).Live

/-- No claim is new, and no section leaves RUNNING. -/
structure Shrinks (s t : State) : Prop where
  claims : ∀ q i, (t.runner q).claimed = some i → (s.runner q).claimed = some i
  live : ∀ i, (s.sec i).Live → (t.sec i).Live
  phase : t.phase = s.phase

theorem Shrinks.refl (s : State) : Shrinks s s := ⟨fun _ _ h => h, fun _ h => h, rfl⟩

theorem Shrinks.trans {s t u : State} (h : Shrinks s t) (k : Shrinks t u) : Shrinks s u :=
  ⟨fun q i e => h.claims q i (k.claims q i e), fun i e => k.live i (h.live i e), k.phase.trans h.phase⟩

theorem Shrinks.claimsLive {s t : State} (h : Shrinks s t) (hs : s.ClaimsLive) : t.ClaimsLive :=
  fun r i e => h.live i (hs r i (h.claims r i e))

/-- Both halves of what an operation on runners does. -/
structure Runs (s t : State) : Prop where
  core : t.TestsCore
  shrinks : Shrinks s t

theorem Runs.trans {s t u : State} (h : Runs s t) (k : Runs t u) : Runs s u := ⟨k.core, h.shrinks.trans k.shrinks⟩

/-- A runner operation leaves sections and phase, and no claim is new. -/
theorem Shrinks.ofTests {s t : State} (h : TestsOnly s t)
    (hc : ∀ q i, (t.runner q).claimed = some i → (s.runner q).claimed = some i) : Shrinks s t :=
  ⟨hc, fun i e => by rw [h.sec]; exact e, h.secsOnly.keeps.2.1⟩

namespace State.TestsCore

variable {s : State}

/-- What leaves runners and log alone. -/
theorem same (h : s.TestsCore) {t : State} (h1 : t.runners = s.runners) (h2 : t.log = s.log) : t.TestsCore := by
  have hr : ∀ r, t.runner r = s.runner r := fun r => runner_congr h1 r
  refine ⟨fun r => ?_, fun r => ?_, fun r q i => ?_, ?_, fun r => ?_, ?_⟩
  · rw [hr]; exact h.idle r
  · rw [hr]; exact h.busy r
  · rw [hr, hr]; exact h.once r q i
  · rw [h2]; exact ⟨h.waiters.1, fun r => by rw [hr]; exact h.waiters.2 r⟩
  · rw [hr]; exact h.held r
  · rw [h2, notIdle_congr (s := s) (t := t) fun r => by rw [hr]]; exact h.reserve

/-- A runner changed within its state: claim and pending record stay. -/
theorem setRunner (h : s.TestsCore) (r : Fin 4) (u : Runner) (h1 : u.state = (s.runner r).state)
    (h2 : u.claimed = (s.runner r).claimed) (h3 : u.pendingRecord = (s.runner r).pendingRecord)
    (h4 : u.state ≠ .idle) (h5 : u.step ≠ none) : (s.setRunner r u).TestsCore := by
  have hr : ∀ q, (s.setRunner r u).runner q = if r = q then u else s.runner q := fun q => runner_setRunner s r q u
  refine ⟨fun q => ?_, fun q => ?_, fun q p i => ?_, ⟨h.waiters.1, fun q => ?_⟩, fun q => ?_, ?_⟩
  · rw [hr]; split
    · intro e; exact absurd e h4
    · exact h.idle q
  · rw [hr]; split
    · next e => subst e; intro _; exact ⟨by rw [h2]; exact (h.busy _ (by rw [← h1]; exact h4)).1, h5⟩
    · exact h.busy q
  · have hc : ∀ q, ((s.setRunner r u).runner q).claimed = (s.runner q).claimed := fun q => by
      rw [hr]; split
      · next e => subst e; exact h2
      · rfl
    rw [hc, hc]; exact h.once q p i
  · rw [hr]; split
    · next e => subst e; rw [h1]; exact h.waiters.2 _
    · exact h.waiters.2 q
  · rw [hr]; split
    · next e => subst e; rw [h1, h3]; exact h.held _
    · exact h.held q
  · have e := notIdle_congr (s := s) (t := s.setRunner r u) fun q => by
      rw [hr]; split
      · next e => subst e; exact h1
      · rfl
    rw [e]
    exact h.reserve

/-- A runner goes between RUNNING and PAUSED. -/
theorem setState (h : s.TestsCore) (r : Fin 4) (x : RunnerState) (h0 : (s.runner r).state ≠ .idle)
    (h1 : (s.runner r).state ≠ .waiting) (h2 : x ≠ .idle) (h3 : x ≠ .waiting) :
    (s.setRunner r { s.runner r with state := x }).TestsCore := by
  have hr : ∀ q, (s.setRunner r { s.runner r with state := x }).runner q =
      if r = q then { s.runner r with state := x } else s.runner q := fun q => runner_setRunner s r q _
  refine ⟨fun q => ?_, fun q => ?_, fun q p i => ?_, ⟨h.waiters.1, fun q => ?_⟩, fun q => ?_, ?_⟩
  · rw [hr]; split
    · intro e; exact absurd e h2
    · exact h.idle q
  · rw [hr]; split
    · intro _; exact h.busy r h0
    · exact h.busy q
  · have hc : ∀ q, ((s.setRunner r { s.runner r with state := x }).runner q).claimed = (s.runner q).claimed :=
      fun q => by
        rw [hr]; split
        · next e => subst e; rfl
        · rfl
    rw [hc, hc]; exact h.once q p i
  · rw [hr]; split
    · next e => subst e; exact ⟨fun m => absurd ((h.waiters.2 _).mp m) h1, fun m => absurd m h3⟩
    · exact h.waiters.2 q
  · rw [hr]; split
    · exact ⟨fun m => absurd ((h.held r).mp m) h1, fun m => absurd m h3⟩
    · exact h.held q
  · have := notIdle_of_others (s := s) (t := s.setRunner r { s.runner r with state := x }) r fun q hq => by
      rw [hr, if_neg fun e => hq e.symm]
    rw [hr, if_pos rfl] at this
    have h4 : busyCount (s.runner r) = 1 := by unfold busyCount; rw [if_neg h0]
    have h5 : busyCount { s.runner r with state := x } = 1 := by unfold busyCount; rw [if_neg h2]
    have := h.reserve
    show s.log.records.length + _ ≤ 64
    omega

/-- A record is written where the free places exceed the runners not IDLE. -/
theorem writeRecord (h : s.TestsCore) (c : CaptureRecord) (hp : s.hasPlace = true) : (s.writeRecord c).TestsCore := by
  refine ⟨h.idle, h.busy, h.once, h.waiters, h.held, ?_⟩
  unfold State.hasPlace State.freePlaces at hp
  have hp : s.notIdle < 64 - s.log.records.length := by simpa using hp
  show (s.log.records ++ [_]).length + s.notIdle ≤ 64
  rw [List.length_append, List.length_singleton]
  omega

/-- A runner that is not IDLE ends its test. -/
theorem ended (h : s.TestsCore) (r : Fin 4) (h0 : (s.runner r).state ≠ .idle) {t : State}
    (h1 : ∀ q, q ≠ r → t.runner q = s.runner q) (h2 : (t.runner r).state = .idle) (h3 : (t.runner r).claimed = none)
    (h4 : (t.runner r).offset = 0) (h5 : (t.runner r).pendingRecord = none)
    (h6 : t.log.waiters = s.log.waiters.filter fun q => q != r)
    (h7 : t.log.records.length = s.log.records.length + 1) : t.TestsCore := by
  have key : ∀ q, q ≠ r ∨ q = r := fun q => (em (q = r)).symm
  refine ⟨fun q e => ?_, fun q e => ?_, fun q p i e f => ?_, ⟨?_, fun q => ?_⟩, fun q => ?_, ?_⟩
  · rcases key q with hq | rfl
    · rw [h1 q hq] at e ⊢; exact h.idle q e
    · exact ⟨h3, h4⟩
  · rcases key q with hq | rfl
    · rw [h1 q hq] at e ⊢; exact h.busy q e
    · exact absurd h2 e
  · rcases key q with hq | rfl
    · rcases key p with hp | rfl
      · rw [h1 q hq] at e; rw [h1 p hp] at f; exact h.once q p i e f
      · rw [h3] at f; cases f
    · rw [h3] at e; cases e
  · rw [h6]; exact h.waiters.1.filter _
  · rw [h6, List.mem_filter]
    rcases key q with hq | rfl
    · rw [h1 q hq, h.waiters.2 q]; simp [hq]
    · rw [h2]; simp
  · rcases key q with hq | rfl
    · rw [h1 q hq]; exact h.held q
    · rw [h2, h5]; simp
  · have := notIdle_of_others r h1
    have e1 : busyCount (s.runner r) = 1 := by unfold busyCount; rw [if_neg h0]
    have e2 : busyCount (t.runner r) = 0 := by unfold busyCount; rw [if_pos h2]
    have := h.reserve
    omega

/-- A runner that is not waiting is no waiter, and holds no record. -/
theorem notWaiting (h : s.TestsCore) {r : Fin 4} (h1 : (s.runner r).state ≠ .waiting) :
    (s.log.waiters.filter fun q => q != r) = s.log.waiters ∧ (s.runner r).pendingRecord = none := by
  refine ⟨List.filter_eq_self.mpr fun q hq => ?_, ?_⟩
  · have hne : q ≠ r := fun e => h1 ((h.waiters.2 r).mp (e ▸ hq))
    simpa using hne
  · by_contra e
    exact h1 ((h.held r).mp e)

/-- A test ends: after a waiting runner's record is dropped, or from a runner that does not wait. -/
theorem endTest (h : s.TestsCore) (r : Fin 4) (h0 : (s.runner r).state ≠ .idle) (x : RecordOutcome) (o : TestOutcome)
    (c : AbortCause) : ((s.dropPendingRecord r).endTest r x o c).TestsCore := by
  unfold State.dropPendingRecord State.endTest
  split
  · refine h.ended r h0 (fun q hq => ?_) ?_ ?_ ?_ ?_ rfl ?_
    · simp [Ne.symm hq]
    · simp [Runner.ended]
    · simp [Runner.ended]
    · simp [Runner.ended]
    · simp [Runner.ended]
    · simp [State.writeRecord, State.modLog, Log.write, State.setRunner, State.leaveWaiters]
  · next hw =>
    obtain ⟨hf, hp⟩ := h.notWaiting hw
    refine h.ended r h0 (fun q hq => ?_) ?_ ?_ ?_ ?_ hf.symm ?_
    · simp [Ne.symm hq]
    · simp [Runner.ended]
    · simp [Runner.ended]
    · simp [Runner.ended]
    · simp [Runner.ended, hp]
    · simp [State.writeRecord, State.modLog, Log.write, State.setRunner]

theorem modNotices (h : s.TestsCore) (f : Notices → Notices) : (s.modNotices f).TestsCore := h.same rfl rfl

end State.TestsCore

/-! ## Operations on runners -/

section

variable {s : State}

/-- A test end makes no claim. -/
theorem endTest_claims (s : State) (r : Fin 4) (x : RecordOutcome) (o : TestOutcome) (c : AbortCause) (q : Fin 4)
    (i : Fin 16) (h : (((s.dropPendingRecord r).endTest r x o c).runner q).claimed = some i) :
    (s.runner q).claimed = some i := by
  unfold State.dropPendingRecord State.endTest at h
  by_cases e : r = q
  · subst e
    split at h <;> simp [Runner.ended] at h
  · split at h <;> simpa [e] using h

theorem endTest_runs (h : s.TestsCore) (r : Fin 4) (h0 : (s.runner r).state ≠ .idle) (x : RecordOutcome)
    (o : TestOutcome) (c : AbortCause) : Runs s ((s.dropPendingRecord r).endTest r x o c) :=
  ⟨h.endTest r h0 x o c, .ofTests ((dropPendingRecord_testsOnly s r).trans (endTest_testsOnly _ r _ _ _))
    (endTest_claims s r x o c)⟩

theorem modNotices_runs (h : s.TestsCore) (f : Notices → Notices) : Runs s (s.modNotices f) :=
  ⟨h.modNotices f, fun _ _ e => e, fun _ e => e, rfl⟩

theorem stopRunner_runs (h : s.TestsCore) (r : Fin 4) (h0 : (s.runner r).state ≠ .idle) : Runs s (s.stopRunner r) :=
  endTest_runs h r h0 _ _ _

theorem abortRunner_runs (h : s.TestsCore) (r : Fin 4) (c : AbortCause) : Runs s (s.abortRunner r c) := by
  unfold State.abortRunner
  split
  · exact ⟨h, .refl s⟩
  · next h0 =>
    have h1 := endTest_runs h r h0 (.aborted c) .aborted c
    exact h1.trans (modNotices_runs h1.core _)

/-- An aborted runner is IDLE. -/
theorem abortRunner_idle (s : State) (r : Fin 4) (c : AbortCause) : ((s.abortRunner r c).runner r).state = .idle := by
  unfold State.abortRunner
  split
  · assumption
  · unfold State.endTest
    simp [State.modNotices, Runner.ended]

/-- An abort leaves an IDLE runner IDLE. -/
theorem abortRunner_keepsIdle (s : State) (r q : Fin 4) (c : AbortCause) (h : (s.runner q).state = .idle) :
    ((s.abortRunner r c).runner q).state = .idle := by
  by_cases e : r = q
  · subst e; exact abortRunner_idle s r c
  · unfold State.abortRunner
    split
    · exact h
    · unfold State.endTest State.dropPendingRecord
      split <;> simpa [State.modNotices, e] using h

theorem mem_pickOrder {α : Type} (n k : Nat) (l : List α) (x : α) (h : x ∈ l) : x ∈ pickOrder n k l := by
  induction n generalizing k l with
  | zero => exact h
  | succ n ih =>
    unfold pickOrder
    split
    · exact h
    · next y hy =>
      obtain ⟨hi, e⟩ := List.getElem?_eq_some_iff.mp hy
      have := (List.getElem_cons_eraseIdx_perm hi).mem_iff.mpr h
      rw [e] at this
      rcases List.mem_cons.mp this with rfl | hm
      · exact List.mem_cons_self
      · exact List.mem_cons_of_mem _ (ih _ _ hm)

theorem foldlAbort (l : List (Fin 4)) (c : AbortCause) {s : State} (h : s.TestsCore) :
    Runs s (l.foldl (fun t r => t.abortRunner r c) s) ∧
      (∀ q, (s.runner q).state = .idle → ((l.foldl (fun t r => t.abortRunner r c) s).runner q).state = .idle) ∧
        ∀ r ∈ l, ((l.foldl (fun t r => t.abortRunner r c) s).runner r).state = .idle := by
  induction l generalizing s with
  | nil => exact ⟨⟨h, .refl s⟩, fun _ e => e, fun r hr => by cases hr⟩
  | cons a l ih =>
    have h1 := abortRunner_runs h a c
    obtain ⟨h2, h3, h4⟩ := ih h1.core
    refine ⟨h1.trans h2, fun q e => h3 q (abortRunner_keepsIdle s a q c e), fun r hr => ?_⟩
    rcases List.mem_cons.mp hr with rfl | hr
    · exact h3 _ (abortRunner_idle s _ c)
    · exact h4 r hr

/-- Several aborts, in whatever order. -/
theorem abortAll_runs (h : s.TestsCore) (l : List (Fin 4)) (c : AbortCause) :
    Runs s (s.abortAll l c) ∧ ∀ r ∈ l, ((s.abortAll l c).runner r).state = .idle := by
  unfold State.abortAll
  split
  · obtain ⟨h1, _, h3⟩ := foldlAbort l c h
    exact ⟨h1, h3⟩
  · have hu : s.useFree.TestsCore := h.same rfl rfl
    obtain ⟨h1, _, h3⟩ := foldlAbort (pickOrder l.length (Config.abortOrder s.freeUses) l) c hu
    exact ⟨⟨h1.core, ⟨h1.shrinks.claims, h1.shrinks.live, h1.shrinks.phase⟩⟩, fun r hr => h3 r (mem_pickOrder _ _ _ _ hr)⟩

theorem completeTest_runs (h : s.TestsCore) (r : Fin 4) (h0 : (s.runner r).state = .running) :
    Runs s (s.completeTest r) := by
  have hd : s.dropPendingRecord r = s := by
    unfold State.dropPendingRecord
    rw [if_neg (by rw [h0]; simp)]
  have h1 := endTest_runs h r (by rw [h0]; simp) .completed .completed .none
  rw [hd] at h1
  exact h1.trans (modNotices_runs h1.core _)

/-- A runner changed within its state. -/
theorem setRunner_runs (h : s.TestsCore) (r : Fin 4) (u : Runner) (h1 : u.state = (s.runner r).state)
    (h2 : u.claimed = (s.runner r).claimed) (h3 : u.pendingRecord = (s.runner r).pendingRecord)
    (h4 : u.state ≠ .idle) (h5 : u.step ≠ none) : Runs s (s.setRunner r u) := by
  refine ⟨h.setRunner r u h1 h2 h3 h4 h5, .ofTests (setRunner_testsOnly s r u) fun q i e => ?_⟩
  rw [runner_setRunner] at e
  split at e
  · next hq => subst hq; rw [← h2]; exact e
  · exact e

/-- An entry changed that stays present and RUNNING. -/
theorem modSec_runs (h : s.TestsCore) (i : Fin 16) (f : Section → Section) (hf : (s.sec i).Live → (f (s.sec i)).Live) :
    Runs s (s.modSec i f) := by
  refine ⟨h.same rfl rfl, fun _ _ e => e, fun j e => ?_, rfl⟩
  rw [sec_modSec]
  split
  · next hj => subst hj; exact hf e
  · exact e

theorem foldlSecs (l : List (Fin 16)) (f : Section → Section) (hf : ∀ x : Section, x.Live → (f x).Live) {s : State}
    (h : s.TestsCore) : Runs s (l.foldl (fun t i => t.modSec i f) s) := by
  induction l generalizing s with
  | nil => exact ⟨h, .refl s⟩
  | cons a l ih =>
    have h1 := modSec_runs h a f (hf _)
    exact h1.trans (ih h1.core)

theorem adjustDraw_runs (h : s.TestsCore) (i : Fin 16) (d : Int) (m : DrawMode) : Runs s (s.adjustDraw i d m).state := by
  have h1 : Runs s (s.adjustOwn i d) := modSec_runs h i _ fun e => e
  cases m
  · exact h1
  · exact h1.trans (foldlSecs _ (fun x => x.compensate ((s.adjustOwn i d).sec i).ratio) (fun _ e => e) h1.core)

/-- The runner's state and claim under an adjustment, and its step. -/
theorem adjustDraw_runner (s : State) (i : Fin 16) (d : Int) (m : DrawMode) (q : Fin 4) :
    (s.adjustDraw i d m).state.runner q = s.runner q := by
  have hf : ∀ (l : List (Fin 16)) (f : Section → Section) (t : State),
      (l.foldl (fun t i => t.modSec i f) t).runner q = t.runner q := fun l f => by
    induction l with
    | nil => intro t; rfl
    | cons a l ih => intro t; rw [List.foldl_cons, ih]; rfl
  cases m
  · rfl
  · exact hf _ _ _

theorem entryEffect_runs (h : s.TestsCore) (r : Fin 4) (i : Fin 16) (k : StepRecord)
    (h0 : (s.runner r).state ≠ .idle) : Runs s (s.entryEffect r i k) := by
  have hs := (h.busy r h0).2
  unfold State.entryEffect
  split
  · exact ⟨h, .refl s⟩
  · exact ⟨h, .refl s⟩
  · exact setRunner_runs h r _ rfl rfl rfl h0 hs
  · exact setRunner_runs h r _ rfl rfl rfl h0 hs
  · exact setRunner_runs h r _ rfl rfl rfl h0 hs
  · have h1 := adjustDraw_runs h i k.v k.drawMode
    have e := adjustDraw_runner s i k.v k.drawMode r
    refine h1.trans (setRunner_runs h1.core r _ ?_ ?_ ?_ h0 hs)
    · rw [e]
    · rw [e]
    · rw [e]
  · exact modSec_runs h i _ fun e => e

theorem enterStep_runs (h : s.TestsCore) (r : Fin 4) (k : Fin 96) (h0 : (s.runner r).state ≠ .idle) :
    Runs s (s.enterStep r k) := by
  unfold State.enterStep
  split
  · exact ⟨h, .refl s⟩
  · split
    · unfold State.failEntry
      have h1 := setRunner_runs h r { s.runner r with step := some k, elapsed := 0, flags := ClampFlags.clear } rfl rfl
        rfl h0 (by simp)
      exact h1.trans (abortRunner_runs h1.core r _)
    · have h1 := setRunner_runs h r ((s.runner r).entered k) rfl rfl rfl h0 (by simp [Runner.entered])
      refine h1.trans (entryEffect_runs h1.core r _ _ ?_)
      rw [runner_setRunner, if_pos rfl]
      exact h0

theorem goOn_runs (h : s.TestsCore) (r : Fin 4) (h0 : (s.runner r).state = .running) : Runs s (s.goOn r) := by
  unfold State.goOn
  split
  · exact ⟨h, .refl s⟩
  · split
    · exact enterStep_runs h r _ (by rw [h0]; simp)
    · exact completeTest_runs h r h0

theorem holdRecord_runs (h : s.TestsCore) (r : Fin 4) (h0 : (s.runner r).state = .running) (c : CaptureRecord) :
    Runs s (s.holdRecord r c) := by
  have hr : ∀ q, (s.holdRecord r c).runner q =
      if r = q then { s.runner r with pendingRecord := some c, state := .waiting } else s.runner q := fun q => by
    unfold State.holdRecord; simp
  have hw : (s.holdRecord r c).log.waiters = s.log.waiters ++ [r] := rfl
  have hn : r ∉ s.log.waiters := fun e => by have := (h.waiters.2 r).mp e; rw [h0] at this; cases this
  have hi : (s.runner r).state ≠ .idle := by rw [h0]; simp
  have hc : ∀ q, ((s.holdRecord r c).runner q).claimed = (s.runner q).claimed := fun q => by
    rw [hr]; split
    · next e => subst e; rfl
    · rfl
  refine ⟨⟨fun q => ?_, fun q => ?_, fun q p i => ?_, ⟨?_, fun q => ?_⟩, fun q => ?_, ?_⟩,
    .ofTests ((setRunner_testsOnly s r _).trans (joinWaiters_testsOnly _ r)) fun q i e => by rw [← hc]; exact e⟩
  · rw [hr]; split
    · intro e; cases e
    · exact h.idle q
  · rw [hr]; split
    · intro _; exact h.busy r hi
    · exact h.busy q
  · rw [hc, hc]; exact h.once q p i
  · rw [hw, List.nodup_append]
    exact ⟨h.waiters.1, by simp, fun a ha b hb => by
      have : b = r := by simpa using hb
      subst this; exact fun e => hn (e ▸ ha)⟩
  · rw [hw, List.mem_append, List.mem_singleton, hr]
    split
    · next e => subst e; simp
    · next e => simp [Ne.symm e, h.waiters.2 q]
  · rw [hr]; split
    · simp
    · exact h.held q
  · have := notIdle_of_others (s := s) (t := s.holdRecord r c) r fun q hq => by rw [hr, if_neg fun e => hq e.symm]
    rw [hr, if_pos rfl] at this
    have e1 : busyCount (s.runner r) = 1 := by unfold busyCount; rw [if_neg hi]
    have e2 : busyCount { s.runner r with pendingRecord := some c, state := .waiting } = 1 := rfl
    have := h.reserve
    show s.log.records.length + _ ≤ 64
    omega

theorem writeRecord_runs (h : s.TestsCore) (c : CaptureRecord) (hp : s.hasPlace = true) : Runs s (s.writeRecord c) :=
  ⟨h.writeRecord c hp, .ofTests (writeRecord_testsOnly s c) fun _ _ e => e⟩

theorem stepEnd_runs (h : s.TestsCore) (r : Fin 4) (h0 : (s.runner r).state = .running) (k : StepRecord)
    (o : RecordOutcome) : Runs s (s.stepEnd r k o) := by
  unfold State.stepEnd
  split
  · exact goOn_runs h r h0
  · split
    · next kind _ hp =>
      have h1 := writeRecord_runs h (s.formRecord r kind o) hp
      exact h1.trans (goOn_runs h1.core r h0)
    · exact holdRecord_runs h r h0 _

theorem serveRunner_runs (h : s.TestsCore) (r : Fin 4) (h0 : (s.runner r).state = .waiting) (hp : s.hasPlace = true) :
    Runs s (s.serveRunner r) := by
  have key : ∀ t : State, t.TestsCore → Shrinks s t → (∀ q, t.runner q = s.runner q) → t.log.waiters = s.log.waiters →
      Runs s (((t.setRunner r { s.runner r with pendingRecord := none, state := .running }).leaveWaiters r).goOn r) := by
    intro t ht hst hq hw
    have hr : ∀ q, ((t.setRunner r { s.runner r with pendingRecord := none, state := .running }).leaveWaiters r).runner q
        = if r = q then { s.runner r with pendingRecord := none, state := .running } else t.runner q := fun q => by simp
    have hn : ((t.setRunner r { s.runner r with pendingRecord := none, state := .running }).leaveWaiters r).log.waiters
        = t.log.waiters.filter fun q => q != r := rfl
    have hi : (s.runner r).state ≠ .idle := by rw [h0]; simp
    have hc : ∀ q, (((t.setRunner r { s.runner r with pendingRecord := none, state := .running }).leaveWaiters
        r).runner q).claimed = (t.runner q).claimed := fun q => by
      rw [hr]; split
      · next e => subst e; rw [hq]
      · rfl
    have hcore : ((t.setRunner r { s.runner r with pendingRecord := none, state := .running }).leaveWaiters
        r).TestsCore := by
      refine ⟨fun q => ?_, fun q => ?_, fun q p i => ?_, ⟨?_, fun q => ?_⟩, fun q => ?_, ?_⟩
      · rw [hr]; split
        · intro e; cases e
        · exact ht.idle q
      · rw [hr]; split
        · intro _; exact h.busy r hi
        · exact ht.busy q
      · rw [hc, hc]; exact ht.once q p i
      · rw [hn]; exact ht.waiters.1.filter _
      · rw [hn, List.mem_filter, ht.waiters.2 q, hr]
        split
        · next e => subst e; simp
        · next e => simp [Ne.symm e]
      · rw [hr]; split
        · simp
        · exact ht.held q
      · have := notIdle_of_others (s := t) (t := (t.setRunner r
          { s.runner r with pendingRecord := none, state := .running }).leaveWaiters r) r fun q hq' => by
            rw [hr, if_neg fun e => hq' e.symm]
        rw [hr, if_pos rfl, hq] at this
        have e1 : busyCount (s.runner r) = 1 := by unfold busyCount; rw [if_neg hi]
        have e2 : busyCount { s.runner r with pendingRecord := none, state := .running } = 1 := rfl
        have := ht.reserve
        show t.log.records.length + _ ≤ 64
        omega
    have h2 : Runs s ((t.setRunner r { s.runner r with pendingRecord := none, state := .running }).leaveWaiters r) :=
      ⟨hcore, hst.trans (.ofTests ((setRunner_testsOnly t r _).trans (leaveWaiters_testsOnly _ r)) fun q i e => by
        rw [← hc]; exact e)⟩
    exact h2.trans (goOn_runs h2.core r (by rw [hr, if_pos rfl]))
  unfold State.serveRunner
  dsimp only
  split
  · exact key s h (.refl s) (fun _ => rfl) rfl
  · next c _ =>
    have h1 := writeRecord_runs h c hp
    exact key _ h1.core h1.shrinks (fun _ => rfl) rfl

theorem serveWaiters_runs (n : Nat) {s : State} (h : s.TestsCore) : Runs s (State.serveWaiters n s) := by
  induction n generalizing s with
  | zero => exact ⟨h, .refl s⟩
  | succ n ih =>
    unfold State.serveWaiters
    split
    · exact ⟨h, .refl s⟩
    · next r l hl =>
      split
      · next hp =>
        have hw : (s.runner r).state = .waiting := (h.waiters.2 r).mp (by rw [hl]; exact List.mem_cons_self)
        have h1 := serveRunner_runs h r hw hp
        exact h1.trans (ih h1.core)
      · exact ⟨h, .refl s⟩

theorem dropLog_runs (h : s.TestsCore) (n : Nat) : Runs s (s.dropLog n) := by
  have h1 : Runs s (s.dropRecords n) := by
    refine ⟨⟨h.idle, h.busy, h.once, h.waiters, h.held, ?_⟩, .ofTests (dropRecords_testsOnly s n) fun _ _ e => e⟩
    have := h.reserve
    show (s.log.records.drop n).length + s.notIdle ≤ 64
    rw [List.length_drop]
    omega
  unfold State.dropLog
  split
  · exact h1
  · exact h1.trans (serveWaiters_runs _ h1.core)

theorem runnerCompletion_runs (h : s.TestsCore) (i : Fin 16) : Runs s (s.runnerCompletion i) := by
  unfold State.runnerCompletion
  split
  · exact ⟨h, .refl s⟩
  · next r _ =>
    split
    · next k h0 hk =>
      unfold State.progressStep
      have hj : ∀ k x b, ((s.runner r).judged k x b).state = (s.runner r).state ∧
          ((s.runner r).judged k x b).claimed = (s.runner r).claimed ∧
          ((s.runner r).judged k x b).pendingRecord = (s.runner r).pendingRecord ∧
          ((s.runner r).judged k x b).step = (s.runner r).step := fun k x b => by
        unfold Runner.judged Runner.advance Runner.squareProgress
        dsimp only
        split
        · exact ⟨rfl, rfl, rfl, rfl⟩
        · split
          · split <;> exact ⟨rfl, rfl, rfl, rfl⟩
          · split
            · split <;> exact ⟨rfl, rfl, rfl, rfl⟩
            · exact ⟨rfl, rfl, rfl, rfl⟩
        · exact ⟨rfl, rfl, rfl, rfl⟩
      obtain ⟨e1, e2, e3, e4⟩ := hj (s.stepRec k) (s.sec i) (s.sec i).full
      have h1 := setRunner_runs h r _ e1 e2 e3 (by rw [e1, h0]; simp) (by rw [e4, hk]; simp)
      have h2 : ((s.setRunner r ((s.runner r).judged (s.stepRec k) (s.sec i) (s.sec i).full)).runner r).state = .running :=
        by rw [runner_setRunner, if_pos rfl, e1, h0]
      dsimp only
      split
      · exact h1.trans (abortRunner_runs h1.core r _)
      · split
        · exact h1.trans (stepEnd_runs h1.core r h2 _ _)
        · split
          · split
            · exact h1.trans (stepEnd_runs h1.core r h2 _ _)
            · split
              · exact h1.trans (stepEnd_runs h1.core r h2 _ _)
              · exact h1.trans (abortRunner_runs h1.core r _)
          · exact h1
    · exact ⟨h, .refl s⟩

end

/-! ## Operations on sections -/

/-- Sections change, present or not as before: the runners of those that leave RUNNING abort. -/
theorem sweep {s t : State} (h : s.TestsCore) (hl : s.ClaimsLive) (h1 : t.runners = s.runners) (h2 : t.log = s.log)
    (hp : ∀ i, (t.sec i).present = (s.sec i).present) (c : AbortCause) :
    (t.abortAll (t.claimants (t.leftRunning s.runningSecs)) c).TestsCore ∧
      (t.abortAll (t.claimants (t.leftRunning s.runningSecs)) c).ClaimsLive := by
  have hr : ∀ r, t.runner r = s.runner r := fun r => runner_congr h1 r
  have ht : t.TestsCore := h.same h1 h2
  obtain ⟨hu, hi⟩ := abortAll_runs ht (t.claimants (t.leftRunning s.runningSecs)) c
  refine ⟨hu.core, fun r i e => ?_⟩
  have e1 := hu.shrinks.claims r i e
  have hs : (s.sec i).Live := hl r i (by rw [← hr]; exact e1)
  refine hu.shrinks.live i ⟨by rw [hp]; exact hs.1, ?_⟩
  by_contra hn
  have hb : (t.runner r).state ≠ .idle := fun e2 => by rw [(ht.idle r e2).1] at e1; cases e1
  have hm : r ∈ t.claimants (t.leftRunning s.runningSecs) := by
    unfold State.claimants State.leftRunning State.runningSecs
    rw [List.mem_filter, mem_busyRunners]
    refine ⟨hb, ?_⟩
    rw [e1]
    simp only [List.contains_iff_mem, List.mem_filter, mem_presentSecs, beq_iff_eq, bne_iff_ne]
    exact ⟨⟨hs.1, hs.2⟩, hn⟩
  rw [(hu.core.idle r (hi r hm)).1] at e
  cases e

/-- The claimant of a section is not IDLE and claims it. -/
theorem claimant_some {s : State} {i : Fin 16} {r : Fin 4} (h : s.claimant i = some r) :
    (s.runner r).state ≠ .idle ∧ (s.runner r).claimed = some i := by
  unfold State.claimant at h
  have h1 := List.mem_of_find?_eq_some h
  have h2 := List.find?_some h
  exact ⟨(mem_busyRunners s r).mp h1, by simpa using h2⟩

/-- A section that no runner claims. -/
theorem claimant_none {s : State} {i : Fin 16} (h : s.claimant i = none) (hc : s.TestsCore) (r : Fin 4) :
    (s.runner r).claimed ≠ some i := fun e => by
  unfold State.claimant at h
  have hb : (s.runner r).state ≠ .idle := fun e2 => by rw [(hc.idle r e2).1] at e; cases e
  have := List.find?_eq_none.mp h r ((mem_busyRunners s r).mpr hb)
  simp [e] at this

/-- One section changes, and the runner that claims it aborts. -/
theorem abortClaimant_runs {s : State} (h : s.TestsCore) (i : Fin 16) (c : AbortCause) :
    Runs s (s.abortClaimant i c) ∧ ∀ r, ((s.abortClaimant i c).runner r).claimed ≠ some i := by
  unfold State.abortClaimant
  split
  · next hn => exact ⟨⟨h, .refl s⟩, claimant_none hn h⟩
  · next r hr =>
    have hu := abortRunner_runs h r c
    refine ⟨hu, fun q e => ?_⟩
    have e1 := hu.shrinks.claims q i e
    have : q = r := h.once q r i e1 (claimant_some hr).2
    subst this
    rw [(hu.core.idle q (abortRunner_idle s q c)).1] at e
    cases e

/-- Sections other than one stay; that one is claimed no more. -/
theorem liveBut {s t u : State} (i : Fin 16) (hl : s.ClaimsLive) (hu : Shrinks t u) (h1 : t.runners = s.runners)
    (ho : ∀ j, i ≠ j → t.sec j = s.sec j) (hn : ∀ r, (u.runner r).claimed ≠ some i) :
    u.ClaimsLive := fun r j e => by
  have hij : i ≠ j := fun e1 => hn r (e1 ▸ e)
  have e1 := hu.claims r j e
  rw [runner_congr h1 r] at e1
  exact hu.live j (by rw [ho j hij]; exact hl r j e1)

namespace State.TestsSound

variable {s : State}

theorem core (h : s.TestsSound) : s.TestsCore := ⟨h.idle, h.busy, h.once, h.waiters, h.held, h.reserve⟩

theorem claims (h : s.TestsSound) : s.ClaimsLive := h.live

theorem ofService {t : State} (h : t.TestsCore) (hl : t.ClaimsLive) (hp : t.phase = .inService) : t.TestsSound :=
  ⟨h.idle, h.busy, hl, h.once, h.waiters, h.held, h.reserve, fun e => absurd hp e⟩

theorem ofRuns {t : State} (h : Serving State.TestsSound s) (hr : Runs s t) : t.TestsSound :=
  ofService hr.core (hr.shrinks.claimsLive h.1.claims) (hr.shrinks.phase.trans h.2)

/-- What leaves runners, log, sections and phase alone. -/
theorem same (h : s.TestsSound) {t : State} (h1 : t.runners = s.runners) (h2 : t.log = s.log)
    (h3 : t.sections = s.sections) (h4 : t.phase = s.phase) : t.TestsSound := by
  have hc := h.core.same h1 h2
  refine ⟨hc.idle, hc.busy, fun r i e => ?_, hc.once, hc.waiters, hc.held, hc.reserve, fun e r => ?_⟩
  · rw [sec_congr h3]
    rw [runner_congr h1] at e
    exact h.live r i e
  · rw [runner_congr h1]
    exact h.outOfService (by rw [← h4]; exact e) r

/-- All runners IDLE, as a reset leaves them: nothing is claimed, whatever the sections are. -/
theorem ofIdle (h : s.TestsCore) {t : State} (hi : ∀ r, (s.runner r).state = .idle) (h1 : t.runners = s.runners)
    (h2 : t.log = s.log) : t.TestsSound := by
  have hc := h.same h1 h2
  refine ⟨hc.idle, hc.busy, fun r i e => ?_, hc.once, hc.waiters, hc.held, hc.reserve, fun _ r => ?_⟩
  · rw [runner_congr h1, (h.idle r (hi r)).1] at e
    cases e
  · rw [runner_congr h1]; exact hi r

theorem reset (s : State) (ph : Phase) (w : Byte) : (s.resetBlocks ph w).TestsSound := by
  have hr : ∀ r, (s.resetBlocks ph w).runner r = Runner.reset := fun r => by
    simp [State.resetBlocks, State.runner, State.reset]
  refine ⟨fun r _ => ?_, fun r e => ?_, fun r i e => ?_, fun r q i e => ?_, ⟨List.nodup_nil, fun r => ?_⟩, fun r => ?_,
    ?_, fun _ r => ?_⟩
  · rw [hr]; exact ⟨rfl, rfl⟩
  · rw [hr] at e; exact absurd rfl e
  · rw [hr] at e; cases e
  · rw [hr] at e; cases e
  · rw [hr]; simp [State.resetBlocks, State.reset, Log.reset, Runner.reset]
  · rw [hr]; simp [Runner.reset]
  · rw [notIdle_eq, hr, hr, hr, hr]
    exact Nat.zero_le _
  · rw [hr]; rfl

end State.TestsSound

/-! ## The restore leaves runners and log alone -/

/-- Runners and log are as they were. -/
def SameTests (s t : State) : Prop := t.runners = s.runners ∧ t.log = s.log

theorem SameTests.foldl {α : Type} (f : State → α → State) (hf : ∀ s a, SameTests s (f s a)) (l : List α) (s : State) :
    SameTests s (l.foldl f s) := by
  induction l generalizing s with
  | nil => exact ⟨rfl, rfl⟩
  | cons a l ih => exact ⟨(ih (f s a)).1.trans (hf s a).1, (ih (f s a)).2.trans (hf s a).2⟩

theorem mapPresent_tests (s : State) (f : Section → Section) : SameTests s (s.mapPresent f) :=
  SameTests.foldl (fun (t : State) i => t.modSec i fun x => if x.present then f x else x) (fun _ _ => ⟨rfl, rfl⟩)
    allSections s

theorem restorePass_tests (s : State) (t : SavedTables) : SameTests s (s.restorePass t) :=
  .foldl _ (fun u i => by
    unfold State.tryPresent
    split <;> exact ⟨rfl, rfl⟩) _ s

theorem restorePasses_tests (t : SavedTables) (n : Nat) (s : State) : SameTests s (restorePasses t n s) := by
  induction n generalizing s with
  | zero => exact ⟨rfl, rfl⟩
  | succ n ih =>
    have h1 := restorePass_tests s t
    unfold restorePasses
    dsimp only
    split
    · exact ⟨(ih _).1.trans h1.1, (ih _).2.trans h1.2⟩
    · exact h1

theorem restore_tests (s : State) : SameTests s s.restore := by
  unfold State.restore
  split
  · split
    · exact ⟨rfl, rfl⟩
    · next c _ =>
      have h1 : SameTests s (s.loadTables c.tables) := by
        have h := SameTests.foldl (fun (w : State) i => w.setSec i (Section.ofSaved c.tables.sections[i]))
          (fun _ _ => ⟨rfl, rfl⟩) allSections (((s.modPart fun p =>
            { p with mgmtAddr := c.tables.mgmtAddr, lossLimit := c.tables.lossLimit }).setSteps
              c.tables.steps).setChain [])
        exact ⟨h.1, h.2⟩
      have h2 := restorePasses_tests c.tables 17 (s.loadTables c.tables)
      exact ⟨h2.1.trans h1.1, h2.2.trans h1.2⟩
  · exact ⟨rfl, rfl⟩

/-! ## The leaf operations keep the invariant -/

theorem live_lineCommand (x : Section) (c : LineCommand) : (x.lineCommand c).present = x.present := by
  cases c
  · show x.lineStop.present = _
    unfold Section.lineStop
    split
    · rfl
    · split <;> rfl
    · rfl
    · rfl
  · rfl
  · show x.lineQuickStop.present = _
    unfold Section.lineQuickStop
    split
    · rfl
    · split
      · rfl
      · split <;> rfl
    · rfl
    · rfl

theorem live_beginCycle (x : Section) : x.beginCycle.present = x.present := by
  have h : ∀ y : Section, y.ageOrder.present = y.present := fun y => by
    unfold Section.ageOrder
    have hz : ({ y with orderAge := if y.orderAge < 255 then y.orderAge + 1 else 255 } : Section).present = y.present :=
      rfl
    generalize ({ y with orderAge := if y.orderAge < 255 then y.orderAge + 1 else 255 } : Section) = z at hz
    rw [← hz]
    dsimp only
    split
    · split
      · rfl
      · split <;> rfl
      · rfl
      · rfl
    · rfl
  unfold Section.beginCycle
  rw [h]
  unfold Section.releaseFallsDue
  split <;> rfl

theorem live_compute (x : Section) (l b o : Int) (h : x.Live) : (x.compute l b o).Live := by
  obtain ⟨hp, hr⟩ := h
  unfold Section.compute Section.settleStop
  have h1 : (x.ratioStage l b).present = true ∧ (x.ratioStage l b).runState = .running := by
    unfold Section.ratioStage Section.followRatio
    split
    · exact ⟨hp, hr⟩
    · split <;> exact ⟨hp, hr⟩
  have h2 : ((x.ratioStage l b).targetStage l).present = true ∧
      ((x.ratioStage l b).targetStage l).runState = .running := by
    unfold Section.targetStage
    split <;> exact h1
  generalize (x.ratioStage l b).targetStage l = y at h2
  have h3 : (y.rampStage o).present = true ∧ (y.rampStage o).runState = .running := by
    unfold Section.rampStage
    split <;> exact h2
  rw [if_neg fun e => by rw [h3.2] at e; cases e.1]
  exact h3

theorem live_loadShare (x : Section) (h : x.Live) : x.loadShare.Live := by
  have h1 : x.convertTorques.Live := ⟨h.1, h.2⟩
  unfold Section.loadShare
  generalize x.convertTorques = y at h1
  have h2 : y.formLoad.Live := by
    unfold Section.formLoad
    split
    · exact h1
    · exact ⟨h1.1, h1.2⟩
  generalize y.formLoad = z at h2
  have h3 : z.formShares.Live := by
    unfold Section.formShares
    split
    · exact ⟨h2.1, h2.2⟩
    · exact h2
  generalize z.formShares = w at h3
  unfold Section.updateTrims
  split
  · exact ⟨h3.1, h3.2⟩
  · exact h3

/-- Present and RUNNING sections stay so under an order to run. -/
theorem live_orderRun (x : Section) (m : Int) (c : LineCommand) (b : Bool) (h : x.Live) :
    ((x.takeOrder m).orderRun c b).Live := by
  have hr : (x.takeOrder m).runState = .running := h.2
  unfold Section.orderRun
  split
  · exact h
  · exact h
  · next e => rw [hr] at e; cases e
  · next e => rw [hr] at e; cases e

theorem live_takeSetting (x : Section) (f : Nat) (c : Settings) (h : x.Live) : (x.takeSetting f c).Live := by
  unfold Section.takeSetting
  split <;> exact h

theorem State.TestsSound.announceStart (s : State) (h : Serving State.TestsSound s) :
    s.announceStart.TestsSound := by
  have h1 := mapPresent_tests s Section.beginCycle
  obtain ⟨hc, hl⟩ := sweep h.1.core h.1.claims h1.1 h1.2 (fun i => by
    rw [sec_mapPresent]
    split
    · exact live_beginCycle _
    · rfl) .sectionLeftRunning
  exact .ofService hc hl ((announceStart_secsOnly s).keeps.2.1.trans h.2)

theorem State.TestsSound.applyLineCommand (s : State) (c : LineCommand) (h : Serving State.TestsSound s) :
    (s.applyLineCommand c).TestsSound := by
  have h1 := mapPresent_tests s fun x => x.lineCommand c
  obtain ⟨hc, hl⟩ := sweep h.1.core h.1.claims h1.1 h1.2 (fun i => by
    rw [sec_mapPresent]
    split
    · exact live_lineCommand _ _
    · rfl) .sectionLeftRunning
  exact .ofService hc hl ((applyLineCommand_secsOnly s c).keeps.2.1.trans h.2)

theorem State.TestsSound.sectionStop (s : State) (i : Fin 16) (m : Int) (h : Serving State.TestsSound s) :
    (s.sectionStop i m).TestsSound := by
  unfold State.sectionStop
  have hc : (s.modSec i fun x => (x.takeOrder m).orderStop).TestsCore := h.1.core.same rfl rfl
  dsimp only
  split
  · obtain ⟨hu, hn⟩ := abortClaimant_runs hc i .sectionLeftRunning
    exact .ofService hu.core (liveBut i h.1.claims hu.shrinks rfl (fun j e => by rw [sec_modSec, if_neg e]) hn)
      (hu.shrinks.phase.trans h.2)
  · next e => exact .ofRuns h (modSec_runs h.1.core i _ fun hl => absurd hl.2 e)

theorem State.TestsSound.lossOnSections (s : State) (h : Serving State.TestsSound s) :
    s.lossOnSections.TestsSound := by
  unfold State.lossOnSections
  have h1 := mapPresent_tests (s.modCyc fun c => { c with upState := .lost, lossTimer := none }) Section.upstreamLoss
  have hp := (mapPresent_secsOnly (s.modCyc fun c => { c with upState := .lost, lossTimer := none })
    Section.upstreamLoss upstreamLoss_place).keeps.2.1
  dsimp only
  generalize ((s.modCyc fun c => { c with upState := .lost, lossTimer := none }).mapPresent
    Section.upstreamLoss) = t at h1 hp
  have hc : t.TestsCore := h.1.core.same h1.1 h1.2
  obtain ⟨hu, hi⟩ := abortAll_runs hc t.busyRunners .upstreamLoss
  refine .ofService hu.core (fun r i e => ?_) (hu.shrinks.phase.trans (hp.trans h.2))
  have e1 := hu.shrinks.claims r i e
  have hb : (t.runner r).state ≠ .idle := fun e2 => by rw [(hc.idle r e2).1] at e1; cases e1
  rw [(hu.core.idle r (hi r ((mem_busyRunners t r).mpr hb))).1] at e
  cases e

theorem State.TestsSound.monitorCompletion (s : State) (i : Fin 16) (h : Serving State.TestsSound s) :
    (s.monitorCompletion i).TestsSound := by
  unfold State.monitorCompletion
  have h1 : Runs s (s.modSec i Section.completeMembers) := modSec_runs h.1.core i _ fun e => e
  dsimp only
  split
  · unfold State.judgeMoving
    split
    · next c j _ =>
      have hc : ((s.modSec i Section.completeMembers).enterTripped i c j).TestsCore := h1.core.same rfl rfl
      obtain ⟨hu, hn⟩ := abortClaimant_runs hc i .sectionLeftRunning
      refine .ofService hu.core (liveBut i h.1.claims hu.shrinks rfl (fun k e => ?_) hn)
        (hu.shrinks.phase.trans h.2)
      show (((s.modSec i Section.completeMembers).modSec i fun x => x.trip c j).sec k) = _
      rw [sec_modSec, if_neg e, sec_modSec, if_neg e]
    · refine .ofRuns h (h1.trans (modSec_runs h1.core i _ fun e => ?_))
      unfold Section.degrade
      split <;> exact e
  · next hm =>
    unfold State.releaseCheck
    have hnot : ¬ (s.sec i).Live := fun e => by simp [Section.moving, e.2] at hm
    have hnot1 : ¬ ((s.modSec i Section.completeMembers).sec i).Live := by
      rw [sec_modSec, if_pos rfl]; exact hnot
    have h2 : Runs s ((s.modSec i Section.completeMembers).modSec i Section.disarm) :=
      h1.trans (modSec_runs h1.core i _ fun e => e)
    dsimp only
    split
    · split
      · split
        · refine .ofRuns h (h2.trans ⟨h2.core.same rfl rfl, fun _ _ e => e, fun k e => ?_, rfl⟩)
          show ((((s.modSec i Section.completeMembers).modSec i Section.disarm).modSec i fun x =>
            x.trip .memberFault _).sec k).Live
          rw [sec_modSec]
          split
          · next hk =>
            subst hk
            rw [sec_modSec, if_pos rfl] at e
            exact absurd e hnot1
          · exact e
        · exact .ofRuns h h2
      · exact .ofRuns h h2
    · exact .ofRuns h h1

theorem State.TestsSound.startTest (s : State) (r : Fin 4) (i : Fin 16) (k : Fin 96) (hr : startTestRefusal s r i k = none)
    (h : Serving State.TestsSound s) :
    ((s.setRunner r ((s.runner r).begin i k)).enterStep r k).TestsSound := by
  unfold startTestRefusal at hr
  split at hr
  · cases hr
  · next h0 =>
    split at hr
    · cases hr
    · next hp =>
      split at hr
      · cases hr
      · next hrun =>
        split at hr
        · cases hr
        · next hc =>
          split at hr
          · cases hr
          · split at hr
            · cases hr
            · next hf =>
              have hi : (s.runner r).state = .idle := by simpa using h0
              have hl : (s.sec i).Live := ⟨by simpa using hp, by simpa using hrun⟩
              have hn : ∀ q, (s.runner q).claimed ≠ some i := claimant_none hc h.1.core
              have hq : ∀ q, (s.setRunner r ((s.runner r).begin i k)).runner q =
                  if r = q then (s.runner r).begin i k else s.runner q := fun q => runner_setRunner s r q _
              have hw : r ∉ s.log.waiters := fun e => by
                have := (h.1.waiters.2 r).mp e
                rw [hi] at this; cases this
              have hcore : (s.setRunner r ((s.runner r).begin i k)).TestsCore := by
                refine ⟨fun q => ?_, fun q => ?_, fun q p j => ?_, ⟨h.1.waiters.1, fun q => ?_⟩, fun q => ?_, ?_⟩
                · rw [hq]; split
                  · intro e; cases e
                  · exact h.1.idle q
                · rw [hq]; split
                  · intro _; simp [Runner.begin]
                  · exact h.1.busy q
                · rw [hq, hq]
                  split
                  · next e1 =>
                    split
                    · next e2 => intro _ _; exact e1.symm.trans e2
                    · intro e f
                      have : i = j := by simpa [Runner.begin] using e
                      subst this
                      exact absurd f (hn p)
                  · split
                    · intro e f
                      have : i = j := by simpa [Runner.begin] using f
                      subst this
                      exact absurd e (hn q)
                    · exact h.1.once q p j
                · rw [hq]; split
                  · next e => subst e; exact ⟨fun m => absurd m hw, fun m => by simp [Runner.begin] at m⟩
                  · exact h.1.waiters.2 q
                · rw [hq]; split
                  · simp [Runner.begin]
                  · exact h.1.held q
                · have := notIdle_of_others (s := s) (t := s.setRunner r ((s.runner r).begin i k)) r fun q e => by
                    rw [hq, if_neg fun e1 => e e1.symm]
                  rw [hq, if_pos rfl] at this
                  have e1 : busyCount (s.runner r) = 0 := by unfold busyCount; rw [if_pos hi]
                  have e2 : busyCount ((s.runner r).begin i k) = 1 := rfl
                  unfold State.freePlaces at hf
                  have e3 : ¬ (64 - s.log.records.length < s.notIdle + 1) := hf
                  show s.log.records.length + _ ≤ 64
                  omega
              have hlive : (s.setRunner r ((s.runner r).begin i k)).ClaimsLive := fun q j e => by
                rw [hq] at e
                split at e
                · have : i = j := by simpa [Runner.begin] using e
                  subst this
                  exact hl
                · exact h.1.live q j e
              have hx := enterStep_runs hcore r k (by rw [hq, if_pos rfl]; simp [Runner.begin])
              exact .ofService hx.core (hx.shrinks.claimsLive hlive) (hx.shrinks.phase.trans h.2)

/-- Every leaf operation keeps runners, claims, waiters and reserve sound. -/
theorem testsSound_kept : Kept State.TestsSound where
  resets s ph w _ _ := .reset s ph w
  comesIntoService s hp h := by
    have hi := h.outOfService (by rw [hp]; simp)
    have ht := restore_tests s
    exact .ofIdle h.core hi ht.1 ht.2
  queue _ _ h := h.same rfl rfl rfl rfl
  port _ p _ _ h := by cases p <;> exact h.same rfl rfl rfl rfl
  cyc _ _ h := h.same rfl rfl rfl rfl
  mgmt _ _ h := h.same rfl rfl rfl rfl
  part _ _ h := h.same rfl rfl rfl rfl
  link _ _ h := h.same rfl rfl rfl rfl
  saves _ h := h.same rfl rfl rfl rfl
  store _ _ _ _ h := h.same rfl rfl rfl rfl
  announceStart s h := .announceStart s h
  computeSec s i h := .ofRuns h (modSec_runs h.1.core i _ (live_compute _ _ _ _))
  clearFaultResets s h := by
    refine .ofRuns h (foldlSecs allSections (fun x => if x.present then x.clearFaultResets else x) (fun x e => ?_)
      h.1.core)
    split <;> exact e
  applyLineCommand s c h := .applyLineCommand s c h
  sectionStop s i m h := .sectionStop s i m h
  sectionRun s i m h := .ofRuns h (modSec_runs h.1.core i _ (live_orderRun _ m _ _))
  lossOnSections s h := .lossOnSections s h
  deliverSlot s c q h := by
    unfold State.deliverSlot
    split
    · exact h.1
    · split
      · exact .ofRuns h (modSec_runs h.1.core _ _ fun e => e)
      · split
        · exact h.1
        · exact .ofRuns h (modSec_runs h.1.core _ _ fun e => e)
  monitorCompletion s i h := .monitorCompletion s i h
  loadShare s i h := .ofRuns h (modSec_runs h.1.core i _ (live_loadShare _))
  runnerCompletion s i h := .ofRuns h (runnerCompletion_runs h.1.core i)
  adjustDraw s i d m h := .ofRuns h (adjustDraw_runs h.1.core i d m)
  toCascade s i b h := .ofRuns h (modSec_runs h.1.core i _ fun e => e)
  toFollow s i h := .ofRuns h (modSec_runs h.1.core i _ fun e => e)
  releaseTrip s i ht h := .ofRuns h (modSec_runs h.1.core i _ fun e => by rw [e.2] at ht; cases ht)
  startTest s r i k hr h := .startTest s r i k hr h
  pauseTest s r hr h := by
    have hc := h.1.core.setState r .paused (by rw [hr]; simp) (by rw [hr]; simp) (by simp) (by simp)
    refine .ofService hc (fun q i e => h.1.live q i ?_) h.2
    rw [runner_setRunner] at e
    split at e
    · next hq => subst hq; exact e
    · exact e
  resumeTest s r hr h := by
    have hc := h.1.core.setState r .running (by rw [hr]; simp) (by rw [hr]; simp) (by simp) (by simp)
    refine .ofService hc (fun q i e => h.1.live q i ?_) h.2
    rw [runner_setRunner] at e
    split at e
    · next hq => subst hq; exact e
    · exact e
  stopRunner s r h0 h := .ofRuns h (stopRunner_runs h.1.core r h0)
  dropLog s n h := .ofRuns h (dropLog_runs h.1.core n)
  makePresent s i h0 _ h := by
    have h1 : Runs s (s.modSec i fun x => x.madePresent (s.depthFor i)) :=
      modSec_runs h.1.core i _ fun e => by rw [Section.Live, h0] at e; cases e.1
    exact (State.TestsSound.ofRuns h h1).same rfl rfl rfl rfl
  withdraw s i _ hr h := by
    have h1 : Runs s (s.modSec i Section.withdrawn) := by
      refine modSec_runs h.1.core i _ fun e => ?_
      unfold State.withdrawRefusal at hr
      split at hr
      · cases hr
      · rw [if_pos (by rw [e.2]; simp)] at hr; cases hr
    exact (State.TestsSound.ofRuns h h1).same rfl rfl rfl rfl
  takeSetting s i f v c _ _ h := .ofRuns h (modSec_runs h.1.core i _ (live_takeSetting _ f c))
  setRating s i j v w _ _ h := .ofRuns h (modSec_runs h.1.core i _ fun e => e)
  setWeight s i j v w _ h := .ofRuns h (modSec_runs h.1.core i _ fun e => e)
  setStep s k f v x _ _ h := h.1.same rfl rfl rfl rfl

end Sys2Proof.Machine
end

