-- ==== Sys2Proof/Laws/Aborts.lean ====
section
/-! SUPPORT. What the aborts of one event leave of each runner and of the notices, whatever their order (R131, R134). -/

namespace Sys2Proof.Machine

open Sys2Proof

/-! ## Runners -/

theorem dropPendingRecord_runner (s : State) (r q : Fin 4) :
    (s.dropPendingRecord r).runner q =
      if q = r ∧ (s.runner r).state = .waiting then { s.runner r with pendingRecord := none } else s.runner q := by
  unfold State.dropPendingRecord
  by_cases hw : (s.runner r).state = .waiting
  · rw [if_pos hw]
    by_cases e : q = r
    · subst e; rw [if_pos ⟨rfl, hw⟩]
      show (s.setRunner q _).runner q = _
      rw [runner_setRunner, if_pos rfl]
    · rw [if_neg (fun h => e h.1)]
      show (s.setRunner r _).runner q = _
      rw [runner_setRunner, if_neg (Ne.symm e)]
  · rw [if_neg hw, if_neg (fun h => hw h.2)]

/-- An abort changes its own runner alone. -/
theorem abortRunner_runner (s : State) (r q : Fin 4) (c : AbortCause) :
    (s.abortRunner r c).runner q =
      if q = r ∧ (s.runner r).state ≠ .idle then (s.runner r).abortedBy c else s.runner q := by
  unfold State.abortRunner
  by_cases hi : (s.runner r).state = .idle
  · rw [if_pos hi, if_neg (fun h => h.2 hi)]
  · rw [if_neg hi]
    show (((s.dropPendingRecord r).endTest r (.aborted c) .aborted c)).runner q = _
    unfold State.endTest
    dsimp only
    rw [runner_setRunner]
    have hr : ∀ p, ((s.dropPendingRecord r).writeRecord
        ((s.dropPendingRecord r).formRecord r .testEnd (.aborted c))).runner p = (s.dropPendingRecord r).runner p :=
      fun _ => rfl
    by_cases e : q = r
    · subst e
      rw [if_pos rfl, if_pos ⟨rfl, hi⟩, hr, dropPendingRecord_runner]
      unfold Runner.ended Runner.abortedBy
      by_cases hw : (s.runner q).state = .waiting
      · rw [if_pos ⟨rfl, hw⟩, if_pos hw]
      · rw [if_neg (fun h => hw h.2), if_neg hw]
    · rw [if_neg (Ne.symm e), if_neg (fun h => e h.1), hr, dropPendingRecord_runner, if_neg (fun h => e h.1)]

theorem abortedBy_idle (u : Runner) (c : AbortCause) : (u.abortedBy c).state = .idle := rfl

/-- The aborts of a list of runners: each that was not IDLE is aborted once, no other changes. -/
theorem foldlAbort_runner (l : List (Fin 4)) (c : AbortCause) (s : State) (q : Fin 4) :
    (l.foldl (fun t r => t.abortRunner r c) s).runner q =
      if q ∈ l ∧ (s.runner q).state ≠ .idle then (s.runner q).abortedBy c else s.runner q := by
  induction l generalizing s with
  | nil => simp
  | cons r l ih =>
    rw [List.foldl_cons, ih, abortRunner_runner]
    by_cases e : q = r
    · subst e
      by_cases hi : (s.runner q).state = .idle
      · simp [hi]
      · simp [hi, abortedBy_idle]
    · simp [e]

/-- An order of a list has the members of the list. -/
theorem mem_of_pickOrder {α : Type} (n k : Nat) (l : List α) (x : α) (h : x ∈ pickOrder n k l) : x ∈ l := by
  induction n generalizing k l with
  | zero => exact h
  | succ n ih =>
    unfold pickOrder at h
    split at h
    · exact h
    · next y hy =>
      obtain ⟨hi, e⟩ := List.getElem?_eq_some_iff.mp hy
      rcases List.mem_cons.mp h with rfl | h
      · rw [← e]; exact List.getElem_mem hi
      · exact List.mem_of_mem_eraseIdx (ih _ _ h)

/-- Whatever their order, the aborts of one event leave every runner as it must be. -/
theorem abortAll_runner (s : State) (l : List (Fin 4)) (c : AbortCause) (q : Fin 4) :
    (s.abortAll l c).runner q =
      if q ∈ l ∧ (s.runner q).state ≠ .idle then (s.runner q).abortedBy c else s.runner q := by
  unfold State.abortAll
  split
  · exact foldlAbort_runner l c s q
  · rw [foldlAbort_runner]
    have hm : q ∈ pickOrder l.length (Config.abortOrder s.freeUses) l ↔ q ∈ l :=
      ⟨mem_of_pickOrder _ _ _ _, mem_pickOrder _ _ _ _⟩
    simp only [hm]
    rfl

/-- The runner that claims a section, if there is one, is aborted. -/
theorem abortClaimant_runner (s : State) (i : Fin 16) (c : AbortCause) (q : Fin 4) :
    (s.abortClaimant i c).runner q = if s.claimant i = some q then (s.runner q).abortedBy c else s.runner q := by
  unfold State.abortClaimant
  cases hc : s.claimant i with
  | none => simp
  | some r =>
    have hb : r ∈ s.busyRunners := List.mem_of_find?_eq_some hc
    dsimp only
    rw [abortRunner_runner]
    by_cases e : q = r
    · subst e; simp [(mem_busyRunners s q).mp hb]
    · simp [e, Ne.symm e]

theorem mem_claimants (s : State) (l : List (Fin 16)) (r : Fin 4) :
    r ∈ s.claimants l ↔ (s.runner r).state ≠ .idle ∧ ∃ i, (s.runner r).claimed = some i ∧ i ∈ l := by
  unfold State.claimants
  rw [List.mem_filter, mem_busyRunners]
  cases (s.runner r).claimed <;> simp

theorem mem_allSections (i : Fin 16) : i ∈ allSections := by fin_cases i <;> simp [allSections]

theorem mem_runningSecs (s : State) (i : Fin 16) :
    i ∈ s.runningSecs ↔ (s.sec i).present = true ∧ (s.sec i).runState = .running := by
  unfold State.runningSecs State.presentSecs
  rw [List.mem_filter, List.mem_filter]
  simp [mem_allSections]

theorem mem_leftRunning (s : State) (l : List (Fin 16)) (i : Fin 16) :
    i ∈ s.leftRunning l ↔ i ∈ l ∧ (s.sec i).runState ≠ .running := by
  unfold State.leftRunning
  rw [List.mem_filter]
  simp

/-! ## Notices -/

/-- An abort sets TEST ENDED and leaves the other notices. -/
theorem abortRunner_notices (s : State) (r : Fin 4) (c : AbortCause) :
    (s.abortRunner r c).part = { s.part with notices := { s.part.notices with
      testEnded := s.part.notices.testEnded || (s.runner r).state != .idle } } := by
  have hd : (s.dropPendingRecord r).part = s.part := by
    unfold State.dropPendingRecord; split <;> rfl
  unfold State.abortRunner
  split
  · next h => simp [h]
  · next h =>
    show { (s.dropPendingRecord r).part with notices := (s.dropPendingRecord r).part.notices.setTestEnded } = _
    rw [hd]
    unfold Notices.setTestEnded
    simp [h]

theorem foldlAbort_notices (l : List (Fin 4)) (c : AbortCause) (s : State) :
    (l.foldl (fun t r => t.abortRunner r c) s).part = { s.part with notices := { s.part.notices with
      testEnded := (l.foldl (fun t r => t.abortRunner r c) s).part.notices.testEnded } } := by
  induction l generalizing s with
  | nil => rfl
  | cons r l ih =>
    rw [List.foldl_cons]
    conv_lhs => rw [ih]
    rw [abortRunner_notices s r c]

/-- The aborts of one event touch no notice but TEST ENDED. -/
theorem abortAll_notices (s : State) (l : List (Fin 4)) (c : AbortCause) :
    (s.abortAll l c).part = { s.part with notices := { s.part.notices with
      testEnded := (s.abortAll l c).part.notices.testEnded } } := by
  unfold State.abortAll
  split
  · exact foldlAbort_notices l c s
  · exact foldlAbort_notices _ c s.useFree

theorem abortClaimant_notices (s : State) (i : Fin 16) (c : AbortCause) :
    (s.abortClaimant i c).part = { s.part with notices := { s.part.notices with
      testEnded := s.part.notices.testEnded || (s.claimant i).isSome } } := by
  unfold State.abortClaimant
  cases hc : s.claimant i with
  | none => simp
  | some r =>
    have hb : r ∈ s.busyRunners := List.mem_of_find?_eq_some hc
    dsimp only
    rw [abortRunner_notices]
    have := (mem_busyRunners s r).mp hb
    simp [this]

end Sys2Proof.Machine
end

