-- ==== Sys2Proof/Laws/Reception.lean ====
section
/-! SUPPORT. How a whole frame goes through receiver, FIFO and assembler of a port that is ready for it (R1 to R9). -/

namespace Sys2Proof.Machine

open Sys2Proof

/-! ## Draining -/

theorem takeEntries_empty (p : Side) (n : Nat) {s : State} (h : (s.port p).fifo = []) :
    State.takeEntries p n s = s := by
  cases n with
  | zero => rfl
  | succ n => unfold State.takeEntries; rw [h]

theorem drain_empty {s : State} {p : Side} (h : (s.port p).fifo = []) : s.drain p = s := takeEntries_empty p _ h

/-- With both FIFOs empty no assembler has anything to take. -/
theorem settle_quiet {s : State} (h : s.Quiet) : s.settle = s := by
  unfold State.settle
  rw [drain_empty (p := .up) h.1, drain_empty (p := .dn) h.2]

/-! ## Ports put in place -/

theorem stamp_setPort (s : State) (p q : Side) (x : Port) : (s.setPort p x).stamp q = s.stamp q := by
  cases p <;> cases q <;> rfl

theorem filterKeeps_setPort (s : State) (p q : Side) (x : Port) (a : Byte) :
    (s.setPort p x).filterKeeps q a = s.filterKeeps q a := by
  cases p <;> cases q <;> rfl

/-- Whether a port listens depends on its driver alone. -/
theorem receives_setPort (s : State) (p : Side) (x : Port) (h : x.driving = (s.port p).driving) :
    (s.setPort p x).receives p = s.receives p := by
  cases p
  · show (_ && !x.driving) = (_ && !s.up.driving)
    rw [show x.driving = s.up.driving from h]; rfl
  · show (_ && (_ || !x.driving)) = (_ && (_ || !s.dn.driving))
    rw [show x.driving = s.dn.driving from h]; rfl

/-! ## The characters of a frame -/

/-- A port with a frame open. -/
def Port.hearing (x : Port) (cs : List Byte) : Port :=
  { x with gapTimer := some 0, awaitMark := false, asm := .collect cs }

/-- A frame open with the characters taken so far, heard up to the last of them. -/
def State.hearing (s : State) (p : Side) (cs : List Byte) : State :=
  s.setPort p ((s.port p).hearing cs)

theorem receiveNow_silent {s : State} {p : Side} (hr : s.receives p = false) (hf : (s.port p).fifo = [])
    (e : LineEvent) : State.receiveNow p s e = s := by
  unfold State.receiveNow State.receiveEvent
  rw [hr]
  exact drain_empty hf

theorem foldl_silent {s : State} {p : Side} (hr : s.receives p = false) (hf : (s.port p).fifo = [])
    (l : List LineEvent) : l.foldl (State.receiveNow p) s = s := by
  induction l with
  | nil => rfl
  | cons e l ih => rw [List.foldl_cons, receiveNow_silent hr hf, ih]

/-- A port that does not listen takes nothing of a frame (R13). -/
theorem receiveFrame_silent {s : State} {p : Side} (hq : s.Quiet) (hr : s.receives p = false) (a k : Byte)
    (pl : List Byte) : s.receiveFrame p a k pl = s := by
  unfold State.receiveFrame
  rw [settle_quiet hq, foldl_silent hr (by cases p; exacts [hq.1, hq.2]), settle_quiet hq]

/-- What storing and draining one clean character comes to. -/
theorem receiveNow_char {s : State} {p : Side} (hr : s.receives p = true) (hf : (s.port p).fifo = [])
    (hw : (s.port p).awaitMark = false) (d : Byte) (m : Bool) :
    State.receiveNow p s (.char d m true) =
      State.takeEntries p 1 ((s.setPort p (s.port p).heard).takeEntry p
        (charEntry d m true (s.stamp p))) := by
  have key : ∀ x : Port, x.fifo = [] → x.awaitMark = false → x.receive (s.stamp p) (.char d m true) =
      { x.heard with fifo := [charEntry d m true (s.stamp p)] } := fun x h1 h2 => by
    unfold Port.receive
    simp [h2, isBreak, Port.store, h1, Port.heard]
  have hx : ∀ x : Port, x.fifo = [] → ({ x.heard with fifo := [] } : Port) = x.heard := fun x h => by
    unfold Port.heard; simp [h]
  have h1 := key (s.port p) hf hw
  have h2 := hx (s.port p) hf
  unfold State.receiveNow State.receiveEvent
  rw [if_pos hr, h1]
  unfold State.drain
  rw [setPort_same]
  show State.takeEntries p 2 _ = _
  rw [State.takeEntries, setPort_same]
  dsimp only at h2 ⊢
  rw [setPort_setPort, h2]

theorem tagKind_clean (d : Byte) (m : Bool) (st : Stamp) : (charEntry d m true st).tagKind = none := by
  simp [Entry.tagKind, charEntry, isBreak]

/-- The first character of a frame that the filter keeps. -/
theorem receiveNow_first {s : State} {p : Side} (hr : s.receives p = true) (hf : (s.port p).fifo = [])
    (hw : (s.port p).awaitMark = false) (ha : (s.port p).asm = .wait) (a : Byte) (hk : s.filterKeeps p a = true) :
    State.receiveNow p s (.char a true true) = s.hearing p [a] := by
  rw [receiveNow_char hr hf hw]
  unfold State.takeEntry State.takeMarked
  rw [tagKind_clean]
  have hab : (s.setPort p (s.port p).heard).abandon p =
      s.setPort p (s.port p).heard := by
    unfold State.abandon
    rw [setPort_same]
    have e : (s.port p).heard.asm = .wait := ha
    simp only [e]
  show State.takeEntries p 1 (((s.setPort p _).abandon p).openFrame p a) = _
  rw [hab]
  unfold State.openFrame
  rw [filterKeeps_setPort, if_pos hk]
  unfold State.setAsm State.hearing
  rw [setPort_same, setPort_setPort]
  exact takeEntries_empty p 1 (by rw [setPort_same]; exact hf)

/-- The first character of a frame that the filter rejects. -/
theorem receiveNow_rejected {s : State} {p : Side} (hr : s.receives p = true) (hf : (s.port p).fifo = [])
    (hw : (s.port p).awaitMark = false) (ha : (s.port p).asm = .wait) (a : Byte) (hk : s.filterKeeps p a = false) :
    State.receiveNow p s (.char a true true) = s.heard p := by
  rw [receiveNow_char hr hf hw]
  unfold State.takeEntry State.takeMarked
  rw [tagKind_clean]
  have hab : (s.setPort p (s.port p).heard).abandon p =
      s.setPort p (s.port p).heard := by
    unfold State.abandon
    rw [setPort_same]
    have e : (s.port p).heard.asm = .wait := ha
    simp only [e]
  show State.takeEntries p 1 (((s.setPort p _).abandon p).openFrame p a) = _
  rw [hab]
  unfold State.openFrame
  rw [filterKeeps_setPort, if_neg (by rw [hk]; simp)]
  exact takeEntries_empty p 1 (by rw [setPort_same]; exact hf)

/-- An unmarked character with no frame open. -/
theorem receiveNow_skipped {s : State} {p : Side} (hr : s.receives p = true) (hf : (s.port p).fifo = [])
    (hw : (s.port p).awaitMark = false) (ha : (s.port p).asm = .wait) (d : Byte) :
    State.receiveNow p s (.char d false true) = s.heard p := by
  rw [receiveNow_char hr hf hw]
  unfold State.takeEntry State.takeUnmarked
  rw [tagKind_clean, setPort_same]
  have e : (s.port p).heard.asm = .wait := ha
  simp only [charEntry, e]
  refine takeEntries_empty p 1 (s := s.heard p) ?_
  unfold State.heard
  rw [setPort_same]
  exact hf

/-- An unmarked character of the open frame. -/
theorem receiveNow_next {s : State} {p : Side} (hr : s.receives p = true) (hf : (s.port p).fifo = []) (cs : List Byte)
    (d : Byte) :
    State.receiveNow p (s.hearing p cs) (.char d false true) =
      State.takeEntries p 1 ((s.hearing p cs).appendChar p (cs ++ [d]) (s.stamp p)) := by
  have e1 : ((s.hearing p cs).port p) = ((s.port p).hearing cs) := by
    unfold State.hearing; rw [setPort_same]
  have e2 : (s.hearing p cs).stamp p = s.stamp p := stamp_setPort s p p _
  rw [receiveNow_char (by rw [← hr]; exact receives_setPort s p _ rfl) (by rw [e1]; exact hf) (by rw [e1]; rfl) d false, e1, e2]
  have e3 : (s.hearing p cs).setPort p ((s.port p).hearing cs) =
      s.hearing p cs := by unfold State.hearing; rw [setPort_setPort]
  rw [show ((s.port p).hearing cs).heard = (s.port p).hearing cs from rfl, e3]
  unfold State.takeEntry State.takeUnmarked
  rw [tagKind_clean, e1]
  rfl

/-- The open frame grows by one character. -/
theorem receiveNow_grows {s : State} {p : Side} (hr : s.receives p = true) (hf : (s.port p).fifo = []) (cs : List Byte)
    (d : Byte) (h1 : ¬((cs ++ [d]).length = 3 ∧ 124 < (charAt (cs ++ [d]) 2).toNat))
    (h2 : frameComplete (cs ++ [d]) = false) :
    State.receiveNow p (s.hearing p cs) (.char d false true) = s.hearing p (cs ++ [d]) := by
  rw [receiveNow_next hr hf]
  unfold State.appendChar
  rw [if_neg h1, if_neg (by rw [h2]; simp)]
  unfold State.setAsm State.hearing
  rw [setPort_same, setPort_setPort]
  exact takeEntries_empty p 1 (by rw [setPort_same]; exact hf)

/-! ## The whole frame -/

theorem chars16_num16 (v : BitVec 16) (cs : List Byte) : num16 (cs ++ chars16 v) cs.length = v := by
  have h1 : charAt (cs ++ chars16 v) cs.length = v.extractLsb' 8 8 := by
    simp [charAt, chars16, List.getD_eq_getElem?_getD]
  have h2 : charAt (cs ++ chars16 v) (cs.length + 1) = v.extractLsb' 0 8 := by
    simp [charAt, chars16, List.getD_eq_getElem?_getD]
  unfold num16
  rw [h1, h2]
  ext i hi
  simp only [BitVec.getElem_append, BitVec.getElem_extractLsb']
  split
  · simp [BitVec.getLsbD_eq_getElem hi]
  · have : 8 + (i - 8) = i := by omega
    simp only [this]
    exact BitVec.getLsbD_eq_getElem hi

/-- Every frame the part's links carry has its right check (R4). -/
theorem frame_checks (a k : Byte) (pl : List Byte) : checkPasses (frameChars a k pl) = true := by
  unfold checkPasses frameChars
  have hl : (frameBody a k pl ++ chars16 (crc16 (frameBody a k pl))).length - 2 = (frameBody a k pl).length := by
    simp [chars16]
  rw [hl, chars16_num16, List.take_left]
  simp

theorem frame_payload (a k : Byte) (pl : List Byte) : payloadOf (frameChars a k pl) = pl := by
  unfold payloadOf frameChars frameBody
  have hl : (a :: k :: BitVec.ofNat 8 pl.length :: pl ++
      chars16 (crc16 (a :: k :: BitVec.ofNat 8 pl.length :: pl))).length - 5 = pl.length := by
    simp [chars16]
  rw [hl]
  simp

/-- The characters of a frame after its address. -/
def frameRest (a k : Byte) (pl : List Byte) : List Byte :=
  k :: BitVec.ofNat 8 pl.length :: pl ++ chars16 (crc16 (frameBody a k pl))

theorem frameChars_eq (a k : Byte) (pl : List Byte) : frameChars a k pl = a :: frameRest a k pl := rfl

theorem frameRest_length (a k : Byte) (pl : List Byte) : (frameRest a k pl).length = pl.length + 4 := by
  simp [frameRest, chars16]

/-- Before its last character the frame stays open. -/
theorem hearing_prefix {s : State} {p : Side} (hr : s.receives p = true) (hf : (s.port p).fifo = []) (a k : Byte)
    (pl : List Byte) (hl : pl.length ≤ 124) (n : Nat) (hn : n ≤ pl.length + 3) :
    (((frameRest a k pl).take n).map fun x => LineEvent.char x false true).foldl (State.receiveNow p) (s.hearing p [a])
      = s.hearing p (a :: (frameRest a k pl).take n) := by
  induction n with
  | zero => rfl
  | succ n ih =>
    have hlen := frameRest_length a k pl
    have hlt : n < (frameRest a k pl).length := by omega
    rw [List.take_succ_eq_append_getElem hlt, List.map_append, List.foldl_append, ih (by omega)]
    show State.receiveNow p _ _ = _
    have hcl : (a :: (frameRest a k pl).take n ++ [(frameRest a k pl)[n]]).length = n + 2 := by
      simp; omega
    have hc2 : 1 ≤ n → charAt (a :: (frameRest a k pl).take n ++ [(frameRest a k pl)[n]]) 2 =
        BitVec.ofNat 8 pl.length := fun h => by
      have e : a :: (frameRest a k pl).take n ++ [(frameRest a k pl)[n]] = a :: (frameRest a k pl).take (n + 1) := by
        rw [List.take_succ_eq_append_getElem hlt]; rfl
      rw [e]
      unfold charAt
      rw [List.getD_cons_succ, List.getD_eq_getElem?_getD, List.getElem?_take_of_lt (by omega)]
      simp [frameRest]
    have hv : (BitVec.ofNat 8 pl.length).toNat = pl.length := by
      rw [BitVec.toNat_ofNat]; omega
    rw [receiveNow_grows hr hf]
    · rfl
    · rintro ⟨h3, h4⟩
      rw [hcl] at h3
      rw [hc2 (by omega), hv] at h4
      omega
    · unfold frameComplete
      rw [hcl]
      by_cases h : 1 ≤ n
      · rw [hc2 h, hv]
        have : ¬ (n + 2 = pl.length + 5) := by omega
        simp only [decide_eq_false this, Bool.and_false]
      · have : ¬ (3 ≤ n + 2) := by omega
        simp only [decide_eq_false this, Bool.false_and]

/-- The port after the line's return to mark. -/
theorem markReturn_now {s : State} {p : Side} (hr : s.receives p = true) (hf : (s.port p).fifo = []) :
    ∃ x : Port, State.receiveNow p s .markReturn = s.setPort p x ∧ x.fifo = [] ∧ x.awaitMark = false ∧
      x.asm = (s.port p).asm ∧ x.driving = (s.port p).driving ∧
      ({ x with gapTimer := some 0 } : Port) = (s.port p).heard := by
  unfold State.receiveNow State.receiveEvent
  rw [if_pos hr]
  refine ⟨(s.port p).receive (s.stamp p) .markReturn, drain_empty ?_, ?_⟩
  · rw [setPort_same]
    simp only [Port.receive]
    split <;> exact hf
  · simp only [Port.receive]
    split
    · exact ⟨hf, rfl, rfl, rfl, rfl⟩
    · next h => exact ⟨hf, by simpa using h, rfl, rfl, by
      simp [Port.heard, show (s.port p).awaitMark = false by simpa using h]⟩

theorem reopen {x y : Port} (h : ({ x with gapTimer := some 0 } : Port) = y.heard) (hw : y.asm = .wait)
    (cs : List Byte) : ({ x.hearing cs with asm := .wait } : Port) = y.heard := by
  cases x
  cases y
  simp only [Port.heard, Port.hearing, Port.mk.injEq] at h hw ⊢
  simp_all

theorem reheard {x y : Port} (h : ({ x with gapTimer := some 0 } : Port) = y.heard) : x.heard = y.heard := by
  cases x
  cases y
  simp only [Port.heard, Port.mk.injEq] at h ⊢
  simp_all

/-- A whole frame that the filter keeps reaches its consumer (R7 to R9). -/
theorem receiveFrame_kept {s : State} {p : Side} (hq : s.Quiet) (hr : s.receives p = true) (hw : (s.port p).asm = .wait)
    (a k : Byte) (pl : List Byte) (hl : pl.length ≤ 124) (hk : s.filterKeeps p a = true) :
    s.receiveFrame p a k pl =
      (State.takeEntries p 1 ((s.heard p).handOff p a k pl (s.stamp p))).settle := by
  have hf : (s.port p).fifo = [] := by cases p; exacts [hq.1, hq.2]
  obtain ⟨x, hx, hx1, hx2, hx3, hx4, hx5⟩ := markReturn_now hr hf
  unfold State.receiveFrame
  rw [settle_quiet hq, List.foldl_cons, hx]
  unfold frameEvents
  rw [frameChars_eq]
  show (((frameRest a k pl).map fun x => LineEvent.char x false true).foldl (State.receiveNow p)
    (State.receiveNow p (s.setPort p x) (.char a true true))).settle = _
  have hr' : (s.setPort p x).receives p = true := by rw [receives_setPort s p x hx4]; exact hr
  rw [receiveNow_first hr' (by rw [setPort_same]; exact hx1) (by rw [setPort_same]; exact hx2)
    (by rw [setPort_same, hx3]; exact hw) a (by rw [filterKeeps_setPort]; exact hk)]
  have hlen := frameRest_length a k pl
  have hsplit : frameRest a k pl = (frameRest a k pl).take (pl.length + 3) ++ [(frameRest a k pl)[pl.length + 3]] := by
    rw [← List.take_succ_eq_append_getElem (by omega)]
    rw [List.take_of_length_le (by omega)]
  have hmap : (frameRest a k pl).map (fun x => LineEvent.char x false true) =
      ((frameRest a k pl).take (pl.length + 3)).map (fun x => LineEvent.char x false true) ++
        [.char (frameRest a k pl)[pl.length + 3] false true] := by
    conv_lhs => rw [hsplit]
    rw [List.map_append]; rfl
  rw [hmap, List.foldl_append, hearing_prefix hr' (by rw [setPort_same]; exact hx1) a k pl hl _ (Nat.le_refl _)]
  show (State.receiveNow p _ _).settle = _
  rw [receiveNow_next hr' (by rw [setPort_same]; exact hx1)]
  have hcs : a :: (frameRest a k pl).take (pl.length + 3) ++ [(frameRest a k pl)[pl.length + 3]] = frameChars a k pl := by
    rw [frameChars_eq]
    conv_rhs => rw [hsplit]
    rfl
  rw [hcs]
  have hcl : (frameChars a k pl).length = pl.length + 5 := by rw [frameChars_eq, List.length_cons, hlen]
  have hc2 : charAt (frameChars a k pl) 2 = BitVec.ofNat 8 pl.length := rfl
  have hv : (BitVec.ofNat 8 pl.length).toNat = pl.length := by
    rw [BitVec.toNat_ofNat]; omega
  unfold State.appendChar
  rw [if_neg (by rw [hcl]; intro h; have := h.2; rw [hc2, hv] at this; omega)]
  rw [if_pos (by unfold frameComplete; rw [hcl, hc2, hv]; simp)]
  unfold State.completeFrame
  rw [frame_checks, frame_payload]
  have hs : ((s.setPort p x).hearing p (a :: (frameRest a k pl).take (pl.length + 3))).setAsm p .wait = s.heard p := by
    unfold State.setAsm State.hearing State.heard
    rw [setPort_same, setPort_setPort, setPort_setPort, setPort_same]
    congr 1
    exact reopen hx5 hw _
  rw [hs, stamp_setPort]
  rfl

/-- A whole frame that the filter rejects is heard, and nothing more (R11, R12). -/
theorem receiveFrame_rejected {s : State} {p : Side} (hq : s.Quiet) (hr : s.receives p = true)
    (hw : (s.port p).asm = .wait) (a k : Byte) (pl : List Byte) (hk : s.filterKeeps p a = false) :
    s.receiveFrame p a k pl = s.heard p := by
  have hf : (s.port p).fifo = [] := by cases p; exacts [hq.1, hq.2]
  obtain ⟨x, hx, hx1, hx2, hx3, hx4, hx5⟩ := markReturn_now hr hf
  have hheard : (s.setPort p x).heard p = s.heard p := by
    unfold State.heard
    rw [setPort_same, setPort_setPort]
    rw [reheard hx5]
  have hh : (s.heard p).port p = (s.port p).heard := by
    unfold State.heard; rw [setPort_same]
  have hr2 : (s.heard p).receives p = true := by
    rw [← hr]; exact receives_setPort s p _ rfl
  have hid : (s.heard p).heard p = s.heard p := by
    unfold State.heard
    rw [setPort_same, setPort_setPort]
    rfl
  have hskip : ∀ l : List Byte, (l.map fun x => LineEvent.char x false true).foldl (State.receiveNow p) (s.heard p) =
      s.heard p := by
    intro l
    induction l with
    | nil => rfl
    | cons d l ih =>
      rw [List.map_cons, List.foldl_cons, receiveNow_skipped hr2 (by rw [hh]; exact hf) (by rw [hh]; rfl)
        (by rw [hh]; exact hw), hid, ih]
  unfold State.receiveFrame
  rw [settle_quiet hq, List.foldl_cons, hx]
  unfold frameEvents
  rw [frameChars_eq]
  show (((frameRest a k pl).map fun x => LineEvent.char x false true).foldl (State.receiveNow p)
    (State.receiveNow p (s.setPort p x) (.char a true true))).settle = _
  have hr' : (s.setPort p x).receives p = true := by rw [receives_setPort s p x hx4]; exact hr
  rw [receiveNow_rejected hr' (by rw [setPort_same]; exact hx1) (by rw [setPort_same]; exact hx2)
    (by rw [setPort_same, hx3]; exact hw) a (by rw [filterKeeps_setPort]; exact hk), hheard, hskip]
  refine settle_quiet ?_
  cases p
  · exact ⟨hq.1, hq.2⟩
  · exact ⟨hq.1, hq.2⟩

/-- A frame whose consumer leaves both FIFOs empty has its consumer's effect alone. -/
theorem receiveFrame_quiet {s : State} {p : Side} (hq : s.Quiet) (hr : s.receives p = true)
    (hw : (s.port p).asm = .wait) (a k : Byte) (pl : List Byte) (hl : pl.length ≤ 124) (hk : s.filterKeeps p a = true)
    (ht : ((s.heard p).handOff p a k pl (s.stamp p)).Quiet) :
    s.receiveFrame p a k pl = (s.heard p).handOff p a k pl (s.stamp p) := by
  rw [receiveFrame_kept hq hr hw a k pl hl hk, takeEntries_empty p 1 (by cases p; exacts [ht.1, ht.2]), settle_quiet ht]

/-- A frame whose consumer leaves this port's FIFO empty. -/
theorem receiveFrame_settles {s : State} {p : Side} (hq : s.Quiet) (hr : s.receives p = true)
    (hw : (s.port p).asm = .wait) (a k : Byte) (pl : List Byte) (hl : pl.length ≤ 124) (hk : s.filterKeeps p a = true)
    (ht : (((s.heard p).handOff p a k pl (s.stamp p)).port p).fifo = []) :
    s.receiveFrame p a k pl = ((s.heard p).handOff p a k pl (s.stamp p)).settle := by
  rw [receiveFrame_kept hq hr hw a k pl hl hk, takeEntries_empty p 1 ht]

end Sys2Proof.Machine
end

