-- ==== Sys2Proof/Laws/Requests.lean ====
section
/-! SUPPORT. How a MANAGE frame reaches the management unit of a part that is ready for it, and what its reply leaves
(R152 to R155). -/

namespace Sys2Proof.Machine

open Sys2Proof

theorem serving_inService {s : State} (h : s.phase = .inService) (f : State → State) : s.serving f = f s := by
  unfold State.serving; rw [if_pos h]

theorem serving_out {s : State} (h : s.phase ≠ .inService) (f : State → State) : s.serving f = s := by
  unfold State.serving; rw [if_neg h]

theorem receives_up {s : State} (h : s.UpReady) : s.receives .up = true := by
  unfold State.receives; rw [h.inService, h.listening]; rfl

theorem receives_dn {s : State} (h : s.DnReady) : s.receives .dn = true := by
  unfold State.receives
  rw [h.inService]
  rcases h.listening with e | e <;> simp [e]

theorem filterKeeps_zero (s : State) : s.filterKeeps .up 0 = true := by simp [State.filterKeeps]

theorem filterKeeps_mgmt (s : State) : s.filterKeeps .up s.part.mgmtAddr = true := by simp [State.filterKeeps]

theorem heard_quiet {s : State} (h : s.Quiet) (p : Side) : (s.heard p).Quiet := by cases p <;> exact h

theorem asked_quiet {s : State} (h : s.Quiet) : s.asked.Quiet := heard_quiet h .up

/-- Operations on sections and tests leave the ports alone. -/
theorem SecsOnly.quiet {s t : State} (h : SecsOnly s t) (hq : s.Quiet) : t.Quiet := by
  obtain ⟨_, _, _, _, _, rfl⟩ := h.form; exact hq

/-- A reply leaves both FIFOs as they are. -/
theorem sendReplyAfter_quiet {s : State} (h : s.Quiet) (age : Nat) (r : Reply) : (s.sendReplyAfter age r).Quiet := by
  unfold State.sendReplyAfter
  split
  · exact h
  · exact ⟨(queueFrame_fifo _ _).trans h.1, h.2⟩

theorem sendReply_quiet {s : State} (h : s.Quiet) (r : Reply) : (s.sendReply r).Quiet := sendReplyAfter_quiet h 0 r

theorem finish_plain {v : Served} (h : v.expired = false) : v.finish 0 = v.state.sendReply v.reply := by
  unfold Served.finish; simp [h, State.sendReply]

theorem mgmtReady_overruns {s : State} (h : s.MgmtReady) : (s.heard .up).overruns = false := by
  unfold State.overruns
  cases hu : s.cyc.upState
  · simp [State.heard, State.setPort, State.setUp, hu]
  · have := h.free hu
    simp [State.heard, State.setPort, State.setUp, this]
  · simp [State.heard, State.setPort, State.setUp, hu]

/-- What taking a MANAGE frame comes to. -/
theorem manage_hands {s : State} (h : s.MgmtReady) (k : Byte) (args : List Byte) (hl : args.length ≤ 123) :
    (s.heard .up).handOff .up s.part.mgmtAddr kindManage (k :: args) (s.stamp .up) =
      (request s.mgmt.pendingAccess k args s.asked).finish 0 := by
  have h0 : ¬ (kindManage = kindLineCycle ∧ s.part.mgmtAddr = 0) := fun e => absurd e.1 (by decide)
  have h1 : ¬ (kindManage = kindPollCall ∧ s.part.mgmtAddr = 0) := fun e => absurd e.1 (by decide)
  unfold State.handOff State.handOffUp
  rw [if_neg h0, if_neg h1, if_pos (by exact ⟨rfl, rfl⟩)]
  unfold State.lengthOr
  rw [if_pos (by simp; omega)]
  unfold State.takeManage
  rw [mgmtReady_overruns h]
  rfl

/-- A MANAGE frame whose service leaves the FIFOs empty has the effect of its request alone. -/
theorem manage_served {s : State} (h : s.MgmtReady) (k : Byte) (args : List Byte) (hl : args.length ≤ 123)
    (hq : ((request s.mgmt.pendingAccess k args s.asked).finish 0).Quiet) :
    s.receiveManage (k :: args) = (request s.mgmt.pendingAccess k args s.asked).finish 0 := by
  unfold State.receiveManage
  rw [receiveFrame_quiet h.quiet (receives_up h.toUpReady) h.waiting _ _ _ (by simp; omega) (filterKeeps_mgmt s)]
  · exact manage_hands h k args hl
  · rw [manage_hands h k args hl]; exact hq

/-- Every MANAGE row sends its payload to the management unit. -/
theorem exec_manage {c : Instr} {pl : List Byte} (h : c.managePayload = some pl) (s : State) :
    exec c s = .next (s.serving fun t => t.receiveManage pl) := by
  cases c <;> first | (cases h; rfl) | (exact absurd h (by simp [Instr.managePayload]))

/-- A request of any sub-kind, as the frame that carries it leaves the part. -/
theorem exec_request {c : Instr} {k : Byte} {args : List Byte} (hc : c.managePayload = some (k :: args)) {s : State}
    (h : s.MgmtReady) (hl : args.length ≤ 123) {v : Served} (hv : request s.mgmt.pendingAccess k args s.asked = v)
    (he : v.expired = false) (hq : v.state.Quiet) : exec c s = .next (v.state.sendReply v.reply) := by
  rw [exec_manage hc, serving_inService h.inService, manage_served h k args hl, hv, finish_plain he]
  rw [hv, finish_plain he]
  exact sendReply_quiet hq _

/-- A COMMAND, as the frame that carries it leaves the part. -/
theorem exec_command {c : Instr} {verb : Byte} {args : List Byte} (hc : c.managePayload = some (0x06 :: verb :: args))
    {s : State} (h : s.MgmtReady) (hl : args.length ≤ 122) {v : Served} (hv : command verb args s.asked = v)
    (he : v.expired = false) (hq : v.state.Quiet) : exec c s = .next (v.state.sendReply v.reply) :=
  exec_request hc h (by simp; omega) (v := v) hv he hq

theorem served_refuse {s : State} (code : ResultCode) (i : Byte) :
    (refuse s code i).state = s ∧ (refuse s code i).reply = reply code i [] ∧ (refuse s code i).expired = false :=
  ⟨rfl, rfl, rfl⟩

end Sys2Proof.Machine
end

