-- ==== Sys2Proof/Laws/Starts.lean ====
section
/-! SUPPORT. What a downstream cycle start leaves once the assemblers have taken what the FIFOs hold, and what a start
request keeps (R3, R30 to R32). -/

namespace Sys2Proof.Machine

open Sys2Proof

/-! ## The gap entry of an enabled driver -/

/-- A gap entry that meets no open frame is dropped. -/
theorem settle_gap {s : State} (hu : s.up.fifo = []) (hw : s.dn.asm = .wait)
    (hd : s.dn.fifo = [] ∨ s.dn.fifo = [gapEntry]) : s.settle = s.setDn { s.dn with fifo := [] } := by
  unfold State.settle
  rw [drain_empty (p := .up) hu]
  rcases hd with e | e
  · rw [drain_empty (p := .dn) e]
    conv_lhs => rw [← setPort_port s .dn]
    show s.setDn s.dn = _
    rw [← e]
  · unfold State.drain
    have hl : (s.port .dn).fifo = [gapEntry] := e
    rw [hl]
    show State.takeEntries .dn 2 s = _
    unfold State.takeEntries
    rw [hl]
    show State.takeEntries .dn 1 (State.takeEntry (s.setDn { s.dn with fifo := [] }) .dn gapEntry) = _
    have ht : State.takeEntry (s.setDn { s.dn with fifo := [] }) .dn gapEntry = s.setDn { s.dn with fifo := [] } := by
      show State.takeGap (s.setDn { s.dn with fifo := [] }) .dn false = _
      unfold State.takeGap
      rw [show ((s.setDn { s.dn with fifo := [] }).port .dn).asm = .wait from hw]
      rfl
    rw [ht]
    exact takeEntries_empty .dn 1 rfl

/-- The FIFO of an enabled driver. -/
theorem enable_fifo {x : Port} (h : x.fifo = []) : x.enable.fifo = [] ∨ x.enable.fifo = [gapEntry] := by
  unfold Port.enable
  cases x.gapTimer with
  | none => exact .inl h
  | some n =>
    right
    show (x.store gapEntry).fifo = _
    unfold Port.store
    rw [if_pos (by rw [h]; decide), h]
    rfl

/-- The rest of an enabled port. -/
theorem enable_rest {x : Port} (h : x.fifo = []) : { x.enable with fifo := [] } =
    { x with driving := true, sentBits := 0, turnaround := none, awaitMark := false, gapTimer := none } := by
  unfold Port.enable
  cases hg : x.gapTimer with
  | none => cases x; simp only at h hg; subst h; subst hg; rfl
  | some n =>
    unfold Port.storeGap Port.store
    rw [if_pos (by rw [h]; decide)]
    cases x; simp only at h; subst h; rfl

/-! ## Changing every entry touches nothing else -/

theorem mapSecs_form (s : State) (f : Section → Section) : s.mapSecs f = { s with sections := (s.mapSecs f).sections } := by
  have key : ∀ (l : List (Fin 16)) (t : State), l.foldl (fun t i => t.modSec i f) t =
      { t with sections := (l.foldl (fun t i => t.modSec i f) t).sections } := by
    intro l
    induction l with
    | nil => intro t; rfl
    | cons a l ih => intro t; rw [List.foldl_cons, ih]; rfl
  exact key allSections s

theorem mapPresent_form (s : State) (f : Section → Section) :
    s.mapPresent f = { s with sections := (s.mapPresent f).sections } := mapSecs_form s _

theorem mapSecs_congr {s t : State} (h : s.sections = t.sections) (f : Section → Section) :
    (s.mapSecs f).sections = (t.mapSecs f).sections := by
  have key : ∀ (l : List (Fin 16)) (s t : State), s.sections = t.sections →
      (l.foldl (fun t i => t.modSec i f) s).sections = (l.foldl (fun t i => t.modSec i f) t).sections := by
    intro l
    induction l with
    | nil => intro s t h; exact h
    | cons a l ih =>
      intro s t h
      rw [List.foldl_cons, List.foldl_cons]
      apply ih
      show s.sections.set a (f s.sections[a]) = t.sections.set a (f t.sections[a])
      rw [h]
  exact key allSections s t h

theorem mapPresent_congr {s t : State} (h : s.sections = t.sections) (f : Section → Section) :
    (s.mapPresent f).sections = (t.mapPresent f).sections := mapSecs_congr h _

/-! ## Starts -/

theorem computedStart_secsOnly (s : State) : SecsOnly s.advanceNumbers s.computedStart :=
  (announceStart_secsOnly _).trans (computeChain_secsOnly _)

/-- The computation changes entries alone. -/
theorem computeChain_form (s : State) : s.computeChain = { s with sections := s.computeChain.sections } := by
  have key : ∀ (l : List (Fin 16)) (t : State), l.foldl State.computeSec t =
      { t with sections := (l.foldl State.computeSec t).sections } := by
    intro l
    induction l with
    | nil => intro t; rfl
    | cons a l ih => intro t; rw [List.foldl_cons, ih]; rfl
  exact key s.chain s

/-- Of part status a start changes TEST ENDED alone. -/
theorem computedStart_part (s : State) : s.computedStart.part = { s.part with notices := { s.part.notices with
    testEnded := s.computedStart.part.notices.testEnded } } := by
  unfold State.computedStart
  rw [computeChain_form]
  show s.advanceNumbers.announceStart.part = { s.part with notices := { s.part.notices with
    testEnded := s.advanceNumbers.announceStart.part.notices.testEnded } }
  unfold State.announceStart
  dsimp only
  rw [abortAll_notices]
  generalize State.abortAll _ _ _ = u
  rw [mapPresent_form]
  rfl

/-- A computed start whose burst is sent (R31, R32, R99). -/
def State.launched (u : State) : State :=
  { u with
    cyc := { u.cyc with inFlight := some u.newCycle }
    dn := { u.dn with
      tx := u.cycleBurst, driving := true, sentBits := 0, turnaround := none, awaitMark := false, gapTimer := none }
    sections := (u.mapPresent Section.clearFaultResets).sections }

/-- A start, once the gap entry of the enabled driver is taken. -/
theorem startCycle_settle {s : State} (hq : s.Quiet) (hw : s.dn.asm = .wait) :
    s.startCycle.settle = if s.computedStart.presentSecs = [] then s.computedStart else s.computedStart.launched := by
  have hk := (computedStart_secsOnly s).keeps
  have hup : s.computedStart.up = s.up := hk.2.2.1
  have hdn : s.computedStart.dn = s.dn := hk.2.2.2.1
  have hcq : s.computedStart.Quiet := ⟨by rw [hup]; exact hq.1, by rw [hdn]; exact hq.2⟩
  unfold State.startCycle
  dsimp only
  by_cases hp : s.computedStart.presentSecs = []
  · rw [if_pos (by rw [hp]; rfl), if_pos hp]
    exact settle_quiet hcq
  · rw [if_neg (by simpa using hp), if_neg hp]
    generalize hu : s.computedStart = u at *
    unfold State.launchCycle
    rw [mapPresent_form,
      mapPresent_congr (s := (u.setInFlight (some u.newCycle)).setDn { u.dn.enable with tx := u.cycleBurst }) (t := u) rfl]
    have hdq : u.dn.fifo = [] := hcq.2
    rw [settle_gap (by exact hcq.1)]
    · show ({ u with cyc := _, dn := _, sections := _ } : State) = _
      unfold State.launched
      congr 1
      show { ({ u.dn.enable with tx := u.cycleBurst } : Port) with fifo := [] } = _
      have := enable_rest hdq
      calc ({ ({ u.dn.enable with tx := u.cycleBurst } : Port) with fifo := [] } : Port)
          = { ({ u.dn.enable with fifo := [] } : Port) with tx := u.cycleBurst } := rfl
        _ = _ := by rw [this]
    · show u.dn.enable.asm = .wait
      have : u.dn.enable.asm = ({ u.dn.enable with fifo := [] } : Port).asm := rfl
      rw [this, enable_rest hdq]
      rw [hdn]; exact hw
    · exact enable_fifo hdq

/-- A start request, once the gap entry of a driver it enabled is taken (R30). -/
theorem requestStart_settle {s : State} (hq : s.Quiet) (hw : s.dn.asm = .wait) :
    s.requestStart.settle = if s.cyc.inFlight = none ∧ s.link.running = false then
        (if s.computedStart.presentSecs = [] then s.computedStart else s.computedStart.launched)
      else { s with cyc := { s.cyc with pendingStart := true } } := by
  unfold State.requestStart
  by_cases h : s.cyc.inFlight = none ∧ s.link.running = false
  · rw [if_pos (by rw [h.1, h.2]; rfl), if_pos h, startCycle_settle hq hw]
  · rw [if_neg, if_neg h]
    · exact settle_quiet (by exact hq)
    · intro e
      apply h
      cases h1 : s.cyc.inFlight <;> cases h2 : s.link.running <;> simp_all

/-- What discarding a pending reply may change. -/
theorem discardReply_form (s : State) : ∃ (mg : Mgmt) (st : Store), s.discardReply =
    { s with cyc := { s.cyc with pendingReply := none }, mgmt := mg, store := st } ∧
    mg.access = s.mgmt.access ∧ mg.pendingAccess = s.mgmt.pendingAccess := by
  unfold State.discardReply
  dsimp only
  split
  · exact ⟨_, _, rfl, rfl, rfl⟩
  · split <;> exact ⟨_, _, rfl, rfl, rfl⟩

/-- Loss: the section table and the runners. -/
theorem lossOnSections_secsOnly (s : State) :
    SecsOnly (s.modCyc fun c => { c with upState := .lost, lossTimer := none }) s.lossOnSections :=
  (mapPresent_secsOnly _ _ upstreamLoss_place).trans (abortAll_testsOnly _ _ _).secsOnly

theorem afterLoss_form (s : State) : ∃ (mg : Mgmt) (st : Store), s.afterLoss = { s.lossOnSections with
      cyc := { s.lossOnSections.cyc with pendingReply := none, localTimer := some 0 }
      mgmt := { mg with access := .monitor, pendingAccess := none }, store := st
      part := { s.lossOnSections.part with notices := { s.lossOnSections.part.notices with upstreamLoss := true } } } := by
  unfold State.afterLoss
  generalize s.lossOnSections = u
  obtain ⟨mg, st, h, _, _⟩ := discardReply_form u
  rw [h]
  exact ⟨mg, st, rfl⟩

/-- What the loss event leaves, field by field, before its start request. -/
theorem afterLoss_says (s : State) :
    s.afterLoss.cyc = { s.cyc with upState := .lost, lossTimer := none, pendingReply := none, localTimer := some 0 } ∧
    s.afterLoss.link = s.link ∧ s.afterLoss.mgmt.access = .monitor ∧ s.afterLoss.mgmt.pendingAccess = none ∧
    s.afterLoss.part = { s.part with notices := { s.lossOnSections.part.notices with upstreamLoss := true } } ∧
    s.afterLoss.sections = s.lossOnSections.sections ∧ s.afterLoss.runners = s.lossOnSections.runners := by
  obtain ⟨mg, st, h⟩ := afterLoss_form s
  have hk := (lossOnSections_secsOnly s).keeps
  rw [h]
  generalize s.lossOnSections = u at *
  have h1 := hk.2.2.2.2.2.1
  have h2 := hk.2.2.2.2.2.2.2.2.2.2
  refine ⟨?_, hk.2.2.2.2.1, rfl, rfl, ?_, rfl, rfl⟩
  · show { u.cyc with pendingReply := none, localTimer := some 0 } = _
    rw [h1]; rfl
  · generalize u.part.notices = n at *
    show ({ u.part with notices := { n with upstreamLoss := true } } : Part) = _
    rw [h2]; rfl

theorem takeLoss_eq (s : State) : s.takeLoss = s.afterLoss.requestStart := rfl

theorem afterLoss_ports (s : State) : s.afterLoss.up = s.up ∧ s.afterLoss.dn = s.dn := by
  obtain ⟨mg, st, h⟩ := afterLoss_form s
  have hk := (lossOnSections_secsOnly s).keeps
  rw [h]
  exact ⟨hk.2.2.1, hk.2.2.2.1⟩

theorem startCycle_up (s : State) : s.startCycle.up = s.up := by
  have e := (computedStart_secsOnly s).keeps.2.2.1
  unfold State.startCycle
  dsimp only
  generalize s.computedStart = u at *
  split
  · exact e
  · unfold State.launchCycle
    rw [mapPresent_form]
    exact e

theorem requestStart_up (s : State) : s.requestStart.up = s.up := by
  unfold State.requestStart
  split
  · exact startCycle_up s
  · rfl

/-- The loss event leaves the UP port. -/
theorem takeLoss_up (s : State) : s.takeLoss.up = s.up := by
  rw [takeLoss_eq, requestStart_up, (afterLoss_ports s).1]

/-! ## The states a start is made from -/

/-- What ends a slot changes no port, no link test and no upstream state (R35, R36). -/
theorem closeSlot_keeps (s : State) (c : Cycle) (q : SlotRef) :
    (s.closeSlot c q).phase = s.phase ∧ (s.closeSlot c q).up = s.up ∧ (s.closeSlot c q).dn = s.dn ∧
    (s.closeSlot c q).link = s.link ∧ (s.closeSlot c q).cyc = { s.cyc with inFlight := some c.nextSlot } := by
  have h1 := (deliverSlot_secsOnly s c q).keeps
  have key : ∀ t : State, SecsOnly ((s.deliverSlot c q).setInFlight (some c.nextSlot)) t →
      t.phase = s.phase ∧ t.up = s.up ∧ t.dn = s.dn ∧ t.link = s.link ∧
      t.cyc = { s.cyc with inFlight := some c.nextSlot } := by
    intro t ht
    have h2 := ht.keeps
    refine ⟨h2.2.1.trans h1.2.1, h2.2.2.1.trans h1.2.2.1, h2.2.2.2.1.trans h1.2.2.2.1,
      h2.2.2.2.2.1.trans h1.2.2.2.2.1, h2.2.2.2.2.2.1.trans ?_⟩
    show { (s.deliverSlot c q).cyc with inFlight := some c.nextSlot } = _
    rw [h1.2.2.2.2.2.1]
  unfold State.closeSlot
  dsimp only
  split
  · refine key _ ?_
    unfold State.windowCompletion
    exact ((monitorCompletion_secsOnly _ _).trans (modSec_secsOnly _ _ _ (loadShare_place _))).trans
      (runnerCompletion_secsOnly _ _)
  · exact key _ (SecsOnly.refl _)

/-- Of a cycle's end before what follows it, the images alone and the cycle in flight differ (R24, R37). -/
theorem finishCycle_form (s : State) (c : Cycle) : s.finishCycle c = { s with cyc := { s.cyc with
    inFlight := none, images := (s.finishCycle c).cyc.images } } := by
  have key : ∀ (l : List (Fin 16)) (t : State), l.foldl State.retakeImage t =
      { t with cyc := { t.cyc with images := (l.foldl State.retakeImage t).cyc.images } } := by
    intro l
    induction l with
    | nil => intro t; rfl
    | cons a l ih => intro t; rw [List.foldl_cons, ih]; rfl
  show ((s.delivered c).foldl State.retakeImage s).setInFlight none = _
  conv_lhs => rw [key]
  rfl

/-- The restore reaches neither a port nor the cycle in flight (R177). -/
theorem makePresent_keeps (s : State) (i : Fin 16) :
    (s.makePresent i).up = s.up ∧ (s.makePresent i).dn = s.dn ∧ (s.makePresent i).link = s.link ∧
    (s.makePresent i).cyc = { s.cyc with images := (s.makePresent i).cyc.images } := ⟨rfl, rfl, rfl, rfl⟩

/-- Ports, link test and the cycle controller but for its images, of two states. -/
def SameLine (s t : State) : Prop :=
  t.up = s.up ∧ t.dn = s.dn ∧ t.link = s.link ∧ t.cyc = { s.cyc with images := t.cyc.images }

theorem SameLine.refl (s : State) : SameLine s s := ⟨rfl, rfl, rfl, rfl⟩

theorem SameLine.trans {a b c : State} (h : SameLine a b) (k : SameLine b c) : SameLine a c :=
  ⟨k.1.trans h.1, k.2.1.trans h.2.1, k.2.2.1.trans h.2.2.1, by rw [k.2.2.2, h.2.2.2]⟩

theorem SameLine.foldl {α : Type} (f : State → α → State) (hf : ∀ s a, SameLine s (f s a)) (l : List α) (s : State) :
    SameLine s (l.foldl f s) := by
  induction l generalizing s with
  | nil => exact .refl s
  | cons a l ih => exact (hf s a).trans (ih _)

theorem setSec_keeps (s : State) (i : Fin 16) (x : Section) : SameLine s (s.setSec i x) := ⟨rfl, rfl, rfl, rfl⟩

theorem restore_keeps (s : State) : SameLine s s.restore := by
  unfold State.restore
  split
  · split
    · exact .refl s
    · next c _ =>
      have hp : ∀ u : State, SameLine u (u.restorePass c.tables) := fun u => by
        refine SameLine.foldl _ (fun v i => ?_) _ u
        unfold State.tryPresent
        split
        · exact makePresent_keeps v i
        · exact .refl v
      have hn : ∀ (n : Nat) (u : State), SameLine u (restorePasses c.tables n u) := by
        intro n
        induction n with
        | zero => intro u; unfold restorePasses; exact .refl u
        | succ n ih =>
          intro u
          unfold restorePasses
          dsimp only
          split
          · exact (hp u).trans (ih _)
          · exact hp u
      refine SameLine.trans ?_ (hn _ _)
      unfold State.loadTables
      dsimp only
      refine SameLine.trans ?_ (SameLine.foldl _ (fun v i => setSec_keeps v i _) allSections _)
      exact ⟨rfl, rfl, rfl, rfl⟩
  · exact .refl s

/-- What a POLL CALL leaves before its start request, port by port. -/
theorem answerPoll_keeps (s : State) (age : Nat) : (s.answerPoll age).phase = s.phase ∧
    (s.answerPoll age).up.fifo = s.up.fifo ∧ (s.answerPoll age).dn = s.dn ∧ (s.answerPoll age).link = s.link ∧
    (s.answerPoll age).cyc.inFlight = s.cyc.inFlight := by
  unfold State.answerPoll State.queueBurst
  split <;> exact ⟨rfl, rfl, rfl, rfl, rfl⟩

/-- A start is made from a state in service in which a request is served at once. -/
theorem startsFrom_free {s b : State} {k : Instr} (h : s.StartsFrom k b) : b.Free ∧ b.phase = .inService := by
  cases h with
  | localPeriod hf hs _ => exact ⟨⟨⟨hf.quiet, hf.waiting⟩, hf.noCycle, hf.noTest⟩, hs⟩
  | poll hf hu =>
    obtain ⟨h1, h2, h3, h4, h5⟩ := answerPoll_keeps (s.heard .up) 0
    have hd : (s.heard .up).dn = s.dn := rfl
    exact ⟨⟨⟨⟨h2.trans hf.quiet.1, by rw [h3]; exact hf.quiet.2⟩, by rw [h3]; exact hf.waiting⟩,
      h5.trans hf.noCycle, by rw [h4]; exact hf.noTest⟩, h1.trans hu.inService⟩
  | loss hf hs _ _ =>
    obtain ⟨h1, h2, -⟩ := afterLoss_says s
    obtain ⟨h3, h4⟩ := afterLoss_ports s
    refine ⟨⟨⟨⟨by rw [h3]; exact hf.quiet.1, by rw [h4]; exact hf.quiet.2⟩, by rw [h4]; exact hf.waiting⟩,
      by rw [h1]; exact hf.noCycle, by rw [h2]; exact hf.noTest⟩, ?_⟩
    obtain ⟨mg, st, e⟩ := afterLoss_form s
    rw [e]
    exact (Kept.lossOnSections_phase s).trans hs
  | @cycleEnd c q hf hr _ _ ht =>
    obtain ⟨h1, h2, h3, h4, h5⟩ := closeSlot_keeps s c q
    rw [finishCycle_form]
    exact ⟨⟨⟨⟨(congrArg Port.fifo h2).trans hf.quiet.1, (congrArg Port.fifo h3).trans hf.quiet.2⟩,
      (congrArg Port.asm h3).trans hf.waiting⟩, rfl, (congrArg LinkTest.running h4).trans ht⟩, h1.trans hr.inService⟩
  | testEnd hf hs _ _ _ hc _ => exact ⟨⟨⟨⟨hf.quiet.1, rfl⟩, rfl⟩, hc, rfl⟩, hs⟩
  | testJudged hf hs _ _ _ hc _ _ => exact ⟨⟨⟨⟨hf.quiet.1, rfl⟩, rfl⟩, hc, rfl⟩, hs⟩
  | service hf _ =>
    obtain ⟨h1, h2, h3, h4⟩ := restore_keeps s
    refine ⟨⟨⟨⟨?_, ?_⟩, ?_⟩, ?_, ?_⟩, rfl⟩
    · exact (congrArg Port.fifo h1).trans hf.quiet.1
    · exact (congrArg Port.fifo h2).trans hf.quiet.2
    · exact (congrArg Port.asm h2).trans hf.waiting
    · exact (congrArg CycleCtl.inFlight h4).trans hf.noCycle
    · exact (congrArg LinkTest.running h3).trans hf.noTest

/-- A property the leaf operations keep holds of the state a start is made from. -/
theorem Kept.startsFrom {I : State → Prop} (L : Kept I) {s b : State} {k : Instr} (h : s.StartsFrom k b) (hs : I s) :
    I b := by
  cases h with
  | localPeriod hf hp _ => exact (L.sCyc ⟨hs, hp⟩ _).1
  | poll hf hu => exact (L.answerPoll (L.sUp ⟨hs, hu.inService⟩ s.up.heard (.calm rfl rfl)) 0).1
  | loss hf hp _ _ => exact (L.afterLoss ⟨hs, hp⟩).1
  | @cycleEnd c q hf hr _ _ _ => exact (L.finishCycle (L.closeSlot ⟨hs, hr.inService⟩ c q) c).1
  | testEnd hf hp _ _ _ _ _ => exact (L.leaveLoopback (L.sLink ⟨hs, hp⟩ _)).1
  | testJudged hf hp _ _ _ _ _ _ => exact (L.leaveLoopback (L.sLink ⟨hs, hp⟩ _)).1
  | service hf hp => exact (L.enterService hp hs).1

/-- What a start leaves, once the gap entry of the driver it enables is taken. -/
def State.started (b : State) : State :=
  if b.computedStart.presentSecs = [] then b.computedStart else b.computedStart.launched

theorem requestStart_free {b : State} (h : b.Free) : b.requestStart.settle = b.started := by
  rw [requestStart_settle h.quiet h.waiting, if_pos ⟨h.noCycle, h.noTest⟩]; rfl

theorem startCycle_free {b : State} (h : b.Free) : b.startCycle.settle = b.started := startCycle_settle h.quiet h.waiting

theorem exec_pollCall {s : State} (h : s.UpReady) :
    exec .pollCall s = .next ((s.heard .up).answerPoll 0).requestStart.settle := by
  have e0 : exec .pollCall s = .next (s.serving fun t => t.receiveFrame .up 0 kindPollCall []) := rfl
  rw [e0, serving_inService h.inService]
  refine congrArg _ ?_
  have e : (s.heard .up).handOff .up 0 kindPollCall [] (s.stamp .up) =
      ((s.heard .up).answerPoll 0).requestStart := by
    show State.handOffUp _ _ _ _ _ = _
    unfold State.handOffUp
    rw [if_neg (fun e => absurd e.1 (by decide)), if_pos ⟨rfl, rfl⟩]
    rfl
  have := receiveFrame_settles h.quiet (receives_up h) h.waiting 0 kindPollCall [] (by simp) (filterKeeps_zero s) (by
    rw [e]
    show ((s.heard .up).answerPoll 0).requestStart.up.fifo = []
    rw [requestStart_up, (answerPoll_keeps _ _).2.1]
    exact h.quiet.1)
  rw [this, e]

/-- A slot ends: its result, its section's window completion, and what follows (R35 to R37). -/
theorem exec_slotEnd {s : State} {c : Cycle} {q : SlotRef} (h : s.SlotRuns c q) :
    exec .slotEnd s = .next ((s.closeSlot c q).afterSlot c) := by
  show Host.Outcome.next (s.serving fun t => t.endSlot.settle) = _
  rw [serving_inService h.inService]
  have hc : c.current = some q := by unfold Cycle.current; rw [if_pos h.windowOpen]; exact h.slot
  have e : s.endSlot = if c.pos + 1 < c.slots.length then s.closeSlot c q else (s.closeSlot c q).endCycle c := by
    unfold State.endSlot; simp only [h.inFlight, hc]
  rw [e]
  unfold State.afterSlot
  split
  · obtain ⟨_, h2, h3, _, _⟩ := closeSlot_keeps s c q
    rw [settle_quiet ⟨by rw [h2]; exact h.quiet.1, by rw [h3]; exact h.quiet.2⟩]
  · rfl

/-- An ECHO TEST frame after the last one due ends the test (R17, R18). -/
theorem judgeEcho_last {s : State} (b : Option BadKind) (hn : 15 ≤ s.link.frameNo) :
    s.judgeEcho b = (s.setLink (s.link.judged b)).endLinkTest := by
  unfold State.judgeEcho
  rw [if_neg (by omega)]

/-- A deferred start after the end of the link test is served at once (R18). -/
theorem endLinkTest_starts {s : State} (h : s.cyc.pendingStart = true) : s.endLinkTest = s.leaveLoopback.startCycle := by
  show s.leaveLoopback.servePending = _
  unfold State.servePending
  rw [if_pos]
  show (s.cyc.pendingStart && !false) = true
  rw [h]; rfl

/-- A driver enabled with its gap timer stopped stores no gap entry (R3). -/
theorem startCycle_noGap {b : State} (h : b.dn.fifo = []) (hg : b.dn.gapTimer = none) : b.startCycle.dn.fifo = [] := by
  have e1 : b.computedStart.dn = b.dn := (computedStart_secsOnly b).keeps.2.2.2.1
  unfold State.startCycle
  dsimp only
  split
  · rw [e1]; exact h
  · unfold State.launchCycle
    rw [mapPresent_form]
    show b.computedStart.dn.enable.fifo = []
    rw [e1]
    unfold Port.enable
    rw [hg]
    exact h

/-- The last ECHO TEST frame handed over, with a start deferred (R17, R18). -/
theorem exec_lastEcho {s : State} {pl : List Byte} (hq : s.Still) (hs : s.phase = .inService)
    (hl : s.link.loopback = true) (ha : s.link.awaiting = true) (hn : 15 ≤ s.link.frameNo)
    (hd : s.cyc.pendingStart = true) (hlen : pl.length = 16) :
    exec (.echoTest pl) s = .next ((s.setLink (s.link.judged (if pl = echoPayload s.link.frameNo then none
      else some .check))).leaveLoopback.startCycle).settle := by
  show Host.Outcome.next (s.serving fun t => if t.link.loopback then t.receiveFrame .dn 0 kindEchoTest pl else t) = _
  rw [serving_inService hs, if_pos hl]
  have hr : s.receives .dn = true := by unfold State.receives; rw [hs, hl]; rfl
  have e : (s.heard .dn).handOff .dn 0 kindEchoTest pl (s.stamp .dn) =
      (s.setLink (s.link.judged (if pl = echoPayload s.link.frameNo then none else some .check))).leaveLoopback.startCycle := by
    show State.handOffDn _ _ _ _ _ = _
    unfold State.handOffDn
    rw [if_pos (by exact hl), if_pos ⟨rfl, rfl⟩]
    unfold State.lengthOr State.takeEcho
    rw [if_pos (by rw [hlen]; rfl), if_pos (by exact ha), judgeEcho_last _ (by exact hn),
      endLinkTest_starts (by exact hd)]
    rfl
  have hg := startCycle_noGap (b := (s.setLink (s.link.judged (if pl = echoPayload s.link.frameNo then none
    else some .check))).leaveLoopback) rfl rfl
  rw [← e] at hg ⊢
  have hk : s.filterKeeps .dn 0 = true := by
    show (if s.link.loopback then (0 : Byte) == 0 else s.cyc.pollInForce.contains 0) = true
    rw [hl]; rfl
  exact congrArg _ (receiveFrame_settles hq.quiet hr hq.waiting 0 kindEchoTest pl (by omega) hk hg)

/-- A command that makes a start leaves what the start leaves (R30 to R32). -/
theorem exec_starts {s b : State} {k : Instr} (h : s.StartsFrom k b) : exec k s = .next b.started := by
  obtain ⟨hf, hp⟩ := startsFrom_free h
  rw [← requestStart_free hf]
  cases h with
  | localPeriod _ hs ht =>
    show Host.Outcome.next (s.serving fun t => if t.cyc.localTimer.isSome then t.expireLocal.settle else t) = _
    rw [serving_inService hs, if_pos (by revert ht; cases s.cyc.localTimer <;> simp)]
    rfl
  | poll _ hu => exact exec_pollCall hu
  | loss _ hs hu ht =>
    show Host.Outcome.next (s.serving fun t => if t.lossTimerRuns then t.takeLoss.settle else t) = _
    rw [serving_inService hs, if_pos (by
      unfold State.lossTimerRuns; rw [hu]; revert ht; cases s.cyc.lossTimer <;> simp)]
    rfl
  | @cycleEnd c q _ hr hl hd ht =>
    rw [exec_slotEnd hr]
    unfold State.afterSlot
    rw [if_neg (by omega)]
    obtain ⟨_, _, _, h4, h5⟩ := closeSlot_keeps s c q
    have e : (s.closeSlot c q).endCycle c = ((s.closeSlot c q).finishCycle c).startCycle := by
      show ((s.closeSlot c q).finishCycle c).afterCycle = _
      unfold State.afterCycle State.servePending
      have e1 : ((s.closeSlot c q).finishCycle c).link.running = false := by
        rw [finishCycle_form]; exact (congrArg LinkTest.running h4).trans ht
      have e2 : ((s.closeSlot c q).finishCycle c).cyc.pendingStart = true := by
        rw [finishCycle_form]; exact (congrArg CycleCtl.pendingStart h5).trans hd
      rw [if_neg (by rw [e1]; simp), if_pos (by rw [e1, e2]; rfl)]
    rw [e, startCycle_free hf, requestStart_free hf]
  | testEnd _ hs hl ha hn hc hd =>
    show Host.Outcome.next (s.serving fun t => if t.link.loopback && t.link.awaiting then
      (t.judgeEcho (some .missing)).settle else t) = _
    rw [serving_inService hs, if_pos (by rw [hl, ha]; rfl), judgeEcho_last _ hn,
      endLinkTest_starts (by exact hd), startCycle_free hf, requestStart_free hf]
  | @testJudged pl hq hs hl ha hn hc hd hlen =>
    rw [requestStart_free hf, exec_lastEcho hq hs hl ha hn hd hlen, startCycle_free hf]
  | service hq hs =>
    show Host.Outcome.next (if s.phase = .startUp then s.comeIntoService.settle else s) = _
    rw [if_pos hs]
    unfold State.comeIntoService
    exact rfl

end Sys2Proof.Machine
end

