-- ==== Sys2Proof/Laws/Buffers.lean ====
section
/-! SUPPORT. Every leaf operation keeps both FIFOs within their places, and both transmit queues (R6,
R14). -/

namespace Sys2Proof.Machine

open Sys2Proof

theorem State.BuffersBounded.same {s t : State} (h : s.BuffersBounded) (h1 : t.up = s.up) (h2 : t.dn = s.dn) :
    t.BuffersBounded := ⟨by rw [h1]; exact h.up, by rw [h2]; exact h.dn, by rw [h1]; exact h.upQueue, by rw [h2]; exact h.dnQueue⟩

theorem State.BuffersBounded.secs {s t : State} (h : s.BuffersBounded) (k : SecsOnly s t) : t.BuffersBounded :=
  h.same k.keeps.2.2.1 k.keeps.2.2.2.1

theorem makePresent_ports (s : State) (i : Fin 16) : (s.makePresent i).up = s.up ∧ (s.makePresent i).dn = s.dn :=
  ⟨rfl, rfl⟩

/-- A pass of the restore touches no port. -/
theorem restorePass_ports (s : State) (t : SavedTables) : (s.restorePass t).up = s.up ∧ (s.restorePass t).dn = s.dn := by
  have key : ∀ (l : List (Fin 16)) (u : State), (l.foldl (State.tryPresent t) u).up = u.up ∧
      (l.foldl (State.tryPresent t) u).dn = u.dn := by
    intro l
    induction l with
    | nil => intro u; exact ⟨rfl, rfl⟩
    | cons a l ih =>
      intro u
      rw [List.foldl_cons, (ih _).1, (ih _).2]
      unfold State.tryPresent
      split
      · exact makePresent_ports u a
      · exact ⟨rfl, rfl⟩
  exact key allSections s

theorem restorePasses_ports (t : SavedTables) (n : Nat) (s : State) :
    (restorePasses t n s).up = s.up ∧ (restorePasses t n s).dn = s.dn := by
  induction n generalizing s with
  | zero => exact ⟨rfl, rfl⟩
  | succ n ih =>
    unfold restorePasses
    dsimp only
    split
    · rw [(ih _).1, (ih _).2]; exact restorePass_ports s t
    · exact restorePass_ports s t

theorem loadTables_ports (s : State) (t : SavedTables) : (s.loadTables t).up = s.up ∧ (s.loadTables t).dn = s.dn := by
  have key : ∀ (l : List (Fin 16)) (u : State),
      (l.foldl (fun w i => w.setSec i (Section.ofSaved t.sections[i])) u).up = u.up ∧
      (l.foldl (fun w i => w.setSec i (Section.ofSaved t.sections[i])) u).dn = u.dn := by
    intro l
    induction l with
    | nil => intro u; exact ⟨rfl, rfl⟩
    | cons a l ih => intro u; rw [List.foldl_cons, (ih _).1, (ih _).2]; exact ⟨rfl, rfl⟩
  unfold State.loadTables
  generalize allSections = l
  dsimp only
  rw [(key l _).1, (key l _).2]
  exact ⟨rfl, rfl⟩

/-- The restore touches no port. -/
theorem restore_ports (s : State) : s.restore.up = s.up ∧ s.restore.dn = s.dn := by
  unfold State.restore
  split
  · split
    · exact ⟨rfl, rfl⟩
    · rw [(restorePasses_ports _ _ _).1, (restorePasses_ports _ _ _).2]; exact loadTables_ports s _
  · exact ⟨rfl, rfl⟩

/-- No FIFO and no transmit queue ever holds more than it has places. -/
theorem buffersBounded_kept : Kept State.BuffersBounded where
  resets _ _ _ _ _ := ⟨Nat.zero_le _, Nat.zero_le _, Nat.zero_le _, Nat.zero_le _⟩
  comesIntoService s _ h := h.same (restore_ports s).1 (restore_ports s).2
  queue _ _ h := h.same rfl rfl
  port s p x hx h := by
    obtain ⟨hf, ht⟩ := hx
    cases p
    · exact ⟨hf.elim id (·.trans h.up), h.dn, ht.elim id (·.trans h.upQueue), h.dnQueue⟩
    · exact ⟨h.up, hf.elim id (·.trans h.dn), h.upQueue, ht.elim id (·.trans h.dnQueue)⟩
  cyc _ _ h := h.same rfl rfl
  mgmt _ _ h := h.same rfl rfl
  part _ _ h := h.same rfl rfl
  link _ _ h := h.same rfl rfl
  saves _ h := h.same rfl rfl
  store _ _ _ _ h := h.same rfl rfl
  announceStart s h := h.1.secs (announceStart_secsOnly s)
  computeSec _ _ h := h.1.same rfl rfl
  clearFaultResets s h := h.1.secs (mapPresent_secsOnly s _ fun _ => ⟨rfl, rfl, rfl⟩)
  applyLineCommand s c h := h.1.secs (applyLineCommand_secsOnly s c)
  sectionStop s i m h := h.1.secs (sectionStop_secsOnly s i m)
  sectionRun s i m h := h.1.secs (sectionRun_secsOnly s i m)
  lossOnSections s h := h.1.same (lossOnSections_secsOnly s).keeps.2.2.1 (lossOnSections_secsOnly s).keeps.2.2.2.1
  deliverSlot s c q h := h.1.secs (deliverSlot_secsOnly s c q)
  monitorCompletion s i h := h.1.secs (monitorCompletion_secsOnly s i)
  loadShare _ _ h := h.1.same rfl rfl
  runnerCompletion s i h := h.1.secs (runnerCompletion_secsOnly s i)
  adjustDraw s i d m h := h.1.secs (adjustDraw_secsOnly s i d m)
  toCascade _ _ _ h := h.1.same rfl rfl
  toFollow _ _ h := h.1.same rfl rfl
  releaseTrip _ _ _ h := h.1.same rfl rfl
  startTest s r i k _ h := h.1.secs ((setRunner_testsOnly s r _).secsOnly.trans (enterStep_secsOnly _ r k))
  pauseTest _ _ _ h := h.1.same rfl rfl
  resumeTest _ _ _ h := h.1.same rfl rfl
  stopRunner s r _ h := h.1.secs (stopRunner_testsOnly s r).secsOnly
  dropLog s n h := h.1.secs (dropLog_secsOnly s n)
  makePresent _ _ _ _ h := h.1.same rfl rfl
  withdraw _ _ _ _ h := h.1.same rfl rfl
  takeSetting _ _ _ _ _ _ _ h := h.1.same rfl rfl
  setRating _ _ _ _ _ _ _ h := h.1.same rfl rfl
  setWeight _ _ _ _ _ _ h := h.1.same rfl rfl
  setStep _ _ _ _ _ _ _ h := h.1.same rfl rfl

end Sys2Proof.Machine
end

