-- ==== Sys2Proof/Laws/SectionsKept.lean ====
section
/-! SUPPORT. What a step can do to the section entries, said once: a property of entries that every section operation
keeps, and that the saved tables carry with them, is kept by every step. -/

namespace Sys2Proof.Machine

open Sys2Proof

/-- The section operations keep `P`, what is saved of an entry carries it as `Q`, and step records keep `R`. -/
structure EntryLaw (P : Section → Prop) (Q : SavedSection → Prop) (R : StepRecord → Prop) : Prop where
  reset : P Section.reset
  compute : ∀ x l b o, P x → P (x.compute l b o)
  adjust : ∀ (x : Section) d b, P x → P ({ x with draw := clampInt (-500) 500 (x.draw + d) }.formRatio b)
  compensate : ∀ x r, P x → P (x.compensate r)
  toCascade : ∀ x b, P x → P (x.toCascade b)
  toFollow : ∀ x, P x → P x.toFollow
  orderStop : ∀ x m, P x → P (x.takeOrder m).orderStop
  orderRun : ∀ x m c b, P x → P ((x.takeOrder m).orderRun c b)
  lineCommand : ∀ x c, P x → P (x.lineCommand c)
  upstreamLoss : ∀ x, P x → P x.upstreamLoss
  beginCycle : ∀ x, P x → P x.beginCycle
  takeReport : ∀ x j r, P x → P (x.setMember j ((x.member j).takeReport r))
  takeMiss : ∀ x j, P x → P (x.setMember j (x.member j).takeMiss)
  completeMembers : ∀ x, P x → P x.completeMembers
  degrade : ∀ x l, P x → P (x.degrade l)
  trip : ∀ x c j, P x → P (x.trip c j)
  disarm : ∀ x, P x → P x.disarm
  loadShare : ∀ x, P x → P x.loadShare
  releaseTrip : ∀ x, x.runState = .tripped → P x → P x.releaseTrip
  setWeight : ∀ x j v w, ranged 1 100 v = some w → P x → P (x.setWeight j w)
  setRating : ∀ (x : Section) j v w, x.present = false → ratingOf v = some w → P x →
    P (x.setMember j { x.member j with rating := w })
  stepWeight : ∀ x j k, k.action = .weight → R k → P x → P (x.setWeight j k.v)
  clearFaultResets : ∀ x, P x → P x.clearFaultResets
  madePresent : ∀ x d, x.present = false → x.Fit → P x → P (x.madePresent d)
  withdrawn : ∀ x, x.runState = .stopped → P x → P x.withdrawn
  takeSetting : ∀ (x : Section) f v c, x.cfg.writeField f v = some c → (structuralField f = true → x.present = false) →
    P x → P (x.takeSetting f c)
  ofSaved : ∀ v, Q v → P (Section.ofSaved v)
  saved : ∀ x, P x → Q x.saved
  resetStep : R StepRecord.reset
  writeStep : ∀ (k : StepRecord) f v x, k.writeField f v = .ok x → R k → R x

/-- Saved tables carry `Q` in every entry and `R` in every step record. -/
def SavedTables.All (Q : SavedSection → Prop) (R : StepRecord → Prop) (t : SavedTables) : Prop :=
  (∀ i : Fin 16, Q t.sections[i]) ∧ ∀ k : Fin 96, R t.steps[k]

/-- A store carries `Q` and `R` in its snapshot and in its copy. -/
def Store.All (Q : SavedSection → Prop) (R : StepRecord → Prop) (x : Store) : Prop :=
  (∀ t, x.snapshot = some t → t.All Q R) ∧ ∀ c, x.copy = some c → c.tables.All Q R

/-- Every entry has `P`, every step record `R`, and the store carries `Q` and `R`. -/
def State.All (P : Section → Prop) (Q : SavedSection → Prop) (R : StepRecord → Prop) (s : State) : Prop :=
  (∀ i, P (s.sec i)) ∧ s.store.All Q R ∧ ∀ k, R (s.stepRec k)

namespace EntryLaw

variable {P : Section → Prop} {Q : SavedSection → Prop} {R : StepRecord → Prop}

/-- What changes neither entries, store nor step pool. -/
theorem same {s t : State} (h : s.All P Q R) (h1 : t.sections = s.sections) (h2 : t.store = s.store)
    (h3 : t.steps = s.steps) : t.All P Q R :=
  ⟨fun i => by rw [sec_congr h1]; exact h.1 i, by rw [h2]; exact h.2.1,
    fun k => by rw [stepRec_congr h3]; exact h.2.2 k⟩

theorem tests {s t : State} (h : s.All P Q R) (k : TestsOnly s t) : t.All P Q R :=
  same h k.sections k.secsOnly.store k.secsOnly.steps

theorem modSec {s : State} (h : s.All P Q R) (i : Fin 16) (f : Section → Section) (hf : P (s.sec i) → P (f (s.sec i))) :
    (s.modSec i f).All P Q R := by
  refine ⟨fun j => ?_, h.2⟩
  rw [sec_modSec]
  split
  · exact hf (h.1 i)
  · exact h.1 j

theorem foldl {α : Type} (f : State → α → State) (hf : ∀ s a, s.All P Q R → (f s a).All P Q R) (l : List α) {s : State}
    (h : s.All P Q R) : (l.foldl f s).All P Q R := by
  induction l generalizing s with
  | nil => exact h
  | cons a l ih => exact ih (hf s a h)

theorem mapPresent {s : State} (h : s.All P Q R) (f : Section → Section) (hf : ∀ x, P x → P (f x))
    (hp : ∀ x, SamePlace x (f x)) : (s.mapPresent f).All P Q R := by
  have k := mapPresent_secsOnly s f hp
  refine ⟨fun i => ?_, by rw [k.store]; exact h.2.1, fun j => by rw [stepRec_congr k.steps]; exact h.2.2 j⟩
  rw [sec_mapPresent]
  split
  · exact hf _ (h.1 i)
  · exact h.1 i

variable (L : EntryLaw P Q R)
include L

/-! ## Tests and section table -/

theorem adjustDraw {s : State} (h : s.All P Q R) (i : Fin 16) (d : Int) (m : DrawMode) :
    (s.adjustDraw i d m).state.All P Q R := by
  have h1 : (s.adjustOwn i d).All P Q R := modSec h i _ (L.adjust _ _ _)
  cases m
  · exact h1
  · exact foldl _ (fun t c ht => modSec ht c _ (L.compensate _ _)) _ h1

theorem entryEffect {s : State} (h : s.All P Q R) (r : Fin 4) (i : Fin 16) (k : StepRecord) (hk : R k) :
    (s.entryEffect r i k).All P Q R := by
  unfold State.entryEffect
  split
  · exact h
  · exact h
  · exact tests h (setRunner_testsOnly s r _)
  · exact tests h (setRunner_testsOnly s r _)
  · exact tests h (setRunner_testsOnly s r _)
  · exact tests (L.adjustDraw h i _ _) (setRunner_testsOnly _ r _)
  · next ha => exact modSec h i _ (L.stepWeight _ _ k ha hk)

theorem enterStep {s : State} (h : s.All P Q R) (r : Fin 4) (k : Fin 96) : (s.enterStep r k).All P Q R := by
  unfold State.enterStep
  split
  · exact h
  · split
    · exact tests h ((setRunner_testsOnly s r _).trans (abortRunner_testsOnly _ r _))
    · exact L.entryEffect (tests h (setRunner_testsOnly s r _)) r _ _ (h.2.2 k)

theorem goOn {s : State} (h : s.All P Q R) (r : Fin 4) : (s.goOn r).All P Q R := by
  unfold State.goOn
  split
  · exact h
  · split
    · exact L.enterStep h r _
    · exact tests h (completeTest_testsOnly s r)

theorem stepEnd {s : State} (h : s.All P Q R) (r : Fin 4) (k : StepRecord) (o : RecordOutcome) :
    (s.stepEnd r k o).All P Q R := by
  unfold State.stepEnd
  split
  · exact L.goOn h r
  · split
    · exact L.goOn (tests h (writeRecord_testsOnly s _)) r
    · exact tests h ((setRunner_testsOnly s r _).trans (joinWaiters_testsOnly _ r))

theorem serveRunner {s : State} (h : s.All P Q R) (r : Fin 4) : (s.serveRunner r).All P Q R := by
  unfold State.serveRunner
  refine L.goOn (tests h (TestsOnly.trans ?_ (leaveWaiters_testsOnly _ r))) r
  refine TestsOnly.trans ?_ (setRunner_testsOnly _ r _)
  split
  · exact .refl s
  · exact writeRecord_testsOnly s _

theorem serveWaiters (n : Nat) {s : State} (h : s.All P Q R) : (State.serveWaiters n s).All P Q R := by
  induction n generalizing s with
  | zero => exact h
  | succ n ih =>
    unfold State.serveWaiters
    split
    · exact h
    · split
      · exact ih (L.serveRunner h _)
      · exact h

theorem dropLog {s : State} (h : s.All P Q R) (n : Nat) : (s.dropLog n).All P Q R := by
  unfold State.dropLog
  have h1 := tests h (dropRecords_testsOnly s n)
  split
  · exact h1
  · exact L.serveWaiters _ h1

theorem runnerCompletion {s : State} (h : s.All P Q R) (i : Fin 16) : (s.runnerCompletion i).All P Q R := by
  unfold State.runnerCompletion
  split
  · exact h
  · rename_i r _
    split
    · rename_i k _ _
      unfold State.progressStep
      have hr := setRunner_testsOnly s r ((s.runner r).judged (s.stepRec k) (s.sec i) (s.sec i).full)
      have h1 := tests h hr
      dsimp only
      split
      · exact tests h1 (abortRunner_testsOnly _ r _)
      · split
        · exact L.stepEnd h1 r _ _
        · split
          · split
            · exact L.stepEnd h1 r _ _
            · split
              · exact L.stepEnd h1 r _ _
              · exact tests h1 (abortRunner_testsOnly _ r _)
          · exact h1
    · exact h

theorem sectionStop {s : State} (h : s.All P Q R) (i : Fin 16) (m : Int) : (s.sectionStop i m).All P Q R := by
  unfold State.sectionStop
  have h1 : (s.modSec i fun x => (x.takeOrder m).orderStop).All P Q R := modSec h i _ (L.orderStop _ m)
  dsimp only
  split
  · exact tests h1 (abortClaimant_testsOnly _ i _)
  · exact h1

theorem sectionRun {s : State} (h : s.All P Q R) (i : Fin 16) (m : Int) : (s.sectionRun i m).All P Q R :=
  modSec h i _ (L.orderRun _ m _ _)

theorem applyLineCommand {s : State} (h : s.All P Q R) (c : LineCommand) : (s.applyLineCommand c).All P Q R :=
  tests (mapPresent h _ (fun x => L.lineCommand x c) fun x => lineCommand_place x c) (abortAll_testsOnly _ _ _)

theorem announceStart {s : State} (h : s.All P Q R) : s.announceStart.All P Q R :=
  tests (mapPresent h _ L.beginCycle beginCycle_place) (abortAll_testsOnly _ _ _)

theorem computeChain {s : State} (h : s.All P Q R) : s.computeChain.All P Q R :=
  foldl _ (fun _ i ht => modSec ht i _ (L.compute _ _ _ _)) _ h

theorem enterTripped {s : State} (h : s.All P Q R) (i : Fin 16) (c : StopCause) (j : Option (Fin 4)) :
    (s.enterTripped i c j).All P Q R :=
  tests (modSec h i _ (L.trip _ c j)) (modNotices_testsOnly _ _)

theorem releaseCheck {s : State} (h : s.All P Q R) (i : Fin 16) : (s.releaseCheck i).All P Q R := by
  unfold State.releaseCheck
  have h1 : (s.modSec i Section.disarm).All P Q R := modSec h i _ (L.disarm _)
  dsimp only
  split
  · split
    · split
      · exact L.enterTripped h1 i _ _
      · exact h1
    · exact h1
  · exact h

theorem monitorCompletion {s : State} (h : s.All P Q R) (i : Fin 16) : (s.monitorCompletion i).All P Q R := by
  unfold State.monitorCompletion State.judgeMoving
  have h1 : (s.modSec i Section.completeMembers).All P Q R := modSec h i _ (L.completeMembers _)
  dsimp only
  split
  · split
    · exact tests (L.enterTripped h1 i _ _) (abortClaimant_testsOnly _ i _)
    · exact modSec h1 i _ (L.degrade _ _)
  · exact L.releaseCheck h1 i

theorem windowCompletion {s : State} (h : s.All P Q R) (i : Fin 16) : (s.windowCompletion i).All P Q R :=
  L.runnerCompletion (modSec (L.monitorCompletion h i) i _ (L.loadShare _)) i

theorem deliverSlot {s : State} (h : s.All P Q R) (c : Cycle) (q : SlotRef) : (s.deliverSlot c q).All P Q R := by
  unfold State.deliverSlot
  split
  · exact h
  · split
    · exact modSec h _ _ (L.takeReport _ _ _)
    · split
      · exact h
      · exact modSec h _ _ (L.takeMiss _ _)

omit L in
/-- The present checks leave an entry that is fit to be present (R44). -/
theorem fit_of_presentRefusal {s : State} {i : Fin 16} (h : s.presentRefusal i = none) : (s.sec i).Fit := by
  unfold State.presentRefusal at h
  dsimp only at h
  split at h
  · cases h
  · next h1 =>
    split at h
    · cases h
    · split at h
      · cases h
      · split at h
        · cases h
        · next h2 =>
          split at h
          · cases h
          · split at h
            · cases h
            · next h3 =>
              split at h
              · cases h
              · split at h
                · cases h
                · split at h
                  · cases h
                  · next h4 =>
                    refine ⟨h1, fun e => h2 (Or.inl e), ?_, by omega, fun j hj => ?_⟩
                    · by_contra e
                      exact h2 (Or.inr e)
                    · have := List.find?_eq_none.mp h4 j (by
                        unfold Section.slots
                        rw [List.mem_filter]
                        exact ⟨by fin_cases j <;> simp [allSlots], by simpa using hj⟩)
                      simpa using this

theorem makePresent {s : State} (h : s.All P Q R) (i : Fin 16) (h0 : (s.sec i).present = false)
    (h1 : s.presentRefusal i = none) : (s.makePresent i).All P Q R := by
  have h2 : (s.modSec i fun x => x.madePresent (s.depthFor i)).All P Q R :=
    modSec h i _ (L.madePresent _ (s.depthFor i) h0 (fit_of_presentRefusal h1))
  exact ⟨h2.1, h2.2⟩

theorem withdraw {s : State} (h : s.All P Q R) (i : Fin 16) (h0 : (s.sec i).runState = .stopped) :
    (s.withdraw i).All P Q R := by
  have h2 : (s.modSec i Section.withdrawn).All P Q R := modSec h i _ (L.withdrawn _ h0)
  exact ⟨h2.1, h2.2⟩

/-! ## Resets and the restore -/

omit L in
theorem sec_reset (s : State) (ph : Phase) (w : Byte) (i : Fin 16) : (s.resetBlocks ph w).sec i = Section.reset := by
  simp [State.resetBlocks, State.sec, State.reset]

omit L in
theorem stepRec_reset (s : State) (ph : Phase) (w : Byte) (k : Fin 96) :
    (s.resetBlocks ph w).stepRec k = StepRecord.reset := by
  simp [State.resetBlocks, State.stepRec, State.reset]

theorem resetBlocks {s : State} (h : s.All P Q R) (ph : Phase) (w : Byte) : (s.resetBlocks ph w).All P Q R := by
  refine ⟨fun i => by rw [sec_reset]; exact L.reset, ⟨fun t (ht : none = some t) => (nomatch ht), fun c hc => ?_⟩,
    fun k => by rw [stepRec_reset]; exact L.resetStep⟩
  have hs : (s.resetBlocks ph w).store.copy = if s.store.state = .saving then none else s.store.copy := rfl
  rw [hs] at hc
  split at hc
  · cases hc
  · exact h.2.1.2 c hc

theorem loadTables {s : State} (h : s.All P Q R) (t : SavedTables) (ht : t.All Q R) : (s.loadTables t).All P Q R := by
  refine foldl _ (fun u i hu => modSec hu i (fun _ => Section.ofSaved t.sections[i]) fun _ => L.ofSaved _ (ht.1 i)) _ ?_
  exact ⟨h.1, h.2.1, ht.2⟩

theorem restorePass {s : State} (h : s.All P Q R) (t : SavedTables) : (s.restorePass t).All P Q R := by
  refine foldl _ (fun u i hu => ?_) _ h
  unfold State.tryPresent
  split
  · next hc =>
    simp only [Bool.and_eq_true, Bool.not_eq_true', Option.isNone_iff_eq_none] at hc
    exact L.makePresent hu i hc.1.2 hc.2
  · exact hu

theorem restorePasses (t : SavedTables) (n : Nat) {s : State} (h : s.All P Q R) : (restorePasses t n s).All P Q R := by
  induction n generalizing s with
  | zero => exact h
  | succ n ih =>
    unfold Machine.restorePasses
    dsimp only
    split
    · exact ih (L.restorePass h t)
    · exact L.restorePass h t

theorem restore {s : State} (h : s.All P Q R) : s.restore.All P Q R := by
  unfold State.restore
  split
  · split
    · exact h
    · next c hc => exact L.restorePasses _ _ (L.loadTables h _ (h.2.1.2 c hc))
  · exact h

theorem snapshot {s : State} (h : s.All P Q R) : s.snapshot.All Q R := by
  refine ⟨fun i => ?_, h.2.2⟩
  have : s.snapshot.sections[i] = (s.sec i).saved := by fin_cases i <;> rfl
  rw [this]
  exact L.saved _ (h.1 i)

/-- Every step keeps `P` of every entry, `Q` of everything saved and `R` of every step record. -/
theorem kept : Kept (State.All P Q R) where
  resets _ ph w _ h := L.resetBlocks h ph w
  comesIntoService _ _ h := ⟨(L.restore h).1, (L.restore h).2⟩
  queue _ _ h := ⟨h.1, h.2⟩
  port _ p _ _ h := by cases p <;> exact ⟨h.1, h.2⟩
  cyc _ _ h := ⟨h.1, h.2⟩
  mgmt _ _ h := ⟨h.1, h.2⟩
  part _ _ h := ⟨h.1, h.2⟩
  link _ _ h := ⟨h.1, h.2⟩
  saves s h := ⟨h.1, ⟨fun t ht => by cases ht; exact L.snapshot h, fun c hc => by cases hc⟩, h.2.2⟩
  store s y h1 h2 h := by
    refine ⟨h.1, ⟨fun t ht => h.2.1.1 t (h1 t ht), fun c hc => ?_⟩, h.2.2⟩
    rcases h2 c hc with hc | hc
    · exact h.2.1.2 c hc
    · exact h.2.1.1 _ hc
  announceStart _ h := L.announceStart h.1
  computeSec _ i h := modSec h.1 i _ (L.compute _ _ _ _)
  clearFaultResets _ h := mapPresent h.1 _ L.clearFaultResets fun _ => ⟨rfl, rfl, rfl⟩
  applyLineCommand _ c h := L.applyLineCommand h.1 c
  sectionStop _ i m h := L.sectionStop h.1 i m
  sectionRun _ i m h := L.sectionRun h.1 i m
  lossOnSections s h := by
    have h1 : (s.modCyc fun c => { c with upState := .lost, lossTimer := none }).All P Q R := same h.1 rfl rfl rfl
    exact tests (mapPresent h1 _ L.upstreamLoss upstreamLoss_place) (abortAll_testsOnly _ _ _)
  deliverSlot _ c q h := L.deliverSlot h.1 c q
  monitorCompletion _ i h := L.monitorCompletion h.1 i
  loadShare _ i h := modSec h.1 i _ (L.loadShare _)
  runnerCompletion _ i h := L.runnerCompletion h.1 i
  adjustDraw _ i d m h := L.adjustDraw h.1 i d m
  toCascade _ i b h := modSec h.1 i _ (L.toCascade _ b)
  toFollow _ i h := modSec h.1 i _ (L.toFollow _)
  releaseTrip _ i ht h := modSec h.1 i _ (L.releaseTrip _ ht)
  startTest s r i k _ h := L.enterStep (tests h.1 (setRunner_testsOnly s r _)) r k
  pauseTest s r _ h := tests h.1 (setRunner_testsOnly s r _)
  resumeTest s r _ h := tests h.1 (setRunner_testsOnly s r _)
  stopRunner s r _ h := tests h.1 (stopRunner_testsOnly s r)
  dropLog _ n h := L.dropLog h.1 n
  makePresent _ i h0 h1 h := L.makePresent h.1 i h0 h1
  withdraw s i _ hr h := by
    refine L.withdraw h.1 i ?_
    unfold State.withdrawRefusal at hr
    split at hr
    · cases hr
    · split at hr
      · cases hr
      · next hs => simpa using hs
  takeSetting _ i f v c hc hs h := modSec h.1 i _ (L.takeSetting _ f v c hc hs)
  setRating _ i j v w h0 hw h := modSec h.1 i _ (L.setRating _ j v w h0 hw)
  setWeight _ i j v w hw h := modSec h.1 i _ (L.setWeight _ j v w hw)
  setStep _ k f v x _ hw h := by
    refine ⟨h.1.1, h.1.2.1, fun l => ?_⟩
    rw [stepRec_setStep]
    split
    · exact L.writeStep _ f v x hw (h.1.2.2 k)
    · exact h.1.2.2 l

end EntryLaw

end Sys2Proof.Machine
end

