-- ==== Sys2Proof/Laws/SectionsSound.lean ====
section
/-! SUPPORT. The ranges of section entries under each operation of the section table, the draw cascade, the load-share
unit and the member monitor. -/

namespace Sys2Proof.Machine

open Sys2Proof

/-! ## Arithmetic -/

theorem clampInt_range {lo hi : Int} (h : lo ≤ hi) (x : Int) : lo ≤ clampInt lo hi x ∧ clampInt lo hi x ≤ hi := by
  unfold clampInt
  split
  · omega
  · split <;> omega

/-- A value within the range stays as it is. -/
theorem clampInt_of_mem {lo hi x : Int} (h1 : lo ≤ x) (h2 : x ≤ hi) : clampInt lo hi x = x := by
  unfold clampInt
  split
  · omega
  · split <;> omega

/-- The ramp stays between where it is and its goal (R71). -/
theorem rampToward_range {lo hi cur goal step : Int} (hs : 0 ≤ step) (h1 : lo ≤ cur ∧ cur ≤ hi)
    (h2 : lo ≤ goal ∧ goal ≤ hi) : lo ≤ rampToward cur goal step ∧ rampToward cur goal step ≤ hi := by
  have hm : ∀ x : Int, magnitude x = x ∨ magnitude x = -x := fun x => by
    unfold magnitude
    split <;> simp
  have hg := hm (goal - cur)
  have hn : 0 ≤ magnitude (goal - cur) := by
    unfold magnitude
    split <;> omega
  unfold rampToward
  split
  · exact h2
  · split <;> omega

/-! ## Members -/

theorem slot_mem (j : Fin 4) : j ∈ allSlots := by fin_cases j <;> simp [allSlots]

theorem Member.Sound.reset : Member.reset.Sound 0 :=
  ⟨Or.inl rfl, ⟨by decide, by decide⟩, by decide, by decide, by decide⟩

theorem Member.Sound.takeReport {m : Member} {t : Int} (h : m.Sound t) (r : MemberRep) : (m.takeReport r).Sound t :=
  ⟨h.rating, h.weight, clampInt_range (by omega) _, clampInt_range (by omega) _, h.trim⟩

theorem Member.Sound.takeMiss {m : Member} {t : Int} (h : m.Sound t) : m.takeMiss.Sound t :=
  ⟨h.rating, h.weight, h.speed, h.torque, h.trim⟩

theorem Member.Sound.zeroShare {m : Member} {t : Int} (ht : 0 ≤ t) (h : m.Sound t) : m.zeroShare.Sound t :=
  ⟨h.rating, h.weight, h.speed, h.torque, by simp only [Member.zeroShare]; omega⟩

theorem Member.Sound.completed {m : Member} {t : Int} (ht : 0 ≤ t) (h : m.Sound t) (l : Nat) (r : RunState) :
    (m.completed l r).Sound t := by
  unfold Member.completed
  split
  · exact h
  · split
    · exact ⟨h.rating, h.weight, h.speed, h.torque, h.trim⟩
    · exact h
  · exact ⟨h.rating, h.weight, h.speed, h.torque, h.trim⟩
  · exact h
  · exact h
  · split
    · exact Member.Sound.zeroShare ht ⟨h.rating, h.weight, h.speed, h.torque, h.trim⟩
    · exact ⟨h.rating, h.weight, h.speed, h.torque, h.trim⟩

theorem Member.completed_rating (m : Member) (l : Nat) (r : RunState) : (m.completed l r).rating = m.rating := by
  unfold Member.completed
  split
  · rfl
  · split <;> rfl
  · rfl
  · rfl
  · rfl
  · split <;> rfl

theorem Member.completed_trim (m : Member) (l : Nat) (r : RunState) (h : m.trim = 0) :
    (m.completed l r).trim = 0 := by
  unfold Member.completed
  split
  · exact h
  · split <;> exact h
  · exact h
  · exact h
  · exact h
  · split
    · rfl
    · exact h

/-! ## Entries -/

namespace Section

theorem Fit.of {x y : Section} (h : x.Fit) (hc : y.cfg = x.cfg) (hr : ∀ j, (y.member j).rating = (x.member j).rating) :
    y.Fit :=
  ⟨by rw [hc]; exact h.upAddr, by rw [hc]; exact h.memberBase, by rw [hc]; exact h.aligned,
    by rw [hc]; exact h.maxSpeed, fun j hj => by rw [hr]; rw [hc] at hj; exact h.rated j hj⟩

/-- The entry after an operation that leaves its members alone. -/
theorem Sound.ofFields {x y : Section} (h : x.Sound) (hc : y.cfg = x.cfg) (hm : y.members = x.members)
    (hp : y.present = true → x.present = true) (draw : -500 ≤ y.draw ∧ y.draw ≤ 500)
    (ratio : 900000 ≤ y.ratio ∧ y.ratio ≤ 1100000) (observed : 900000 ≤ y.observed ∧ y.observed ≤ 1100000)
    (master : 0 ≤ y.master ∧ y.master ≤ 250000) (orderAge : y.orderAge ≤ 255)
    (applied : 0 ≤ y.applied ∧ (x.present = true → y.applied ≤ x.cfg.maxSpeed))
    (atRest : y.runState = .stopped ∨ y.runState = .tripped → y.applied = 0 ∧ ∀ j, (x.member j).trim = 0) :
    y.Sound := by
  have hj : ∀ j, y.member j = x.member j := fun j => by unfold Section.member; rw [hm]
  exact ⟨by rw [hc]; exact h.cfg, draw, ratio, observed, master, orderAge,
    ⟨applied.1, fun e => by rw [hc]; exact applied.2 (hp e)⟩,
    fun e => ⟨(atRest e).1, fun j => by rw [hj]; exact (atRest e).2 j⟩, by rw [hj]; exact h.lead,
    fun j => by rw [hj, hc]; exact h.members j, fun e => (h.fit (hp e)).of hc fun j => by rw [hj]⟩

/-- The entry after an operation that leaves all but its members alone. -/
theorem Sound.ofMembers {x : Section} (h : x.Sound) (f : Fin 4 → Member → Member)
    (hs : ∀ j, (f j (x.member j)).Sound x.cfg.trimLimit) (hr : ∀ j, (f j (x.member j)).rating = (x.member j).rating)
    (h0 : ∀ j, (x.member j).trim = 0 → (x.runState = .running → j = 0) → (f j (x.member j)).trim = 0)  :
    (x.mapMembers f).Sound := by
  refine ⟨h.cfg, h.draw, h.ratio, h.observed, h.master, h.orderAge, h.applied, fun e => ⟨(h.atRest e).1, fun j => ?_⟩,
    ?_, fun j => ?_, fun e => (h.fit e).of rfl fun j => ?_⟩
  · rw [member_mapMembers]
    refine h0 j ((h.atRest e).2 j) fun hr => ?_
    have e' : x.runState = .stopped ∨ x.runState = .tripped := e
    rw [hr] at e'
    simp at e'
  · rw [member_mapMembers]; exact h0 0 h.lead fun _ => rfl
  · rw [member_mapMembers]; exact hs j
  · rw [member_mapMembers]; exact hr j

/-- Flags and load say nothing about the ranges. -/
theorem Sound.withFlags {x : Section} (h : x.Sound) (g : SectionFlags) : ({ x with flags := g } : Section).Sound :=
  h.ofFields rfl rfl id h.draw h.ratio h.observed h.master h.orderAge h.applied h.atRest

theorem Sound.withLoad {x : Section} (h : x.Sound) (l : Int) : ({ x with load := l } : Section).Sound :=
  h.ofFields rfl rfl id h.draw h.ratio h.observed h.master h.orderAge h.applied h.atRest

theorem Sound.trimLimit_nonneg {x : Section} (h : x.Sound) : 0 ≤ x.cfg.trimLimit := h.cfg.trimLimit.1

theorem Sound.zeroTrims {x : Section} (h : x.Sound) : x.zeroTrims.Sound := by
  refine Sound.withFlags (h.ofMembers _ (fun j => ?_) (fun j => rfl) (fun j _ _ => rfl)) _
  have := h.trimLimit_nonneg
  exact ⟨(h.members j).rating, (h.members j).weight, (h.members j).speed, (h.members j).torque, by
    constructor <;> dsimp only <;> omega⟩

theorem zeroTrims_trim (x : Section) (j : Fin 4) : (x.zeroTrims.member j).trim = 0 := by
  have : x.zeroTrims.member j = { x.member j with trim := 0 } := member_mapMembers x (fun _ m => { m with trim := 0 }) j
  rw [this]

theorem Sound.formRatio {x : Section} (h : x.Sound) (b : Int) : (x.formRatio b).Sound :=
  h.ofFields rfl rfl id h.draw (clampInt_range (by omega) _) h.observed h.master h.orderAge h.applied h.atRest

theorem Sound.withDraw {x : Section} (h : x.Sound) (d : Int) :
    ({ x with draw := clampInt (-500) 500 d } : Section).Sound :=
  h.ofFields rfl rfl id (clampInt_range (by omega) _) h.ratio h.observed h.master h.orderAge h.applied h.atRest

theorem Sound.ratioStage {x : Section} (h : x.Sound) (l b : Int) : (x.ratioStage l b).Sound := by
  unfold Section.ratioStage
  split
  · exact h.formRatio b
  · unfold Section.followRatio
    split
    · exact h.ofFields rfl rfl id h.draw (clampInt_range (by omega) _) (clampInt_range (by omega) _) h.master h.orderAge
        h.applied h.atRest
    · exact h.ofFields rfl rfl id h.draw h.observed h.observed h.master h.orderAge h.applied h.atRest

theorem Sound.targetStage {x : Section} (h : x.Sound) (l : Int) : (x.targetStage l).Sound := by
  unfold Section.targetStage
  split
  · exact h.ofFields rfl rfl id h.draw h.ratio h.observed h.master h.orderAge h.applied h.atRest
  · exact h.ofFields rfl rfl id h.draw h.ratio h.observed h.master h.orderAge h.applied h.atRest

theorem Sound.stopStep_nonneg {x : Section} (h : x.Sound) : 0 ≤ x.stopStep := by
  have h1 := h.cfg.quickRamp
  have h2 := h.cfg.stopRamp
  unfold Section.stopStep
  split <;> omega

theorem Sound.rampStage {x : Section} (h : x.Sound) (o : Int) : (x.rampStage o).Sound := by
  have hm := h.cfg.maxSpeed
  have ha := h.cfg.accel
  unfold Section.rampStage
  split
  · next hr =>
    refine h.ofFields rfl rfl id h.draw h.ratio h.observed h.master h.orderAge ?_ ?_
    · have hg := clampInt_range hm.1 (x.target + o)
      have h0 : (0 : Int) ≤ x.cfg.accel := by omega
      exact ⟨(rampToward_range (hi := max x.applied x.cfg.maxSpeed) h0 ⟨h.applied.1, le_max_left _ _⟩
        ⟨hg.1, hg.2.trans (le_max_right _ _)⟩).1, fun e => (rampToward_range h0 ⟨h.applied.1, h.applied.2 e⟩ hg).2⟩
    · intro e
      have e' : x.runState = .stopped ∨ x.runState = .tripped := e
      rw [hr] at e'; simp at e'
  · next hr =>
    refine h.ofFields rfl rfl id h.draw h.ratio h.observed h.master h.orderAge ?_ ?_
    · have h0 := h.stopStep_nonneg
      exact ⟨(rampToward_range (hi := x.applied) h0 ⟨h.applied.1, Int.le_refl _⟩ ⟨Int.le_refl _, h.applied.1⟩).1,
        fun e => (rampToward_range h0 ⟨h.applied.1, h.applied.2 e⟩ ⟨Int.le_refl _, hm.1⟩).2⟩
    · intro e
      have e' : x.runState = .stopped ∨ x.runState = .tripped := e
      rw [hr] at e'; simp at e'
  · next hr =>
    refine h.ofFields rfl rfl id h.draw h.ratio h.observed h.master h.orderAge ?_ fun _ => ⟨rfl, (h.atRest (Or.inl hr)).2⟩
    dsimp only; omega
  · next hr =>
    refine h.ofFields rfl rfl id h.draw h.ratio h.observed h.master h.orderAge ?_ fun _ => ⟨rfl, (h.atRest (Or.inr hr)).2⟩
    dsimp only; omega

theorem Sound.enterStopped {x : Section} (h : x.Sound) (ha : x.applied = 0) : x.enterStopped.Sound := by
  have hz := h.zeroTrims
  exact hz.ofFields rfl rfl id h.draw h.ratio h.observed h.master h.orderAge hz.applied
    fun _ => ⟨ha, x.zeroTrims_trim⟩

theorem Sound.compute {x : Section} (h : x.Sound) (l b o : Int) : (x.compute l b o).Sound := by
  have h1 := ((h.ratioStage l b).targetStage l).rampStage o
  unfold Section.compute
  generalize ((x.ratioStage l b).targetStage l).rampStage o = y at h1
  unfold Section.settleStop
  split
  · next hs => exact h1.enterStopped hs.2
  · exact h1

theorem Sound.takeOrder {x : Section} (h : x.Sound) (m : Int) : (x.takeOrder m).Sound :=
  h.ofFields rfl rfl id h.draw h.ratio h.observed (clampInt_range (by omega) _) (Nat.zero_le _) h.applied h.atRest

/-- Run state, causes, stop-seen and release check may change in a moving entry, or to a moving one. -/
theorem Sound.moves {x y : Section} (h : x.Sound) (hc : y.cfg = x.cfg) (hm : y.members = x.members)
    (hp : y.present = x.present) (h1 : y.draw = x.draw) (h2 : y.ratio = x.ratio) (h3 : y.observed = x.observed)
    (h4 : y.master = x.master) (h5 : y.orderAge = x.orderAge) (h6 : y.applied = x.applied)
    (hs : y.runState = .stopped ∨ y.runState = .tripped → x.runState = .stopped ∨ x.runState = .tripped) : y.Sound :=
  h.ofFields hc hm (by rw [hp]; exact id) (by rw [h1]; exact h.draw) (by rw [h2]; exact h.ratio)
    (by rw [h3]; exact h.observed) (by rw [h4]; exact h.master) (by rw [h5]; exact h.orderAge)
    (by rw [h6]; exact h.applied) fun e => by rw [h6]; exact h.atRest (hs e)

theorem Sound.orderStop {x : Section} (h : x.Sound) : x.orderStop.Sound := by
  unfold Section.orderStop
  split
  · exact h.moves rfl rfl rfl rfl rfl rfl rfl rfl rfl id
  · exact h.moves rfl rfl rfl rfl rfl rfl rfl rfl rfl (by simp)
  · split
    · exact h.moves rfl rfl rfl rfl rfl rfl rfl rfl rfl id
    · exact h
  · exact h

theorem Sound.orderRun {x : Section} (h : x.Sound) (c : LineCommand) (b : Bool) : (x.orderRun c b).Sound := by
  unfold Section.orderRun
  split
  · exact h
  · exact h
  · split
    · exact h.moves rfl rfl rfl rfl rfl rfl rfl rfl rfl id
    · exact h.moves rfl rfl rfl rfl rfl rfl rfl rfl rfl (by simp)
  · split
    · exact h.moves rfl rfl rfl rfl rfl rfl rfl rfl rfl (by simp)
    · exact h.moves rfl rfl rfl rfl rfl rfl rfl rfl rfl id

theorem Sound.stopWith {x : Section} (h : x.Sound) (c : StopCause) : (x.stopWith c).Sound :=
  h.moves rfl rfl rfl rfl rfl rfl rfl rfl rfl (by simp [Section.stopWith])

theorem Sound.lineCommand {x : Section} (h : x.Sound) (c : LineCommand) : (x.lineCommand c).Sound := by
  cases c
  · show x.lineStop.Sound
    unfold Section.lineStop
    split
    · exact h.stopWith _
    · split
      · exact h.stopWith _
      · exact h
    · exact h
    · exact h
  · exact h
  · show x.lineQuickStop.Sound
    unfold Section.lineQuickStop
    split
    · exact h.stopWith _
    · split
      · exact h.stopWith _
      · split
        · exact h.moves rfl rfl rfl rfl rfl rfl rfl rfl rfl id
        · exact h
    · exact h
    · exact h

theorem Sound.upstreamLoss {x : Section} (h : x.Sound) : x.upstreamLoss.Sound := by
  unfold Section.upstreamLoss
  split
  · exact h.stopWith _
  · split
    · exact h.moves rfl rfl rfl rfl rfl rfl rfl rfl rfl id
    · exact h.moves rfl rfl rfl rfl rfl rfl rfl rfl rfl id
  · exact h.moves rfl rfl rfl rfl rfl rfl rfl rfl rfl id
  · exact h.moves rfl rfl rfl rfl rfl rfl rfl rfl rfl id

theorem Sound.ageOrder {x : Section} (h : x.Sound) : x.ageOrder.Sound := by
  have h1 : ({ x with orderAge := if x.orderAge < 255 then x.orderAge + 1 else 255 } : Section).Sound :=
    h.ofFields rfl rfl id h.draw h.ratio h.observed h.master (by dsimp only; split <;> omega) h.applied h.atRest
  unfold Section.ageOrder
  generalize ({ x with orderAge := if x.orderAge < 255 then x.orderAge + 1 else 255 } : Section) = y at h1
  dsimp only
  split
  · split
    · exact h1.stopWith _
    · split
      · exact h1.moves rfl rfl rfl rfl rfl rfl rfl rfl rfl id
      · exact h1
    · exact h1
    · exact h1
  · exact h1

theorem Sound.clearResults {x : Section} (h : x.Sound) : x.clearResults.Sound :=
  h.ofMembers _ (fun j => ⟨(h.members j).rating, (h.members j).weight, (h.members j).speed, (h.members j).torque,
    (h.members j).trim⟩) (fun _ => rfl) (fun _ h0 _ => h0)

theorem Sound.withRelease {x : Section} (h : x.Sound) (r : ReleaseCheck) : ({ x with release := r } : Section).Sound :=
  h.moves rfl rfl rfl rfl rfl rfl rfl rfl rfl id

theorem Sound.beginCycle {x : Section} (h : x.Sound) : x.beginCycle.Sound := by
  refine Sound.ageOrder ?_
  have h1 := h.clearResults
  unfold Section.releaseFallsDue
  split
  · exact h1.withRelease _
  · exact h1
  · exact h1

theorem Sound.setMember {x : Section} (h : x.Sound) (j : Fin 4) (m : Member) (hm : m.Sound x.cfg.trimLimit)
    (hr : x.present = true → m.rating = (x.member j).rating) (h0 : (x.member j).trim = 0 → m.trim = 0) :
    (x.setMember j m).Sound := by
  refine ⟨h.cfg, h.draw, h.ratio, h.observed, h.master, h.orderAge, h.applied, fun e => ⟨(h.atRest e).1, fun k => ?_⟩,
    ?_, fun k => ?_, fun e => (h.fit e).of rfl fun k => ?_⟩
  · rw [member_setMember]
    split
    · exact h0 ((h.atRest e).2 j)
    · exact (h.atRest e).2 k
  · rw [member_setMember]
    split
    · next hj => subst hj; exact h0 h.lead
    · exact h.lead
  · rw [member_setMember]
    split
    · exact hm
    · exact h.members k
  · rw [member_setMember]
    split
    · next hj => subst hj; exact hr e
    · rfl

theorem Sound.completeMembers {x : Section} (h : x.Sound) : x.completeMembers.Sound := by
  refine h.ofMembers _ (fun j => ?_) (fun j => ?_) (fun j h0 _ => ?_)
  · split
    · exact (h.members j).completed h.trimLimit_nonneg _ _
    · exact h.members j
  · split
    · exact Member.completed_rating _ _ _
    · rfl
  · split
    · exact Member.completed_trim _ _ _ h0
    · exact h0

theorem Sound.trip {x : Section} (h : x.Sound) (c : StopCause) (j : Option (Fin 4)) : (x.trip c j).Sound := by
  have hz := h.zeroTrims
  refine hz.ofFields rfl rfl id h.draw h.ratio h.observed h.master h.orderAge ?_ fun _ => ⟨rfl, x.zeroTrims_trim⟩
  exact ⟨Int.le_refl _, fun _ => hz.cfg.maxSpeed.1⟩

theorem Sound.releaseTrip {x : Section} (h : x.Sound) (ht : x.runState = .tripped) : x.releaseTrip.Sound := by
  have h1 : (x.mapMembers (fun j m =>
      if j.val < x.cfg.memberCount ∧ m.status.fault = true then { m with faultReset := true } else m)).Sound := by
    refine h.ofMembers _ (fun j => ?_) (fun j => ?_) (fun j h0 _ => ?_)
    · split
      · exact ⟨(h.members j).rating, (h.members j).weight, (h.members j).speed, (h.members j).torque,
          (h.members j).trim⟩
      · exact h.members j
    · split <;> rfl
    · split <;> exact h0
  exact h1.moves rfl rfl rfl rfl rfl rfl rfl rfl rfl fun _ => Or.inr ht

theorem Sound.updateTrims {x : Section} (h : x.Sound) : x.updateTrims.Sound := by
  unfold Section.updateTrims
  split
  · next hu =>
    have hr : x.runState = .running := by
      unfold Section.updatesTrims at hu
      simp only [Bool.and_eq_true, beq_iff_eq] at hu
      exact hu.1.1
    refine Sound.withFlags (h.ofMembers _ (fun j => ?_) (fun j => ?_) (fun j h0 hj => ?_)) _
    · split
      · unfold Member.updateTrim
        split
        · have := h.trimLimit_nonneg
          exact ⟨(h.members j).rating, (h.members j).weight, (h.members j).speed, (h.members j).torque,
            clampInt_range (by omega) _⟩
        · exact h.members j
      · exact h.members j
    · split
      · unfold Member.updateTrim
        split <;> rfl
      · rfl
    · have : x.followers.contains j = false := by
        rw [hj hr]
        simp [Section.followers]
      rw [this]
      exact h0
  · exact h

theorem Sound.loadShare {x : Section} (h : x.Sound) : x.loadShare.Sound := by
  unfold Section.loadShare
  refine Sound.updateTrims ?_
  have h1 : x.convertTorques.Sound := by
    refine h.ofMembers _ (fun j => ?_) (fun j => ?_) (fun j h0 _ => ?_)
    · split
      · exact ⟨(h.members j).rating, (h.members j).weight, (h.members j).speed, (h.members j).torque,
          (h.members j).trim⟩
      · exact h.members j
    · split <;> rfl
    · split <;> exact h0
  have h2 : x.convertTorques.formLoad.Sound := by
    unfold Section.formLoad
    split
    · exact h1
    · exact h1.withLoad _
  unfold Section.formShares
  split
  · refine h2.ofMembers _ (fun j => ?_) (fun j => ?_) (fun j h0 _ => ?_)
    · split
      · exact ⟨(h2.members j).rating, (h2.members j).weight, (h2.members j).speed, (h2.members j).torque,
          (h2.members j).trim⟩
      · exact h2.members j
    · split <;> rfl
    · split <;> exact h0
  · exact h2

theorem Sound.clearFaultResets {x : Section} (h : x.Sound) : x.clearFaultResets.Sound := by
  refine h.ofMembers _ (fun j => ?_) (fun j => ?_) (fun j h0 _ => ?_)
  · split
    · exact ⟨(h.members j).rating, (h.members j).weight, (h.members j).speed, (h.members j).torque,
        (h.members j).trim⟩
    · exact h.members j
  · split <;> rfl
  · split <;> exact h0

theorem Sound.madePresent {x : Section} (h : x.Sound) (hf : x.Fit) (d : Nat) : (x.madePresent d).Sound := by
  have hm : ∀ j, (x.madePresent d).member j =
      { x.member j with
        state := .absent, missCount := 0, result := .none, faultReset := false, speed := 0, torque := 0,
        converted := 0, shareTarget := 0, shareError := 0, trim := 0, status := MemberStatus.clear } := fun j =>
    member_mapMembers x (fun _ m =>
      { m with state := .absent, missCount := 0, result := .none, faultReset := false, speed := 0, torque := 0,
               converted := 0, shareTarget := 0, shareError := 0, trim := 0, status := MemberStatus.clear }) j
  have ht := h.trimLimit_nonneg
  have hx := h.cfg.maxSpeed
  refine ⟨h.cfg, h.cfg.initDraw, h.ratio,
    show (900000 : Int) ≤ 1000000 ∧ (1000000 : Int) ≤ 1100000 by decide,
    show (0 : Int) ≤ 0 ∧ (0 : Int) ≤ 250000 by decide, Nat.zero_le _, ⟨Int.le_refl _, fun _ => hx.1⟩,
    fun _ => ⟨rfl, fun j => by rw [hm]⟩, by rw [hm], fun j => ?_, fun _ => hf.of rfl fun j => by rw [hm]⟩
  rw [hm]
  refine ⟨(h.members j).rating, (h.members j).weight, show (-250000 : Int) ≤ 0 ∧ (0 : Int) ≤ 250000 by decide,
    show (-3000 : Int) ≤ 0 ∧ (0 : Int) ≤ 3000 by decide, ?_⟩
  show -x.cfg.trimLimit ≤ 0 ∧ 0 ≤ x.cfg.trimLimit
  omega

theorem Sound.withdrawn {x : Section} (h : x.Sound) : x.withdrawn.Sound :=
  h.ofFields rfl rfl (fun e => nomatch e) h.draw h.ratio h.observed h.master h.orderAge
    ⟨h.applied.1, h.applied.2⟩ h.atRest

end Section

/-! ## Writes -/

theorem ranged_some {lo hi v w : Int} (h : ranged lo hi v = some w) : lo ≤ w ∧ w ≤ hi := by
  unfold ranged inRange at h
  split at h
  · next hr => cases h; simpa using hr
  · cases h

theorem toByte_le {x : Int} {n : Nat} (h0 : 0 ≤ x) (h1 : x ≤ n) (hn : n < 256) : (toByte x).toNat ≤ n := by
  unfold toByte
  rw [BitVec.toNat_ofInt]
  omega

/-- A setting written within its range keeps every setting in its range. -/
theorem Settings.Sound.writeField {c d : Settings} (h : c.Sound) {f : Nat} {v : Int} (hw : c.writeField f v = some d) :
    d.Sound := by
  unfold Settings.writeField at hw
  split at hw <;> simp only [Option.map_eq_some_iff, reduceCtorEq] at hw
  all_goals obtain ⟨w, hw, rfl⟩ := hw
  · exact { h with upAddr := toByte_le (ranged_some hw).1 (ranged_some hw).2 (by omega) }
  · exact { h with memberBase := toByte_le (ranged_some hw).1 (ranged_some hw).2 (by omega) }
  · have := ranged_some hw
    exact { h with memberCount := by dsimp only; omega }
  · exact { h with }
  · exact { h with initDraw := ranged_some hw }
  · exact { h with }
  · exact { h with maxSpeed := ranged_some hw }
  · exact { h with accel := ranged_some hw }
  · exact { h with stopRamp := ranged_some hw }
  · exact { h with quickRamp := ranged_some hw }
  · have := ranged_some hw
    exact { h with orderHold := by dsimp only; omega }
  · have := ranged_some hw
    exact { h with missLimit := by dsimp only; omega }
  · exact { h with }
  · exact { h with }
  · exact { h with ki := ranged_some hw }
  · exact { h with deadband := ranged_some hw }
  · exact { h with trimLimit := ranged_some hw }
  · exact { h with shareEnable := ranged_some hw }

theorem writeField_frame {c d : Settings} {f : Nat} {v : Int} (hf : structuralField f = false)
    (hw : c.writeField f v = some d) :
    d.upAddr = c.upAddr ∧ d.memberBase = c.memberBase ∧ d.memberCount = c.memberCount ∧ d.drawBase = c.drawBase ∧
      d.maxSpeed = c.maxSpeed := by
  unfold Settings.writeField at hw
  split at hw <;> simp only [Option.map_eq_some_iff, reduceCtorEq] at hw
  all_goals obtain ⟨w, hw, rfl⟩ := hw
  all_goals first | exact ⟨rfl, rfl, rfl, rfl, rfl⟩ | (exfalso; revert hf; decide)

/-- Only a write of the trim limit changes it. -/
theorem writeField_trimLimit {c d : Settings} {f : Nat} {v : Int} (hf : f ≠ 17) (hw : c.writeField f v = some d) :
    d.trimLimit = c.trimLimit := by
  unfold Settings.writeField at hw
  split at hw <;> simp only [Option.map_eq_some_iff, reduceCtorEq] at hw
  all_goals obtain ⟨w, hw, rfl⟩ := hw
  all_goals first | rfl | exact absurd rfl hf

/-- Only a write of the max speed changes it. -/
theorem writeField_maxSpeed {c d : Settings} {f : Nat} {v : Int} (hf : f ≠ 7) (hw : c.writeField f v = some d) :
    d.maxSpeed = c.maxSpeed := by
  unfold Settings.writeField at hw
  split at hw <;> simp only [Option.map_eq_some_iff, reduceCtorEq] at hw
  all_goals obtain ⟨w, hw, rfl⟩ := hw
  all_goals first | rfl | exact absurd rfl hf

theorem Section.Sound.takeSetting {x : Section} (h : x.Sound) {f : Nat} {v : Int} {c : Settings}
    (hw : x.cfg.writeField f v = some c) (hp : structuralField f = true → x.present = false) :
    (x.takeSetting f c).Sound := by
  have hc := h.cfg.writeField hw
  have hfit : ∀ y : Section, y.cfg = c → y.present = x.present → (∀ j, (y.member j).rating = (x.member j).rating) →
      y.present = true → y.Fit := by
    intro y h1 h2 h3 h4
    have hs : structuralField f = false := by
      by_contra hs
      have := hp (by simpa using hs)
      rw [h2, this] at h4
      cases h4
    have hx := h.fit (by rw [← h2]; exact h4)
    obtain ⟨e1, e2, e3, _, e5⟩ := writeField_frame hs hw
    refine ⟨by rw [h1, e1]; exact hx.upAddr, by rw [h1, e2]; exact hx.memberBase, ?_, by rw [h1, e5]; exact hx.maxSpeed,
      fun j hj => ?_⟩
    · have : y.cfg.window = x.cfg.window := by rw [h1]; unfold Settings.window; rw [e3]
      rw [this, h1, e2]; exact hx.aligned
    · rw [h1, e3] at hj
      rw [h3]; exact hx.rated j hj
  have hmax : x.present = true → x.applied ≤ c.maxSpeed := fun e => by
    rw [writeField_maxSpeed (fun hf => by rw [hf] at hp; rw [hp rfl] at e; cases e) hw]
    exact h.applied.2 e
  unfold Section.takeSetting
  split
  · next hf =>
    have ht := hc.trimLimit.1
    have hm : ∀ j, (x.writeTrimLimit c.trimLimit).member j =
        if j = 0 then x.member j else { x.member j with trim := limitTrim c.trimLimit (x.member j).trim } := fun j =>
      member_mapMembers x (fun j m => if j = 0 then m else { m with trim := limitTrim c.trimLimit m.trim }) j
    have hcfg : (x.writeTrimLimit c.trimLimit).cfg = c := by
      subst hf
      unfold Settings.writeField at hw
      simp only [Option.map_eq_some_iff] at hw
      obtain ⟨w, _, rfl⟩ := hw
      rfl
    have h0 : limitTrim c.trimLimit 0 = 0 := clampInt_of_mem (by omega) (by omega)
    refine ⟨by rw [hcfg]; exact hc, h.draw, h.ratio, h.observed, h.master, h.orderAge,
      ⟨h.applied.1, fun e => by rw [hcfg]; exact hmax e⟩, fun e => ⟨(h.atRest e).1, fun j => ?_⟩, ?_, fun j => ?_,
      hfit _ hcfg rfl fun j => ?_⟩
    · rw [hm]
      split
      · exact (h.atRest e).2 j
      · dsimp only; rw [(h.atRest e).2 j, h0]
    · rw [hm]; exact h.lead
    · rw [hm, hcfg]
      split
      · next hj =>
        subst hj
        refine ⟨(h.members 0).rating, (h.members 0).weight, (h.members 0).speed, (h.members 0).torque, ?_⟩
        rw [h.lead]; omega
      · exact ⟨(h.members j).rating, (h.members j).weight, (h.members j).speed, (h.members j).torque,
          clampInt_range (by omega) _⟩
    · rw [hm]; split <;> rfl
  · next hf =>
    have ht := writeField_trimLimit hf hw
    exact ⟨hc, h.draw, h.ratio, h.observed, h.master, h.orderAge, ⟨h.applied.1, hmax⟩, h.atRest, h.lead,
      fun j => by show (x.member j).Sound c.trimLimit; rw [ht]; exact h.members j, hfit _ rfl rfl fun _ => rfl⟩

theorem Section.Sound.setRating {x : Section} (h : x.Sound) (hp : x.present = false) (j : Fin 4) {v w : Int}
    (hw : ratingOf v = some w) : (x.setMember j { x.member j with rating := w }).Sound := by
  refine h.setMember j _ ⟨?_, (h.members j).weight, (h.members j).speed, (h.members j).torque, (h.members j).trim⟩
    (fun e => by rw [hp] at e; cases e) id
  unfold ratingOf at hw
  split at hw
  · cases hw; exact Or.inl rfl
  · exact Or.inr (ranged_some hw)

/-! ## Step records -/

theorem inRange_iff {lo hi v : Int} : inRange lo hi v = true ↔ lo ≤ v ∧ v ≤ hi := by
  unfold inRange
  simp

theorem storedOr_ok {α : Type} {f : Nat} {x : Option α} {put : α → StepRecord} {y : StepRecord}
    (h : storedOr f x put = .ok y) : ∃ a, x = some a ∧ put a = y := by
  unfold storedOr at h
  split at h
  · cases h
  · next a => cases h; exact ⟨a, rfl, rfl⟩

theorem Condition.Sound.writeField {c d : Condition} (h : c.Sound) {base f : Nat} {v : Int}
    (hw : c.writeField base f v = .ok d) : d.Sound := by
  unfold Condition.writeField at hw
  dsimp only at hw
  split at hw
  · split at hw
    · cases hw
    · next b _ =>
      split at hw
      · cases hw
      · next hk =>
        cases hw
        refine { h with kinds := fun e => ?_ }
        have e' : b = true := e
        simpa [e', kindsMatch] using hk
  · split at hw
    · cases hw
    · split at hw
      · cases hw
      · next hk =>
        cases hw
        refine { h with kinds := fun e => ?_ }
        have e' : c.present = true := e
        simpa [e', kindsMatch] using hk
  · split at hw
    · cases hw
    · split at hw
      · cases hw
      · next hk =>
        cases hw
        refine { h with kinds := fun e => ?_ }
        have e' : c.present = true := e
        simpa [e', kindsMatch] using hk
  · split at hw
    · next hr => cases hw; exact { h with limit := inRange_iff.mp hr }
    · cases hw
  · split at hw
    · next hr => cases hw; exact { h with band := inRange_iff.mp hr }
    · cases hw
  · split at hw
    · next hr =>
      cases hw
      have := inRange_iff.mp hr
      exact { h with settle := by dsimp only; omega }
    · cases hw
  · cases hw

/-- A condition absent stays absent but at a write of 1 to its present field. -/
theorem Condition.writeField_present {c d : Condition} {base f : Nat} {v : Int} (hw : c.writeField base f v = .ok d)
    (hc : c.present = false) (hv : ¬(f = 0 ∧ v = 1)) : d.present = false := by
  unfold Condition.writeField at hw
  dsimp only at hw
  split at hw
  · split at hw
    · cases hw
    · next b hb =>
      split at hw
      · cases hw
      · cases hw
        unfold boolOf at hb
        split at hb
        · cases hb; rfl
        · split at hb
          · next h1 => exact absurd ⟨rfl, h1⟩ hv
          · cases hb
  all_goals first
    | (split at hw
       · cases hw
       · split at hw
         · cases hw
         · cases hw; exact hc)
    | (split at hw
       · cases hw; exact hc
       · cases hw)
    | cases hw

theorem StepRecord.Sound.writeField {k x : StepRecord} (h : k.Sound) {f : Nat} {v : Int}
    (hw : k.writeField f v = .ok x) : x.Sound := by
  have hn : ∀ a : Action, a.noAdvance = true ↔ a = .ramp ∨ a = .square := fun a => by cases a <;> decide
  unfold StepRecord.writeField at hw
  split at hw
  · obtain ⟨w, _, rfl⟩ := storedOr_ok hw
    exact { h with }
  · split at hw
    · cases hw
    · next a _ =>
      split at hw
      · cases hw
      · next hv =>
        split at hw
        · cases hw
        · next ha =>
          cases hw
          refine { h with v := by simpa using hv, noAdvance := fun e => ?_ }
          have := (hn a).mpr e
          simpa [this] using ha
  · split at hw
    · next hv => cases hw; exact { h with v := hv }
    · cases hw
  · obtain ⟨w, hr, rfl⟩ := storedOr_ok hw
    exact { h with v2 := ranged_some hr }
  · obtain ⟨w, hr, rfl⟩ := storedOr_ok hw
    have := ranged_some hr
    exact { h with d := by dsimp only; omega }
  · obtain ⟨w, hr, rfl⟩ := storedOr_ok hw
    have := ranged_some hr
    exact { h with d2 := by dsimp only; omega }
  · obtain ⟨w, hr, rfl⟩ := storedOr_ok hw
    have := ranged_some hr
    exact { h with repeats := by dsimp only; omega }
  · obtain ⟨w, _, rfl⟩ := storedOr_ok hw
    exact { h with }
  · obtain ⟨w, _, rfl⟩ := storedOr_ok hw
    exact { h with }
  · obtain ⟨w, _, rfl⟩ := storedOr_ok hw
    exact { h with }
  · obtain ⟨w, _, rfl⟩ := storedOr_ok hw
    exact { h with }
  · obtain ⟨w, _, rfl⟩ := storedOr_ok hw
    exact { h with }
  · split at hw
    · split at hw
      · cases hw
      · next hg =>
        cases hc : k.advance.writeField 12 (f - 12) v with
        | error b => rw [hc] at hw; cases hw
        | ok c =>
          rw [hc] at hw
          cases hw
          refine { h with advance := h.advance.writeField hc, noAdvance := fun e => ?_ }
          refine Condition.writeField_present hc (h.noAdvance e) fun hz => hg ⟨?_, hz.2, (hn k.action).mpr e⟩
          by_contra hne
          have hlt : f < 12 := by have := hz.1; omega
          interval_cases f <;> simp_all
    · cases hc : k.abort.writeField 18 (f - 18) v with
      | error b => rw [hc] at hw; cases hw
      | ok c => rw [hc] at hw; cases hw; exact { h with abort := h.abort.writeField hc }

theorem Condition.Sound.reset : Condition.reset.Sound := ⟨by decide, by decide, by decide, fun e => nomatch e⟩

theorem StepRecord.Sound.reset : StepRecord.reset.Sound :=
  ⟨by decide, by decide, by decide, by decide, by decide, fun _ => rfl, .reset, .reset⟩

/-! ## The law of the ranges -/

theorem Settings.Sound.reset : Settings.reset.Sound := by
  constructor <;> decide

theorem Section.Sound.reset : Section.reset.Sound := by
  have hm : ∀ j, Section.reset.member j = Member.reset := fun j => by
    simp [Section.member, Section.reset]
  refine ⟨.reset, by decide, by decide, by decide, by decide, by decide, ⟨by decide, fun e => nomatch e⟩,
    fun _ => ⟨rfl, fun j => by rw [hm]; rfl⟩, by rw [hm]; rfl, fun j => by rw [hm]; exact .reset, fun e => nomatch e⟩

theorem Section.Sound.ofSaved {v : SavedSection} (h : v.Sound) : (Section.ofSaved v).Sound := by
  have hr : ∀ j, Section.reset.member j = Member.reset := fun j => by
    simp [Section.member, Section.reset]
  have hm : ∀ j, (Section.ofSaved v).member j = { Member.reset with rating := v.ratings[j], weight := v.weights[j] } :=
    fun j => by
      rw [← hr j]
      exact member_mapMembers Section.reset (fun j m => { m with rating := v.ratings[j], weight := v.weights[j] }) j
  have ht := h.cfg.trimLimit.1
  have hx := h.cfg.maxSpeed.1
  refine ⟨h.cfg, show (-500 : Int) ≤ 0 ∧ (0 : Int) ≤ 500 by decide,
    show (900000 : Int) ≤ 1000000 ∧ (1000000 : Int) ≤ 1100000 by decide,
    show (900000 : Int) ≤ 1000000 ∧ (1000000 : Int) ≤ 1100000 by decide,
    show (0 : Int) ≤ 0 ∧ (0 : Int) ≤ 250000 by decide, Nat.zero_le _, ⟨Int.le_refl _, fun e => nomatch e⟩,
    fun _ => ⟨rfl, fun j => by rw [hm]; rfl⟩, by rw [hm]; rfl, fun j => ?_, fun e => nomatch e⟩
  rw [hm]
  refine ⟨h.ratings j, h.weights j, show (-250000 : Int) ≤ 0 ∧ (0 : Int) ≤ 250000 by decide,
    show (-3000 : Int) ≤ 0 ∧ (0 : Int) ≤ 3000 by decide, ?_⟩
  show -v.cfg.trimLimit ≤ 0 ∧ 0 ≤ v.cfg.trimLimit
  omega

theorem Section.Sound.saved {x : Section} (h : x.Sound) : x.saved.Sound := by
  refine ⟨?_, fun j => ?_, fun j => ?_⟩
  · show (if x.present then { x.cfg with initDraw := x.draw, initSource := x.source } else x.cfg).Sound
    split
    · exact { h.cfg with initDraw := h.draw }
    · exact h.cfg
  · have : x.saved.ratings[j] = (x.member j).rating := by fin_cases j <;> rfl
    rw [this]; exact (h.members j).rating
  · have : x.saved.weights[j] = (x.member j).weight := by fin_cases j <;> rfl
    rw [this]; exact (h.members j).weight

theorem Section.Sound.setWeight {x : Section} (h : x.Sound) (j : Fin 4) {w : Int} (hw : 1 ≤ w ∧ w ≤ 100) :
    (x.setWeight j w).Sound :=
  h.setMember j _ ⟨(h.members j).rating, hw, (h.members j).speed, (h.members j).torque, (h.members j).trim⟩
    (fun _ => rfl) id

/-- The ranges are kept by every operation on entries and step records. -/
theorem entriesSound : EntryLaw Section.Sound SavedSection.Sound StepRecord.Sound where
  reset := .reset
  compute _ l b o h := h.compute l b o
  adjust _ _ b h := (h.withDraw _).formRatio b
  compensate _ _ h := h.withDraw _
  toCascade x b h := by
    have h1 := h.withDraw (backDraw b x.observed)
    exact Section.Sound.formRatio (h1.moves (y := { x with draw := _, source := .cascade })
      rfl rfl rfl rfl rfl rfl rfl rfl rfl id) b
  toFollow _ h := h.ofFields rfl rfl id h.draw h.ratio h.ratio h.master h.orderAge h.applied h.atRest
  orderStop _ m h := (h.takeOrder m).orderStop
  orderRun _ m c b h := (h.takeOrder m).orderRun c b
  lineCommand _ c h := h.lineCommand c
  upstreamLoss _ h := h.upstreamLoss
  beginCycle _ h := h.beginCycle
  takeReport _ j r h := h.setMember j _ ((h.members j).takeReport r) (fun _ => rfl) id
  takeMiss _ j h := h.setMember j _ (h.members j).takeMiss (fun _ => rfl) id
  completeMembers _ h := h.completeMembers
  degrade x l h := by
    unfold Section.degrade
    split
    · exact h
    · exact h.withFlags _
  trip _ c j h := h.trip c j
  disarm _ h := h.withRelease _
  loadShare _ h := h.loadShare
  releaseTrip _ ht h := h.releaseTrip ht
  setWeight _ j _ _ hw h := h.setWeight j (ranged_some hw)
  setRating _ j _ _ hp hw h := h.setRating hp j hw
  stepWeight _ j k ha hk h := h.setWeight j (by
    have hv := hk.v
    rw [ha] at hv
    exact inRange_iff.mp hv)
  clearFaultResets _ h := h.clearFaultResets
  madePresent _ d _ hf h := h.madePresent hf d
  withdrawn _ _ h := h.withdrawn
  takeSetting _ _ _ _ hw hp h := h.takeSetting hw hp
  ofSaved _ h := .ofSaved h
  saved _ h := h.saved
  resetStep := .reset
  writeStep _ _ _ _ hw h := h.writeField hw

end Sys2Proof.Machine
end

