-- ==== Sys2Proof/Laws/ChainSound.lean ====
section
/-! SUPPORT. The chain order list under each operation (R47, R48). -/

namespace Sys2Proof.Machine

open Sys2Proof

/-- What leaves every entry in its place and the list alone; the draw base of an absent entry may change. -/
theorem State.ChainSound.ofPlaces {s t : State} (h : s.ChainSound) (hc : t.chain = s.chain)
    (hp : ∀ i, (t.sec i).present = (s.sec i).present) (hd : ∀ i, (t.sec i).depth = (s.sec i).depth)
    (hb : ∀ i, (s.sec i).present = true → (t.sec i).cfg.drawBase = (s.sec i).cfg.drawBase) : t.ChainSound := by
  have hb' : ∀ a b, s.ChainBefore a b → t.ChainBefore a b := fun a b e => by
    unfold State.ChainBefore at e ⊢
    rw [hd a, hd b]
    exact e
  refine ⟨fun i => ?_, ?_, fun i e => ?_, fun i e => ?_⟩
  · rw [hc, hp]; exact h.listed i
  · rw [hc]; exact h.ordered.imp (hb' _ _)
  · rw [hp] at e
    have := h.depths i e
    unfold State.DepthRight at this ⊢
    rw [hb i e]
    split
    · next g => rw [g] at this; rw [hd]; exact this
    · next b g => rw [g] at this; rw [hd, hd, hp]; exact this
  · rw [hp] at e; rw [hd]; exact h.withdrawn i e

theorem State.ChainSound.same {s t : State} (h : s.ChainSound) (hc : t.chain = s.chain)
    (hp : ∀ i, SamePlace (s.sec i) (t.sec i)) : t.ChainSound :=
  h.ofPlaces hc (fun i => (hp i).present) (fun i => (hp i).depth) fun i _ => (hp i).drawBase

theorem State.ChainSound.ofSecs {s t : State} (h : s.ChainSound) (k : SecsOnly s t) : t.ChainSound :=
  h.same k.keeps.2.2.2.2.2.2.1 k.place

/-- A list with no section present is sound. -/
theorem State.ChainSound.ofEmpty {s : State} (h1 : s.chain = []) (h2 : ∀ i, (s.sec i).present = false)
    (h3 : ∀ i, (s.sec i).depth = none) : s.ChainSound :=
  by
    refine ⟨fun i => ?_, ?_, fun i e => ?_, fun i _ => h3 i⟩
    · rw [h1, h2]; simp
    · rw [h1]; exact .nil
    · rw [h2] at e; cases e

/-! ## Insertion (R47) -/

/-- Inserting an element after those it follows keeps a list in order. -/
theorem pairwise_insert {α : Type} (R : α → α → Prop) (p : α → Bool) (a : α) (l : List α)
    (htrans : ∀ x y z, R x y → R y z → R x z) (hp : ∀ x ∈ l, p x = true → R x a) (hn : ∀ x ∈ l, p x = false → R a x)
    (h : l.Pairwise R) : (l.takeWhile p ++ a :: l.dropWhile p).Pairwise R := by
  induction l with
  | nil => exact List.pairwise_singleton R a
  | cons x l ih =>
    obtain ⟨h1, h2⟩ := List.pairwise_cons.mp h
    have ih' := ih (fun y hy => hp y (List.mem_cons_of_mem _ hy)) (fun y hy => hn y (List.mem_cons_of_mem _ hy)) h2
    by_cases hx : p x = true
    · rw [List.takeWhile_cons_of_pos hx, List.dropWhile_cons_of_pos hx, List.cons_append, List.pairwise_cons]
      refine ⟨fun y hy => ?_, ih'⟩
      rcases List.mem_append.mp hy with hy | hy
      · exact h1 y (List.takeWhile_subset p hy)
      · rcases List.mem_cons.mp hy with rfl | hy
        · exact hp x List.mem_cons_self hx
        · exact h1 y (List.dropWhile_subset p hy)
    · rw [List.takeWhile_cons_of_neg hx, List.dropWhile_cons_of_neg hx, List.nil_append, List.pairwise_cons]
      have hax := hn x List.mem_cons_self (by simpa using hx)
      refine ⟨fun y hy => ?_, h⟩
      rcases List.mem_cons.mp hy with rfl | hy
      · exact hax
      · exact htrans _ _ _ hax (h1 y hy)

theorem mem_insert {α : Type} (p : α → Bool) (a x : α) (l : List α) :
    x ∈ l.takeWhile p ++ a :: l.dropWhile p ↔ x = a ∨ x ∈ l := by
  have := List.takeWhile_append_dropWhile (p := p) (l := l)
  rw [List.mem_append, List.mem_cons]
  constructor
  · rintro (h | rfl | h)
    · exact Or.inr (List.takeWhile_subset p h)
    · exact Or.inl rfl
    · exact Or.inr (List.dropWhile_subset p h)
  · rintro (rfl | h)
    · exact Or.inr (Or.inl rfl)
    · rw [← this] at h
      rcases List.mem_append.mp h with h | h
      · exact Or.inl h
      · exact Or.inr (Or.inr h)

/-- An entry whose draw base is refused is not made present (R44). -/
theorem base_of_presentRefusal {s : State} {i b : Fin 16} (h : s.presentRefusal i = none)
    (hb : (s.sec i).cfg.drawBase = some b) : (s.sec b).present = true ∧ b ≠ i := by
  unfold State.presentRefusal at h
  dsimp only at h
  split at h
  · cases h
  · split at h
    · cases h
    · split at h
      · cases h
      · split at h
        · cases h
        · split at h
          · cases h
          · split at h
            · cases h
            · split at h
              · cases h
              · next hf =>
                rw [hb, Option.filter_some] at hf
                split at hf
                · cases hf
                · next hc =>
                  have : b ∈ s.presentSecs.filter fun k => k != i := by simpa using hc
                  rw [List.mem_filter, mem_presentSecs] at this
                  exact ⟨this.1, by simpa using this.2⟩

theorem State.ChainSound.makePresent {s : State} (h : s.ChainSound) (i : Fin 16) (h0 : (s.sec i).present = false)
    (h1 : s.presentRefusal i = none) : (s.makePresent i).ChainSound := by
  have hsec : ∀ j, (s.makePresent i).sec j = if i = j then (s.sec i).madePresent (s.depthFor i) else s.sec j := fun j =>
    sec_modSec s i j fun x => x.madePresent (s.depthFor i)
  have hch : (s.makePresent i).chain = s.insertChain i (s.depthFor i) := rfl
  have hi : (s.makePresent i).sec i = (s.sec i).madePresent (s.depthFor i) := by rw [hsec, if_pos rfl]
  have ho : ∀ j, j ≠ i → (s.makePresent i).sec j = s.sec j := fun j e => by rw [hsec, if_neg (Ne.symm e)]
  have hni : i ∉ s.chain := fun e => by rw [h.listed, h0] at e; cases e
  have hdi : ((s.makePresent i).sec i).depth = some (s.depthFor i) := by rw [hi]; rfl
  refine ⟨fun j => ?_, ?_, fun j e => ?_, fun j e => ?_⟩
  · rw [hch]
    unfold State.insertChain
    rw [mem_insert]
    by_cases e : j = i
    · subst e; rw [hi]; exact ⟨fun _ => rfl, fun _ => Or.inl rfl⟩
    · rw [ho j e, h.listed]
      exact ⟨fun x => x.resolve_left e, Or.inr⟩
  · rw [hch]
    unfold State.insertChain
    have hkey : ∀ x ∈ s.chain, x ≠ i := fun x hx e => hni (e ▸ hx)
    refine pairwise_insert (s.makePresent i).ChainBefore _ i s.chain ?_ ?_ ?_ ?_
    · intro x y z
      unfold State.ChainBefore
      intro e f
      rcases e with e | e <;> rcases f with f | f
      · exact Or.inl (by omega)
      · exact Or.inl (by omega)
      · exact Or.inl (by omega)
      · exact Or.inr ⟨by omega, by omega⟩
    · intro x hx e
      have e : ((s.sec x).depth.getD 0 < s.depthFor i) ∨ ((s.sec x).depth.getD 0 = s.depthFor i ∧ x < i) := by
        simpa [State.standsBefore] using e
      unfold State.ChainBefore
      rw [hdi, ho x (hkey x hx)]
      exact e
    · intro x hx e
      have e : ¬(((s.sec x).depth.getD 0 < s.depthFor i) ∨ ((s.sec x).depth.getD 0 = s.depthFor i ∧ x < i)) := by
        have := e
        simp only [State.standsBefore, Bool.or_eq_false_iff, decide_eq_false_iff_not, Bool.and_eq_false_iff,
          beq_eq_false_iff_ne] at this
        rintro (f | f)
        · exact this.1 f
        · rcases this.2 with g | g
          · exact g f.1
          · exact g f.2
      have hne : x ≠ i := hkey x hx
      unfold State.ChainBefore
      rw [hdi, ho x hne]
      show s.depthFor i < _ ∨ (s.depthFor i = _ ∧ i < x)
      have : x < i ∨ i < x := lt_or_gt_of_ne hne
      by_cases f : (s.sec x).depth.getD 0 = s.depthFor i
      · exact Or.inr ⟨f.symm, this.resolve_left fun g => e (Or.inr ⟨f, g⟩)⟩
      · refine Or.inl ?_
        have : ¬ (s.sec x).depth.getD 0 < s.depthFor i := fun g => e (Or.inl g)
        omega
    · refine h.ordered.imp_of_mem fun {x y} hx hy e => ?_
      unfold State.ChainBefore at e ⊢
      rw [ho x (hkey x hx), ho y (hkey y hy)]
      exact e
  · by_cases f : j = i
    · subst f
      unfold State.DepthRight
      rw [hdi, hi]
      show match (s.sec j).cfg.drawBase with
        | none => some (s.depthFor j) = some 1
        | some b => ((s.makePresent j).sec b).present = true ∧
            some (s.depthFor j) = some (((s.makePresent j).sec b).depth.getD 0 + 1)
      split
      · next hd => simp [State.depthFor, hd]
      · next b hd =>
        obtain ⟨hb, hne⟩ := base_of_presentRefusal h1 hd
        rw [ho b hne]
        exact ⟨hb, by simp [State.depthFor, hd]⟩
    · rw [ho j f] at e
      have hd := h.depths j e
      unfold State.DepthRight at hd ⊢
      rw [ho j f]
      split
      · next g => rw [g] at hd; exact hd
      · next b g =>
        rw [g] at hd
        have hb : b ≠ i := fun x => by
          have e2 := hd.1
          rw [x, h0] at e2; cases e2
        rw [ho b hb]
        exact hd
  · by_cases f : j = i
    · subst f; rw [hi] at e; cases e
    · rw [ho j f] at e ⊢; exact h.withdrawn j e

theorem State.ChainSound.withdraw {s : State} (h : s.ChainSound) (i : Fin 16) (hr : s.withdrawRefusal i = none) :
    (s.withdraw i).ChainSound := by
  have hsec : ∀ j, (s.withdraw i).sec j = if i = j then (s.sec i).withdrawn else s.sec j := fun j =>
    sec_modSec s i j _
  have hch : (s.withdraw i).chain = s.chain.filter fun k => k != i := rfl
  have hi : (s.withdraw i).sec i = (s.sec i).withdrawn := by rw [hsec, if_pos rfl]
  have ho : ∀ j, j ≠ i → (s.withdraw i).sec j = s.sec j := fun j e => by rw [hsec, if_neg (Ne.symm e)]
  have hdep : ∀ j, (s.sec j).present = true → (s.sec j).cfg.drawBase ≠ some i := by
    unfold State.withdrawRefusal at hr
    split at hr
    · cases hr
    · split at hr
      · cases hr
      · split at hr
        · cases hr
        · next hn =>
          intro j hj e
          have := List.find?_eq_none.mp hn j ((mem_presentSecs s j).mpr hj)
          simp [e] at this
  refine ⟨fun j => ?_, ?_, fun j e => ?_, fun j e => ?_⟩
  · rw [hch, List.mem_filter]
    by_cases f : j = i
    · subst f; rw [hi]; simp [Section.withdrawn]
    · rw [ho j f, h.listed]; simp [f]
  · rw [hch]
    refine (h.ordered.filter _).imp_of_mem fun {x y} hx hy e => ?_
    have hx : x ≠ i := by simpa using (List.mem_filter.mp hx).2
    have hy : y ≠ i := by simpa using (List.mem_filter.mp hy).2
    unfold State.ChainBefore at e ⊢
    rw [ho x hx, ho y hy]
    exact e
  · by_cases f : j = i
    · subst f; rw [hi] at e; cases e
    · rw [ho j f] at e
      have hd := h.depths j e
      have hb := hdep j e
      unfold State.DepthRight at hd ⊢
      rw [ho j f]
      split
      · next g => rw [g] at hd; exact hd
      · next b g =>
        rw [g] at hd hb
        have : b ≠ i := fun x => hb (by rw [x])
        rw [ho b this]
        exact hd
  · by_cases f : j = i
    · subst f; rw [hi]; rfl
    · rw [ho j f] at e ⊢; exact h.withdrawn j e

/-! ## Resets and the restore -/

theorem State.ChainSound.reset (s : State) (ph : Phase) (w : Byte) : (s.resetBlocks ph w).ChainSound := by
  have hs : ∀ i, (s.resetBlocks ph w).sec i = Section.reset := fun i => by
    simp [State.resetBlocks, State.sec, State.reset]
  exact .ofEmpty rfl (fun i => by rw [hs]; rfl) (fun i => by rw [hs]; rfl)

/-- After the tables are loaded no entry is present, and the chain order list is empty. -/
theorem loadTables_empty (s : State) (t : SavedTables) :
    (s.loadTables t).chain = [] ∧ ∀ i, (s.loadTables t).sec i = Section.ofSaved t.sections[i] := by
  have key : ∀ (l : List (Fin 16)) (u : State), (l.foldl (fun w i => w.setSec i (Section.ofSaved t.sections[i])) u).chain
      = u.chain ∧ ∀ i, (l.foldl (fun w i => w.setSec i (Section.ofSaved t.sections[i])) u).sec i =
        if i ∈ l then Section.ofSaved t.sections[i] else u.sec i := by
    intro l
    induction l with
    | nil => intro u; exact ⟨rfl, fun i => by simp⟩
    | cons a l ih =>
      intro u
      obtain ⟨e1, e2⟩ := ih (u.setSec a (Section.ofSaved t.sections[a]))
      refine ⟨by rw [List.foldl_cons, e1]; rfl, fun i => ?_⟩
      rw [List.foldl_cons, e2, sec_setSec]
      by_cases h : i ∈ l
      · simp [h]
      · by_cases g : a = i
        · subst g; simp
        · simp [h, g, Ne.symm g]
  have hall : ∀ i : Fin 16, i ∈ allSections := fun i => by fin_cases i <;> simp [allSections]
  obtain ⟨e1, e2⟩ := key allSections
    (((s.modPart fun p => { p with mgmtAddr := t.mgmtAddr, lossLimit := t.lossLimit }).setSteps t.steps).setChain [])
  exact ⟨e1, fun i => by
    have := e2 i
    rw [if_pos (hall i)] at this
    exact this⟩

theorem restorePass_chain {s : State} (h : s.ChainSound) (t : SavedTables) : (s.restorePass t).ChainSound := by
  have key : ∀ (l : List (Fin 16)) (u : State), u.ChainSound → (l.foldl (State.tryPresent t) u).ChainSound := by
    intro l
    induction l with
    | nil => exact fun _ hu => hu
    | cons a l ih =>
      intro u hu
      refine ih _ ?_
      unfold State.tryPresent
      split
      · next hc =>
        simp only [Bool.and_eq_true, Bool.not_eq_true', Option.isNone_iff_eq_none] at hc
        exact hu.makePresent a hc.1.2 hc.2
      · exact hu
  exact key _ _ h

theorem restorePasses_chain (t : SavedTables) (n : Nat) {s : State} (h : s.ChainSound) :
    (restorePasses t n s).ChainSound := by
  induction n generalizing s with
  | zero => exact h
  | succ n ih =>
    unfold restorePasses
    dsimp only
    split
    · exact ih (restorePass_chain h t)
    · exact restorePass_chain h t

theorem restore_chain {s : State} (h : s.ChainSound) : s.restore.ChainSound := by
  unfold State.restore
  split
  · split
    · exact h
    · next c _ =>
      obtain ⟨h1, h2⟩ := loadTables_empty s c.tables
      exact restorePasses_chain _ _ (.ofEmpty h1 (fun i => by rw [h2]; rfl) (fun i => by rw [h2]; rfl))
  · exact h

theorem lossOnSections_chain {s : State} (h : s.ChainSound) : s.lossOnSections.ChainSound := by
  have h1 : (s.modCyc fun c => { c with upState := .lost, lossTimer := none }).ChainSound :=
    h.same rfl fun _ => .refl _
  exact (h1.ofSecs (mapPresent_secsOnly _ _ upstreamLoss_place)).ofSecs (abortAll_testsOnly _ _ _).secsOnly

/-- Every leaf operation keeps the chain order list sound. -/
theorem chainSound_kept : Kept State.ChainSound where
  resets s ph w _ _ := .reset s ph w
  comesIntoService _ _ h := (restore_chain h).same rfl fun _ => .refl _
  queue _ _ h := h.same rfl fun _ => .refl _
  port _ p _ _ h := by cases p <;> exact h.same rfl fun _ => .refl _
  cyc _ _ h := h.same rfl fun _ => .refl _
  mgmt _ _ h := h.same rfl fun _ => .refl _
  part _ _ h := h.same rfl fun _ => .refl _
  link _ _ h := h.same rfl fun _ => .refl _
  saves _ h := h.same rfl fun _ => .refl _
  store _ _ _ _ h := h.same rfl fun _ => .refl _
  announceStart s h := h.1.ofSecs (announceStart_secsOnly s)
  computeSec s i h := h.1.ofSecs (modSec_secsOnly s i _ (compute_place _ _ _ _))
  clearFaultResets s h := h.1.ofSecs (mapPresent_secsOnly s _ fun _ => ⟨rfl, rfl, rfl⟩)
  applyLineCommand s c h := h.1.ofSecs (applyLineCommand_secsOnly s c)
  sectionStop s i m h := h.1.ofSecs (sectionStop_secsOnly s i m)
  sectionRun s i m h := h.1.ofSecs (sectionRun_secsOnly s i m)
  lossOnSections _ h := lossOnSections_chain h.1
  deliverSlot s c q h := h.1.ofSecs (deliverSlot_secsOnly s c q)
  monitorCompletion s i h := h.1.ofSecs (monitorCompletion_secsOnly s i)
  loadShare s i h := h.1.ofSecs (modSec_secsOnly s i _ (loadShare_place _))
  runnerCompletion s i h := h.1.ofSecs (runnerCompletion_secsOnly s i)
  adjustDraw s i d m h := h.1.ofSecs (adjustDraw_secsOnly s i d m)
  toCascade s i b h := h.1.ofSecs (modSec_secsOnly s i _ ⟨rfl, rfl, rfl⟩)
  toFollow s i h := h.1.ofSecs (modSec_secsOnly s i _ ⟨rfl, rfl, rfl⟩)
  releaseTrip s i _ h := h.1.ofSecs (modSec_secsOnly s i _ ⟨rfl, rfl, rfl⟩)
  startTest s r i k _ h := h.1.ofSecs ((setRunner_testsOnly s r _).secsOnly.trans (enterStep_secsOnly _ r k))
  pauseTest s r _ h := h.1.ofSecs (setRunner_testsOnly s r _).secsOnly
  resumeTest s r _ h := h.1.ofSecs (setRunner_testsOnly s r _).secsOnly
  stopRunner s r _ h := h.1.ofSecs (stopRunner_testsOnly s r).secsOnly
  dropLog s n h := h.1.ofSecs (dropLog_secsOnly s n)
  makePresent _ i h0 h1 h := h.1.makePresent i h0 h1
  withdraw _ i _ hr h := h.1.withdraw i hr
  takeSetting s i f v c hw hp h := by
    have h1 : ∀ x : Section, (x.takeSetting f c).present = x.present ∧ (x.takeSetting f c).depth = x.depth := fun x => by
      unfold Section.takeSetting
      split <;> exact ⟨rfl, rfl⟩
    refine h.1.ofPlaces rfl (fun j => ?_) (fun j => ?_) fun j e => ?_
    · rw [sec_modSec]
      split
      · next g => subst g; exact (h1 _).1
      · rfl
    · rw [sec_modSec]
      split
      · next g => subst g; exact (h1 _).2
      · rfl
    · rw [sec_modSec]
      split
      · next g =>
        subst g
        have hs : structuralField f = false := by
          by_contra hs
          rw [hp (by simpa using hs)] at e
          cases e
        have hdb := (writeField_frame hs hw).2.2.2.1
        unfold Section.takeSetting
        split
        · rfl
        · exact hdb
      · rfl
  setRating s i j v w _ _ h := h.1.ofSecs (modSec_secsOnly s i _ ⟨rfl, rfl, rfl⟩)
  setWeight s i j v w _ h := h.1.ofSecs (modSec_secsOnly s i _ ⟨rfl, rfl, rfl⟩)
  setStep _ _ _ _ _ _ _ h := h.1.same rfl fun _ => .refl _

end Sys2Proof.Machine
end

