-- ==== Sys2Proof/Laws/LogNumbered.lean ====
section
/-! SUPPORT. The sequence numbers of the capture log under each operation (R144). -/

namespace Sys2Proof.Machine

open Sys2Proof

theorem Log.Numbered.moves {l m : Log} (h : l.Numbered) (k : LogMoves l m) : m.Numbered := by
  induction k with
  | refl => exact h
  | @write m c _ ih =>
    intro k hk
    have hl : (m.write c).records.length = m.records.length + 1 := by simp [Log.write]
    have hn : (m.write c).nextSeq = m.nextSeq + 1 := rfl
    rw [hl, hn]
    rw [hl] at hk
    by_cases e : k < m.records.length
    · have hr : (m.write c).records[k] = m.records[k] := by simp [Log.write, List.getElem_append_left e]
      rw [hr, ih k e]
      have e1 : m.records.length + 1 - k = (m.records.length - k) + 1 := by omega
      rw [e1, BitVec.ofNat_add]
      ring_nf
      simp
      ring
    · have e1 : k = m.records.length := by omega
      subst e1
      have hr : (m.write c).records[m.records.length].seq = m.nextSeq := by simp [Log.write]
      rw [hr]
      have e2 : m.records.length + 1 - m.records.length = 1 := by omega
      rw [e2]
      simp
  | @drop m n _ ih =>
    intro k hk
    have hl : (m.records.drop n).length = m.records.length - n := List.length_drop
    have hk' : k < m.records.length - n := by rw [← hl]; exact hk
    show (m.records.drop n)[k].seq = m.nextSeq - BitVec.ofNat 16 ((m.records.drop n).length - k)
    rw [List.getElem_drop, ih (n + k) (by omega), hl]
    congr 2
    omega
  | waiters w _ ih => exact ih

/-- An operation on sections and tests keeps the numbers. -/
theorem Log.Numbered.secs {s t : State} (h : s.log.Numbered) (k : SecsOnly s t) : t.log.Numbered := h.moves k.log

theorem Log.Numbered.same {s t : State} (h : s.log.Numbered) (k : t.log = s.log) : t.log.Numbered := k ▸ h

theorem lossOnSections_log (s : State) : LogMoves s.log s.lossOnSections.log :=
  LogMoves.trans (mapPresent_secsOnly (s.modCyc fun c => { c with upState := .lost, lossTimer := none })
    Section.upstreamLoss upstreamLoss_place).log (abortAll_testsOnly _ _ _).log

/-- Each record of the log is numbered one more than the one before it: every step keeps that (R144). -/
theorem logNumbered_kept : Kept fun s => s.log.Numbered where
  resets s ph w _ _ := fun k hk => absurd hk (Nat.not_lt_zero k)
  comesIntoService s _ h := h.same (restore_tests s).2
  queue _ _ h := h
  port _ p _ _ h := by cases p <;> exact h
  cyc _ _ h := h.same rfl
  mgmt _ _ h := h.same rfl
  part _ _ h := h.same rfl
  link _ _ h := h.same rfl
  saves _ h := h.same rfl
  store _ _ _ _ h := h.same rfl
  announceStart s h := h.1.secs (announceStart_secsOnly s)
  computeSec s i h := h.1.same rfl
  clearFaultResets s h := h.1.secs (mapPresent_secsOnly s _ fun _ => ⟨rfl, rfl, rfl⟩)
  applyLineCommand s c h := h.1.secs (applyLineCommand_secsOnly s c)
  sectionStop s i m h := h.1.secs (sectionStop_secsOnly s i m)
  sectionRun s i m h := h.1.secs (sectionRun_secsOnly s i m)
  lossOnSections s h := h.1.moves (lossOnSections_log s)
  deliverSlot s c q h := h.1.secs (deliverSlot_secsOnly s c q)
  monitorCompletion s i h := h.1.secs (monitorCompletion_secsOnly s i)
  loadShare s i h := h.1.same rfl
  runnerCompletion s i h := h.1.secs (runnerCompletion_secsOnly s i)
  adjustDraw s i d m h := h.1.secs (adjustDraw_secsOnly s i d m)
  toCascade s i b h := h.1.same rfl
  toFollow s i h := h.1.same rfl
  releaseTrip s i _ h := h.1.same rfl
  startTest s r i k _ h := h.1.secs ((setRunner_testsOnly s r _).secsOnly.trans (enterStep_secsOnly _ r k))
  pauseTest s r _ h := h.1.same rfl
  resumeTest s r _ h := h.1.same rfl
  stopRunner s r _ h := h.1.secs (stopRunner_testsOnly s r).secsOnly
  dropLog s n h := h.1.secs (dropLog_secsOnly s n)
  makePresent s i _ _ h := h.1.same rfl
  withdraw s i _ _ h := h.1.same rfl
  takeSetting s i f v c _ _ h := h.1.same rfl
  setRating s i j v w _ _ h := h.1.same rfl
  setWeight s i j v w _ h := h.1.same rfl
  setStep _ _ _ _ _ _ _ h := h.1.same rfl

end Sys2Proof.Machine
end

