-- ==== Sys2Proof/WellFormed.lean ====
section
/-! DEFINITION. Which command terms are operations the table's rows name. The machine gives every term a meaning; the
checks say which row a frame belongs to. -/

namespace Sys2Proof

/-- A MANAGE payload fits its frame: 1..124 characters (R9), `extra` of them before the arguments. -/
def fitsManage (extra : Nat) (args : List Byte) : Bool := args.length + extra ≤ 124

/-- The second argument of a TRANSFER asks FOLLOW: code 0 (R166, R80). -/
def asksFollow (args : List Byte) : Bool :=
  args.length == 8 && (args.drop 4).all (· == 0)

/-- A MANAGE payload whose sub-kind, or COMMAND verb, is not one of the part's (R152, section 11.1). -/
def unknownCode : List Byte → Bool
  | [] => false
  | k :: rest =>
    if k == 6 then
      match rest with
      | [] => true
      | v :: _ => v == 0 || 0x0E < v.toNat
    else k == 0 || 6 < k.toNat

/-- The checks on a command's operands. -/
def Instr.wf : Instr → Bool
  | .frameDiscard _ _ _ => true
  | .gapTimerExpiry _ => true
  | .replyBurstStart => true
  | .burstComplete _ => true
  | .lineCycle _ _ _ => true
  | .sectionOrderStop a r _ => a != 0 && a.toNat ≤ 63 && r != 1
  | .sectionOrderRun a _ => a != 0 && a.toNat ≤ 63
  | .pollCall => true
  | .lossTimerExpiry => true
  | .localPeriodTimerExpiry => true
  | .memberReport a _ _ _ _ => a != 0 && a.toNat ≤ 63
  | .slotEnd => true
  | .linkTest args => fitsManage 2 args
  | .echoTestSend => true
  | .echoTest payload => payload.length == 16
  | .echoTestTimeout => true
  | .access args => fitsManage 1 args
  | .close args => fitsManage 1 args
  | .select args => fitsManage 1 args
  | .read args => fitsManage 1 args
  | .write args => fitsManage 1 args
  | .adjustDraw args => fitsManage 2 args
  | .transferToCascade args => fitsManage 2 args && !asksFollow args
  | .transferToFollow args => fitsManage 2 args && asksFollow args
  | .releaseTrip args => fitsManage 2 args
  | .startTest args => fitsManage 2 args
  | .pauseTest args => fitsManage 2 args
  | .resumeTest args => fitsManage 2 args
  | .stopTest args => fitsManage 2 args
  | .fetchLog args => fitsManage 2 args
  | .dropLog args => fitsManage 2 args
  | .moveAddress args => fitsManage 2 args
  | .clearNotices args => fitsManage 2 args
  | .saveTables args => fitsManage 2 args
  | .saveCompletion _ => true
  | .restart args => fitsManage 2 args
  | .resetPin _ => true
  | .powerOn _ => true
  | .comeIntoService => true
  | .unknownSubKind payload => unknownCode payload && fitsManage 0 payload
  | .resetPinAsserted => true
  | .lossOfSupply => true

end Sys2Proof
end

