-- ==== Sys2Proof/Laws/PerInstr.lean ====
section
/-! SUPPORT. Per command: the MANAGE payload of a well-formed command has 1 to 124 characters (R9, R152). -/

namespace Sys2Proof.Laws.Payloads

open Sys2Proof

/-- The payload of a well-formed command's MANAGE frame fits a frame and is not empty. -/
def Statement (i : Instr) : Prop := ∀ pl, i.managePayload = some pl → i.wf = true → 1 ≤ pl.length ∧ pl.length ≤ 124

theorem frameDiscard (a : Side) (b : List LineEvent) (c : Nat) : Statement (.frameDiscard a b c) := fun _ h => nomatch h

theorem gapTimerExpiry (a : Side) : Statement (.gapTimerExpiry a) := fun _ h => nomatch h

theorem replyBurstStart : Statement .replyBurstStart := fun _ h => nomatch h

theorem burstComplete (a : Side) : Statement (.burstComplete a) := fun _ h => nomatch h

theorem lineCycle (a : Byte) (b : Byte) (c : Speed24) : Statement (.lineCycle a b c) := fun _ h => nomatch h

theorem sectionOrderStop (a : Byte) (b : Byte) (c : Speed24) : Statement (.sectionOrderStop a b c) := fun _ h => nomatch h

theorem sectionOrderRun (a : Byte) (b : Speed24) : Statement (.sectionOrderRun a b) := fun _ h => nomatch h

theorem pollCall : Statement .pollCall := fun _ h => nomatch h

theorem lossTimerExpiry : Statement .lossTimerExpiry := fun _ h => nomatch h

theorem localPeriodTimerExpiry : Statement .localPeriodTimerExpiry := fun _ h => nomatch h

theorem memberReport (a : Byte) (b : Byte) (c : Speed24) (d : Torque16) (e : Byte) : Statement (.memberReport a b c d e) := fun _ h => nomatch h

theorem slotEnd : Statement .slotEnd := fun _ h => nomatch h

theorem linkTest (a : List Byte) : Statement (.linkTest a) := by
  intro pl h w
  cases h
  simp [Instr.wf, fitsManage] at w
  simp only [List.length_cons]
  omega

theorem echoTestSend : Statement .echoTestSend := fun _ h => nomatch h

theorem echoTest (a : List Byte) : Statement (.echoTest a) := fun _ h => nomatch h

theorem echoTestTimeout : Statement .echoTestTimeout := fun _ h => nomatch h

theorem access (a : List Byte) : Statement (.access a) := by
  intro pl h w
  cases h
  simp [Instr.wf, fitsManage] at w
  simp only [List.length_cons]
  omega

theorem close (a : List Byte) : Statement (.close a) := by
  intro pl h w
  cases h
  simp [Instr.wf, fitsManage] at w
  simp only [List.length_cons]
  omega

theorem select (a : List Byte) : Statement (.select a) := by
  intro pl h w
  cases h
  simp [Instr.wf, fitsManage] at w
  simp only [List.length_cons]
  omega

theorem read (a : List Byte) : Statement (.read a) := by
  intro pl h w
  cases h
  simp [Instr.wf, fitsManage] at w
  simp only [List.length_cons]
  omega

theorem write (a : List Byte) : Statement (.write a) := by
  intro pl h w
  cases h
  simp [Instr.wf, fitsManage] at w
  simp only [List.length_cons]
  omega

theorem adjustDraw (a : List Byte) : Statement (.adjustDraw a) := by
  intro pl h w
  cases h
  simp [Instr.wf, fitsManage] at w
  simp only [List.length_cons]
  omega

theorem transferToCascade (a : List Byte) : Statement (.transferToCascade a) := by
  intro pl h w
  cases h
  simp [Instr.wf, fitsManage] at w
  simp only [List.length_cons]
  omega

theorem transferToFollow (a : List Byte) : Statement (.transferToFollow a) := by
  intro pl h w
  cases h
  simp [Instr.wf, fitsManage] at w
  simp only [List.length_cons]
  omega

theorem releaseTrip (a : List Byte) : Statement (.releaseTrip a) := by
  intro pl h w
  cases h
  simp [Instr.wf, fitsManage] at w
  simp only [List.length_cons]
  omega

theorem startTest (a : List Byte) : Statement (.startTest a) := by
  intro pl h w
  cases h
  simp [Instr.wf, fitsManage] at w
  simp only [List.length_cons]
  omega

theorem pauseTest (a : List Byte) : Statement (.pauseTest a) := by
  intro pl h w
  cases h
  simp [Instr.wf, fitsManage] at w
  simp only [List.length_cons]
  omega

theorem resumeTest (a : List Byte) : Statement (.resumeTest a) := by
  intro pl h w
  cases h
  simp [Instr.wf, fitsManage] at w
  simp only [List.length_cons]
  omega

theorem stopTest (a : List Byte) : Statement (.stopTest a) := by
  intro pl h w
  cases h
  simp [Instr.wf, fitsManage] at w
  simp only [List.length_cons]
  omega

theorem fetchLog (a : List Byte) : Statement (.fetchLog a) := by
  intro pl h w
  cases h
  simp [Instr.wf, fitsManage] at w
  simp only [List.length_cons]
  omega

theorem dropLog (a : List Byte) : Statement (.dropLog a) := by
  intro pl h w
  cases h
  simp [Instr.wf, fitsManage] at w
  simp only [List.length_cons]
  omega

theorem moveAddress (a : List Byte) : Statement (.moveAddress a) := by
  intro pl h w
  cases h
  simp [Instr.wf, fitsManage] at w
  simp only [List.length_cons]
  omega

theorem clearNotices (a : List Byte) : Statement (.clearNotices a) := by
  intro pl h w
  cases h
  simp [Instr.wf, fitsManage] at w
  simp only [List.length_cons]
  omega

theorem saveTables (a : List Byte) : Statement (.saveTables a) := by
  intro pl h w
  cases h
  simp [Instr.wf, fitsManage] at w
  simp only [List.length_cons]
  omega

theorem saveCompletion (a : SaveOutcome) : Statement (.saveCompletion a) := fun _ h => nomatch h

theorem restart (a : List Byte) : Statement (.restart a) := by
  intro pl h w
  cases h
  simp [Instr.wf, fitsManage] at w
  simp only [List.length_cons]
  omega

theorem resetPin (a : Straps) : Statement (.resetPin a) := fun _ h => nomatch h

theorem powerOn (a : Straps) : Statement (.powerOn a) := fun _ h => nomatch h

theorem comeIntoService : Statement .comeIntoService := fun _ h => nomatch h

theorem unknownSubKind (a : List Byte) : Statement (.unknownSubKind a) := by
  intro pl h w
  cases h
  cases a with
  | nil => simp [Instr.wf, unknownCode] at w
  | cons k rest =>
    simp [Instr.wf, fitsManage] at w
    simp only [List.length_cons]
    omega

theorem resetPinAsserted : Statement .resetPinAsserted := fun _ h => nomatch h

theorem lossOfSupply : Statement .lossOfSupply := fun _ h => nomatch h

end Sys2Proof.Laws.Payloads
end

