-- ==== Sys2Proof/Tests/Slice0.lean ====
section
/-! SUPPORT. Tests: the checks of WellFormed, worked values of the spec, single commands on small states, and for each
statement with hypotheses a state and operands that meet them. -/

namespace Sys2Proof.Tests.Slice0

open Sys2Proof Sys2Proof.Machine

/-! ## WellFormed: one ill-formed term for each check -/

theorem test_wf_stop_address_zero : (Instr.sectionOrderStop 0 0 0).wf = false := by decide
theorem test_wf_stop_address_wide : (Instr.sectionOrderStop 64 0 0).wf = false := by decide
theorem test_wf_stop_asks_run : (Instr.sectionOrderStop 5 1 0).wf = false := by decide
theorem test_wf_run_address_zero : (Instr.sectionOrderRun 0 0).wf = false := by decide
theorem test_wf_run_address_wide : (Instr.sectionOrderRun 64 0).wf = false := by decide
theorem test_wf_report_address_zero : (Instr.memberReport 0 0 0 0 0).wf = false := by decide
theorem test_wf_report_address_wide : (Instr.memberReport 64 0 0 0 0).wf = false := by decide
theorem test_wf_echo_length : (Instr.echoTest []).wf = false := by decide
set_option maxRecDepth 4000 in
theorem test_wf_sub_kind_long : (Instr.write (List.replicate 124 0)).wf = false := by decide
set_option maxRecDepth 4000 in
theorem test_wf_verb_long : (Instr.restart (List.replicate 123 0)).wf = false := by decide
theorem test_wf_cascade_asks_follow : (Instr.transferToCascade (List.replicate 8 0)).wf = false := by decide
theorem test_wf_follow_asks_cascade : (Instr.transferToFollow [0, 0, 0, 0, 0, 0, 0, 1]).wf = false := by decide
theorem test_wf_unknown_empty : (Instr.unknownSubKind []).wf = false := by decide
theorem test_wf_unknown_known_sub_kind : (Instr.unknownSubKind [1]).wf = false := by decide
theorem test_wf_unknown_known_verb : (Instr.unknownSubKind [6, 14]).wf = false := by decide
set_option maxRecDepth 4000 in
theorem test_wf_unknown_long : (Instr.unknownSubKind (List.replicate 125 7)).wf = false := by decide

theorem test_wf_accepts : ∀ c ∈ [Instr.sectionOrderStop 63 0 0, .sectionOrderRun 1 0, .memberReport 63 0 0 0 0,
    .echoTest (List.replicate 16 0), .write [], .restart [],
    .transferToCascade [0, 0, 0, 0, 0, 0, 0, 1], .transferToFollow (List.replicate 8 0), .unknownSubKind [7],
    .unknownSubKind [6], .unknownSubKind [6, 15]], c.wf = true := by decide

/-! ## Small states -/

/-- A member with a rating, ACTIVE and READY. -/
def mem (rating : Int) : Member :=
  { Member.reset with
    rating := rating, state := .active, status := { ready := true, running := false, fault := false, limit := false } }

/-- A present section on its own: two members of 1000 N·m, max speed 150000. -/
def plainSec : Section :=
  { Section.reset with
    present := true, depth := some 1
    cfg := { Settings.reset with upAddr := 5, memberBase := 8, memberCount := 2, maxSpeed := 150000, guard := .operate }
    members := #v[mem 1000, mem 1000, Member.reset, Member.reset] }

/-- The part in service. -/
def serving : State := { State.reset with phase := .inService }

/-- The part in service with `x` as section 0. -/
def withSec (x : Section) : State := { serving with sections := serving.sections.set 0 x, chain := [0] }

/-- Section 0 RUNNING at a line that runs. -/
def running : State :=
  let s := withSec { plainSec with runState := .running }
  { s with cyc := { s.cyc with lineCommand := .run, lineSpeed := 120000 } }

/-- A state with a cycle whose window is open at slot `pos` of the slots of sections 0, 0 and 1. -/
def inWindow (s : State) (pos : Nat) : State :=
  { s with
    cyc := { s.cyc with
      pollInForce := [8, 9, 12]
      inFlight := some
        { slots := [{ address := 8, sec := 0, slot := 0 }, { address := 9, sec := 0, slot := 1 },
            { address := 12, sec := 1, slot := 0 }]
          windowOpen := true, pos := pos, slotBits := 0, report := none, dropped := [] } } }

/-- Engineer level, LINKED. -/
def engineer (s : State) : State :=
  { s with mgmt := { s.mgmt with access := .engineer }, cyc := { s.cyc with upState := .linked, lossTimer := some 0 } }

/-- Runner 0 in step 0, its claim on section 0. -/
def busyRunner : Runner := { Runner.reset with state := .running, claimed := some 0, step := some 0 }

/-- Runner 0 claims section 0. -/
def claimed (s : State) : State := { s with runners := s.runners.set 0 busyRunner }

/-- Section 0 in a run state. -/
def moved0 (run : RunState) : State := running.setSec 0 { running.sec 0 with runState := run }

/-- LINKED, at MONITOR. -/
def linkedMonitor : State := { running with cyc := { running.cyc with upState := .linked, lossTimer := some 0 } }

/-- The state a command leaves. -/
def after (c : Instr) (s : State) : State :=
  match exec c s with
  | .next t => t
  | .fault _ => s
  | .refused _ => s

/-- Four characters of a management value. -/
def v32 (x : Int) : List Byte := chars32 (toValue x)

/-! ## Worked values of the spec -/

/-- A moving section of the worked chain of 4.3. -/
def chainSec (depth : Nat) (base : Option (Fin 16)) (draw : Int) (applied : Int) (source : Source) : Section :=
  { plainSec with
    runState := .running, source := source, draw := draw, applied := applied, depth := some depth
    cfg := { plainSec.cfg with drawBase := base } }

/-- The chain of 4.3 before the start of cycle 300, or of 4.5 after an adjustment. -/
def worked : State :=
  { serving with
    cyc := { serving.cyc with lineSpeed := 120000, lineCommand := .run }
    chain := [2, 3, 4, 5]
    sections := (((serving.sections.set 2 (chainSec 1 none 20 120240 .cascade)).set 3
      (chainSec 2 (some 2) 35 120661 .cascade)).set 4 (chainSec 3 (some 3) (-15) 120480 .cascade)).set 5
      { chainSec 4 (some 4) 20 120720 .follow with master := 120720 } }

/-- Ratio, target and A of the four sections. -/
def readings (s : State) : List (Int × Int × Int) :=
  [2, 3, 4, 5].map fun i => ((s.sec i).ratio, (s.sec i).target, (s.sec i).applied)

theorem test_chain_cycle_300 : readings worked.computeChain =
    [(1002000, 120240, 120240), (1005507, 120661, 120661), (1003999, 120480, 120480), (1006000, 120720, 120720)] := by
  decide

theorem test_chain_cycle_301 :
    readings ((worked.computeChain.modCyc fun c => { c with lineSpeed := 121000 }).modSec 5 fun x =>
      { x with master := 121450 }).computeChain =
    [(1002000, 121242, 120340), (1005507, 121666, 120761), (1003999, 121484, 120580), (1003719, 121450, 120820)] := by
  decide

theorem test_adjust_carry : readings (worked.computeChain.adjustDraw 2 10 .carry).state.computeChain =
    [(1003000, 120360, 120340), (1006511, 120781, 120761), (1005001, 120600, 120580), (1006000, 120720, 120720)] := by
  decide

theorem test_adjust_hold : readings (worked.computeChain.adjustDraw 2 10 .hold).state.computeChain =
    [(1003000, 120360, 120340), (1005508, 120661, 120661), (1004000, 120480, 120480), (1006000, 120720, 120720)] := by
  decide

theorem test_transfer_worked : (((worked.computeChain.sec 5).toCascade 1003999).draw,
    ((worked.computeChain.sec 5).toCascade 1003999).ratio) = (20, 1006007) := by decide

/-- A member of 5.8: rating, weight, torque. -/
def shareMember (rating weight torque : Int) : Member :=
  { mem rating with weight := weight, torque := torque, result := .valid }

/-- Section 1 of 5.8 at the completion of cycle n. -/
def sharing : Section :=
  { plainSec with
    runState := .running, applied := 120000
    cfg := { plainSec.cfg with memberCount := 3, ki := 100, deadband := 200, trimLimit := 50, shareEnable := 30000 }
    members := #v[shareMember 20000 40 450, shareMember 20000 40 380, shareMember 10000 20 520, Member.reset] }

theorem test_load_share : (sharing.loadShare.load, [0, 1, 2].map fun j => (sharing.loadShare.member j).converted,
    [0, 1, 2].map fun j => (sharing.loadShare.member j).shareTarget,
    [0, 1, 2].map fun j => (sharing.loadShare.member j).shareError,
    [0, 1, 2].map fun j => (sharing.loadShare.member j).trim) =
    (436, [9000, 7600, 5200], [8720, 8720, 4360], [-280, 1120, -840], [0, 1, -1]) := by decide

theorem test_ramp_offsets : (rampOffset 0 (-5) 1 2, rampOffset 0 (-5) 2 2, rampOffset (-5) 1000 1 3,
    rampOffset (-5) 1000 2 3, rampOffset (-5) 1000 3 3) = (-3, -5, 330, 665, 1000) := by decide

/-- Step 42 of 6.4. -/
def squareStep : StepRecord :=
  { StepRecord.reset with present := true, action := .square, v := 500, v2 := -500, d := 2, d2 := 3, repeats := 2 }

theorem test_square_offsets : (List.range 10).map (fun n => ((fun u : Runner => u.advance squareStep)^[n + 1]
      { busyRunner with offset := 500, repeatsLeft := 2 }).offset) =
    [500, -500, -500, -500, 500, 500, -500, -500, -500, -500] := by decide

/-! ## Decoding and the queue -/

theorem test_no_word_spells_a_command : decodeTableWord 16 0xFFFF = none := by decide

theorem test_step_takes_the_front : step { serving with pending := [.pollCall, .slotEnd] } =
    exec .pollCall { serving with pending := [.slotEnd] } := rfl

/-! ## Single commands on small states -/

theorem test_come_into_service : ((after .comeIntoService State.reset).phase,
    (after .comeIntoService State.reset).cyc.localTimer, (after .comeIntoService State.reset).cyc.cycleCount) =
    (Phase.inService, some 0, 1) := by decide +kernel

theorem test_poll_call_links : ((after .pollCall running).cyc.upState, (after .pollCall running).up.tx.map TxFrame.kind,
    (after .pollCall running).dn.tx.map TxFrame.kind) = (UpState.linked, [0x11, 0x12], [0x21, 0x22]) := by decide +kernel

theorem test_line_cycle_clamps : ((after (.lineCycle 7 1 (-1)) running).cyc.lineSpeed,
    (after (.lineCycle 7 1 (-1)) running).part.notices.lineClamped, (after (.lineCycle 7 1 (-1)) running).cyc.lastUpCycle) =
    (0, true, 7) := by decide +kernel

theorem test_order_stop : ((after (.sectionOrderStop 5 0 100) running).sec 0).cause = .request := by decide +kernel

theorem test_order_run_refused : ((after (.sectionOrderRun 5 100) (moved0 .stopped)).sec 0).refused = .noStopSeen := by
  decide +kernel

theorem test_member_report : ((after (.memberReport 8 0 100 50 3) (inWindow running 0)).cyc.inFlight.map
    fun c => c.report.isSome) = some true := by decide +kernel

theorem test_slot_end_miss : (((after .slotEnd (inWindow running 0)).sec 0).member 0).result = .miss := by decide +kernel

theorem test_access_pending : ((after (.access (v32 1)) (linkedMonitor)).cyc.pendingReply.map Reply.code) =
    some .pending := by decide +kernel

theorem test_unknown_sub_kind : ((after (.unknownSubKind [9]) linkedMonitor).cyc.pendingReply.map Reply.code) =
    some .unknown := by decide +kernel

theorem test_start_test_absent_step : ((after (.startTest (v32 0 ++ v32 0 ++ v32 5)) (engineer running)).cyc.pendingReply.map
    fun r => (r.code, r.offending)) = some (.absent, 5) := by decide +kernel

theorem test_save_tables : (after (.saveTables []) (engineer running)).store.state = .saving := by decide +kernel

theorem test_discard_check : (after (.frameDiscard .up (((frameEvents 0 1 [0, 0, 0, 0, 0]).take 9) ++
    [.char 0 false true]) 10) running).up.lastError = .check := by decide +kernel

theorem test_echo_test_good : (after (.echoTest (echoPayload 3)) { serving with link := { LinkTest.reset with
    running := true, loopback := true, frameNo := 3, awaiting := true } }).link.badCount = 0 := by decide +kernel

theorem test_idle_bit_time : (match step { engineer serving with cyc := { (engineer serving).cyc with
    lossTimer := some (5 * periodBits 55 - 1) } } with
  | .next t => t.pending
  | _ => []) = [.lossTimerExpiry] := by decide +kernel

/-! ## States and operands that meet the statements' hypotheses -/

/-- A port of the part in service that sends. -/
def upSends : State := { running with up := { running.up with driving := true } }

/-- The DN port sends. -/
def dnSends : State := { running with dn := { running.dn with driving := true } }

/-- Section 0 in a run state with a cause. -/
def moved (run : RunState) (cause : StopCause) : State :=
  running.setSec 0 { running.sec 0 with runState := run, cause := cause }

/-- A level in force and a guard level allow a request. -/
theorem levelFor {s : State} {i : Fin 16} (h : decide ((s.sec i).cfg.guard.access.rank ≤ s.mgmt.access.rank) = true) :
    s.LevelFor i := by
  unfold State.LevelFor; exact of_decide_eq_true h

theorem noLevelFor {s : State} {i : Fin 16} (h : decide ((s.sec i).cfg.guard.access.rank ≤ s.mgmt.access.rank) = false) :
    ¬s.LevelFor i := by
  unfold State.LevelFor; exact of_decide_eq_false h

theorem test_meets_StepRunsFrontCommand : ({ serving with pending := [.slotEnd] } : State).pending = .slotEnd :: [] :=
  rfl

/-- One frame to send, with what its end completes. -/
def frame (tie : ReplyTie) : TxFrame := { address := 63, kind := 0x13, payload := [0, 0xFF, 0], tie := tie }

/-- The UP port sends these frames, so many bits of the first sent; a move to 9 and a restart are pending. -/
def upSending (l : List TxFrame) (n : Nat) : State :=
  { serving with
    up := { serving.up with driving := true, tx := l, sentBits := n }
    mgmt := { serving.mgmt with pendingMove := some 9 }
    store := { serving.store with pendingRestart := true } }

/-- The DN port begins a burst that is a SLOT CALL alone. -/
def callBegins : State := { running with dn := { running.dn with driving := true, tx := [slotCall 0 [8, 9]] } }

theorem test_meets_IdleStepIsOneBitTime :
    State.reset.pending = [] ∧ State.reset.phase ≠ .inService ∧ serving.pending = [] ∧ serving.phase = .inService ∧
    serving.up.driving = false ∧ serving.dn.driving = false ∧
    ({ dnSends with link := { LinkTest.reset with loopback := true } } : State).link.loopback = true ∧
    (upSending [frame .plain, frame .plain] 87).up.driving = true ∧ (frame .plain).bits ≤ 87 + 1 ∧ 86 + 1 < (frame .plain).bits ∧
    (frame .plain).tie = .plain ∧ (frame .plain).kind ≠ kindSlotCall ∧ (upSending [frame .plain] 88).up.tx = [frame .plain] ∧
    (upSending [frame (.move 9), frame .plain] 87).mgmt.pendingMove = some 9 ∧ (frame (.move 9)).bits ≤ 87 + 1 ∧
    (upSending [frame .restart, frame .plain] 87).store.pendingRestart = true ∧
    (upSending [frame .restart, frame .plain] 87).dn.driving = false ∧ (frame .restart).bits ≤ 87 + 1 ∧
    callBegins.dn.driving = true ∧ callBegins.link.loopback = false ∧ callBegins.dn.sentBits = 0 ∧
    (slotCall 0 [8, 9]).kind = kindSlotCall ∧ callBegins.pending = [] ∧ callBegins.phase = .inService := by decide

theorem test_meets_OutOfServiceNothingHappens :
    Instr.pollCall.needsService = true ∧ State.reset.phase ≠ .inService ∧
    ({ serving with phase := .held } : State).phase ≠ .inService ∧
    ({ serving with phase := .off } : State).phase ≠ .inService := by decide

theorem test_meets_DrivingPortIgnoresTheLine : (upSends.Quiet ∧ upSends.up.driving = true) ∧
    (dnSends.Quiet ∧ dnSends.dn.driving = true ∧ dnSends.link.loopback = false) ∧
    (Instr.close []).managePayload = some [2] := ⟨⟨⟨rfl, rfl⟩, rfl⟩, ⟨⟨rfl, rfl⟩, rfl, rfl⟩, rfl⟩

theorem test_meets_ChecksAndNumbers : 0 < ([0] : List Byte).length ∧ (1 : Byte) ≠ ([0] : List Byte)[0] ∧
    (-2147483648 : Int) ≤ -2147483648 ∧ (2147483647 : Int) ≤ 2147483647 := by decide

/-- One entry with the OVERRUN tag in a FIFO, a frame open. -/
def overrun (p : Side) : State :=
  serving.setPort p { serving.port p with fifo := [{ gapEntry with overrun := true }], asm := .collect [0] }

set_option maxRecDepth 4000 in
theorem test_meets_FrameErrorsAreLatched : running.Hears .up ∧ (inWindow running 0).Hears .dn ∧
    (running.filterKeeps .up 0 = true ∧ running.filterKeeps .up 5 = true ∧ running.filterKeeps .up 63 = true ∧
    running.filterKeeps .up 6 = false ∧ (inWindow running 0).filterKeeps .dn 8 = true ∧
    (inWindow running 0).filterKeeps .dn 10 = false ∧ ¬((0 : Byte) = 0 ∧ true = false) ∧
    ¬((1 : Byte) = 0 ∧ false = false) ∧ 124 < (125 : Byte).toNat ∧ ([0] ++ [0] : List Byte) ≠ chars16 (crc16 [0, 0, 0]) ∧
    (List.replicate 123 (0 : Byte)).length ≤ 123 ∧ (List.replicate 4 (0 : Byte)).length ≠ 5 ∧ ([0] : List Byte) ≠ [] ∧
    63 = running.part.mgmtAddr ∧ running.sectionAt 5 ≠ none ∧ (List.replicate 5 (0 : Byte)).length ≠ 4 ∧
    (List.replicate 8 (0 : Byte)).length ≠ 7) ∧
    (∀ p, (overrun p).phase = .inService ∧ (overrun p).link.loopback = false ∧
      ((overrun p).port p).fifo = [{ gapEntry with overrun := true }] ∧ ∀ q, q ≠ p → ((overrun p).port q).fifo = []) :=
  ⟨⟨⟨rfl, rfl⟩, rfl, rfl, rfl, nofun⟩, ⟨⟨rfl, rfl⟩, rfl, rfl, rfl, fun _ => rfl⟩, by decide,
    fun p => ⟨by cases p <;> rfl, by cases p <;> rfl, by cases p <;> rfl,
      fun q h => by cases p <;> cases q <;> first | exact absurd rfl h | rfl⟩⟩

/-- A port with so many entries. -/
def stocked (n : Nat) : State := { serving with up := { serving.up with fifo := List.replicate n gapEntry } }

theorem test_meets_FullFifoMarksNewest : (stocked 127).receives .up = true ∧ ((stocked 127).port .up).awaitMark = false ∧
    (∀ q, q ≠ Side.up → ((stocked 127).port q).fifo = []) ∧ ((stocked 127).port .up).fifo.length < 128 ∧
    (stocked 128).receives .up = true ∧ ((stocked 128).port .up).awaitMark = false ∧
    (∀ q, q ≠ Side.up → ((stocked 128).port q).fifo = []) ∧
    ((stocked 128).port .up).fifo = List.replicate 127 gapEntry ++ [gapEntry] ∧
    127 ≤ (List.replicate 127 gapEntry).length := by
  refine ⟨rfl, rfl, fun q h => ?_, by simp [stocked, State.port], rfl, rfl, fun q h => ?_, ?_, List.length_replicate.ge⟩ <;>
    first
    | (cases q <;> first | exact absurd rfl h | rfl)
    | exact List.replicate_succ'

/-- A port with its gap timer and assembler as given. -/
def listening (gap : Option Nat) (a : Assembler) : State := { serving with up := { serving.up with gapTimer := gap, asm := a } }

theorem test_meets_GapTimerExpiryAbandonsFrame :
    ((listening none .wait).Quiet ∧ (listening none .wait).receives .up = true ∧
      ((listening none .wait).port .up).gapTimer = none) ∧
    ((listening (some 44) .wait).Quiet ∧ ((listening (some 44) .wait).port .up).gapTimer ≠ none ∧
      ((listening (some 44) .wait).port .up).asm = .wait) ∧
    ((listening (some 44) (.collect [0])).Quiet ∧ ((listening (some 44) (.collect [0])).port .up).gapTimer ≠ none ∧
      ((listening (some 44) (.collect [0])).port .up).asm = .collect [0]) ∧
    serving.receives .dn = true ∧ serving.link.loopback = false :=
  ⟨⟨⟨rfl, rfl⟩, rfl, rfl⟩, ⟨⟨rfl, rfl⟩, nofun, rfl⟩, ⟨⟨rfl, rfl⟩, nofun, rfl⟩, rfl, rfl⟩

/-- An UP burst queued, or being sent. -/
def bursting (tie : ReplyTie) (a : Assembler) (sends : Bool) : State :=
  { serving with
    up := { serving.up with
      tx := [frame tie], turnaround := some 22, asm := a, driving := sends, gapTimer := some 22 }
    mgmt := { serving.mgmt with pendingMove := some 9 } }

theorem test_meets_UpBurstStartsAndCompletes :
    (serving.phase = .inService ∧ serving.Quiet ∧ serving.up.tx = []) ∧
    ((bursting .plain .wait false).phase = .inService ∧ (bursting .plain .wait false).Quiet ∧
      (bursting .plain .wait false).up.tx ≠ [] ∧ (bursting .plain .wait false).up.turnaround ≠ none ∧
      (bursting .plain .wait false).up.driving = false ∧ (bursting .plain .wait false).up.asm = .wait) ∧
    ((bursting .plain (.collect [0]) false).Quiet ∧ (bursting .plain (.collect [0]) false).up.asm = .collect [0] ∧
      (bursting .plain (.collect [0]) false).up.gapTimer ≠ none) ∧
    ((bursting .plain .wait true).up.driving = true ∧
      ∀ f ∈ (bursting .plain .wait true).up.tx, f.tie = .plain ∧ f.kind ≠ kindSlotCall) ∧
    ((bursting (.move 9) .wait true).up.driving = true ∧ (bursting (.move 9) .wait true).up.tx = [] ++ [frame (.move 9)] ∧
      (frame (.move 9)).tie = .move 9 ∧ (bursting (.move 9) .wait true).mgmt.pendingMove = some 9) := by
  refine ⟨⟨rfl, ⟨rfl, rfl⟩, rfl⟩, ⟨rfl, ⟨rfl, rfl⟩, nofun, nofun, rfl, rfl⟩, ⟨⟨rfl, rfl⟩, rfl, nofun⟩, ?_, ?_⟩ <;> decide

/-- The DN burst of a cycle is being sent. -/
def dnBurst : State :=
  { inWindow running 0 with dn := { running.dn with driving := true, tx := [frame .plain] ++ [slotCall 0 [8, 9, 12]] } }

theorem test_meets_DnBurstCompleteOpensWindow : dnBurst.phase = .inService ∧ dnBurst.dn.driving = true ∧
    dnBurst.link.loopback = false ∧ dnBurst.dn.tx = [frame .plain] ++ [slotCall 0 [8, 9, 12]] ∧
    (∀ f ∈ [frame .plain], f.tie = .plain ∧ f.kind ≠ kindSlotCall) ∧ dnBurst.cyc.inFlight.isSome = true := by decide

/-! ### The line controller's frames, polls, loss -/

theorem test_meets_LineCycleStores : running.UpReady := ⟨rfl, ⟨rfl, rfl⟩, rfl, rfl⟩

theorem test_meets_LineStopsSections : (claimed running).UpReady ∧ ((running.sec 1).present = false ∧
    (running.sec 0).present = true ∧ (running.sec 0).runState = .running ∧
    ((moved .stopping .request).sec 0).cause = .request ∧ ((moved .stopping .orderLost).sec 0).cause = .orderLost ∧
    ((moved .stopping .lineStop).sec 0).cause = .lineStop ∧ ((moved .stopping .quickStop).sec 0).cause = .quickStop ∧
    ((moved .stopping .upstreamLoss).sec 0).cause = .upstreamLoss ∧ (2 : Byte) ≠ 0 ∧ (2 : Byte) ≠ 1 ∧
    ((moved .stopped .none).sec 0).runState = .stopped ∧ ((moved .tripped .leadLost).sec 0).runState = .tripped ∧
    ((claimed running).runner 0).state ≠ .idle ∧ ((claimed running).runner 0).claimed = some 0 ∧
    ((claimed running).runner 1).state = .idle) := ⟨⟨rfl, ⟨rfl, rfl⟩, rfl, rfl⟩, by decide⟩

theorem test_meets_SectionOrderStop : (claimed running).UpReady ∧ ((claimed running).sectionAt 5 = some 0 ∧
    (0 : Byte) ≠ 1 ∧ (2 : Byte) ≠ 1 ∧ (claimed running).sectionAt 6 = none ∧ (claimed running).sectionAt 0 = none ∧
    (claimed running).claimant 0 = some 0 ∧ running.claimant 0 = none ∧ running.sectionAt 5 = some 0 ∧
    (moved .stopping .request).sectionAt 5 = some 0 ∧ (moved .stopping .orderLost).sectionAt 5 = some 0 ∧
    (moved .stopped .none).sectionAt 5 = some 0 ∧ (moved .tripped .leadLost).sectionAt 5 = some 0) :=
  ⟨⟨rfl, ⟨rfl, rfl⟩, rfl, rfl⟩, by decide⟩

/-- Section 0 STOPPED with its stop seen, member 0 and 1 as given, the link test as given. -/
def starting (a b : Member) (test : Bool) : State :=
  let s := moved .stopped .none
  { s.setSec 0 { s.sec 0 with stopSeen := true, members := #v[a, b, Member.reset, Member.reset] } with
    link := { LinkTest.reset with running := test } }

/-- A member that shows FAULT. -/
def faulty : Member := { mem 1000 with status := { ready := true, running := true, fault := true, limit := false } }

theorem test_meets_SectionOrderRun : (starting (mem 1000) (mem 1000) false).UpReady ∧
    ((starting (mem 1000) (mem 1000) false).sectionAt 5 = some 0 ∧
    ((starting (mem 1000) (mem 1000) false).sec 0).runState = .stopped ∧
    (starting (mem 1000) (mem 1000) false).cyc.lineCommand = .run ∧ serving.cyc.lineCommand ≠ .run ∧
    ((starting (mem 1000) (mem 1000) false).sec 0).stopSeen = true ∧ ((moved .stopped .none).sec 0).stopSeen = false ∧
    (((starting (mem 1000) Member.reset false).sec 0).member 1).state ≠ .active ∧
    (((starting (mem 1000) Member.reset false).sec 0).member 0).state = .active ∧
    (((starting (mem 1000) faulty false).sec 0).member 1).status.fault = true ∧
    (∀ k : Fin 4, k < 1 → (((starting (mem 1000) faulty false).sec 0).member k).status.ready = true ∧
      (((starting (mem 1000) faulty false).sec 0).member k).status.fault = false) ∧
    (∀ k : Fin 4, k.val < 2 → (((starting (mem 1000) (mem 1000) true).sec 0).member k).state = .active ∧
      (((starting (mem 1000) (mem 1000) true).sec 0).member k).status.ready = true ∧
      (((starting (mem 1000) (mem 1000) true).sec 0).member k).status.fault = false) ∧
    (starting (mem 1000) (mem 1000) true).link.running = true ∧
    (starting (mem 1000) (mem 1000) false).link.running = false) :=
  ⟨⟨rfl, ⟨rfl, rfl⟩, rfl, rfl⟩, by decide⟩

/-- The management unit with a pending-access record, and a frame queued or not. -/
def asking (polls : Nat) (queued : Bool) : State :=
  { running with
    mgmt := { running.mgmt with pendingAccess := some { level := .operate, polls := polls } }
    up := { running.up with tx := if queued then [frame .plain] else [] } }

/-- A POLL CALL frame that ended `n` bit times ago, still in the UP FIFO. -/
def latePoll (n : Nat) : State :=
  { running with
    up := { running.up with
      fifo := (frameChars 0 0x03 []).mapIdx fun k x =>
        { body := .char x (decide (k = 0)), framing := false, brk := false, overrun := false
          stamp := { slot := none, age := n + 11 * (4 - k) } } } }

theorem test_meets_PollCall : ((asking 0 false).UpReady ∧ (asking 0 false).dn.asm = .wait) ∧
    ((asking 1 true).UpReady ∧ (asking 1 true).dn.asm = .wait) ∧
    (running.mgmt.pendingAccess = none ∧
    (asking 0 false).mgmt.pendingAccess = some { level := .operate, polls := 0 } ∧
    (asking 1 true).mgmt.pendingAccess = some { level := .operate, polls := 0 + 1 } ∧
    (asking 1 true).up.tx ≠ [] ∧ (asking 0 false).up.tx = [] ∧ running.cyc.inFlight = none ∧
    running.link.running = false ∧ (inWindow running 0).cyc.inFlight ≠ none ∧
    (starting (mem 1000) (mem 1000) true).link.running = true) ∧
    ∀ n, (latePoll n).phase = .inService ∧ (latePoll n).up.asm = .wait ∧ (latePoll n).up.tx = [] ∧
      (latePoll n).dn.fifo = [] ∧ (latePoll n).dn.asm = .wait :=
  ⟨⟨⟨rfl, ⟨rfl, rfl⟩, rfl, rfl⟩, rfl⟩, ⟨⟨rfl, ⟨rfl, rfl⟩, rfl, rfl⟩, rfl⟩, by decide, fun _ => ⟨rfl, rfl, rfl, rfl, rfl⟩⟩

theorem test_meets_ReplyBurstFrames : running.UpReady ∧ running.dn.asm = .wait ∧ running.up.tx = [] ∧
    (running.setImage 0 (some (running.takeImage 0))).cyc.images[(0 : Fin 16)] = some (running.takeImage 0) :=
  ⟨⟨rfl, ⟨rfl, rfl⟩, rfl, rfl⟩, rfl, rfl, rfl⟩

/-- The local period timer runs. -/
def local0 (s : State) : State := { s with cyc := { s.cyc with localTimer := some 0 } }

/-- The desk over the claimed section, a reply pending that ends a move to 9, a restart or nothing. -/
def answering (tie : ReplyTie) : State :=
  let s := engineer (claimed running)
  { s with
    cyc := { s.cyc with pendingReply := some { reply .done 0xFF [] with tie := tie } }
    mgmt := { s.mgmt with pendingMove := some 9 }
    store := { s.store with pendingRestart := true } }

theorem test_meets_UpstreamLoss :
    (∀ tie, (answering tie).phase = .inService ∧ (answering tie).Quiet ∧ (answering tie).dn.asm = .wait ∧
      (answering tie).cyc.upState = .linked ∧ (answering tie).cyc.lossTimer ≠ none ∧
      (answering tie).cyc.inFlight = none ∧ (answering tie).link.running = false ∧
      (answering tie).cyc.pendingReply = some { reply .done 0xFF [] with tie := tie }) ∧
    (running.cyc.upState ≠ .linked ∧ running.cyc.lossTimer = none ∧
    ((answering .plain).runner 0).state ≠ .idle ∧ ((answering .plain).runner 1).state = .idle ∧
    (engineer (claimed running)).cyc.pendingReply = none ∧ ReplyTie.plain ≠ .move 9 ∧ ReplyTie.plain ≠ .restart ∧
    (engineer (inWindow running 0)).cyc.inFlight ≠ none ∧
    ((engineer (moved .stopping .request)).sec 0).cause ≠ .quickStop ∧
    ((engineer (moved .stopping .quickStop)).sec 0).cause = .quickStop ∧
    ((engineer (moved .tripped .leadLost)).sec 0).runState = .tripped) :=
  ⟨fun _ => ⟨rfl, ⟨rfl, rfl⟩, rfl, rfl, nofun, rfl, rfl, rfl⟩, by decide⟩

theorem test_meets_LocalPeriodRequestsStart :
    ((local0 running).phase = .inService ∧ (local0 running).Quiet ∧ (local0 running).dn.asm = .wait) ∧
    (running.cyc.localTimer = none ∧ (local0 running).cyc.localTimer ≠ none ∧ (local0 running).cyc.inFlight = none ∧
    (local0 running).link.running = false ∧ (local0 (inWindow running 0)).cyc.inFlight ≠ none) :=
  ⟨⟨rfl, ⟨rfl, rfl⟩, rfl⟩, by decide⟩

/-! ### Cycle starts -/

theorem sound_stopped : plainSec.Sound := by
  refine { cfg := ?_, draw := by decide, ratio := by decide, observed := by decide, master := by decide,
           orderAge := by decide, applied := by decide, atRest := fun _ => ⟨rfl, by decide⟩, lead := rfl,
           members := fun j => ?_, fit := fun _ => ?_ }
  · constructor <;> decide
  · have : ∀ j : Fin 4, (plainSec.member j).rating = 1000 ∧ (plainSec.member j).weight = 25 ∧
        (plainSec.member j).speed = 0 ∧ (plainSec.member j).torque = 0 ∧ (plainSec.member j).trim = 0 ∨
        (plainSec.member j) = Member.reset := by decide
    show (plainSec.member j).Sound 0
    rcases this j with ⟨h1, h2, h3, h4, h5⟩ | h
    · exact { rating := by rw [h1]; unfold RatingSound; omega, weight := by rw [h2]; unfold WeightSound; omega,
              speed := by omega, torque := by omega, trim := by omega }
    · rw [h]
      exact { rating := Or.inl rfl, weight := by unfold WeightSound; decide, speed := by decide, torque := by decide,
              trim := by decide }
  · exact { upAddr := by decide, memberBase := by decide, aligned := by decide, maxSpeed := by decide,
            rated := by decide }

/-- A section entry as a start finds it: run state, cause, order age, source mode, M and A. -/
def stand (run : RunState) (cause : StopCause) (age : Nat) (source : Source) (master applied : Int) : Section :=
  { plainSec with
    runState := run, cause := cause, orderAge := age, source := source, master := master, applied := applied }

theorem sound_stand {run : RunState} {cause : StopCause} {age : Nat} {source : Source} {master applied : Int}
    (ha : age ≤ 255) (hm : 0 ≤ master ∧ master ≤ 250000) (hp : 0 ≤ applied ∧ applied ≤ 150000)
    (hr : run = .stopped ∨ run = .tripped → applied = 0) : (stand run cause age source master applied).Sound :=
  have h := sound_stopped
  { cfg := h.cfg, draw := h.draw, ratio := h.ratio, observed := h.observed, master := hm, orderAge := ha
    applied := ⟨hp.1, fun _ => hp.2⟩, atRest := fun e => ⟨hr e, (h.atRest (Or.inl rfl)).2⟩, lead := h.lead
    members := h.members
    fit := fun p => have f := h.fit p
      { upAddr := f.upAddr, memberBase := f.memberBase, aligned := f.aligned, maxSpeed := f.maxSpeed, rated := f.rated } }

theorem sound_reset : Section.reset.Sound := by
  refine { cfg := ?_, draw := by decide, ratio := by decide, observed := by decide, master := by decide,
           orderAge := by decide, applied := by decide, atRest := fun _ => ⟨rfl, by decide⟩, lead := rfl,
           members := fun j => ?_, fit := nofun }
  · constructor <;> decide
  · have : Section.reset.member j = Member.reset := by revert j; decide
    rw [this]
    exact { rating := Or.inl rfl, weight := by unfold WeightSound; decide, speed := by decide, torque := by decide,
            trim := by decide }

theorem sound_step : StepRecord.reset.Sound :=
  { v := by decide, v2 := by decide, d := by decide, d2 := by decide, repeats := by decide, noAdvance := by decide,
    advance := by constructor <;> decide, abort := by constructor <;> decide }

/-- Section 0 as given at a line speed, the local period timer running. -/
def standing (x : Section) (v : Int) : State :=
  let s := local0 (withSec x)
  { s with cyc := { s.cyc with lineSpeed := v } }

theorem standing_sec (x : Section) (v : Int) (i : Fin 16) :
    i = 0 ∧ (standing x v).sec i = x ∨ i ≠ 0 ∧ (standing x v).sec i = Section.reset := by
  by_cases h : i = 0
  · subst h; exact Or.inl ⟨rfl, rfl⟩
  · refine Or.inr ⟨h, ?_⟩
    show ((Vector.replicate 16 Section.reset).set 0 x)[i] = _
    have h0 : ¬(0 = i.val) := fun e => h (Fin.ext e.symm)
    rw [Fin.getElem_fin, Vector.getElem_set]
    simp [h0]

theorem standing_tablesSound {x : Section} (v : Int) (h : x.Sound) : (standing x v).TablesSound := by
  refine { sections := fun i => ?_, steps := fun k => ?_, snapshot := nofun, copy := nofun }
  · rcases standing_sec x v i with ⟨_, e⟩ | ⟨_, e⟩
    · rw [e]; exact h
    · rw [e]; exact sound_reset
  · have : (standing x v).stepRec k = StepRecord.reset := by
      show (Vector.replicate 96 StepRecord.reset)[k] = _
      simp
    rw [this]; exact sound_step

theorem standing_chainSound {x : Section} (v : Int) (hp : x.present = true) (hd : x.depth = some 1)
    (hb : x.cfg.drawBase = none) : (standing x v).ChainSound := by
  refine { listed := fun i => ?_, ordered := List.pairwise_singleton _ _, depths := fun i h => ?_,
           withdrawn := fun i h => ?_ }
  · show i ∈ [0] ↔ _
    rcases standing_sec x v i with ⟨e, h⟩ | ⟨e, h⟩
    · rw [h, e]; exact ⟨fun _ => hp, fun _ => List.mem_singleton.mpr rfl⟩
    · rw [h]; simpa [Section.reset] using e
  · rcases standing_sec x v i with ⟨_, e⟩ | ⟨_, e⟩
    · unfold State.DepthRight; rw [e, hb]; exact hd
    · rw [e] at h; cases h
  · rcases standing_sec x v i with ⟨_, e⟩ | ⟨_, e⟩
    · rw [e, hp] at h; cases h
    · rw [e]; rfl

/-- A start by the local period timer, section 0 present. -/
theorem starts_local (x : Section) (v : Int) :
    (standing x v).StartsFrom .localPeriodTimerExpiry (standing x v).startLocal :=
  .localPeriod ⟨⟨⟨rfl, rfl⟩, rfl⟩, rfl, rfl⟩ rfl nofun

/-- The RUNNING section 0 that a start finds. -/
def ready : State := standing (stand .running .none 6 .follow 1 101) 1000

theorem ready_tablesSound : ready.TablesSound :=
  standing_tablesSound _ (sound_stand (by decide) (by decide) (by decide) nofun)

theorem ready_chainSound : ready.ChainSound := standing_chainSound _ rfl rfl rfl

/-- The last slot of a cycle runs, a start deferred or not, a link test begun or not. -/
def lastSlot (s : State) (waits test : Bool) : State :=
  let t := inWindow s 2
  { t with cyc := { t.cyc with pendingStart := waits }, link := { LinkTest.reset with running := test } }

theorem lastSlot_runs (waits test : Bool) : (lastSlot running waits test).SlotRuns
    { slots := [{ address := 8, sec := 0, slot := 0 }, { address := 9, sec := 0, slot := 1 },
        { address := 12, sec := 1, slot := 0 }]
      windowOpen := true, pos := 2, slotBits := 0, report := none, dropped := [] }
    { address := 12, sec := 1, slot := 0 } := ⟨rfl, ⟨rfl, rfl⟩, rfl, rfl, rfl⟩

/-- Loopback, frame `k` awaiting judgement or not, a start deferred or not. -/
def looped (k : Nat) (awaits waits : Bool) : State :=
  { serving with
    cyc := { serving.cyc with pendingStart := waits }
    link := { LinkTest.reset with
      running := true, loopback := true, frameNo := k, awaiting := awaits
      sendTimer := if awaits then none else some 22 } }

/-- Each way to a start has a state that takes it: POLL CALL, the loss event, the ends of a cycle and of a link test, the
entry into service. -/
theorem test_starts_every_way :
    (∃ b, running.StartsFrom .pollCall b) ∧ (∃ b, linkedMonitor.StartsFrom .lossTimerExpiry b) ∧
    (∃ b, (lastSlot running true false).StartsFrom .slotEnd b) ∧
    (∃ b, (looped 15 true true).StartsFrom .echoTestTimeout b) ∧
    (∃ b, (looped 15 true true).StartsFrom (.echoTest (echoPayload 15)) b) ∧
    ∃ b, State.reset.StartsFrom .comeIntoService b :=
  ⟨⟨_, .poll ⟨⟨⟨rfl, rfl⟩, rfl⟩, rfl, rfl⟩ ⟨rfl, ⟨rfl, rfl⟩, rfl, rfl⟩⟩,
    ⟨_, .loss ⟨⟨⟨rfl, rfl⟩, rfl⟩, rfl, rfl⟩ rfl rfl nofun⟩,
    ⟨_, .cycleEnd ⟨⟨rfl, rfl⟩, rfl⟩ (lastSlot_runs true false) (by decide) rfl rfl⟩,
    ⟨_, .testEnd ⟨⟨rfl, rfl⟩, rfl⟩ rfl rfl rfl (by decide) rfl rfl⟩,
    ⟨_, .testJudged ⟨⟨rfl, rfl⟩, rfl⟩ rfl rfl rfl (by decide) rfl rfl rfl⟩,
    ⟨_, .service ⟨⟨⟨rfl, rfl⟩, rfl⟩, rfl, rfl⟩ rfl⟩⟩

theorem test_meets_CycleStartSendsOrders :
    (ready.StartsFrom .localPeriodTimerExpiry ready.startLocal ∧ ready.ChainSound ∧ ready.TablesSound) ∧
    (local0 serving).StartsFrom .localPeriodTimerExpiry (local0 serving).startLocal ∧
    ready.startLocal.presentSecs ≠ [] ∧ (local0 serving).startLocal.presentSecs = [] ∧
    (ready.startLocal.sec 1).present = false ∧ (ready.startLocal.sec 0).present = true :=
  ⟨⟨starts_local _ _, ready_chainSound, ready_tablesSound⟩, .localPeriod ⟨⟨⟨rfl, rfl⟩, rfl⟩, rfl, rfl⟩ rfl nofun,
    by decide⟩

/-- Section 0 RUNNING with its member 1 LOST. -/
def lostMember : Section :=
  let x := stand .running .none 6 .follow 1 101
  { x with members := x.members.set 1 { mem 1000 with state := .lost } }

theorem sound_lostMember : lostMember.Sound :=
  have h : (stand .running .none 6 .follow 1 101).Sound := sound_stand (by decide) (by decide) (by decide) nofun
  { cfg := h.cfg, draw := h.draw, ratio := h.ratio, observed := h.observed, master := h.master, orderAge := h.orderAge
    applied := h.applied, atRest := nofun, lead := rfl
    members := fun j => by
      have e : (lostMember.member j).rating = (plainSec.member j).rating ∧
          (lostMember.member j).weight = (plainSec.member j).weight ∧
          (lostMember.member j).speed = (plainSec.member j).speed ∧
          (lostMember.member j).torque = (plainSec.member j).torque ∧
          (lostMember.member j).trim = (plainSec.member j).trim := by revert j; decide
      have m := h.members j
      exact { rating := e.1 ▸ m.rating, weight := e.2.1 ▸ m.weight, speed := e.2.2.1 ▸ m.speed
              torque := e.2.2.2.1 ▸ m.torque, trim := e.2.2.2.2 ▸ m.trim }
    fit := fun _ => { upAddr := by decide, memberBase := by decide, aligned := by decide, maxSpeed := by decide,
                      rated := by decide } }

theorem test_meets_MemberOrderEntries :
    ((standing lostMember 1000).StartsFrom .localPeriodTimerExpiry (standing lostMember 1000).startLocal ∧
      (standing lostMember 1000).TablesSound) ∧
    ((standing lostMember 1000).startLocal.sec 0).present = true ∧
    (1 : Fin 4).val < ((standing lostMember 1000).startLocal.sec 0).cfg.memberCount ∧
    (((standing lostMember 1000).startLocal.sec 0).member 0).state ≠ .lost ∧
    (((standing lostMember 1000).startLocal.sec 0).member 1).state = .lost ∧
    ((ready.startLocal.sec 0).member 1).state ≠ .lost :=
  ⟨⟨starts_local _ _, standing_tablesSound _ sound_lostMember⟩, by decide⟩

/-- Section 0 at a start that the local period timer makes. -/
def startOf (x : Section) : Section := (standing x 1000).startLocal.sec 0

theorem test_meets_OrderLostAtStart : (ready.ChainSound ∧
      (standing (stand .stopping .request 7 .follow 1 101) 1000).ChainSound) ∧
    (∀ x, (standing x 1000).StartsFrom .localPeriodTimerExpiry (standing x 1000).startLocal) ∧
    (startOf (stand .running .none 6 .follow 1 101)).StaysRunning ∧
    ¬(startOf (stand .running .none 7 .follow 1 101)).StaysRunning ∧
    ((startOf (stand .stopping .request 7 .follow 1 101)).present = true ∧
    (startOf (stand .stopping .request 7 .follow 1 101)).cfg.orderHold ≤
      min 255 ((startOf (stand .stopping .request 7 .follow 1 101)).orderAge + 1) ∧
    min 255 ((startOf (stand .stopping .request 6 .follow 1 101)).orderAge + 1) <
      (startOf (stand .stopping .request 6 .follow 1 101)).cfg.orderHold ∧
    ((claimed ready).startLocal.runner 0).state ≠ .idle ∧ ((claimed ready).startLocal.runner 0).claimed = some 0 ∧
    (startOf (stand .stopping .orderLost 7 .follow 1 101)).cause ≠ .request ∧
    (startOf (stand .tripped .leadLost 7 .follow 1 0)).runState = .tripped ∧
    (startOf (stand .stopped .none 7 .follow 1 0)).runState = .stopped) :=
  ⟨⟨ready_chainSound, standing_chainSound _ rfl rfl rfl⟩, fun _ => starts_local _ _, ⟨rfl, by decide⟩,
    fun h => absurd h.2 (by decide), by decide⟩

/-- The worked chain, its local period timer running. -/
def workedLocal : State := local0 worked

theorem worked_present : ∀ i : Fin 16, (workedLocal.sec i).present = true → i = 2 ∨ i = 3 ∨ i = 4 ∨ i = 5 := by decide

theorem worked_chainSound : workedLocal.ChainSound where
  listed := by decide
  ordered := by unfold State.ChainBefore; decide
  depths := fun i h => by
    rcases worked_present i h with e | e | e | e <;> subst e
    · exact rfl
    all_goals exact ⟨rfl, rfl⟩
  withdrawn := by decide

theorem test_meets_RatioFormed : (ready.ChainSound ∧ workedLocal.ChainSound) ∧
    (∀ x, (standing x 1000).StartsFrom .localPeriodTimerExpiry (standing x 1000).startLocal) ∧
    workedLocal.StartsFrom .localPeriodTimerExpiry workedLocal.startLocal ∧
    (startOf (stand .running .none 6 .follow 1 101)).StaysRunning ∧
    ((startOf (stand .running .none 6 .follow 1 101)).cfg.drawBase = none ∧
    (workedLocal.startLocal.sec 3).cfg.drawBase = some 2 ∧ (workedLocal.startLocal.sec 3).source = .cascade ∧
    (startOf (stand .running .none 6 .follow 1 101)).source = .follow ∧ 1000 ≤ ready.startLocal.cyc.lineSpeed ∧
    0 < (startOf (stand .running .none 6 .follow 1 101)).master ∧
    ¬0 < (startOf (stand .running .none 6 .follow 0 101)).master) :=
  ⟨⟨ready_chainSound, worked_chainSound⟩, fun _ => starts_local _ _,
    .localPeriod ⟨⟨⟨rfl, rfl⟩, rfl⟩, rfl, rfl⟩ rfl nofun, ⟨rfl, by decide⟩, by decide⟩

theorem test_meets_TargetFormed :
    ((standing plainSec 0).StartsFrom .localPeriodTimerExpiry (standing plainSec 0).startLocal ∧
      (standing plainSec 0).ChainSound ∧ workedLocal.ChainSound) ∧
    ((standing plainSec 0).startLocal.sec 0).present = true ∧ (standing plainSec 0).startLocal.cyc.lineSpeed = 0 ∧
    ((standing plainSec 0).startLocal.sec 0).source = .follow ∧ (workedLocal.startLocal.sec 2).source = .cascade ∧
    (workedLocal.startLocal.sec 2).present = true :=
  ⟨⟨starts_local _ _, standing_chainSound _ rfl rfl rfl, worked_chainSound⟩, by decide⟩

theorem test_meets_GoalAndRamp :
    ((standing (stand .stopping .quickStop 6 .follow 1 101) 1000).TablesSound ∧
      (standing (stand .stopping .quickStop 6 .follow 1 101) 1000).ChainSound ∧ ready.TablesSound ∧
      (standing (stand .stopped .none 6 .follow 1 0) 1000).TablesSound) ∧
    (∀ x, (standing x 1000).StartsFrom .localPeriodTimerExpiry (standing x 1000).startLocal) ∧
    (startOf (stand .running .none 6 .follow 250000 0)).StaysRunning ∧
    ((startOf (stand .stopping .quickStop 6 .follow 1 101)).runState = .stopping ∧
    (startOf (stand .stopping .quickStop 6 .follow 1 101)).cause = .quickStop ∧
    (startOf (stand .stopping .upstreamLoss 6 .follow 1 101)).cause = .upstreamLoss ∧
    (startOf (stand .tripped .leadLost 6 .follow 1 0)).runState = .tripped ∧
    (startOf (stand .running .none 6 .follow 250000 0)).applied +
      (startOf (stand .running .none 6 .follow 250000 0)).cfg.accel < 101 ∧
    0 < (startOf (stand .running .none 6 .follow 0 101)).applied -
      (startOf (stand .running .none 6 .follow 0 101)).cfg.accel ∧
    (startOf (stand .stopping .request 6 .follow 1 101)).cfg.stopRamp <
      (startOf (stand .stopping .request 6 .follow 1 101)).applied ∧
    (startOf (stand .stopping .request 6 .follow 1 100)).applied ≤
      (startOf (stand .stopping .request 6 .follow 1 100)).cfg.stopRamp) :=
  ⟨⟨standing_tablesSound _ (sound_stand (by decide) (by decide) (by decide) (by decide)),
      standing_chainSound _ rfl rfl rfl, ready_tablesSound,
      standing_tablesSound _ (sound_stand (by decide) (by decide) (by decide) (fun _ => rfl))⟩,
    fun _ => starts_local _ _, ⟨rfl, by decide⟩, by decide⟩

/-! ### Slots and window completions -/

theorem test_meets_MemberReportTaken : (inWindow running 0).Hears .dn ∧ serving.Hears .dn ∧
    ((inWindow running 0).cyc.inFlight.map fun c => (c.windowOpen, c.slots[c.pos]?.map SlotRef.address, c.report)) =
      some (true, some 8, none) ∧ (8 : Byte) ∈ (inWindow running 0).cyc.pollInForce ∧
    (10 : Byte) ∉ (inWindow running 0).cyc.pollInForce ∧ (9 : Byte) ≠ 8 ∧ (0 : Byte) = (inWindow running 0).cyc.cycleNumber ∧
    (1 : Byte) ≠ (inWindow running 0).cyc.cycleNumber ∧ serving.cyc.inFlight = none :=
  ⟨⟨⟨rfl, rfl⟩, rfl, rfl, rfl, fun _ => rfl⟩, ⟨⟨rfl, rfl⟩, rfl, rfl, rfl, fun _ => rfl⟩, by decide⟩

/-- The cycle of `inWindow`, with sections withdrawn and a report as given. -/
def cycleAt (pos : Nat) (dropped : List (Fin 16)) (report : Option MemberRep) : Cycle :=
  { slots := [{ address := 8, sec := 0, slot := 0 }, { address := 9, sec := 0, slot := 1 },
      { address := 12, sec := 1, slot := 0 }]
    windowOpen := true, pos := pos, slotBits := 0, report := report, dropped := dropped }

/-- That cycle in flight. -/
def inCycle (s : State) (c : Cycle) : State := { s with cyc := { s.cyc with inFlight := some c } }

/-- The first two slots of that cycle. -/
def slot0 : SlotRef := { address := 8, sec := 0, slot := 0 }
def slot1 : SlotRef := { address := 9, sec := 0, slot := 1 }

/-- A report as a member may send it, past both clamps. -/
def farReport : MemberRep := { speed := 250001, torque := 3001, status := 15 }

theorem test_meets_SlotResultDelivered : (serving.phase = .inService ∧ serving.Quiet ∧ serving.cyc.inFlight = none) ∧
    (dnBurst.Quiet ∧ dnBurst.phase = .inService ∧ (inCycle serving { cycleAt 0 [] none with windowOpen := false }).Quiet) ∧
    (∀ report, (inCycle running (cycleAt 0 [] report)).SlotRuns (cycleAt 0 [] report) slot0) ∧
    (inCycle running (cycleAt 1 [0] none)).SlotRuns (cycleAt 1 [0] none) slot1 ∧
    (inCycle (starting (mem 1000) (mem 1000) true) (cycleAt 1 [] none)).SlotRuns (cycleAt 1 [] none) slot1 ∧
    (∃ n, (cycleAt 0 [] none).slots[(cycleAt 0 [] none).pos + 1]? = some n ∧ n.sec = slot0.sec) ∧
    ((cycleAt 0 [] none).pos + 1 < (cycleAt 0 [] none).slots.length ∧ slot1.sec ∈ (cycleAt 1 [0] none).dropped ∧
    slot1.sec ∉ (cycleAt 1 [] none).dropped ∧ (cycleAt 1 [] none).report = none ∧
    (inCycle (starting (mem 1000) (mem 1000) true) (cycleAt 1 [] none)).link.running = true ∧
    (inCycle running (cycleAt 0 [] none)).link.running = false ∧
    (cycleAt 0 [] (some farReport)).report = some farReport) :=
  ⟨⟨rfl, ⟨rfl, rfl⟩, rfl⟩, ⟨⟨rfl, rfl⟩, rfl, ⟨rfl, rfl⟩⟩, fun _ => ⟨rfl, ⟨rfl, rfl⟩, rfl, rfl, rfl⟩,
    ⟨rfl, ⟨rfl, rfl⟩, rfl, rfl, rfl⟩, ⟨rfl, ⟨rfl, rfl⟩, rfl, rfl, rfl⟩, ⟨_, rfl, rfl⟩, by decide⟩

/-- A state whose section 0 is about to complete. -/
def completing (x : Section) : State := inCycle (withSec x) (cycleAt 1 [] none)

theorem completes (x : Section) : (completing x).Completes (cycleAt 1 [] none) slot1 :=
  ⟨⟨rfl, ⟨rfl, rfl⟩, rfl, rfl, rfl⟩, by decide, fun n h => by cases h; decide⟩

/-- A cycle of section 0 alone: its last slot is the last of the cycle too. -/
def soleCycle : Cycle :=
  { slots := [slot0, slot1], windowOpen := true, pos := 1, slotBits := 0, report := none, dropped := [] }

theorem test_last_completion (x : Section) : (inCycle (withSec x) soleCycle).Completes soleCycle slot1 ∧
    soleCycle.slots.length ≤ soleCycle.pos + 1 :=
  ⟨⟨⟨rfl, ⟨rfl, rfl⟩, rfl, rfl, rfl⟩, by decide, nofun⟩, by decide⟩

/-- Section 0 with its results in, and as its completion leaves it; slot 1 is a miss. -/
def got (x : Section) : Section := ((completing x).deliverSlot (cycleAt 1 [] none) slot1).sec 0
def left (x : Section) : Section := ((completing x).closeSlot (cycleAt 1 [] none) slot1).sec 0

/-- A member with a window result and a state. -/
def resulted (state : MemberState) (result : WindowResult) (misses : Nat) : Member :=
  { mem 1000 with state := state, result := result, missCount := misses }

/-- A section of so many members in a run state. -/
def grouped (run : RunState) (count : Nat) (members : Vector Member 4) : Section :=
  { plainSec with runState := run, cfg := { plainSec.cfg with memberCount := count }, members := members }

/-- Four members whose results differ. -/
def mixed (run : RunState) : Section :=
  grouped run 4 #v[resulted .active .valid 0, resulted .missing .none 2, resulted .lost .valid 0, resulted .absent .miss 0]

theorem test_meets_MemberStateTable : (∀ x, (completing x).Completes (cycleAt 1 [] none) slot1) ∧
    (got plainSec).cfg.memberCount ≤ (2 : Fin 4).val ∧ (3 : Fin 4).val < (got (mixed .running)).cfg.memberCount ∧
    ((got plainSec).member 0).result = .none ∧ ((got (mixed .running)).member 0).result = .valid ∧
    ((got (mixed .running)).member 0).state ≠ .lost ∧ ((got (mixed .stopped)).member 2).result = .valid ∧
    (got (mixed .stopped)).runState = .stopped ∧ ((got (mixed .running)).member 2).state = .lost ∧
    (got (mixed .running)).runState = .running ∧ ((got (mixed .running)).member 3).result = .miss ∧
    ((got (mixed .running)).member 3).state = .absent ∧ ((got (mixed .running)).member 1).result = .miss ∧
    ((got (mixed .running)).member 1).state = .missing ∧
    (got (mixed .running)).cfg.missLimit ≤ ((got (mixed .running)).member 1).missCount + 1 ∧
    ((got plainSec).member 1).result = .miss ∧ ((got plainSec).member 1).state = .active ∧
    ((got plainSec).member 1).missCount + 1 < (got plainSec).cfg.missLimit := ⟨completes, by decide⟩

/-- A member that shows FAULT in a valid report. -/
def faultyResult : Member := { faulty with result := .valid }

theorem test_meets_TripAtCompletion : (∀ x, (completing x).Completes (cycleAt 1 [] none) slot1) ∧
    (cycleAt 1 [] none).pos + 1 < (cycleAt 1 [] none).slots.length ∧
    (claimed (completing (mixed .running))).claimant slot1.sec = some 0 ∧
    (completing (mixed .running)).claimant slot1.sec = none ∧
    ((left (grouped .running 2 #v[resulted .missing .miss 2, mem 1000, Member.reset, Member.reset])).member 0).state =
      .lost ∧
    (((left (mixed .running)).member 0).state ≠ .lost ∧ ((left (mixed .running)).member 1).state = .lost ∧
      ((got (mixed .running)).member 1).state ≠ .lost ∧ (got (mixed .running)).cfg.degradeAllowed = false) ∧
    ((got (grouped .running 1 #v[faultyResult, mem 1000, Member.reset, Member.reset])).member 0).status.fault = true ∧
    ((left (grouped .running 1 #v[faultyResult, mem 1000, Member.reset, Member.reset])).member 0).state ≠ .lost ∧
    (left (mixed .running)).runState = .tripped ∧ (got (mixed .tripped)).runState = .tripped ∧
    (got plainSec).release ≠ .due ∧ (got { plainSec with release := .due }).release = .due ∧
    (got { plainSec with release := .due }).runState = .stopped := ⟨completes, by decide⟩

theorem test_meets_LoadAndShares : (∀ x, (completing x).Completes (cycleAt 1 [] none) slot1) ∧
    (0 : Fin 4).val < (got sharing).cfg.memberCount ∧ ((got sharing).member 0).result = .valid ∧
    (got sharing).cfg.memberCount ≤ (3 : Fin 4).val ∧ ((got sharing).member 1).result ≠ .valid ∧
    (∀ j : Fin 4, j.val < 1 → ((got (grouped .running 1 sharing.members)).member j).result = .valid) ∧
    ((left (grouped .running 1 sharing.members)).member 0).state ≠ .lost ∧
    [0, 1, 2, 3].filter (fun j : Fin 4 => decide (j.val < (got plainSec).cfg.memberCount ∧
      ((left plainSec).member j).state ≠ .lost ∧ ((got plainSec).member j).result = .valid)) = [] :=
  ⟨completes, by decide⟩

/-- Section 1 of 5.8 whose slot 1 reports as slot 1 of the chapter does. -/
def sharingWindow : State := inCycle (withSec sharing) (cycleAt 1 [] (some { speed := 0, torque := 380, status := 1 }))

theorem test_meets_TrimUpdates :
    sharingWindow.Completes (cycleAt 1 [] (some { speed := 0, torque := 380, status := 1 })) slot1 ∧
    (∀ x, (completing x).Completes (cycleAt 1 [] none) slot1) ∧
    ∀ x y : Section, x = (sharingWindow.deliverSlot (cycleAt 1 [] (some { speed := 0, torque := 380, status := 1 }))
        slot1).sec 0 →
      y = (sharingWindow.closeSlot (cycleAt 1 [] (some { speed := 0, torque := 380, status := 1 })) slot1).sec 0 →
      0 ≤ x.cfg.trimLimit ∧ 0 ≤ x.cfg.deadband ∧ y.runState = .running ∧ x.cfg.shareEnable ≤ x.applied ∧
      (∀ j : Fin 4, j.val < 3 → (y.member j).state ≠ .lost ∧ (x.member j).result = .valid) ∧
      x.cfg.deadband < (y.member 1).shareError ∧ (y.member 2).shareError < -x.cfg.deadband ∧
      (left plainSec).runState ≠ .running ∧ (left plainSec).runState ≠ .tripped :=
  ⟨⟨⟨rfl, ⟨rfl, rfl⟩, rfl, rfl, rfl⟩, by decide, fun n h => by cases h; decide⟩, completes,
    fun x y hx hy => by subst hx hy; decide⟩

/-- The last slot of the cycle of `inWindow`. -/
def slot2 : SlotRef := { address := 12, sec := 1, slot := 0 }

theorem test_meets_CycleEnds :
    (∀ waits test, (lastSlot running waits test).SlotRuns (cycleAt 2 [] none) slot2 ∧
      (lastSlot running waits test).dn.asm = .wait ∧ (lastSlot running waits test).link.running = test ∧
      (lastSlot running waits test).link.loopback = false ∧ (lastSlot running waits test).cyc.pendingStart = waits) ∧
    (inCycle running (cycleAt 2 [0] none)).SlotRuns (cycleAt 2 [0] none) slot2 ∧
    (cycleAt 2 [0] none).pos + 1 = (cycleAt 2 [0] none).slots.length ∧
    (((lastSlot running false false).closeSlot (cycleAt 2 [] none) slot2).sec 0).present = true ∧
    (∃ n ∈ (cycleAt 2 [] none).slots, n.sec = 0) ∧ (0 : Fin 16) ∉ (cycleAt 2 [] none).dropped ∧
    (0 : Fin 16) ∈ (cycleAt 2 [0] none).dropped ∧
    (((lastSlot running false false).closeSlot (cycleAt 2 [] none) slot2).sec 1).present = false ∧
    ∀ n ∈ (cycleAt 2 [] none).slots, n.sec ≠ 2 :=
  ⟨fun _ _ => ⟨⟨rfl, ⟨rfl, rfl⟩, rfl, rfl, rfl⟩, rfl, rfl, rfl, rfl⟩, ⟨rfl, ⟨rfl, rfl⟩, rfl, rfl, rfl⟩, by decide⟩

/-! ### Tests and the log -/

theorem test_meets_ConditionHolds :
    Quantity.reading .load plainSec = .inl 0 ∧ Quantity.reading .degraded plainSec = .inr false ∧
    ({ Condition.reset with quantity := .trim, limit := 0 } : Condition).limit ≤ 0 ∧
    ({ Condition.reset with relation := .within } : Condition).band = 0 ∧
    [0, 1, 2, 3].filter (fun j : Fin 4 => decide (j.val < plainSec.cfg.memberCount ∧
      (plainSec.member j).state ≠ .lost)) = [0, 1] ∧
    [0, 1, 2, 3].filter (fun j : Fin 4 => decide (j.val < (grouped .running 1 plainSec.members).cfg.memberCount ∧
      ((grouped .running 1 plainSec.members).member j).state ≠ .lost)) = [0] := by decide

/-- A runner in step 0 of a test on section 0 that completes. -/
def progressing (u : Runner) (k : StepRecord) : State :=
  let s := completing { plainSec with runState := .running }
  { s with runners := s.runners.set 0 u, steps := s.steps.set 0 k }

/-- The state a completion leaves for the runner. -/
def judgedBase (s : State) : State :=
  (((s.deliverSlot (cycleAt 1 [] none) { address := 9, sec := 0, slot := 1 }).setInFlight
    (some (cycleAt 2 [] none))).monitorCompletion 0).modSec 0 Section.loadShare

theorem progress_completes (u : Runner) (k : StepRecord) :
    (progressing u k).Completes (cycleAt 1 [] none) slot1 :=
  ⟨⟨rfl, ⟨rfl, rfl⟩, rfl, rfl, rfl⟩, by decide, fun n h => by cases h; decide⟩

/-- Runner 0 in step 0 at a place of a SQUARE. -/
def inSquare (phase : Phase2) (count repeats : Nat) : Runner :=
  { busyRunner with phase := phase, phaseCount := count, repeatsLeft := repeats }

theorem test_meets_ProgressContinues :
    (∀ u k, (progressing u k).Completes (cycleAt 1 [] none) slot1) ∧
    (progressing busyRunner squareStep).claimant slot1.sec = some 0 ∧
    ((judgedBase (progressing busyRunner squareStep)).sec slot1.sec).runState = .running ∧
    (progressing { busyRunner with state := .paused } squareStep).claimant slot1.sec = some 0 ∧
    (progressing { busyRunner with state := .waiting } squareStep).claimant slot1.sec = some 0 ∧
    ((progressing busyRunner squareStep).runner 0).state = .running ∧
    ((progressing busyRunner squareStep).runner 0).step = some 0 ∧
    (∀ full, squareStep.abort.reached ((judgedBase (progressing busyRunner squareStep)).sec 0) full 0 = false ∧
      squareStep.advance.reached ((judgedBase (progressing busyRunner squareStep)).sec 0) full 0 = false) ∧
    busyRunner.elapsed + 1 < ({ StepRecord.reset with d := 2 } : StepRecord).d ∧
    busyRunner.elapsed + 1 < ({ StepRecord.reset with action := .ramp, d := 2 } : StepRecord).d ∧
    (inSquare .first 0 2).phaseCount + 1 < squareStep.d ∧ squareStep.d ≤ (inSquare .first 1 2).phaseCount + 1 ∧
    (inSquare .second 1 2).phaseCount + 1 < squareStep.d2 ∧ squareStep.d2 ≤ (inSquare .second 2 2).phaseCount + 1 ∧
    1 < (inSquare .second 2 2).repeatsLeft ∧ (inSquare .first 0 1).repeatsLeft ≠ 0 :=
  ⟨progress_completes, by decide⟩

/-- A step that ends by its abort condition, its advance condition or its dwell. -/
def endingStep (abort advance : Bool) (onTimeout : OnTimeout) : StepRecord :=
  { StepRecord.reset with
    present := true, onTimeout := onTimeout
    abort := { Condition.reset with present := abort, quantity := .degraded, relation := .clear }
    advance := { Condition.reset with present := advance, quantity := .degraded, relation := .clear } }

/-- What the judgement of runner 0 at that completion meets in its section. -/
def judgedSec (k : StepRecord) : Section := (judgedBase (progressing busyRunner k)).sec 0

theorem test_meets_ProgressEnds :
    (∀ u k, (progressing u k).Completes (cycleAt 1 [] none) slot1) ∧
    (progressing busyRunner (endingStep true true .next)).claimant slot1.sec = some 0 ∧
    (judgedSec (endingStep true true .next)).runState = .running ∧
    ((progressing busyRunner (endingStep true true .next)).runner 0).state = .running ∧
    ((progressing busyRunner (endingStep true true .next)).runner 0).step = some 0 ∧
    (endingStep true true .next).abort.reached plainSec true 0 = true ∧
    (judgedSec (endingStep false true .next)).full = false ∧
    (endingStep false true .next).abort.reached plainSec true 0 = false ∧
    (endingStep false true .next).advance.reached plainSec true 0 = true ∧
    (endingStep false true .abort).advance.reached (judgedSec (endingStep false true .abort)) false 0 = false ∧
    (endingStep false true .abort).d ≤ busyRunner.elapsed + 1 ∧ (endingStep false false .next).advance.present = false ∧
    ({ StepRecord.reset with action := .ramp } : StepRecord).d ≤ busyRunner.elapsed + 1 ∧
    (inSquare .second 2 1).repeatsLeft ≤ 1 ∧ squareStep.d2 ≤ (inSquare .second 2 1).phaseCount + 1 :=
  ⟨progress_completes, by decide⟩

theorem test_meets_StepEndRecordsAndGoesOn :
    ((claimed running).runner 0).state = .running ∧ ((claimed running).runner 0).claimed = some 0 ∧
    ((claimed running).runner 0).step = some 0 ∧ (claimed running).notIdle < 64 - (claimed running).log.records.length ∧
    ¬(claimed running).notIdle < 64 - 63 ∧ (endingStep false false .next).captureAtEnd = false ∧
    ({ StepRecord.reset with captureAtEnd := true } : StepRecord).captureAtEnd = true ∧
    ({ StepRecord.reset with nextStep := some 95 } : StepRecord).nextStep = some 95 ∧ squareStep.nextStep = none := by
  decide

theorem test_meets_StepEntry :
    ((claimed running).runner 0).state = .running ∧ ((claimed running).runner 0).claimed = some 0 ∧
    StepRecord.reset.present = false ∧ squareStep.present = true ∧ ((claimed running).sec 0).cfg.memberCount ≤ (2 : Fin 4).val ∧
    (1 : Fin 4).val < ((claimed running).sec 0).cfg.memberCount ∧ ((claimed running).sec 0).source = .follow ∧
    (worked.sec 2).source = .cascade := by decide

/-- Loopback with bad frames counted. -/
def failing (k n : Nat) (first : Option BadKind) : State :=
  { looped k true true with link := { (looped k true true).link with badCount := n, firstBad := first } }

set_option maxRecDepth 4000 in
theorem test_meets_LinkTestEvents : (serving.phase = .inService ∧ serving.Quiet ∧ serving.link.loopback = false) ∧
    (∀ k awaits waits, (looped k awaits waits).phase = .inService ∧ (looped k awaits waits).Quiet ∧
      (looped k awaits waits).dn.asm = .wait ∧ (looped k awaits waits).dn.awaitMark = false ∧
      (looped k awaits waits).link.loopback = true ∧ (looped k awaits waits).link.awaiting = awaits ∧
      (looped k awaits waits).cyc.pendingStart = waits ∧ (looped k awaits waits).cyc.inFlight = none) ∧
    (failing 15 1 (some .check)).Quiet ∧
    ((looped 0 false false).link.sendTimer ≠ none ∧ (looped 14 true false).link.frameNo < 15 ∧
    (looped 15 true false).link.frameNo = 15 ∧ (looped 15 true true).link.badCount = 0 ∧
    (failing 15 1 (some .check)).link.badCount ≠ 0 ∧ (failing 15 1 (some .check)).link.firstBad = some .check ∧
    (List.replicate 16 (0 : Byte)).length = 16 ∧ List.replicate 16 0 ≠ echoPayload 15 ∧
    (List.replicate 17 (0 : Byte)).length ≠ 16 ∧ (1 : Byte) ≠ 0 ∧ 124 < (125 : Byte).toNat ∧
    ([0] ++ [0] : List Byte) ≠ chars16 (crc16 [0, 0, 0]) ∧ ({ gapEntry with overrun := true } : Entry).overrun = true) ∧
    ∀ d, ({ gapEntry with overrun := true } : Entry).body ≠ .char d true :=
  ⟨⟨rfl, ⟨rfl, rfl⟩, rfl⟩, fun _ _ _ => ⟨rfl, ⟨rfl, rfl⟩, rfl, rfl, rfl, rfl, rfl, rfl⟩, ⟨rfl, rfl⟩, by decide, nofun⟩

/-! ### Requests -/

/-- Engineer level over the claimed running section. -/
def desk : State := engineer (claimed running)

theorem ready_desk : desk.MgmtReady := ⟨⟨rfl, ⟨rfl, rfl⟩, rfl, rfl⟩, fun _ => rfl⟩

theorem test_meets_AccessRequest : running.MgmtReady ∧ desk.MgmtReady ∧ ((v32 2).length = 4 ∧ arg (v32 (-1)) 0 < 0 ∧
    2 < arg (v32 3) 0 ∧ arg (v32 2) 0 = AccessLevel.engineer.rank ∧ arg (v32 0) 0 = AccessLevel.monitor.rank ∧
    running.cyc.upState ≠ .linked ∧ desk.cyc.upState = .linked ∧ desk.part.config.getLsbD 4 = true ∧
    (39 : Byte).getLsbD 4 = false ∧ 1 < AccessLevel.engineer.rank ∧
    AccessLevel.engineer.rank ≤ desk.mgmt.access.rank ∧ running.mgmt.access.rank < AccessLevel.operate.rank ∧
    (asking 1 false).mgmt.pendingAccess = some { level := .operate, polls := 1 }) :=
  ⟨⟨⟨rfl, ⟨rfl, rfl⟩, rfl, rfl⟩, fun _ => rfl⟩, ready_desk, by decide⟩

/-- The arguments of a SELECT. -/
def selectArgs (t e f m : Int) : List Byte := v32 t ++ v32 e ++ v32 f ++ v32 m

theorem test_meets_CloseAndSelect : desk.MgmtReady ∧ (selectArgs 0 15 40 2).length = 16 ∧
    2 ≤ arg (selectArgs 2 95 23 0) 0 ∧ arg (selectArgs 4 0 26 1) 0 = 4 ∧ 4 < arg (selectArgs 5 0 0 0) 0 ∧
    (16 : Int) ≤ arg (selectArgs 0 16 0 0) 1 ∧ arg (selectArgs 0 (-1) 0 0) 1 < 0 ∧ arg (selectArgs 1 63 12 0) 1 = (63 : Nat) ∧
    (13 : Int) ≤ arg (selectArgs 1 63 13 0) 2 ∧ arg (selectArgs 3 3 15 0) 2 = (15 : Nat) ∧
    2 < arg (selectArgs 3 3 15 3) 3 ∧ arg (selectArgs 3 3 15 2) 3 = 2 := ⟨ready_desk, by decide⟩

/-- A cursor. -/
def cursor (t : Table) (e f : Nat) (m : CursorMode) (spent : Bool) : Cursor :=
  { table := t, entry := e, field := f, mode := m, spent := spent }

/-- A management unit with this cursor. -/
def pointing (s : State) (c : Cursor) : State := { s with mgmt := { s.mgmt with cursor := some c } }

theorem ready_pointing (c : Cursor) : (pointing desk c).MgmtReady := ⟨⟨rfl, ⟨rfl, rfl⟩, rfl, rfl⟩, fun _ => rfl⟩

theorem test_meets_ReadFromCursor : desk.MgmtReady ∧ (v32 28).length = 4 ∧ arg (v32 0) 0 < 1 ∧ 28 < arg (v32 29) 0 ∧
    1 ≤ arg (v32 1) 0 ∧ arg (v32 28) 0 ≤ 28 ∧ arg (v32 28) 0 = (28 : Nat) ∧ desk.mgmt.cursor = none ∧
    (pointing desk (cursor .sections 0 0 .single true)).mgmt.cursor = some (cursor .sections 0 0 .single true) ∧
    (pointing desk (cursor .sections 0 0 .single false)).CursorIs (cursor .sections 0 0 .single false) ∧
    (cursor .sections 15 40 .advance false).table.fields ≤ (cursor .sections 15 40 .advance false).field + 1 ∧
    (cursor .sections 15 40 .advance false).table.entries ≤ (cursor .sections 15 40 .advance false).entry + 1 ∧
    (cursor .sections 14 40 .single false).entry + 1 < (cursor .sections 14 40 .single false).table.entries ∧
    (cursor .sections 15 39 .single false).field + 1 < (cursor .sections 15 39 .single false).table.fields :=
  ⟨ready_desk, by decide, by decide, by decide, by decide, by decide, by decide, rfl, rfl, ⟨rfl, rfl⟩, by decide⟩

theorem test_meets_WritableFields : desk.MgmtReady ∧ (selectArgs 0 15 40 0).length = 16 ∧
    arg (selectArgs 0 15 40 0) 0 = 0 ∧ arg (selectArgs 0 15 40 0) 1 = (15 : Nat) ∧ arg (selectArgs 0 15 40 0) 2 = (40 : Nat) ∧
    arg (selectArgs 0 15 40 0) 3 = 0 ∧ (18 : Nat) ≤ 18 ∧ ¬(19 : Nat) ≤ 18 ∧ writeSized (v32 7) = true ∧
    (pointing desk (cursor .sections 0 19 .fixed false)).CursorIs (cursor .sections 0 19 .fixed false) ∧
    argList (v32 7) = [] ++ 7 :: [] := by
  refine ⟨ready_desk, by decide, by decide, by decide, by decide, by decide, by decide, by decide, by decide, ⟨rfl, rfl⟩,
    by decide⟩

/-- An entry that may become present, beside section 0 (UP address 5, members at 8 and 9). -/
def candidate : Section :=
  { Section.reset with
    cfg := { Settings.reset with upAddr := 7, memberBase := 16, memberCount := 2, maxSpeed := 250000, drawBase := some 0 }
    members := #v[mem 100, mem 60000, Member.reset, Member.reset] }

/-- The desk with section 1 as given, the cursor at its field 0. -/
def presenting (x : Section) : State :=
  let s := (engineer running).setSec 1 x
  { s with mgmt := { s.mgmt with cursor := some (cursor .sections 1 0 .fixed false), pendingMove := some 9 } }

/-- The candidate with other settings. -/
def with1 (f : Settings → Settings) : State := presenting { candidate with cfg := f candidate.cfg }

/-- The candidate among fifteen present sections of four members. -/
def crowded : State :=
  { presenting candidate with
    sections := (Vector.replicate 16 { plainSec with cfg := { plainSec.cfg with memberCount := 4 } }).set 1 candidate }

/-- Section 0 draws from section 1. -/
def dependents : State :=
  (presenting plainSec).setSec 0 { plainSec with cfg := { plainSec.cfg with drawBase := some 1 } }

theorem test_meets_PresentField :
    (∀ x, (presenting x).MgmtReady ∧ (presenting x).CursorIs (cursor .sections 1 0 .fixed false)) ∧
    ((presenting candidate).mgmt.access = .engineer ∧ ((presenting candidate).sec 1).present = false ∧
    ((presenting plainSec).sec 1).present = true ∧ arg (v32 1) 0 = 1 ∧ arg (v32 0) 0 = 0 ∧ arg (v32 2) 0 ≠ 0 ∧
    arg (v32 2) 0 ≠ 1 ∧ ((with1 fun g => { g with upAddr := 0 }).sec 1).cfg.upAddr = 0 ∧
    ((with1 id).sec 0).present = true ∧ ((with1 fun g => { g with upAddr := 5 }).sec 1).cfg.upAddr = ((with1 id).sec 0).cfg.upAddr ∧
    ((with1 fun g => { g with upAddr := 63 }).sec 1).cfg.upAddr = (with1 id).part.mgmtAddr ∧
    some ((with1 fun g => { g with upAddr := 9 }).sec 1).cfg.upAddr = (with1 id).mgmt.pendingMove ∧
    ((with1 fun g => { g with memberBase := 0 }).sec 1).cfg.memberBase = 0 ∧
    ((with1 fun g => { g with memberBase := 17 }).sec 1).cfg.memberBase.toNat % 2 ≠ 0 ∧
    ((with1 fun g => { g with memberBase := 8 }).sec 1).cfg.memberBase.toNat < ((with1 id).sec 0).cfg.memberBase.toNat + 2 ∧
    ((with1 id).sec 0).cfg.memberBase.toNat < ((with1 fun g => { g with memberBase := 8 }).sec 1).cfg.memberBase.toNat + 2 ∧
    ¬((with1 id).sec 1).cfg.memberBase.toNat < ((with1 id).sec 0).cfg.memberBase.toNat + 2 ∧
    ((with1 fun g => { g with maxSpeed := 0 }).sec 1).cfg.maxSpeed ≤ 0 ∧ 0 < ((with1 id).sec 1).cfg.maxSpeed ∧
    ((with1 fun g => { g with drawBase := some 1 }).sec 1).cfg.drawBase = some 1 ∧ ((with1 id).sec 1).cfg.drawBase = some 0 ∧
    ((with1 id).presentSecs.map fun k => ((with1 id).sec k).cfg.memberCount).sum + ((with1 id).sec 1).cfg.memberCount = 4 ∧
    (((presenting { candidate with members := #v[mem 100, mem 99, Member.reset, Member.reset] }).sec 1).member 1).rating < 100 ∧
    100 ≤ (((with1 id).sec 1).member 0).rating ∧ 100 ≤ (((with1 id).sec 1).member 1).rating ∧
    (with1 id).claimant 1 = none ∧ (claimed (presenting plainSec)).claimant 0 = some 0 ∧
    ((presenting { plainSec with runState := .stopping }).sec 1).runState ≠ .stopped ∧
    ((presenting plainSec).sec 1).runState = .stopped ∧ ∀ k, ((presenting plainSec).sec k).cfg.drawBase ≠ some 1) ∧
    (with1 id).presentRefusal 1 = none ∧ crowded.presentRefusal 1 = some (.limit, 0xFF) ∧
    (crowded.presentSecs.map fun k => (crowded.sec k).cfg.memberCount).sum + (crowded.sec 1).cfg.memberCount = 62 ∧
    (dependents.sec 0).cfg.drawBase = some 1 ∧ (dependents.sec 0).present = true ∧ dependents.claimant 1 = none ∧
    dependents.MgmtReady ∧ crowded.MgmtReady :=
  ⟨fun _ => ⟨⟨⟨rfl, ⟨rfl, rfl⟩, rfl, rfl⟩, fun _ => rfl⟩, rfl, rfl⟩, by decide, by decide, by decide, by decide, rfl, rfl,
    by decide, ⟨⟨rfl, ⟨rfl, rfl⟩, rfl, rfl⟩, fun _ => rfl⟩, ⟨⟨rfl, ⟨rfl, rfl⟩, rfl, rfl⟩, fun _ => rfl⟩⟩

/-- The desk where the loss timer stands at `n`, the cursor at the loss limit. -/
def timing (n : Nat) : State :=
  let s := pointing desk (cursor .part 0 6 .fixed false)
  { s with cyc := { s.cyc with lossTimer := some n } }

theorem test_meets_WriteOfOneValue :
    ((∀ c, (pointing desk c).MgmtReady) ∧
      (pointing desk (cursor .sections 0 17 .fixed false)).CursorIs (cursor .sections 0 17 .fixed false)) ∧
    (∀ n, (timing n).MgmtReady ∧ (timing n).CursorIs (cursor .part 0 6 .fixed false) ∧
      (timing n).cyc.lossTimer = some n ∧ (timing n).dn.asm = .wait ∧ (timing n).mgmt.access = .engineer) ∧
    (arg (v32 2) 0).toNat * periodBits (timing 0).part.config ≤ 2 * periodBits desk.part.config ∧
    2 * periodBits desk.part.config - 1 < (arg (v32 2) 0).toNat * periodBits (timing 0).part.config ∧
    ((v32 1000).length = 4 ∧ arg (v32 1000) 0 = 1000 ∧ arg (v32 0) 0 = 0 ∧ arg (v32 (-1)) 0 < 0 ∧ 250000 < arg (v32 250001) 0 ∧
    arg (v32 250000) 0 = 250000 ∧ running.mgmt.access ≠ .engineer ∧ desk.mgmt.access = .engineer ∧
    (desk.sec 0).present = true ∧ (desk.sec 1).present = false ∧ (cursor .members 7 0 .fixed false).entry = 4 * 1 + 3 ∧
    arg (v32 100) 0 = 100 ∧ arg (v32 60000) 0 = 60000 ∧ (desk.runner 0).step = some 0 ∧ (desk.runner 0).state ≠ .idle ∧
    (∀ q, (desk.runner q).state = .idle ∨ (desk.runner q).step ≠ some 1) ∧ arg (v32 65535) 0 = 65535 ∧
    arg (v32 2) 0 = 2 ∧ arg (v32 20) 0 = 20 ∧ arg (v32 1) 0 < 2 ∧ 20 < arg (v32 21) 0) ∧
    desk.LevelFor 0 ∧ ¬running.LevelFor 0 :=
  ⟨⟨ready_pointing, rfl, rfl⟩, fun _ => ⟨⟨⟨rfl, ⟨rfl, rfl⟩, rfl, rfl⟩, fun _ => rfl⟩, ⟨rfl, rfl⟩, rfl, rfl, rfl⟩,
    by decide, by decide, by decide, levelFor rfl, noLevelFor rfl⟩

/-- The desk without a test. -/
def clear : State := engineer running

theorem ready_clear : clear.MgmtReady := ⟨⟨rfl, ⟨rfl, rfl⟩, rfl, rfl⟩, fun _ => rfl⟩

/-- The desk over the worked chain. -/
def chainDesk : State := engineer worked

theorem ready_chainDesk : chainDesk.MgmtReady := ⟨⟨rfl, ⟨rfl, rfl⟩, rfl, rfl⟩, fun _ => rfl⟩

/-- The arguments of an ADJUST DRAW. -/
def drawArgs3 (i d m : Int) : List Byte := v32 i ++ v32 d ++ v32 m

theorem test_meets_AdjustDraw : chainDesk.MgmtReady ∧ chainDesk.LevelFor 2 ∧ ((drawArgs3 2 10 0).length = 12 ∧
    15 < arg (drawArgs3 16 0 0) 0 ∧ arg (drawArgs3 (-1) 0 0) 0 < 0 ∧ arg (drawArgs3 2 1000 1) 0 = (2 : Fin 16).val ∧
    arg (drawArgs3 2 1000 1) 1 ≤ 1000 ∧ -1000 ≤ arg (drawArgs3 2 (-1000) 1) 1 ∧ arg (drawArgs3 2 0 1) 2 = 1 ∧
    arg (drawArgs3 2 0 0) 2 = 0 ∧ ¬arg (drawArgs3 2 1001 0) 1 ≤ 1000 ∧ (chainDesk.sec 1).present = false ∧
    (chainDesk.sec 5).source = .follow ∧ (chainDesk.sec 2).source = .cascade ∧ chainDesk.claimant 2 = none ∧
    (claimed chainDesk).claimant 0 = some 0 ∧ (chainDesk.sec 2).cfg.drawBase ≠ some 2 ∧
    (chainDesk.sec 3).cfg.drawBase = some 2) := ⟨ready_chainDesk, levelFor rfl, by decide⟩

theorem test_meets_Transfers : clear.MgmtReady ∧ chainDesk.MgmtReady ∧ clear.LevelFor 0 ∧
    ((v32 0 ++ v32 1).length = 8 ∧ arg (v32 0 ++ v32 1) 0 = (0 : Fin 16).val ∧ arg (v32 0 ++ v32 1) 1 = 1 ∧
    arg (v32 0 ++ v32 0) 1 = 0 ∧ 1 < arg (v32 0 ++ v32 2) 1 ∧ arg (v32 0 ++ v32 (-1)) 1 < 0 ∧ (clear.sec 1).present = false ∧
    (clear.sec 0).present = true ∧ desk.claimant 0 = some 0 ∧ clear.claimant 0 = none ∧ (clear.sec 0).source = .follow ∧
    (chainDesk.sec 2).source = .cascade ∧ (clear.sec 0).runState = .running ∧ 1000 ≤ clear.cyc.lineSpeed ∧
    ({ clear.cyc with lineSpeed := 999 } : CycleCtl).lineSpeed < 1000) :=
  ⟨ready_clear, ready_chainDesk, levelFor rfl, by decide⟩

theorem test_meets_ReleaseTrip : clear.MgmtReady ∧ (engineer (moved .tripped .leadLost)).MgmtReady ∧ clear.LevelFor 0 ∧
    ((v32 0).length = 4 ∧ arg (v32 0) 0 = (0 : Fin 16).val ∧ arg (v32 15) 0 = (15 : Fin 16).val ∧
    (clear.sec 15).present = false ∧ (clear.sec 0).runState ≠ .tripped ∧
    ((engineer (moved .tripped .leadLost)).sec 0).runState = .tripped ∧
    ((engineer (moved .tripped .leadLost)).sec 0).present = true) :=
  ⟨ready_clear, ⟨⟨rfl, ⟨rfl, rfl⟩, rfl, rfl⟩, fun _ => rfl⟩, levelFor rfl, by decide⟩

/-- The desk with a present step 0. -/
def scripted : State := { clear with steps := clear.steps.set 0 squareStep }

/-- A log with so many records. -/
def logged (s : State) (n : Nat) : State :=
  { s with
    log := { s.log with
      records := List.replicate n
        { seq := 0, count := 0, kind := .capture, runner := 0, sec := 0, step := 0, outcome := .done, elapsed := 0
          applied := 0, leadSpeed := 0, load := 0, offset := 0, flags := ClampFlags.clear, members := [] } } }

theorem test_meets_StartTest : scripted.MgmtReady ∧ scripted.LevelFor 0 ∧ ((drawArgs3 3 15 95).length = 12 ∧
    3 < arg (drawArgs3 4 0 0) 0 ∧ arg (drawArgs3 (-1) 0 0) 0 < 0 ∧ 15 < arg (drawArgs3 3 16 0) 1 ∧
    95 < arg (drawArgs3 3 15 96) 2 ∧ arg (drawArgs3 3 15 95) 0 = (3 : Fin 4).val ∧
    arg (drawArgs3 3 15 95) 1 = (15 : Fin 16).val ∧ arg (drawArgs3 3 15 95) 2 = (95 : Fin 96).val ∧
    (desk.runner 0).state ≠ .idle ∧ (scripted.runner 0).state = .idle ∧ (scripted.sec 1).present = false ∧
    ((engineer (moved .stopped .none)).sec 0).runState ≠ .running ∧ desk.claimant 0 = some 0 ∧
    scripted.claimant 0 = none ∧ (scripted.stepRec 0).present = true ∧ (scripted.stepRec 1).present = false ∧
    scripted.notIdle + 1 ≤ 64 - (logged scripted 63).log.records.length ∧
    64 - (logged scripted 64).log.records.length < scripted.notIdle + 1) :=
  ⟨⟨⟨rfl, ⟨rfl, rfl⟩, rfl, rfl⟩, fun _ => rfl⟩, levelFor rfl, by decide⟩

theorem test_meets_PauseResumeStop : desk.MgmtReady ∧ desk.LevelFor 0 ∧ ((v32 3).length = 4 ∧
    arg (v32 3) 0 = (3 : Fin 4).val ∧ (desk.runner 3).state = .idle ∧ desk.mgmt.access ≠ .monitor ∧
    (desk.runner 0).claimed = some 0 ∧ (desk.runner 0).state = .running ∧
    ({ busyRunner with state := .paused } : Runner).claimed = some 0 ∧
    ({ busyRunner with state := .waiting } : Runner).claimed = some 0) := ⟨ready_desk, levelFor rfl, by decide⟩

/-- Runner 0 waits with a record, the log holding `n`. -/
def waiting (n : Nat) : State :=
  let s := logged desk n
  { s with
    runners := s.runners.set 0 { busyRunner with
      state := .waiting, pendingRecord := some
        { seq := 0, count := 0, kind := .capture, runner := 0, sec := 0, step := 0, outcome := .done, elapsed := 0
          applied := 0, leadSpeed := 0, load := 0, offset := 0, flags := ClampFlags.clear, members := [] } }
    log := { s.log with waiters := [0] } }

theorem test_meets_FetchAndDropLog : (waiting 63).MgmtReady ∧ (v32 64).length = 4 ∧ (arg (v32 0) 0 < 1 ∧ 2 < arg (v32 3) 0 ∧
    arg (v32 1) 0 = (1 : Nat) ∧ arg (v32 2) 0 = (2 : Nat) ∧ 64 < arg (v32 65) 0 ∧ arg (v32 64) 0 = (64 : Nat) ∧
    (waiting 63).mgmt.access ≠ .monitor) ∧ (waiting 63).log.records ≠ [] ∧ (waiting 63).log.waiters.length ≤ 4 ∧
    desk.log.records = [] ∧ 64 - (waiting 63).log.records.length ≤ (waiting 63).notIdle ∧
    (waiting 62).log.waiters = 0 :: [] ∧ (0 : Fin 4) ∉ ([] : List (Fin 4)) ∧
    (waiting 62).notIdle < 64 - (waiting 62).log.records.length ∧ ((waiting 62).runner 0).pendingRecord ≠ none ∧
    (plainSec.memberList = [] ++ { slot := 0, speed := 0, torque := 0, trim := 0 } ::
      [{ slot := 1, speed := 0, torque := 0, trim := 0 }] ∧ ∀ e ∈ plainSec.memberList, e.slot ≠ 3) :=
  ⟨⟨⟨rfl, ⟨rfl, rfl⟩, rfl, rfl⟩, fun _ => rfl⟩, rfl, by decide, nofun, by decide, rfl, by decide, rfl, nofun, by decide,
    nofun, by decide⟩

theorem test_meets_MaintenanceCommands : desk.MgmtReady ∧ (engineer (moved .stopped .none)).MgmtReady ∧
    (desk.mgmt.access = .engineer ∧ desk.link.running = false ∧
    (engineer (starting (mem 1000) (mem 1000) true)).link.running = true ∧ (desk.sec 0).runState = .running ∧
    (∀ i, ((engineer (moved .stopped .none)).sec i).present = true →
      ((engineer (moved .stopped .none)).sec i).runState = .stopped ∨
        ((engineer (moved .stopped .none)).sec i).runState = .tripped) ∧
    (engineer (moved .stopped .none)).cyc.inFlight = none ∧ (inWindow desk 0).cyc.inFlight ≠ none ∧
    (v32 63).length = 4 ∧ arg (v32 0) 0 < 1 ∧ 63 < arg (v32 64) 0 ∧ 1 ≤ arg (v32 1) 0 ∧ arg (v32 63) 0 ≤ 63 ∧
    (63 : Byte).toNat = (arg (v32 63) 0).toNat ∧ desk.sectionAt 5 = some 0 ∧ desk.sectionAt 63 = none ∧
    63 = desk.part.mgmtAddr ∧ desk.sectionAt 1 = none ∧ 1 ≠ desk.part.mgmtAddr) :=
  ⟨ready_desk, ⟨⟨rfl, ⟨rfl, rfl⟩, rfl, rfl⟩, fun _ => rfl⟩, by decide⟩

/-- A store in a state, with a snapshot of the tables. -/
def stored (s : State) (x : StoreState) : State :=
  { s with store := { s.store with state := x, snapshot := some s.snapshot, pendingRestart := true } }

theorem test_meets_SaveAndRestart : (stored desk .saving).MgmtReady ∧ desk.MgmtReady ∧
    ((stored desk .saving).mgmt.access = .engineer ∧ (stored desk .saving).store.state = .saving ∧
    desk.store.state ≠ .saving ∧ (desk.sec 0).present = true ∧ (desk.sec 0).runState = .running ∧
    (stored desk .saving).phase = .inService ∧ SaveOutcome.crcDiffers ≠ .confirmed ∧
    (stored (bursting .restart .wait true) .valid).up.driving = true ∧ (frame .restart).tie = .restart ∧
    (stored (bursting .restart .wait true) .valid).up.tx = [] ++ [frame .restart] ∧
    (stored (bursting .restart .wait true) .valid).store.pendingRestart = true ∧
    (stored (bursting .restart .wait true) .valid).store.state ≠ .saving) ∧
    (stored desk .saving).store.snapshot = some desk.snapshot :=
  ⟨⟨⟨rfl, ⟨rfl, rfl⟩, rfl, rfl⟩, fun _ => rfl⟩, ready_desk, by decide, rfl⟩

theorem test_meets_LevelRefusals : (claimed running).MgmtReady ∧ ¬(claimed running).LevelFor 0 ∧
    ((claimed running).mgmt.access = .monitor ∧ (claimed running).mgmt.access ≠ .engineer ∧ (v32 0).length = 4 ∧
    arg (drawArgs3 0 0 0) 0 = (0 : Fin 16).val ∧ arg (drawArgs3 3 0 95) 0 = (3 : Fin 4).val ∧
    arg (drawArgs3 3 0 95) 2 = (95 : Fin 96).val ∧ ((claimed running).runner 1).state = .idle ∧
    ((claimed running).runner 0).state ≠ .idle ∧ ((claimed running).runner 0).claimed = some 0) :=
  ⟨⟨⟨rfl, ⟨rfl, rfl⟩, rfl, rfl⟩, fun _ => rfl⟩, noLevelFor rfl, by decide⟩

/-- A reply is pending. -/
def replying : State :=
  { desk with cyc := { desk.cyc with pendingReply := some (reply .done 0xFF []) } }

/-- So many frames queued at the UP port, in UNLINKED. -/
def queued (n : Nat) : State := { serving with up := { serving.up with tx := List.replicate n (frame .plain) } }

theorem test_meets_UnknownLengthsAndOverrun : desk.MgmtReady ∧ (∀ n, (queued n).MgmtReady) ∧ replying.UpReady ∧
    ((Instr.unknownSubKind [7]).managePayload = some [7] ∧ 6 < (7 : Byte).toNat ∧
    (Instr.unknownSubKind [6, 15]).managePayload = some [6, 15] ∧ 14 < (15 : Byte).toNat ∧
    (Instr.close [0]).managePayload = some [2, 0] ∧ ([0] : List Byte) ≠ [] ∧ (v32 0 ++ [0]).length % 4 ≠ 0 ∧
    ([] : List Byte).length < 4 ∧ 112 < (List.replicate 116 (0 : Byte)).length ∧ desk.cyc.upState = .linked ∧
    (queued 17).cyc.upState ≠ .linked ∧ (queued 17).up.tx.length < 18 ∧ 18 ≤ (queued 18).up.tx.length ∧
    (queued 0).up.tx = [] ∧ replying.cyc.upState = .linked ∧ replying.cyc.pendingReply ≠ none ∧
    (Instr.close []).managePayload = some [2]) :=
  ⟨ready_desk, fun _ => ⟨⟨rfl, ⟨rfl, rfl⟩, rfl, rfl⟩, nofun⟩, ⟨rfl, ⟨rfl, rfl⟩, rfl, rfl⟩, by decide⟩

/-! ### Resets and what every step keeps -/

theorem test_meets_ResetsAndSupply : desk.phase ≠ .off ∧ ({ desk with phase := .off } : State).phase = .off ∧
    (55 : Byte).toNat = 1 + 2 + 4 + 0 + 16 + 32 := by decide

/-- A saved copy, the restore strapped on, start-up running. -/
def restoring : State :=
  { State.reset with
    store := { State.reset.store with state := .valid, copy := some { tables := running.snapshot, crcMatches := true } } }

theorem test_meets_ComesIntoService : serving.phase ≠ .startUp ∧ State.reset.phase = .startUp ∧ State.reset.Quiet ∧
    State.reset.dn.asm = .wait ∧ State.reset.cyc.inFlight = none ∧ State.reset.link = LinkTest.reset ∧
    State.reset.store.state ≠ .valid ∧ restoring.phase = .startUp ∧ restoring.Quiet ∧
    restoring.part.config.getLsbD 5 = true ∧ restoring.store.state = .valid ∧
    restoring.store.copy = some { tables := running.snapshot, crcMatches := true } ∧
    running.snapshot.sections[0].present = true ∧ running.snapshot.sections[15].present = false :=
  ⟨nofun, rfl, ⟨rfl, rfl⟩, rfl, rfl, rfl, nofun, rfl, ⟨rfl, rfl⟩, rfl, rfl, rfl, rfl, rfl⟩

theorem test_meets_TablesSoundKept : ready.TablesSound ∧ ∃ t, step ready = .next t := ⟨ready_tablesSound, _, rfl⟩

theorem ready_testsSound : ready.TestsSound := by
  have h : ∀ r, ready.runner r = Runner.reset := by
    intro r
    show (Vector.replicate 4 Runner.reset)[r] = _
    simp
  refine { idle := fun r _ => ?_, busy := fun r e => ?_, live := fun r i e => ?_, once := fun r q i e => ?_,
           waiters := ⟨List.nodup_nil, fun r => ?_⟩, held := fun r => ?_, reserve := by decide
           outOfService := fun e => absurd rfl e }
  · rw [h]; exact ⟨rfl, rfl⟩
  · rw [h] at e; exact absurd rfl e
  · rw [h] at e; cases e
  · rw [h] at e; cases e
  · rw [h]; exact ⟨nofun, nofun⟩
  · rw [h]; exact ⟨fun e => absurd rfl e, nofun⟩

theorem test_meets_TestsSoundKept : ready.TestsSound ∧ ∃ t, step ready = .next t := ⟨ready_testsSound, _, rfl⟩

theorem test_meets_ChainSoundKept : ready.ChainSound ∧ ∃ t, step ready = .next t := ⟨ready_chainSound, _, rfl⟩

theorem test_meets_BuffersAndNumbersKept : (∃ t, step (logged desk 0) = .next t) ∧ (stocked 128).BuffersBounded ∧
    (queued 18).BuffersBounded ∧ desk.log.Numbered :=
  ⟨⟨_, rfl⟩, ⟨by simp [stocked], Nat.zero_le _, Nat.zero_le _, Nat.zero_le _⟩,
    ⟨Nat.zero_le _, Nat.zero_le _, by simp [queued], Nat.zero_le _⟩, fun k h => absurd h (Nat.not_lt_zero k)⟩

end Sys2Proof.Tests.Slice0
end

section
/-! PROOF. A SECTION ORDER: how it reaches its section, what STOP makes of the entry and of the runner that claims it, and
what it leaves unchanged (R11, R20, R49, R64, R131, R133). -/

namespace Sys2Proof.Machine

open Sys2Proof

/-! ## The payload: the run request, then the section reference in three characters (R5, R20, R179) -/

theorem charAt_cons_zero (b : Byte) (cs : List Byte) : charAt (b :: cs) 0 = b := rfl

theorem num24_cons_chars24 (b : Byte) (v : BitVec 24) : num24 (b :: chars24 v) 1 = v := by
  show v.extractLsb' 16 8 ++ v.extractLsb' 8 8 ++ v.extractLsb' 0 8 = v
  rw [BitVec.extractLsb'_append_extractLsb'_eq_extractLsb' (by rfl),
    BitVec.extractLsb'_append_extractLsb'_eq_extractLsb' (by rfl), BitVec.extractLsb'_eq_self]

theorem takeSectionOrder_run (s : State) (i : Fin 16) (m : Speed24) :
    s.takeSectionOrder i (1 :: chars24 m) = s.sectionRun i m.toInt := by
  unfold State.takeSectionOrder
  rw [charAt_cons_zero, if_pos rfl, num24_cons_chars24]

/-- Any run request but RUN is taken as STOP (R179). -/
theorem takeSectionOrder_stop (s : State) (i : Fin 16) {run : Byte} (hr : run ≠ 1) (m : Speed24) :
    s.takeSectionOrder i (run :: chars24 m) = s.sectionStop i m.toInt := by
  unfold State.takeSectionOrder
  rw [charAt_cons_zero, if_neg hr, num24_cons_chars24]

/-! ## From the link to the section (R9, R11) -/

/-- A port that hears a frame changes no entry. -/
@[simp] theorem heard_sec (s : State) (p : Side) (i : Fin 16) : (s.heard p).sec i = s.sec i := sec_setPort s p _ i

/-- A SECTION ORDER frame goes to the section at its address, whatever else the address names. -/
theorem handOff_sectionOrder {s : State} {a : Byte} {i : Fin 16} (hi : s.sectionAt a = some i) {pl : List Byte}
    (hl : pl.length = 4) (st : Stamp) : s.handOff .up a kindSectionOrder pl st = s.takeSectionOrder i pl := by
  unfold State.handOff State.handOffUp State.lengthOr
  simp [kindSectionOrder, kindLineCycle, kindPollCall, kindManage, hi, hl]

theorem handOff_sectionOrder_absent {s : State} {a : Byte} (ha : s.sectionAt a = none) (pl : List Byte) (st : Stamp) :
    s.handOff .up a kindSectionOrder pl st = s := by
  unfold State.handOff State.handOffUp
  simp [kindSectionOrder, kindLineCycle, kindPollCall, kindManage, ha]

theorem receiveFrame_sectionOrder {s : State} (h : s.UpReady) {a : Byte} {i : Fin 16} (hi : s.sectionAt a = some i)
    {pl : List Byte} (hl : pl.length = 4) :
    s.receiveFrame .up a kindSectionOrder pl = (s.heard .up).takeSectionOrder i pl := by
  have hk : s.filterKeeps .up a = true := by simp [State.filterKeeps, hi]
  have he := handOff_sectionOrder (s := s.heard .up) hi hl (s.stamp .up)
  have hq : ((s.heard .up).takeSectionOrder i pl).Quiet := by
    unfold State.takeSectionOrder
    split
    · exact (sectionRun_secsOnly _ i _).quiet (heard_quiet h.quiet .up)
    · exact (sectionStop_secsOnly _ i _).quiet (heard_quiet h.quiet .up)
  rw [← he] at hq ⊢
  exact receiveFrame_quiet h.quiet (receives_up h) h.waiting a _ pl (by omega) hk hq

/-- An order to an address of no present section is heard and lost: the filter rejects it, or lets it pass as the
broadcast or management address, where no consumer serves its kind. -/
theorem receiveFrame_sectionOrder_absent {s : State} (h : s.UpReady) {a : Byte} (ha : s.sectionAt a = none)
    {pl : List Byte} (hl : pl.length ≤ 124) : s.receiveFrame .up a kindSectionOrder pl = s.heard .up := by
  cases hk : s.filterKeeps .up a with
  | false => exact receiveFrame_rejected h.quiet (receives_up h) h.waiting a _ pl hk
  | true =>
    have he := handOff_sectionOrder_absent (s := s.heard .up) ha pl (s.stamp .up)
    rw [receiveFrame_quiet h.quiet (receives_up h) h.waiting a _ pl hl hk (by rw [he]; exact heard_quiet h.quiet .up), he]

theorem exec_sectionOrderStop {s : State} (h : s.UpReady) {a : Byte} {i : Fin 16} (hi : s.sectionAt a = some i)
    {run : Byte} (hr : run ≠ 1) (m : Speed24) :
    exec (.sectionOrderStop a run m) s = .next ((s.heard .up).sectionStop i m.toInt) := by
  show Host.Outcome.next (s.serving fun t => t.receiveFrame .up a kindSectionOrder (run :: chars24 m)) = _
  rw [serving_inService h.inService, receiveFrame_sectionOrder h hi (by rfl), takeSectionOrder_stop _ i hr]

theorem exec_sectionOrderRun {s : State} (h : s.UpReady) {a : Byte} {i : Fin 16} (hi : s.sectionAt a = some i)
    (m : Speed24) : exec (.sectionOrderRun a m) s = .next ((s.heard .up).sectionRun i m.toInt) := by
  show Host.Outcome.next (s.serving fun t => t.receiveFrame .up a kindSectionOrder (1 :: chars24 m)) = _
  rw [serving_inService h.inService, receiveFrame_sectionOrder h hi (by rfl), takeSectionOrder_run]

theorem exec_sectionOrderStop_absent {s : State} (h : s.UpReady) {a : Byte} (ha : s.sectionAt a = none) (run : Byte)
    (m : Speed24) : exec (.sectionOrderStop a run m) s = .next (s.heard .up) := by
  show Host.Outcome.next (s.serving fun t => t.receiveFrame .up a kindSectionOrder (run :: chars24 m)) = _
  rw [serving_inService h.inService, receiveFrame_sectionOrder_absent h ha (by simp [chars24])]

theorem exec_sectionOrderRun_absent {s : State} (h : s.UpReady) {a : Byte} (ha : s.sectionAt a = none) (m : Speed24) :
    exec (.sectionOrderRun a m) s = .next (s.heard .up) :=
  exec_sectionOrderStop_absent h ha 1 m

/-! ## What an order makes of an entry (R49, R50, R64) -/

theorem clampInt_eq_max_min {lo hi : Int} (h : lo ≤ hi) (x : Int) : clampInt lo hi x = max lo (min hi x) := by
  unfold clampInt
  split
  · omega
  · split <;> omega

theorem takeOrder_eq (x : Section) (m : Int) :
    x.takeOrder m = { x with orderAge := 0, master := max 0 (min 250000 m) } := by
  unfold Section.takeOrder
  rw [clampInt_eq_max_min (by decide)]

theorem orderStop_stopped {x : Section} (h : x.runState = .stopped) : x.orderStop = { x with stopSeen := true } := by
  unfold Section.orderStop
  rw [h]

theorem orderStop_running {x : Section} (h : x.runState = .running) :
    x.orderStop = { x with runState := .stopping, cause := .request, causeSlot := none, stopSeen := true } := by
  unfold Section.orderStop
  rw [h]

theorem orderStop_requested {x : Section} (h : x.runState = .stopping) (hc : x.cause = .request) :
    x.orderStop = { x with stopSeen := true } := by
  unfold Section.orderStop
  simp only [h, hc, if_true]

/-- A section that another cause stops, or that is TRIPPED, takes no STOP. -/
theorem orderStop_held {x : Section} (h : x.runState = .stopping ∧ x.cause ≠ .request ∨ x.runState = .tripped) :
    x.orderStop = x := by
  unfold Section.orderStop
  rcases h with ⟨h, hc⟩ | h
  · simp only [h, if_neg hc]
  · simp only [h]

/-- A RUN order acts on neither the order age nor M. -/
theorem orderRun_keeps_order (x : Section) (c : LineCommand) (b : Bool) :
    (x.orderRun c b).orderAge = x.orderAge ∧ (x.orderRun c b).master = x.master := by
  unfold Section.orderRun
  split
  · exact ⟨rfl, rfl⟩
  · exact ⟨rfl, rfl⟩
  · split <;> exact ⟨rfl, rfl⟩
  · split <;> exact ⟨rfl, rfl⟩

theorem sectionRun_order (s : State) (i : Fin 16) (m : Int) :
    ((s.sectionRun i m).sec i).orderAge = 0 ∧ ((s.sectionRun i m).sec i).master = max 0 (min 250000 m) := by
  obtain ⟨hage, hmaster⟩ := orderRun_keeps_order ((s.sec i).takeOrder m) s.cyc.lineCommand s.link.running
  unfold State.sectionRun
  rw [sec_modSec, if_pos rfl, hage, hmaster, takeOrder_eq]
  exact ⟨rfl, rfl⟩

/-! ## The abort of one claimant (R131, R133) -/

/-- Claims are read from the runners alone. -/
@[simp] theorem claimant_setSec (s : State) (i j : Fin 16) (x : Section) : (s.setSec i x).claimant j = s.claimant j := rfl

theorem abortRunner_freeUses (s : State) (r : Fin 4) (c : AbortCause) : (s.abortRunner r c).freeUses = s.freeUses := by
  have hd : (s.dropPendingRecord r).freeUses = s.freeUses := by
    unfold State.dropPendingRecord
    split <;> rfl
  unfold State.abortRunner State.endTest
  split
  · rfl
  · rw [modNotices_freeUses, setRunner_freeUses, writeRecord_freeUses, hd]

/-- A single abort leaves no order open, so it takes no free value (R134). -/
theorem abortClaimant_freeUses (s : State) (i : Fin 16) (c : AbortCause) :
    (s.abortClaimant i c).freeUses = s.freeUses := by
  unfold State.abortClaimant
  split
  · rfl
  · exact abortRunner_freeUses s _ c

/-- What the abort of a claimant can change: the runners, the log and the notice TEST ENDED. -/
theorem abortClaimant_frame (s : State) (i : Fin 16) (c : AbortCause) :
    s.abortClaimant i c = { s with
      runners := (s.abortClaimant i c).runners, log := (s.abortClaimant i c).log
      part := { s.part with notices := { s.part.notices with
        testEnded := (s.abortClaimant i c).part.notices.testEnded } } } := by
  have hfree := abortClaimant_freeUses s i c
  have hpart := abortClaimant_notices s i c
  obtain ⟨rs, lg, nt, fu, ht⟩ := (abortClaimant_testsOnly s i c).form
  rw [ht] at hfree hpart ⊢
  cases hfree
  cases hpart
  rfl

theorem abortClaimant_unclaimed {s : State} {i : Fin 16} (h : s.claimant i = none) (c : AbortCause) :
    s.abortClaimant i c = s := by
  unfold State.abortClaimant
  rw [h]

/-! ## What a STOP order makes of the state (R49, R133) -/

/-- The section leaves RUNNING, and the runner that claims it aborts. -/
theorem sectionStop_running {s : State} {i : Fin 16} (h : (s.sec i).runState = .running) (m : Int) :
    s.sectionStop i m =
      (s.setSec i ((s.sec i).takeOrder m).orderStop).abortClaimant i .sectionLeftRunning := by
  unfold State.sectionStop
  exact if_pos h

theorem sectionStop_resting {s : State} {i : Fin 16} (h : s.claimant i = none ∨ (s.sec i).runState ≠ .running)
    (m : Int) : s.sectionStop i m = s.setSec i ((s.sec i).takeOrder m).orderStop := by
  by_cases hr : (s.sec i).runState = .running
  · rw [sectionStop_running hr]
    exact abortClaimant_unclaimed (by simpa using h.resolve_right (not_not_intro hr)) _
  · unfold State.sectionStop
    exact if_neg hr

/-- The ordered section takes the order, and every other entry stays. -/
theorem sectionStop_sec (s : State) (i j : Fin 16) (m : Int) :
    (s.sectionStop i m).sec j = if i = j then ((s.sec i).takeOrder m).orderStop else s.sec j := by
  by_cases hr : (s.sec i).runState = .running
  · rw [sectionStop_running hr, (abortClaimant_testsOnly _ i _).sec, sec_setSec]
  · rw [sectionStop_resting (.inr hr), sec_setSec]

theorem sectionStop_sec_self (s : State) (i : Fin 16) (m : Int) :
    (s.sectionStop i m).sec i = ((s.sec i).takeOrder m).orderStop := by
  rw [sectionStop_sec, if_pos rfl]

theorem sectionStop_claimant_aborts {s : State} {i : Fin 16} {r : Fin 4} (hc : s.claimant i = some r)
    (hr : (s.sec i).runState = .running) (m : Int) :
    (s.sectionStop i m).runner r = (s.runner r).abortedBy .sectionLeftRunning ∧
      (s.sectionStop i m).part.notices.testEnded = true ∧
      ∀ q, q ≠ r → (s.sectionStop i m).runner q = s.runner q := by
  rw [sectionStop_running hr]
  refine ⟨?_, ?_, fun q hq => ?_⟩
  · rw [abortClaimant_runner, claimant_setSec, if_pos hc, runner_setSec]
  · rw [abortClaimant_notices, claimant_setSec, hc]
    exact Bool.or_true _
  · rw [abortClaimant_runner, claimant_setSec, hc, if_neg (by simpa using hq.symm), runner_setSec]

/-- What a STOP order can change: the entries, the runners, the log and the notice TEST ENDED. -/
theorem sectionStop_frame (s : State) (i : Fin 16) (m : Int) :
    s.sectionStop i m = { s with
      sections := (s.sectionStop i m).sections, runners := (s.sectionStop i m).runners, log := (s.sectionStop i m).log
      part := { s.part with notices := { s.part.notices with
        testEnded := (s.sectionStop i m).part.notices.testEnded } } } := by
  by_cases hr : (s.sec i).runState = .running
  · rw [sectionStop_running hr, abortClaimant_frame]
    rfl
  · rw [sectionStop_resting (.inr hr)]
    rfl

/-! ## The obligation -/

/-- The four rows of R49's table, with order age and M. -/
theorem takeOrder_orderStop_table (x : Section) (m : Int) :
    (x.runState = .stopped → (x.takeOrder m).orderStop =
      { x with orderAge := 0, master := max 0 (min 250000 m), stopSeen := true }) ∧
    (x.runState = .running → (x.takeOrder m).orderStop =
      { x with
        orderAge := 0, master := max 0 (min 250000 m), stopSeen := true
        runState := .stopping, cause := .request, causeSlot := none }) ∧
    (x.runState = .stopping → x.cause = .request → (x.takeOrder m).orderStop =
      { x with orderAge := 0, master := max 0 (min 250000 m), stopSeen := true }) ∧
    (x.runState = .stopping ∧ x.cause ≠ .request ∨ x.runState = .tripped → (x.takeOrder m).orderStop =
      { x with orderAge := 0, master := max 0 (min 250000 m) }) := by
  rw [takeOrder_eq]
  exact ⟨fun h => orderStop_stopped h, fun h => orderStop_running h, fun h hc => orderStop_requested h hc,
    fun h => orderStop_held h⟩

/-- Settles O14: the order reaches its section through a port that is ready, R49's table acts on the entry, and the
claimant of a section that leaves RUNNING aborts alone. -/
theorem sectionOrderStop : Obligations.SectionOrderStop := by
  unfold Obligations.SectionOrderStop
  intro s a m h
  refine ⟨fun i hi => ⟨fun run hr => ⟨_, exec_sectionOrderStop h hi hr m, ?_⟩,
    ⟨_, exec_sectionOrderRun h hi m, sectionRun_order _ i _⟩⟩,
    fun ha => ⟨fun run => exec_sectionOrderStop_absent h ha run m, exec_sectionOrderRun_absent h ha m⟩⟩
  obtain ⟨hstopped, hrunning, hrequested, hheld⟩ := takeOrder_orderStop_table (s.sec i) m.toInt
  rw [sectionStop_sec_self, heard_sec]
  refine ⟨hstopped, hrunning, hrequested, hheld, fun j hj => ?_, fun r hc hrun => ?_, fun hrest => ?_, ?_⟩
  · rw [sectionStop_sec, if_neg hj.symm, heard_sec]
  · exact sectionStop_claimant_aborts (s := s.heard .up) hc hrun _
  · exact sectionStop_resting (s := s.heard .up) hrest _
  · exact sectionStop_frame _ i _

end Sys2Proof.Machine
end

section
/-! PROOF. The target a downstream cycle start forms: what a section's entry is after the start, and what R69 makes of
its target (R31, R65, R69). -/

namespace Sys2Proof.Machine

open Sys2Proof

/-! ## Rounding half up (00 section 5) -/

/-- The quotient rounded half up is the one integer within half a unit of `n / d`, the upper end left out. -/
theorem divHalfUp_bounds {d : Int} (hd : 0 < d) (n : Int) :
    2 * d * divHalfUp n d ≤ 2 * n + d ∧ 2 * n + d < 2 * d * (divHalfUp n d + 1) :=
  ⟨Int.mul_ediv_self_le (by omega), by rw [mul_add, mul_one]; exact Int.lt_mul_ediv_self_add (by omega)⟩

theorem divHalfUp_zero {d : Int} (hd : 0 < d) : divHalfUp 0 d = 0 :=
  Int.ediv_eq_zero_of_lt (by omega) (by omega)

/-! ## The stages of the computation that leave source, M, ratio and target (R65 to R72) -/

theorem ratioStage_source_master (x : Section) (l base : Int) :
    (x.ratioStage l base).source = x.source ∧ (x.ratioStage l base).master = x.master := by
  unfold Section.ratioStage Section.followRatio
  split
  · exact ⟨rfl, rfl⟩
  · split <;> exact ⟨rfl, rfl⟩

theorem targetStage_ratio (x : Section) (l : Int) : (x.targetStage l).ratio = x.ratio := by
  unfold Section.targetStage
  split <;> rfl

theorem targetStage_cascade {x : Section} (h : x.source = .cascade) (l : Int) :
    (x.targetStage l).target = divHalfUp (l * x.ratio) 1000000 := by
  unfold Section.targetStage
  rw [h]

theorem targetStage_follow {x : Section} (h : x.source = .follow) (l : Int) :
    (x.targetStage l).target = x.master := by
  unfold Section.targetStage
  rw [h]

/-- The ramp stage acts by run state, and in none of the four on ratio or target. -/
theorem rampStage_ratio_target (x : Section) (o : Int) :
    (x.rampStage o).ratio = x.ratio ∧ (x.rampStage o).target = x.target := by
  unfold Section.rampStage
  split <;> exact ⟨rfl, rfl⟩

theorem settleStop_ratio_target (x : Section) : x.settleStop.ratio = x.ratio ∧ x.settleStop.target = x.target := by
  unfold Section.settleStop
  split <;> exact ⟨rfl, rfl⟩

/-- Ratio and target of the computation are those of its first two stages, in every run state. -/
theorem compute_ratio_target (x : Section) (l base o : Int) :
    (x.compute l base o).ratio = (x.ratioStage l base).ratio ∧
      (x.compute l base o).target = ((x.ratioStage l base).targetStage l).target := by
  unfold Section.compute
  obtain ⟨hr, ht⟩ := rampStage_ratio_target ((x.ratioStage l base).targetStage l) o
  obtain ⟨hr', ht'⟩ := settleStop_ratio_target (((x.ratioStage l base).targetStage l).rampStage o)
  exact ⟨by rw [hr', hr, targetStage_ratio], by rw [ht', ht]⟩

/-- In CASCADE the target is L × R / 1,000,000, from the ratio formed in the same computation (R69). -/
theorem compute_target_cascade {x : Section} (h : x.source = .cascade) (l base o : Int) :
    (x.compute l base o).target = divHalfUp (l * (x.compute l base o).ratio) 1000000 := by
  obtain ⟨hratio, htarget⟩ := compute_ratio_target x l base o
  obtain ⟨hsource, -⟩ := ratioStage_source_master x l base
  rw [htarget, hratio, targetStage_cascade (hsource.trans h)]

/-- In FOLLOW the target is M (R69). -/
theorem compute_target_follow {x : Section} (h : x.source = .follow) (l base o : Int) :
    (x.compute l base o).target = x.master := by
  obtain ⟨-, htarget⟩ := compute_ratio_target x l base o
  obtain ⟨hsource, hmaster⟩ := ratioStage_source_master x l base
  rw [htarget, targetStage_follow (hsource.trans h), hmaster]

/-! ## One entry through the computation of the chain (R47, R65) -/

theorem State.ChainSound.nodup {s : State} (h : s.ChainSound) : s.chain.Nodup :=
  h.ordered.imp fun {a b} hb he => by
    subst he
    rcases hb with hlt | ⟨-, hlt⟩ <;> exact lt_irrefl _ hlt

theorem foldl_computeSec_sec_of_notMem {l : List (Fin 16)} {i : Fin 16} (hi : i ∉ l) (s : State) :
    (l.foldl State.computeSec s).sec i = s.sec i := by
  induction l generalizing s with
  | nil => rfl
  | cons a l ih =>
    obtain ⟨ha, hl⟩ := not_or.mp (mt List.mem_cons.mpr hi)
    rw [List.foldl_cons, ih hl, State.computeSec, sec_modSec, if_neg (Ne.symm ha)]

/-- A section listed once is computed once, from its entry as it was, with L and its own offset. The base, which
depends on the sections before it, is left open: no target needs it. -/
theorem foldl_computeSec_sec {l : List (Fin 16)} (hn : l.Nodup) {i : Fin 16} (hi : i ∈ l) (s : State) :
    ∃ base, (l.foldl State.computeSec s).sec i = (s.sec i).compute s.cyc.lineSpeed base (s.offsetOf i) := by
  induction l generalizing s with
  | nil => cases hi
  | cons a l ih =>
    obtain ⟨ha, hl⟩ := List.nodup_cons.mp hn
    rw [List.foldl_cons]
    rcases List.mem_cons.mp hi with rfl | hi
    · refine ⟨s.baseRatio i, ?_⟩
      rw [foldl_computeSec_sec_of_notMem ha, State.computeSec, sec_modSec, if_pos rfl]
    · obtain ⟨base, hb⟩ := ih hl hi (s.computeSec a)
      refine ⟨base, hb.trans ?_⟩
      have hai : a ≠ i := fun e => ha (e ▸ hi)
      have hsec : (s.computeSec a).sec i = s.sec i := by rw [State.computeSec, sec_modSec, if_neg hai]
      rw [hsec]
      rfl

theorem computeChain_sec {s : State} (h : s.ChainSound) {i : Fin 16} (hi : (s.sec i).present = true) :
    ∃ base, s.computeChain.sec i = (s.sec i).compute s.cyc.lineSpeed base (s.offsetOf i) :=
  foldl_computeSec_sec h.nodup ((h.listed i).mpr hi) s

/-! ## One entry through a start (R31, R53, R99) -/

/-- The order age and what it stops leave source and M. -/
theorem ageOrder_source_master (x : Section) : x.ageOrder.source = x.source ∧ x.ageOrder.master = x.master := by
  unfold Section.ageOrder
  generalize hy : ({ x with orderAge := if x.orderAge < 255 then x.orderAge + 1 else 255 } : Section) = y
  have hs : x.source = y.source := by rw [← hy]
  have hm : x.master = y.master := by rw [← hy]
  rw [hs, hm]
  dsimp only
  split
  · split
    · exact ⟨rfl, rfl⟩
    · split <;> exact ⟨rfl, rfl⟩
    · exact ⟨rfl, rfl⟩
    · exact ⟨rfl, rfl⟩
  · exact ⟨rfl, rfl⟩

theorem releaseFallsDue_source_master (x : Section) :
    x.releaseFallsDue.source = x.source ∧ x.releaseFallsDue.master = x.master := by
  unfold Section.releaseFallsDue
  split <;> exact ⟨rfl, rfl⟩

theorem beginCycle_source_master (x : Section) :
    x.beginCycle.source = x.source ∧ x.beginCycle.master = x.master := by
  obtain ⟨hs, hm⟩ := ageOrder_source_master x.clearResults.releaseFallsDue
  obtain ⟨hs', hm'⟩ := releaseFallsDue_source_master x.clearResults
  exact ⟨hs.trans hs', hm.trans hm'⟩

/-- A computed start makes of a present entry what the computation makes of it after the cycle has begun for it. -/
theorem computedStart_sec {s : State} (h : s.ChainSound) {i : Fin 16} (hi : (s.sec i).present = true) :
    ∃ base offset, s.computedStart.sec i = (s.sec i).beginCycle.compute s.cyc.lineSpeed base offset := by
  have hframe := announceStart_secsOnly s.advanceNumbers
  have hsound : s.advanceNumbers.announceStart.ChainSound :=
    State.ChainSound.ofSecs (h.same (t := s.advanceNumbers) rfl fun _ => .refl _) hframe
  have hsec : s.advanceNumbers.announceStart.sec i = (s.sec i).beginCycle := by
    rw [announceStart_sec, if_pos (show (s.advanceNumbers.sec i).present = true from hi)]
    rfl
  obtain ⟨base, hb⟩ := computeChain_sec hsound (i := i) (by rw [hsec, (beginCycle_place _).present, hi])
  obtain ⟨-, -, -, -, -, hcyc, -⟩ := hframe.keeps
  rw [hsec, hcyc] at hb
  exact ⟨base, _, hb⟩

theorem clearFaultResets_ratio_target (x : Section) :
    x.clearFaultResets.ratio = x.ratio ∧ x.clearFaultResets.target = x.target := ⟨rfl, rfl⟩

theorem launched_sec (u : State) (i : Fin 16) :
    u.launched.sec i = if (u.sec i).present then (u.sec i).clearFaultResets else u.sec i := by
  have hsections : u.launched.sections = (u.mapPresent Section.clearFaultResets).sections := rfl
  rw [sec_congr hsections, sec_mapPresent]

/-- The burst of a start clears fault resets: ratio and target stay as they were computed. -/
theorem started_ratio_target (b : State) (i : Fin 16) :
    (b.started.sec i).ratio = (b.computedStart.sec i).ratio ∧
      (b.started.sec i).target = (b.computedStart.sec i).target := by
  unfold State.started
  split
  · exact ⟨rfl, rfl⟩
  · rw [launched_sec]
    split
    · exact clearFaultResets_ratio_target _
    · exact ⟨rfl, rfl⟩

/-! ## The obligation -/

/-- The target of a present section after a start, by its source. -/
theorem started_target {b : State} (h : b.ChainSound) {i : Fin 16} (hi : (b.sec i).present = true) :
    ((b.sec i).source = .cascade →
      (b.started.sec i).target = divHalfUp (b.cyc.lineSpeed * (b.started.sec i).ratio) 1000000) ∧
    ((b.sec i).source = .follow → (b.started.sec i).target = (b.sec i).master) := by
  obtain ⟨hratio, htarget⟩ := started_ratio_target b i
  obtain ⟨base, offset, hsec⟩ := computedStart_sec h hi
  obtain ⟨hsource, hmaster⟩ := beginCycle_source_master (b.sec i)
  rw [htarget, hratio, hsec]
  exact ⟨fun hc => compute_target_cascade (hsource.trans hc) _ _ _,
    fun hf => (compute_target_follow (hsource.trans hf) _ _ _).trans hmaster⟩

/-- Settles O24: a start computes each present section once, from the source, M and L it found, and no stage after the
target's acts on target or ratio; the two inequalities are those of rounding half up. -/
theorem targetFormed : Obligations.TargetFormed := by
  unfold Obligations.TargetFormed
  intro s b k i hk hs hi
  obtain ⟨hcascade, hfollow⟩ := started_target (chainSound_kept.startsFrom hk hs) hi
  refine ⟨b.started, exec_starts hk, fun hc => ?_, hfollow⟩
  have htarget := hcascade hc
  obtain ⟨hlow, hhigh⟩ := divHalfUp_bounds (d := 1000000) (by decide) (b.cyc.lineSpeed * (b.started.sec i).ratio)
  rw [← htarget] at hlow hhigh
  refine ⟨hlow, hhigh, fun hzero => ?_⟩
  rw [htarget, hzero, zero_mul, divHalfUp_zero (by decide)]

end Sys2Proof.Machine
end

section
/-! PROOF. What a value written through the cursor can meet: the fields of each table that WRITE may change, the
READ-ONLY refusal of every other field, and the SELECT and the WRITE around it (R160, R163, R164). -/

namespace Sys2Proof.Machine

open Sys2Proof

/-! ## Refusals of the section table (R44, R48) -/

/-- The present checks refuse with one of four codes (R44). -/
theorem presentRefusal_code {s : State} {i : Fin 16} {r : Refused} (h : s.presentRefusal i = some r) :
    r.1 ∈ [ResultCode.range, .conflict, .absent, .limit] := by
  unfold State.presentRefusal at h
  dsimp only at h
  iterate 9
    split at h
    · cases h; simp
  cases h

/-- A withdrawal is refused with one of three codes (R48). -/
theorem withdrawRefusal_code {s : State} {i : Fin 16} {r : Refused} (h : s.withdrawRefusal i = some r) :
    r.1 ∈ [ResultCode.claimed, .state, .dependent] := by
  unfold State.withdrawRefusal at h
  split at h
  · cases h; simp
  · split at h
    · cases h; simp
    · split at h
      · cases h; simp
      · cases h

/-! ## How a value at a writable field is answered (R163) -/

/-- The answers to a value that meets a writable field: a refusal for another cause than READ-ONLY, or a state in which
both ports are as they were. -/
inductive Answers (s : State) : Except Refused State → Prop
  | refused {r : Refused} (code : r.1 ≠ .readOnly) : Answers s (.error r)
  | stored {t : State} (up : t.up = s.up) (dn : t.dn = s.dn) : Answers s (.ok t)

theorem writePresent_answers (s : State) (i : Fin 16) (v : Int) : Answers s (s.writePresent i v) := by
  unfold State.writePresent
  split
  · exact .refused nofun
  · split
    · exact .stored rfl rfl
    · split
      · next r hr => exact .refused fun e => absurd (e ▸ presentRefusal_code hr) (by decide)
      · exact .stored rfl rfl
  · split
    · split
      · next r hr => exact .refused fun e => absurd (e ▸ withdrawRefusal_code hr) (by decide)
      · exact .stored rfl rfl
    · exact .stored rfl rfl

theorem writeSection_answers (s : State) (i : Fin 16) {f : Nat} (hf : f ≤ 18) (v : Int) :
    Answers s (s.writeSection i f v) := by
  unfold State.writeSection
  rw [if_neg (by omega)]
  split
  · exact .refused nofun
  · split
    · exact .refused nofun
    · split
      · exact writePresent_answers s i v
      · split
        · exact .refused nofun
        · exact .stored rfl rfl

theorem writeMember_answers (s : State) (i : Fin 16) (j : Fin 4) {f : Nat} (hf : f ≤ 1) (v : Int) :
    Answers s (s.writeMember i j f v) := by
  unfold State.writeMember
  rw [if_neg (by omega)]
  split
  · split
    · exact .refused nofun
    · split
      · exact .refused nofun
      · split
        · exact .refused nofun
        · exact .stored rfl rfl
  · split
    · exact .refused nofun
    · split
      · exact .refused nofun
      · exact .stored rfl rfl

theorem writeStep_answers (s : State) (k : Fin 96) {f : Nat} (hf : f < 24) (v : Int) :
    Answers s (s.writeStep k f v) := by
  unfold State.writeStep
  rw [if_neg (by omega)]
  split
  · exact .refused nofun
  · split
    · exact .refused nofun
    · split
      · exact .refused nofun
      · exact .stored rfl rfl

theorem writePart_answers (s : State) (v : Int) : Answers s (s.writePart 6 v) := by
  unfold State.writePart
  rw [if_neg (by decide)]
  split
  · exact .refused nofun
  · split
    · exact .refused nofun
    · exact .stored rfl rfl

/-! ## The writable fields of a table (R164) -/

/-- The fields WRITE may change; of STEPS all there are. -/
def Table.Writable : Table → Nat → Prop
  | .sections, f => f ≤ 18
  | .members, f => f ≤ 1
  | .steps, f => f < 24
  | .runners, _ => False
  | .part, f => f = 6

theorem writeField_answers (s : State) {t : Table} {f : Nat} (hf : t.Writable f) (e : Nat) (v : Int) :
    Answers s (s.writeField t e f v) := by
  cases t with
  | sections => exact writeSection_answers s _ hf v
  | members => exact writeMember_answers s _ _ hf v
  | steps => exact writeStep_answers s _ hf v
  | runners => exact hf.elim
  | part => cases hf; exact writePart_answers s v

/-- Outside the writable fields READ-ONLY is the first check that fails, whatever the state, entry and value. -/
theorem writeField_readOnly (s : State) {t : Table} {f : Nat} (hf : ¬t.Writable f) (e : Nat) (v : Int) :
    s.writeField t e f v = .error (.readOnly, fieldByte f) := by
  cases t with
  | sections => exact if_pos (Nat.lt_of_not_le hf)
  | members => exact if_pos (Nat.lt_of_not_le hf)
  | steps => exact if_pos (Nat.lt_of_succ_le (Nat.le_of_not_lt hf))
  | runners => rfl
  | part => exact if_pos hf

theorem writeField_ne_readOnly (s : State) {t : Table} {f : Nat} (hf : t.Writable f) (e : Nat) (v : Int) (i : Byte) :
    s.writeField t e f v ≠ .error (.readOnly, i) := by
  intro h
  have ha := writeField_answers s hf e v
  rw [h] at ha
  cases ha with
  | refused code => exact code rfl

/-- A stored value leaves both ports. -/
theorem writeField_ports {s u : State} {t : Table} {e f : Nat} {v : Int} (h : s.writeField t e f v = .ok u) :
    u.up = s.up ∧ u.dn = s.dn := by
  by_cases hf : t.Writable f
  · have ha := writeField_answers s hf e v
    rw [h] at ha
    cases ha with
    | stored hup hdn => exact ⟨hup, hdn⟩
  · rw [writeField_readOnly s hf] at h
    cases h

/-! ## The values of a WRITE, one after another (R163) -/

theorem applyValues_stored {c : Cursor} {s t : State} {v : Int}
    (h : s.writeField c.table c.entry c.field v = .ok t) (vs : List Int) (n : Nat) (b : Bool) :
    applyValues (v :: vs) c s n b = applyValues vs c.move t (n + 1) (b || (c.table == .part && t.lossDue)) := by
  conv_lhs => unfold applyValues
  simp only [h]

theorem applyValues_refused {c : Cursor} {s : State} {v : Int} {r : Refused}
    (h : s.writeField c.table c.entry c.field v = .error r) (vs : List Int) (n : Nat) (b : Bool) :
    applyValues (v :: vs) c s n b = { state := s, cursor := c, applied := n, refusal := some r, expired := b } := by
  unfold applyValues
  simp only [h]

theorem applyValues_ports (vs : List Int) (c : Cursor) (s : State) (n : Nat) (b : Bool) :
    (applyValues vs c s n b).state.up = s.up ∧ (applyValues vs c s n b).state.dn = s.dn := by
  induction vs generalizing c s n b with
  | nil => exact ⟨rfl, rfl⟩
  | cons v vs ih =>
    cases h : s.writeField c.table c.entry c.field v with
    | error r => rw [applyValues_refused h]; exact ⟨rfl, rfl⟩
    | ok t =>
      rw [applyValues_stored h]
      obtain ⟨hup, hdn⟩ := writeField_ports h
      obtain ⟨hup', hdn'⟩ := ih c.move t (n + 1) (b || (c.table == .part && t.lossDue))
      exact ⟨hup'.trans hup, hdn'.trans hdn⟩

/-- Values after an unrefused beginning meet the state, the cursor and the count that it leaves. -/
theorem applyValues_append {before : List Int} {c : Cursor} {s : State} {n : Nat} {b : Bool}
    (hr : (applyValues before c s n b).refusal = none) (after : List Int) :
    applyValues (before ++ after) c s n b =
      applyValues after (applyValues before c s n b).cursor (applyValues before c s n b).state
        (applyValues before c s n b).applied (applyValues before c s n b).expired := by
  induction before generalizing c s n b with
  | nil => rfl
  | cons v before ih =>
    cases h : s.writeField c.table c.entry c.field v with
    | error r => rw [applyValues_refused h] at hr; cases hr
    | ok t =>
      rw [applyValues_stored h] at hr
      rw [List.cons_append, applyValues_stored h, applyValues_stored h, ih hr]

/-! ## SELECT and WRITE from the frame to the reply (R160, R163) -/

theorem toIndex_natCast {n e : Nat} (h : e < n) : toIndex n e = some ⟨e, h⟩ := by
  simp [toIndex, h]

theorem reqSelect_accepted {args : List Byte} {t : Table} {e f : Nat} {m : CursorMode}
    (ht : Table.ofCode (arg args 0) = some t) (he : arg args 1 = e) (hf : arg args 2 = f)
    (hm : CursorMode.ofCode (arg args 3) = some m) (hen : e < t.entries) (hfn : f < t.fields) (s : State) :
    reqSelect args s = done (s.modMgmt fun y =>
      { y with cursor := some { table := t, entry := e, field := f, mode := m, spent := false } }) [] := by
  unfold reqSelect
  simp only [ht, he, hf, hm, toIndex_natCast hen, toIndex_natCast hfn]

theorem request_select (old : Option PendingAccess) {args : List Byte} (hl : args.length = 16) (s : State) :
    request old 0x03 args s = reqSelect args s := if_pos hl

theorem exec_select_accepted {s : State} (h : s.MgmtReady) {args : List Byte} (hl : args.length = 16) {t : Table}
    {e f : Nat} {m : CursorMode} (ht : Table.ofCode (arg args 0) = some t) (he : arg args 1 = e) (hf : arg args 2 = f)
    (hm : CursorMode.ofCode (arg args 3) = some m) (hen : e < t.entries) (hfn : f < t.fields) :
    exec (.select args) s = .next (State.sendReply (s.asked.modMgmt fun y =>
      { y with cursor := some { table := t, entry := e, field := f, mode := m, spent := false } })
      (reply .done 0xFF [])) :=
  exec_request (c := .select args) rfl h (by omega)
    ((request_select _ hl _).trans (reqSelect_accepted ht he hf hm hen hfn _)) rfl (asked_quiet h.quiet)

theorem request_write (old : Option PendingAccess) {args : List Byte} (hl : writeSized args = true) (s : State) :
    request old 0x05 args s = reqWrite args s := if_pos hl

theorem length_le_of_writeSized {args : List Byte} (h : writeSized args = true) : args.length ≤ 112 := by
  simp only [writeSized, Bool.and_eq_true, decide_eq_true_eq] at h
  exact h.2

theorem liveCursor_asked {s : State} {c : Cursor} (h : s.CursorIs c) : s.asked.liveCursor = some c := by
  obtain ⟨hc, hspent⟩ := h
  have hasked : s.asked.mgmt.cursor = some c := hc
  simp [State.liveCursor, hasked, hspent]

/-- A WRITE stopped by a refusal, in whose service the loss limit expired no timer. -/
theorem exec_write_refused {s : State} (h : s.MgmtReady) {args : List Byte} (hl : writeSized args = true) {c d : Cursor}
    (hc : s.CursorIs c) {u : State} {n : Nat} {code : ResultCode} {i : Byte}
    (hw : applyValues (argList args) c s.asked 0 false =
      { state := u, cursor := d, applied := n, refusal := some (code, i), expired := false }) :
    exec (.write args) s = .next (State.sendReply (u.setCursor d)
      { code := code, offending := i, count := n, values := [], tie := .plain }) := by
  have hlen := length_le_of_writeSized hl
  have hreq : reqWrite args s.asked = { state := u.setCursor d, expired := false, reply :=
      { code := code, offending := i, count := n, values := [], tie := .plain } } := by
    unfold reqWrite
    simp only [liveCursor_asked hc, hw]
  have hquiet : (u.setCursor d).Quiet := by
    obtain ⟨hup, hdn⟩ := applyValues_ports (argList args) c s.asked 0 false
    rw [hw] at hup hdn
    obtain ⟨hqup, hqdn⟩ := asked_quiet h.quiet
    exact ⟨(congrArg Port.fifo hup).trans hqup, (congrArg Port.fifo hdn).trans hqdn⟩
  exact exec_request (c := .write args) rfl h (by omega) ((request_write _ hl _).trans hreq) rfl hquiet

/-- The value that reaches a field outside the writable fields stops the WRITE, wherever it stands in it. -/
theorem exec_write_readOnly {s : State} (h : s.MgmtReady) {args : List Byte} (hl : writeSized args = true)
    {c d : Cursor} (hc : s.CursorIs c) {before after : List Int} {v : Int} (hargs : argList args = before ++ v :: after)
    {u : State} {n : Nat} (hbefore : applyValues before c s.asked 0 false =
      { state := u, cursor := d, applied := n, refusal := none, expired := false })
    (hf : ¬d.table.Writable d.field) :
    exec (.write args) s = .next (State.sendReply (u.setCursor d)
      { code := .readOnly, offending := fieldByte d.field, count := n, values := [], tie := .plain }) := by
  refine exec_write_refused h hl hc ?_
  rw [hargs, applyValues_append (by rw [hbefore]), hbefore]
  exact applyValues_refused (writeField_readOnly u hf d.entry v) after n false

/-! ## The obligation -/

/-- Settles O42: a row of R164's table names the counts SELECT checks against and the writable fields of its table; at a
writable field no check answers READ-ONLY, at any other it is the first check, after whatever values came before. -/
theorem writableFields : Obligations.WritableFields := by
  unfold Obligations.WritableFields
  intro t code entries fields writable hrow
  obtain ⟨hcode, rfl, rfl, hwritable⟩ : Table.ofCode code = some t ∧ t.entries = entries ∧ t.fields = fields ∧
      ∀ f, f < fields → (writable f ↔ t.Writable f) := by
    obtain ⟨rfl, rfl, rfl, rfl, rfl⟩ | ⟨rfl, rfl, rfl, rfl, rfl⟩ | ⟨rfl, rfl, rfl, rfl, rfl⟩ |
      ⟨rfl, rfl, rfl, rfl, rfl⟩ | ⟨rfl, rfl, rfl, rfl, rfl⟩ := hrow
    case inr.inr.inl => exact ⟨rfl, rfl, rfl, fun f hf => iff_of_true trivial hf⟩
    all_goals exact ⟨rfl, rfl, rfl, fun f _ => Iff.rfl⟩
  refine ⟨rfl, rfl, fun s args e f h hl htable hentry hfield hmode hen hfn => ?_, fun s e f v i hfn hf => ?_,
    fun s u args c d before after v h hl hc hargs hbefore htable hfn hf => ?_⟩
  · exact exec_select_accepted h hl (htable ▸ hcode) hentry hfield (m := .fixed) (by rw [hmode]; rfl) hen hfn
  · exact writeField_ne_readOnly s ((hwritable f hfn).mp hf) e v i
  · subst htable
    exact exec_write_readOnly h hl hc hargs hbefore (mt (hwritable d.field hfn).mpr hf)

end Sys2Proof.Machine
end

section
/-! PROOF. What every step keeps, from the laws of the leaf operations; and the step itself: it always has a next state,
and a part out of service takes no frame and no timer (R40, R47, R120, R144, R176). -/

namespace Sys2Proof.Machine

open Sys2Proof

/-! ## What every step keeps -/

/-- Saved tables in their ranges, as the law of the entries speaks of them. -/
theorem SavedTables.sound_iff (t : SavedTables) : t.Sound ↔ t.All SavedSection.Sound StepRecord.Sound :=
  ⟨fun h => ⟨h.sections, h.steps⟩, fun h => ⟨h.1, h.2⟩⟩

/-- The tables in their ranges, as the law of the entries speaks of them. -/
theorem State.tablesSound_iff (s : State) :
    s.TablesSound ↔ s.All Section.Sound SavedSection.Sound StepRecord.Sound := by
  constructor
  · intro h
    exact ⟨h.sections, ⟨fun t ht => t.sound_iff.mp (h.snapshot t ht), fun c hc => c.tables.sound_iff.mp (h.copy c hc)⟩,
      h.steps⟩
  · rintro ⟨hsections, ⟨hsnapshot, hcopy⟩, hsteps⟩
    exact ⟨hsections, hsteps, fun t ht => t.sound_iff.mpr (hsnapshot t ht), fun c hc => c.tables.sound_iff.mpr (hcopy c hc)⟩

/-- Settles O56: the ranges are a law of entries, and every step keeps such a law. -/
theorem tablesSoundKept : Obligations.TablesSoundKept := by
  unfold Obligations.TablesSoundKept
  intro s t h ht
  exact t.tablesSound_iff.mpr (entriesSound.kept.step (s.tablesSound_iff.mp h) ht)

/-- Settles O57: every leaf operation keeps runners, claims, waiters and the reserve in agreement. -/
theorem testsSoundKept : Obligations.TestsSoundKept := by
  unfold Obligations.TestsSoundKept
  exact fun _ _ h ht => testsSound_kept.step h ht

/-- Settles O58: every leaf operation keeps the chain order list. -/
theorem chainSoundKept : Obligations.ChainSoundKept := by
  unfold Obligations.ChainSoundKept
  exact fun _ _ h ht => chainSound_kept.step h ht

/-- Settles O59: every leaf operation keeps the places of the buffers and the numbers of the log. -/
theorem buffersAndNumbersKept : Obligations.BuffersAndNumbersKept := by
  unfold Obligations.BuffersAndNumbersKept
  exact fun _ _ ht => ⟨fun h => buffersBounded_kept.step h ht, fun h => logNumbered_kept.step h ht⟩

/-- The reset state is a full reset of itself, so what a reset leaves holds of it. -/
theorem reset_eq_resetBlocks : State.reset = State.reset.resetBlocks .startUp 55 := by decide

theorem reset_sec (i : Fin 16) : State.reset.sec i = Section.reset := by
  rw [reset_eq_resetBlocks]
  exact EntryLaw.sec_reset _ _ _ i

theorem reset_stepRec (k : Fin 96) : State.reset.stepRec k = StepRecord.reset := by
  rw [reset_eq_resetBlocks]
  exact EntryLaw.stepRec_reset _ _ _ k

theorem reset_tablesSound : State.reset.TablesSound := by
  refine ⟨fun i => ?_, fun k => ?_, nofun, nofun⟩
  · rw [reset_sec]; exact entriesSound.reset
  · rw [reset_stepRec]; exact entriesSound.resetStep

/-- Settles O60: a part just reset has empty buffers, an empty log, no runner busy and no section present. -/
theorem resetStateIsSound : Obligations.ResetStateIsSound := by
  unfold Obligations.ResetStateIsSound
  have htests : State.reset.TestsSound := by
    rw [reset_eq_resetBlocks]; exact .reset _ _ _
  have hchain : State.reset.ChainSound := by
    rw [reset_eq_resetBlocks]; exact .reset _ _ _
  exact ⟨reset_tablesSound, htests, hchain, ⟨Nat.zero_le _, Nat.zero_le _, Nat.zero_le _, Nat.zero_le _⟩,
    fun k hk => absurd hk (Nat.not_lt_zero k)⟩

/-! ## The step -/

/-- Settles O1. -/
theorem stepRunsFrontCommand : Obligations.StepRunsFrontCommand := by
  unfold Obligations.StepRunsFrontCommand
  intro s c rest h
  unfold step
  rw [h]

/-- Every command has a next state: no arm of the dispatch faults or refuses. -/
theorem exec_next (c : Instr) (s : State) : ∃ t, exec c s = .next t := by
  cases c <;> exact ⟨_, rfl⟩

/-- Settles O3: on an empty queue the bit time's state is next, else the front command's. -/
theorem nothingStopsThePart : Obligations.NothingStopsThePart := by
  unfold Obligations.NothingStopsThePart
  intro s
  unfold step
  split
  · exact ⟨_, rfl⟩
  · next c rest _ => exact exec_next c _

/-- A command that needs service is what a part in service does, and nothing out of it. -/
theorem exec_serving {c : Instr} (h : c.needsService = true) : ∃ f : State → State, ∀ s, exec c s = .next (s.serving f) := by
  cases c <;> simp only [Instr.needsService, Bool.false_eq_true] at h <;> exact ⟨_, fun _ => rfl⟩

/-- Settles O4. -/
theorem outOfServiceNothingHappens : Obligations.OutOfServiceNothingHappens := by
  unfold Obligations.OutOfServiceNothingHappens
  intro s c hc hs
  obtain ⟨f, hf⟩ := exec_serving hc
  rw [hf, serving_out hs]

end Sys2Proof.Machine
end

section
/-! PROOF. The check of R4 and the numbers of R5: the CRC register is a bijection of what it held and of the character
taken, so a changed character changes it; numbers are read back from the characters they are sent in. -/

namespace Sys2Proof.Machine

open Sys2Proof

/-! ## The check tells characters apart (R4) -/

/-- The bit shifted out of the register is the lowest bit after the shift: the polynomial has its lowest bit set. -/
theorem crcShift_low (r : BitVec 16) : (crcShift r).getLsbD 0 = r.msb := by
  unfold crcShift
  split
  · next h => rw [h]; simp
  · next h => simp at h; rw [h]; simp

theorem crcShift_injective : Function.Injective crcShift := by
  intro a b h
  have hmsb : a.msb = b.msb := by rw [← crcShift_low, ← crcShift_low, h]
  have hshl : a <<< 1 = b <<< 1 := by
    unfold crcShift at h
    rw [hmsb] at h
    split at h
    · exact (BitVec.xor_left_inj _).mp h
    · exact h
  ext i hi
  by_cases hlast : i = 15
  · subst hlast
    simpa [BitVec.msb_eq_getLsbD_last] using hmsb
  · have := congrArg (fun v => v.getLsbD (i + 1)) hshl
    simpa [show i + 1 < 16 by omega] using this

/-- Eight shifts in a row tell registers apart. -/
theorem crcShifts_injective : Function.Injective fun r => crcShift (crcShift (crcShift (crcShift (crcShift (crcShift
    (crcShift (crcShift r))))))) := by
  have h := crcShift_injective.iterate 8
  exact h

/-- Taking the same character keeps two registers apart. -/
theorem crcStep_injective (c : Byte) : Function.Injective fun r => crcStep r c := fun _ _ h =>
  (BitVec.xor_left_inj _).mp (crcShifts_injective h)

/-- A register tells the characters it takes apart. -/
theorem crcStep_char_injective (r : BitVec 16) : Function.Injective (crcStep r) := by
  intro c d h
  have hcd : r ^^^ (c ++ (0 : BitVec 8)) = r ^^^ (d ++ (0 : BitVec 8)) := crcShifts_injective h
  exact (BitVec.append_left_inj (0 : BitVec 8)).mp ((BitVec.xor_right_inj r).mp hcd)

theorem crcFold_injective (cs : List Byte) : Function.Injective fun r => cs.foldl crcStep r := by
  induction cs with
  | nil => exact fun _ _ h => h
  | cons c cs ih => exact fun _ _ h => crcStep_injective c (ih h)

/-- A frame with one character changed has another check. -/
theorem crc16_set_ne (cs : List Byte) (k : Nat) (h : k < cs.length) (c : Byte) (hc : c ≠ cs[k]) :
    crc16 (cs.set k c) ≠ crc16 cs := by
  intro he
  have hset : cs.set k c = cs.take k ++ c :: cs.drop (k + 1) := List.set_eq_take_append_cons_drop.trans (if_pos h)
  have hcs : cs = cs.take k ++ cs[k] :: cs.drop (k + 1) := by
    rw [List.cons_getElem_drop_succ, List.take_append_drop]
  unfold crc16 at he
  rw [hset] at he
  conv_rhs at he => rw [hcs]
  rw [List.foldl_append, List.foldl_append, List.foldl_cons, List.foldl_cons] at he
  exact hc (crcStep_char_injective _ (crcFold_injective _ he))

/-! ## Numbers, high character first (R5) -/

theorem chars16_toNat (v : BitVec 16) : (chars16 v).map BitVec.toNat = [v.toNat / 256, v.toNat % 256] := by
  have := v.isLt
  simp [chars16, Nat.shiftRight_eq_div_pow]
  omega

theorem chars24_toNat (v : BitVec 24) :
    (chars24 v).map BitVec.toNat = [v.toNat / 65536, v.toNat / 256 % 256, v.toNat % 256] := by
  have := v.isLt
  simp [chars24, Nat.shiftRight_eq_div_pow]
  omega

theorem chars32_toNat (v : BitVec 32) : (chars32 v).map BitVec.toNat =
    [v.toNat / 16777216, v.toNat / 65536 % 256, v.toNat / 256 % 256, v.toNat % 256] := by
  have := v.isLt
  simp [chars32, Nat.shiftRight_eq_div_pow]
  omega

/-- Characters side by side, cut from one number, are that part of the number. -/
theorem num16_chars16 (v : BitVec 16) : num16 (chars16 v) 0 = v := by
  show v.extractLsb' 8 8 ++ v.extractLsb' 0 8 = v
  rw [BitVec.extractLsb'_append_extractLsb'_eq_extractLsb' (by rfl), BitVec.extractLsb'_eq_self]

theorem num24_chars24 (v : BitVec 24) : num24 (chars24 v) 0 = v := num24_cons_chars24 0 v

theorem num32_chars32 (v : BitVec 32) : num32 (chars32 v) 0 = v := by
  show v.extractLsb' 24 8 ++ v.extractLsb' 16 8 ++ v.extractLsb' 8 8 ++ v.extractLsb' 0 8 = v
  rw [BitVec.extractLsb'_append_extractLsb'_eq_extractLsb' (by rfl),
    BitVec.extractLsb'_append_extractLsb'_eq_extractLsb' (by rfl),
    BitVec.extractLsb'_append_extractLsb'_eq_extractLsb' (by rfl), BitVec.extractLsb'_eq_self]

/-- An argument sent as a management value is read back (R5, R179). -/
theorem arg_toValue {x : Int} (h1 : -2147483648 ≤ x) (h2 : x ≤ 2147483647) : arg (chars32 (toValue x)) 0 = x := by
  show (num32 (chars32 (toValue x)) 0).toInt = x
  rw [num32_chars32, toValue, BitVec.toInt_ofInt]
  exact Int.bmod_eq_of_le (by omega) (by omega)

/-- Settles O6. -/
theorem checksAndNumbers : Obligations.ChecksAndNumbers := by
  unfold Obligations.ChecksAndNumbers
  exact ⟨crc16_set_ne, fun v => ⟨chars16_toNat v, num16_chars16 v⟩, fun v => ⟨chars24_toNat v, num24_chars24 v⟩,
    fun v => ⟨chars32_toNat v, num32_chars32 v⟩, fun _ => arg_toValue⟩

end Sys2Proof.Machine
end

section
/-! PROOF. The receive side of a port, entry by entry: what its receiver stores, and what its assembler makes of each entry
it takes (R2, R3, R6 to R10, R13). -/

namespace Sys2Proof.Machine

open Sys2Proof

/-! ## A port put in place, and what its own work makes of it -/

theorem setAsm_setPort (s : State) (p : Side) (x : Port) (m : Assembler) :
    (s.setPort p x).setAsm p m = s.setPort p { x with asm := m } := by
  unfold State.setAsm
  rw [setPort_same, setPort_setPort]

theorem latchError_setPort (s : State) (p : Side) (x : Port) (k : ErrorKind) :
    (s.setPort p x).latchError p k = s.setPort p { x with lastError := k } := by
  unfold State.latchError
  rw [setPort_same, setPort_setPort]

/-- Outside loopback a discard writes the latch, and nothing more (R10). -/
theorem discard_setPort {s : State} {p : Side} (h : p = .dn → s.link.loopback = false) (x : Port) (k : ErrorKind) :
    (s.setPort p x).discard p k = s.setPort p { x with lastError := k } := by
  unfold State.discard
  rw [latchError_setPort]
  cases p with
  | up => rfl
  | dn => simp [h rfl]

/-- A line event at a port that listens reaches its receiver. -/
theorem receiveEvent_setPort {s : State} {p : Side} (h : s.receives p = true) {x : Port}
    (hx : x.driving = (s.port p).driving) (e : LineEvent) :
    (s.setPort p x).receiveEvent p e = s.setPort p (x.receive (s.stamp p) e) := by
  unfold State.receiveEvent
  rw [receives_setPort s p x hx, h, if_pos rfl, setPort_same, stamp_setPort, setPort_setPort]

/-- The entry at the head of the FIFO is the next one taken. -/
theorem takeEntries_cons (s : State) (p : Side) (n : Nat) {x : Port} {e : Entry} {rest : List Entry}
    (h : x.fifo = e :: rest) :
    State.takeEntries p (n + 1) (s.setPort p x) =
      State.takeEntries p n ((s.setPort p { x with fifo := rest }).takeEntry p e) := by
  conv_lhs => unfold State.takeEntries
  rw [setPort_same, h]
  simp only [setPort_setPort]

/-! ## What the receiver stores (R2, R6) -/

/-- A character whose stop bit is at mark is stored clean, and the gap timer runs from its end. -/
theorem receive_clean {x : Port} (hm : x.awaitMark = false) (hf : x.fifo.length < 128) (st : Stamp) (d : Byte) (m : Bool) :
    x.receive st (.char d m true) = { x with gapTimer := some 0, fifo := x.fifo ++ [charEntry d m true st] } := by
  simp [Port.receive, hm, isBreak, Port.store, hf]

/-- A character whose stop bit is at logic 0 is stored tagged FRAMING. -/
theorem receive_unstopped {x : Port} (hm : x.awaitMark = false) (hf : x.fifo.length < 128) (st : Stamp) {d : Byte}
    {m : Bool} (hd : ¬(d = 0 ∧ m = false)) :
    x.receive st (.char d m false) = { x with gapTimer := some 0, fifo := x.fifo ++ [charEntry d m false st] } := by
  have hb : isBreak d m false = false := by
    cases m <;> simp_all [isBreak]
  simp [Port.receive, hm, hb, Port.store, hf]

/-- A BREAK stops the gap timer, and the receiver waits for mark. -/
theorem receive_break {x : Port} (hm : x.awaitMark = false) (hf : x.fifo.length < 128) (st : Stamp) :
    x.receive st (.char 0 false false) =
      { x with gapTimer := none, awaitMark := true, fifo := x.fifo ++ [charEntry 0 false false st] } := by
  simp [Port.receive, hm, isBreak, Port.store, hf]

theorem tagKind_framing {d : Byte} {m : Bool} (hd : ¬(d = 0 ∧ m = false)) (st : Stamp) :
    (charEntry d m false st).tagKind = some .framing := by
  have hb : isBreak d m false = false := by
    cases m <;> simp_all [isBreak]
  simp [Entry.tagKind, charEntry, hb]

theorem tagKind_break (st : Stamp) : (charEntry 0 false false st).tagKind = some .brk := rfl

/-- Clean characters, one after another, all find their places. -/
theorem foldl_receive_clean {s : State} {p : Side} (h : s.receives p = true) (cs : List Byte) {x : Port}
    (hx : x.driving = (s.port p).driving) (hm : x.awaitMark = false) (hg : x.gapTimer = some 0)
    (hl : x.fifo.length + cs.length ≤ 128) :
    (cs.map fun c => LineEvent.char c false true).foldl (fun u e => u.receiveEvent p e) (s.setPort p x) =
      s.setPort p { x with fifo := x.fifo ++ cs.map fun c => charEntry c false true (s.stamp p) } := by
  induction cs generalizing x with
  | nil => simp
  | cons c cs ih =>
    rw [List.length_cons] at hl
    rw [List.map_cons, List.foldl_cons, receiveEvent_setPort h hx, receive_clean hm (by omega),
      ih (by exact hx) (by exact hm) rfl (by simp; omega)]
    simp [hg]

/-! ## FRAME_DISCARD -/

theorem exec_frameDiscard {s : State} (h : s.phase = .inService) (p : Side) (l : List LineEvent) (n : Nat) :
    exec (.frameDiscard p l n) s = .next (s.receiveRaw p l n) := by
  show Host.Outcome.next (s.serving _) = _
  rw [serving_inService h]

theorem phase_of_receives {s : State} {p : Side} (h : s.receives p = true) : s.phase = .inService := by
  cases p <;> simp [State.receives] at h <;> exact h.1

/-- The other port has nothing to take where its FIFO is empty. -/
theorem receiveRaw_eq {s t : State} {p : Side} {l : List LineEvent} {n : Nat}
    (ht : State.takeEntries p n (l.foldl (fun u e => u.receiveEvent p e) s) = t)
    (hq : ∀ q, q ≠ p → (t.port q).fifo = []) : s.receiveRaw p l n = t := by
  unfold State.receiveRaw
  rw [ht]
  cases p with
  | up => exact drain_empty (hq .dn (by decide))
  | dn => exact drain_empty (hq .up (by decide))

/-- The other port is not the one put in place. -/
theorem port_setPort_ne {p q : Side} (h : q ≠ p) (s : State) (x : Port) : (s.setPort p x).port q = s.port q := by
  cases p <;> cases q
  case up.dn | dn.up => rfl
  all_goals exact absurd rfl h

theorem markNewest_append (es : List Entry) (e : Entry) :
    markNewest (es ++ [e]) = es ++ [{ e with overrun := true }] := by
  induction es with
  | nil => rfl
  | cons a es ih =>
    cases es with
    | nil => rfl
    | cons b es => exact congrArg (a :: ·) ih

/-- A character that finds the FIFO full is lost, and the newest entry takes the OVERRUN tag. -/
theorem receive_full {x : Port} {es : List Entry} {e : Entry} (hm : x.awaitMark = false) (hf : x.fifo = es ++ [e])
    (hl : 127 ≤ es.length) (st : Stamp) (d : Byte) (m : Bool) :
    x.receive st (.char d m true) = { x with gapTimer := some 0, fifo := es ++ [{ e with overrun := true }] } := by
  have hstore : ∀ c, x.store c = { x with fifo := es ++ [{ e with overrun := true }] } := fun c => by
    unfold Port.store
    rw [if_neg (by rw [hf, List.length_append, List.length_singleton]; show ¬_ < 128; omega), hf, markNewest_append]
  simp [Port.receive, hm, isBreak, hstore]

/-- Settles O8: a character at a FIFO with a place, and at one that is full. -/
theorem fullFifoMarksNewest : Obligations.FullFifoMarksNewest := by
  unfold Obligations.FullFifoMarksNewest
  intro s p d m hr hm hq
  have arrives : ∀ x : Port, (s.port p).receive (s.stamp p) (.char d m true) = x →
      exec (.frameDiscard p [.char d m true] 0) s = .next (s.setPort p x) := fun x hx => by
    have hs : s.receiveEvent p (.char d m true) = s.setPort p x := by
      rw [← hx, ← receiveEvent_setPort hr rfl, setPort_port]
    rw [exec_frameDiscard (phase_of_receives hr)]
    exact congrArg _ (receiveRaw_eq (n := 0) (by exact hs) fun q h => by rw [port_setPort_ne h]; exact hq q h)
  exact ⟨fun hl => arrives _ (receive_clean hm hl _ d m), fun es e hf hl => arrives _ (receive_full hm hf hl _ d m)⟩

/-! ## A port that drives (R13) -/

/-- A port that drives its line does not listen to it; the DN port in loopback listens to its transmitter. -/
theorem receives_driving {s : State} {p : Side} (h : (s.port p).driving = true) (hl : p = .dn → s.link.loopback = false) :
    s.receives p = false := by
  cases p with
  | up => simp [State.receives, show s.up.driving = true from h]
  | dn => simp [State.receives, show s.dn.driving = true from h, hl rfl]

/-- What a part does that changes nothing in service changes nothing at all. -/
theorem serving_self {s : State} {f : State → State} (h : f s = s) : s.serving f = s := by
  unfold State.serving
  split
  · exact h
  · rfl

theorem quiet_fifo {s : State} (h : s.Quiet) (p : Side) : (s.port p).fifo = [] := by
  cases p
  · exact h.1
  · exact h.2

theorem receiveRaw_silent {s : State} {p : Side} (hq : s.Quiet) (hr : s.receives p = false) (l : List LineEvent) (n : Nat) :
    s.receiveRaw p l n = s := by
  have hl : l.foldl (fun u e => u.receiveEvent p e) s = s := by
    induction l with
    | nil => rfl
    | cons e l ih =>
      rw [List.foldl_cons]
      have : s.receiveEvent p e = s := by unfold State.receiveEvent; rw [hr]; rfl
      rw [this, ih]
  exact receiveRaw_eq (by rw [hl, takeEntries_empty p n (quiet_fifo hq p)]) fun q _ => quiet_fifo hq q

/-- Outside loopback a MEMBER REPORT is a frame at the DN port (R16, R34). -/
theorem exec_memberReport {s : State} (h : s.link.loopback = false) (a e : Byte) (v : Speed24) (q : Torque16) (f : Byte) :
    exec (.memberReport a e v q f) s =
      .next (s.serving fun t => t.receiveFrame .dn a kindMemberReport (memberReportPayload e v q f)) := by
  unfold exec execMemberReport State.serving
  simp [h]

/-- Settles O5: every frame of the line goes through the receiver of its port, which takes nothing. -/
theorem drivingPortIgnoresTheLine : Obligations.DrivingPortIgnoresTheLine := by
  unfold Obligations.DrivingPortIgnoresTheLine
  intro s hq
  refine ⟨fun hd => ?_, fun hd hl => ?_⟩
  · have hr : s.receives .up = false := receives_driving (p := .up) hd nofun
    have frame : ∀ a k pl, (s.serving fun t => t.receiveFrame .up a k pl) = s := fun a k pl =>
      serving_self (receiveFrame_silent hq hr a k pl)
    refine ⟨fun n c v => congrArg Host.Outcome.next (frame 0 kindLineCycle (n :: c :: chars24 v)),
      fun a r m => congrArg Host.Outcome.next (frame a kindSectionOrder (r :: chars24 m)),
      fun a m => congrArg Host.Outcome.next (frame a kindSectionOrder (1 :: chars24 m)),
      congrArg Host.Outcome.next (frame 0 kindPollCall []), fun c pl hc => ?_,
      fun l n => congrArg Host.Outcome.next (serving_self (receiveRaw_silent hq hr l n))⟩
    rw [exec_manage hc]
    exact congrArg Host.Outcome.next (serving_self (receiveFrame_silent hq hr s.part.mgmtAddr kindManage pl))
  · have hr : s.receives .dn = false := receives_driving (p := .dn) hd fun _ => hl
    refine ⟨fun a e v q f => ?_, fun l n => congrArg Host.Outcome.next (serving_self (receiveRaw_silent hq hr l n))⟩
    rw [exec_memberReport hl, serving_self (receiveFrame_silent hq hr _ _ _)]

end Sys2Proof.Machine
end

section
/-! PROOF. Bad frames (R7 to R10), the gap timer's expiry (R3, R7), and the bursts of both ports (R12 to R15, R33, R168). -/

namespace Sys2Proof.Machine

open Sys2Proof

/-! ## What the assembler makes of one entry (R7, R8) -/

variable {s : State} {p : Side} {x : Port}

theorem abandon_wait (h : x.asm = .wait) : (s.setPort p x).abandon p = s.setPort p x := by
  unfold State.abandon
  rw [setPort_same, h]

theorem abandon_collect (hl : p = .dn → s.link.loopback = false) {cs : List Byte} (h : x.asm = .collect cs) :
    (s.setPort p x).abandon p = s.setPort p { x with asm := .wait, lastError := .truncated } := by
  unfold State.abandon
  rw [setPort_same, h]
  dsimp only
  rw [setAsm_setPort, discard_setPort hl]

/-- An entry tagged OVERRUN leaves its kind in the latch and no frame open, whatever it holds. -/
theorem takeEntry_overrun (hl : p = .dn → s.link.loopback = false) {e : Entry} (he : e.overrun = true) :
    (s.setPort p x).takeEntry p e = s.setPort p { x with asm := .wait, lastError := .overrun } := by
  have ht : e.tagKind = some .overrun := by simp [Entry.tagKind, he]
  have hwait : x.asm = .wait → (s.setPort p x).latchError p .overrun =
      s.setPort p { x with asm := .wait, lastError := .overrun } := fun h => by
    rw [latchError_setPort, ← h]
  unfold State.takeEntry
  split
  · unfold State.takeGap
    rw [setPort_same]
    split
    · next h => rw [he, if_pos rfl, hwait h]
    · rw [setAsm_setPort, he, if_pos rfl, discard_setPort hl]
  · unfold State.takeMarked
    rw [ht]
    cases h : x.asm with
    | wait => dsimp only; rw [abandon_wait h, discard_setPort hl, ← h]
    | collect cs => dsimp only; rw [abandon_collect hl h, discard_setPort hl]
  · unfold State.takeUnmarked
    rw [setPort_same, ht]
    cases h : x.asm with
    | wait => exact hwait h
    | collect cs => dsimp only; rw [setAsm_setPort, discard_setPort hl]

/-- A tagged character abandons the open frame with the kind of its tag. -/
theorem takeEntry_tagged (hl : p = .dn → s.link.loopback = false) {cs : List Byte} (hx : x.asm = .collect cs) {d : Byte}
    {m b : Bool} {st : Stamp} {k : ErrorKind} (ht : (charEntry d m b st).tagKind = some k) :
    (s.setPort p x).takeEntry p (charEntry d m b st) = s.setPort p { x with asm := .wait, lastError := k } := by
  cases m with
  | true =>
    show (s.setPort p x).takeMarked p d (charEntry d true b st).tagKind = _
    unfold State.takeMarked
    rw [ht]
    dsimp only
    rw [abandon_collect hl hx, discard_setPort hl]
  | false =>
    show (s.setPort p x).takeUnmarked p d (charEntry d false b st).tagKind st = _
    unfold State.takeUnmarked
    rw [ht, setPort_same, hx]
    dsimp only
    rw [setAsm_setPort, discard_setPort hl]

/-- A marked character opens a frame where the filter keeps it, after an open frame is abandoned. -/
theorem takeEntry_marked (d : Byte) (st : Stamp) :
    (s.setPort p x).takeEntry p (charEntry d true true st) = ((s.setPort p x).abandon p).openFrame p d := by
  show (s.setPort p x).takeMarked p d (charEntry d true true st).tagKind = _
  rw [tagKind_clean]
  rfl

theorem openFrame_kept {a : Byte} (hk : s.filterKeeps p a = true) :
    (s.setPort p x).openFrame p a = s.setPort p { x with asm := .collect [a] } := by
  unfold State.openFrame
  rw [filterKeeps_setPort, hk, if_pos rfl, setAsm_setPort]

theorem openFrame_rejected {a : Byte} (hk : s.filterKeeps p a = false) :
    (s.setPort p x).openFrame p a = s.setPort p x := by
  unfold State.openFrame
  rw [filterKeeps_setPort, hk]
  rfl

/-- An unmarked character in an open frame. -/
theorem takeEntry_next {cs : List Byte} (hx : x.asm = .collect cs) (d : Byte) (st : Stamp) :
    (s.setPort p x).takeEntry p (charEntry d false true st) = (s.setPort p x).appendChar p (cs ++ [d]) st := by
  show (s.setPort p x).takeUnmarked p d (charEntry d false true st).tagKind st = _
  unfold State.takeUnmarked
  rw [tagKind_clean, setPort_same, hx]

/-- The characters of a frame that is neither too long nor complete. -/
def StaysOpen (cs : List Byte) : Prop := ¬(cs.length = 3 ∧ 124 < (charAt cs 2).toNat) ∧ frameComplete cs = false

theorem appendChar_open {cs : List Byte} (h : StaysOpen cs) (st : Stamp) :
    (s.setPort p x).appendChar p cs st = s.setPort p { x with asm := .collect cs } := by
  unfold State.appendChar
  rw [if_neg h.1, h.2]
  exact setAsm_setPort s p x _

/-- A frame of at most two characters, or one whose length is legal and not yet reached. -/
theorem staysOpen_of {cs : List Byte}
    (h : cs.length ≤ 2 ∨ (charAt cs 2).toNat ≤ 124 ∧ cs.length < (charAt cs 2).toNat + 5) : StaysOpen cs := by
  refine ⟨by omega, ?_⟩
  unfold frameComplete
  simp only [Bool.and_eq_false_iff, decide_eq_false_iff_not]
  omega

/-- Clean characters taken one after another, the frame staying open. -/
theorem takeEntries_grows (ds : List Byte) {cs : List Byte} (hx : x.asm = .collect cs) {st : Stamp}
    {rest : List Entry} (hf : x.fifo = ds.map (fun d => charEntry d false true st) ++ rest)
    (ho : ∀ n, n < ds.length → StaysOpen (cs ++ ds.take (n + 1))) (n : Nat) :
    State.takeEntries p (ds.length + n) (s.setPort p x) =
      State.takeEntries p n (s.setPort p { x with fifo := rest, asm := .collect (cs ++ ds) }) := by
  induction ds generalizing x cs with
  | nil => simp only [List.map_nil, List.nil_append] at hf; simp [← hf, ← hx]
  | cons d ds ih =>
    rw [List.length_cons, Nat.add_right_comm, takeEntries_cons (x := x) s p _ hf, takeEntry_next (by exact hx),
      appendChar_open (by simpa using ho 0 (Nat.succ_pos _)),
      ih rfl rfl fun n hn => by simpa using ho (n + 1) (Nat.succ_lt_succ hn)]
    simp

/-! ## A frame heard whole, then taken (R7 to R10) -/

/-- A port that listens to its line, at mark, with no frame open, both FIFOs empty. -/
structure State.Listens (s : State) (p : Side) : Prop where
  quiet : s.Quiet
  waiting : (s.port p).asm = .wait
  listening : s.receives p = true
  atMark : (s.port p).awaitMark = false

theorem State.Hears.listens (h : s.Hears p) : s.Listens p := ⟨h.quiet, h.waiting, h.listening, h.atMark⟩

theorem other_quiet (h : s.Quiet) (y : Port) (q : Side) (hq : q ≠ p) : ((s.setPort p y).port q).fifo = [] := by
  rw [port_setPort_ne hq]
  exact quiet_fifo h q

/-- A port that hears the first character of a frame it keeps, and whatever follows, before its assembler takes it all. -/
theorem exec_frameDiscard_opened (h : s.Listens p) {a : Byte} (ha : s.filterKeeps p a = true) {evs : List LineEvent}
    {es : List Entry} {t : State} {n : Nat}
    (harrive : evs.foldl (fun u e => u.receiveEvent p e) (s.setPort p { s.port p with
        gapTimer := some 0, fifo := [charEntry a true true (s.stamp p)] }) =
      s.setPort p { x with asm := .wait, fifo := charEntry a true true (s.stamp p) :: es })
    (htake : State.takeEntries p n (s.setPort p { x with fifo := es, asm := .collect [a] }) = t)
    (ht : ∀ q, q ≠ p → (t.port q).fifo = []) :
    exec (.frameDiscard p (.char a true true :: evs) (n + 1)) s = .next t := by
  have hf := quiet_fifo h.quiet p
  have hfirst : s.receiveEvent p (.char a true true) = s.setPort p { s.port p with
      gapTimer := some 0, fifo := [charEntry a true true (s.stamp p)] } := by
    conv_lhs => rw [← setPort_port s p]
    rw [receiveEvent_setPort h.listening rfl, receive_clean h.atMark (by rw [hf]; decide), hf]
    rfl
  rw [exec_frameDiscard (phase_of_receives h.listening)]
  refine congrArg _ (receiveRaw_eq ?_ ht)
  rw [List.foldl_cons, hfirst, harrive, takeEntries_cons s p n rfl, takeEntry_marked, abandon_wait rfl, openFrame_kept ha,
    htake]

/-- The last entry taken. -/
theorem takeEntries_last {e : Entry} (hf : x.fifo = [e]) {t : State}
    (ht : (s.setPort p { x with fifo := [] }).takeEntry p e = t) : State.takeEntries p 1 (s.setPort p x) = t := by
  rw [takeEntries_cons s p 0 hf, ht]
  rfl

/-- One more event after the first character: the entry it stores is taken from the open frame. -/
theorem exec_frameDiscard_two (h : s.Listens p) {a : Byte} (ha : s.filterKeeps p a = true) {ev : LineEvent} {e : Entry}
    {g : Option Nat} {b : Bool} {t : State}
    (hev : ∀ z : Port, z.awaitMark = false → z.fifo.length < 128 → z.receive (s.stamp p) ev =
      { z with gapTimer := g, awaitMark := b, fifo := z.fifo ++ [e] })
    (htake : (s.setPort p { s.port p with gapTimer := g, awaitMark := b, fifo := [], asm := .collect [a] }).takeEntry p e =
      t)
    (ht : ∀ q, q ≠ p → (t.port q).fifo = []) :
    exec (.frameDiscard p [.char a true true, ev] 2) s = .next t := by
  refine exec_frameDiscard_opened (x := { s.port p with gapTimer := g, awaitMark := b }) (es := [e]) h ha ?_
    (takeEntries_last rfl htake) ht
  rw [List.foldl_cons, receiveEvent_setPort h.listening (by rfl), hev _ (by exact h.atMark) (by exact Nat.lt_of_sub_eq_succ rfl), List.foldl_nil]
  simp [h.waiting]

/-- A port that hears has its FIFO empty, no frame open and its line at mark. -/
theorem listens_port (h : s.Listens p) :
    s.port p = { s.port p with fifo := [], asm := .wait, awaitMark := false } := by
  have hf := quiet_fifo h.quiet p
  have hw := h.waiting
  have hm := h.atMark
  generalize s.port p = y at *
  cases y
  simp_all

/-- A frame of unmarked characters heard whole, whose last character the assembler judges. -/
theorem exec_frameDiscard_chars (h : s.Listens p) {a : Byte} (ha : s.filterKeeps p a = true) (ds : List Byte) (d : Byte)
    (hl : ds.length ≤ 126) (ho : ∀ n, n < ds.length → StaysOpen ([a] ++ ds.take (n + 1))) {t : State}
    (hlast : (s.setPort p { s.port p with gapTimer := some 0, fifo := [], asm := .collect ([a] ++ ds) }).appendChar p
      ([a] ++ ds ++ [d]) (s.stamp p) = t)
    (ht : ∀ q, q ≠ p → (t.port q).fifo = []) :
    exec (.frameDiscard p (.char a true true :: (ds ++ [d]).map fun c => .char c false true) (ds.length + 2)) s =
      .next t := by
  have hes := List.map_append (f := fun c => charEntry c false true (s.stamp p)) (l₁ := ds) (l₂ := [d])
  refine exec_frameDiscard_opened (x := { s.port p with gapTimer := some 0 })
    (es := (ds ++ [d]).map fun c => charEntry c false true (s.stamp p)) (n := ds.length + 1) h ha ?_ ?_ ht
  · rw [foldl_receive_clean h.listening _ (by rfl) (by exact h.atMark) (by rfl) (by simp; omega)]
    simp [h.waiting]
  · rw [takeEntries_grows ds rfl hes ho 1, takeEntries_last rfl (takeEntry_next rfl d _), hlast]

/-! ## Bad frames (R7 to R10) -/

/-- A length above 124 ends the frame with LENGTH (R8). -/
theorem appendChar_tooLong (hl : p = .dn → s.link.loopback = false) (a k n : Byte) (hn : 124 < n.toNat) (st : Stamp) :
    (s.setPort p x).appendChar p [a, k, n] st = s.setPort p { x with asm := .wait, lastError := .length } := by
  unfold State.appendChar
  rw [if_pos ⟨rfl, hn⟩, setAsm_setPort, discard_setPort hl]

/-- A complete frame whose check is wrong ends with CHECK (R8). -/
theorem appendChar_badCheck (hl : p = .dn → s.link.loopback = false) (a k c d : Byte) (hc : c ++ d ≠ crc16 [a, k, 0])
    (st : Stamp) :
    (s.setPort p x).appendChar p [a, k, 0, c, d] st = s.setPort p { x with asm := .wait, lastError := .check } := by
  have hcheck : checkPasses [a, k, 0, c, d] = false := by
    show (crc16 [a, k, 0] == c ++ d) = false
    simpa using Ne.symm hc
  show State.completeFrame (s.setPort p x) p [a, k, 0, c, d] st = _
  unfold State.completeFrame
  rw [hcheck, setAsm_setPort]
  exact discard_setPort hl _ _

/-- A whole frame is handed off with its last character. -/
theorem appendChar_complete (a k : Byte) {pl : List Byte} (hl : pl.length ≤ 124) (st : Stamp) :
    (s.setPort p x).appendChar p (frameChars a k pl) st =
      (s.setPort p { x with asm := .wait }).handOff p a k pl st := by
  have hn : (frameChars a k pl).length = pl.length + 5 := by rw [frameChars_eq, List.length_cons, frameRest_length]
  have h2 : (charAt (frameChars a k pl) 2).toNat = pl.length := by
    show (BitVec.ofNat 8 pl.length).toNat = _
    rw [BitVec.toNat_ofNat]
    omega
  have hc : frameComplete (frameChars a k pl) = true := by
    unfold frameComplete
    rw [hn, h2]
    simp
  unfold State.appendChar State.completeFrame
  rw [if_neg (by omega), hc, if_pos rfl, frame_checks, if_pos rfl, setAsm_setPort, frame_payload]
  rfl

/-- A known kind, of an address it is served at, with a payload of a wrong length (R9, section 11.1). -/
def WrongLength (s : State) (p : Side) (a k : Byte) (pl : List Byte) : Prop :=
  (p = .up ∧ k = 0x01 ∧ a = 0 ∧ pl.length ≠ 5) ∨ (p = .up ∧ k = 0x03 ∧ a = 0 ∧ pl ≠ []) ∨
    (p = .up ∧ k = 0x04 ∧ a = s.part.mgmtAddr ∧ pl = []) ∨
    (p = .up ∧ k = 0x02 ∧ s.sectionAt a ≠ none ∧ pl.length ≠ 4) ∨ (p = .dn ∧ k = 0x31 ∧ pl.length ≠ 7)

theorem handOff_wrongLength (hl : p = .dn → s.link.loopback = false) {a k : Byte} {pl : List Byte}
    (h : WrongLength s p a k pl) (st : Stamp) : s.handOff p a k pl st = s.discard p .length := by
  obtain ⟨rfl, rfl, rfl, hn⟩ | ⟨rfl, rfl, rfl, hn⟩ | ⟨rfl, rfl, rfl, rfl⟩ | ⟨rfl, rfl, ha, hn⟩ | ⟨rfl, rfl, hn⟩ := h
  case inr.inr.inr.inl =>
    obtain ⟨i, hi⟩ := Option.ne_none_iff_exists'.mp ha
    simp [State.handOff, State.handOffUp, State.lengthOr, hi, hn]
  case inr.inr.inl => simp [State.handOff, State.handOffUp, State.lengthOr]
  all_goals simp [State.handOff, State.handOffUp, State.handOffDn, State.lengthOr, hl, hn]

/-- Until its last character a frame of legal length stays open. -/
theorem frameRest_staysOpen (a k : Byte) {pl : List Byte} (hl : pl.length ≤ 124) {n : Nat} (hn : n + 1 ≤ pl.length + 3) :
    StaysOpen ([a] ++ (frameRest a k pl).take (n + 1)) := by
  have hlen : ([a] ++ (frameRest a k pl).take (n + 1)).length = n + 2 := by
    have := frameRest_length a k pl
    simp
    omega
  apply staysOpen_of
  rw [hlen]
  rcases n with _ | n
  · exact .inl (by omega)
  · have h2 : (charAt ([a] ++ (frameRest a k pl).take (n + 1 + 1)) 2).toNat = pl.length := by
      show (BitVec.ofNat 8 pl.length).toNat = _
      rw [BitVec.toNat_ofNat]
      omega
    exact .inr (by omega)

theorem exec_wrongLength (h : s.Hears p) {a : Byte} (ha : s.filterKeeps p a = true) {k : Byte} {pl : List Byte}
    (hl : pl.length ≤ 123) (hw : WrongLength s p a k pl) :
    exec (.frameDiscard p (frameEvents a k pl) (pl.length + 5)) s =
      .next (s.setPort p { s.port p with gapTimer := some 0, lastError := .length }) := by
  have hlen := frameRest_length a k pl
  have hne : frameRest a k pl ≠ [] := by rw [← List.length_pos_iff]; omega
  have hsplit := List.dropLast_append_getLast hne
  have hds : (frameRest a k pl).dropLast.length = pl.length + 3 := by rw [List.length_dropLast]; omega
  have := exec_frameDiscard_chars h.listens ha (frameRest a k pl).dropLast ((frameRest a k pl).getLast hne) (by omega)
    (fun n hn => ?_) (hlast := ?_) (other_quiet h.quiet
      { s.port p with gapTimer := some 0, fifo := [], asm := .wait, lastError := .length })
  · rw [hsplit, hds] at this
    exact this.trans (by rw [listens_port h.listens])
  · rw [List.dropLast_eq_take, List.take_take, min_eq_left (by omega)]
    exact frameRest_staysOpen a k (by omega) (by omega)
  · rw [List.append_assoc, hsplit, show [a] ++ frameRest a k pl = frameChars a k pl from (frameChars_eq a k pl).symm,
      appendChar_complete a k (by omega), handOff_wrongLength (by simpa using h.outside), discard_setPort h.outside]
    cases p <;> exact hw

/-- Settles O7: the second entry, or the last character, of each bad frame, and an entry with the OVERRUN tag. -/
theorem frameErrorsAreLatched : Obligations.FrameErrorsAreLatched := by
  unfold Obligations.FrameErrorsAreLatched
  refine ⟨fun s p a h ha => ⟨fun d m hd => ?_, ?_, fun b hb => ?_, fun b hb => ?_, fun k n hn => ?_, fun k c d hc => ?_,
    fun k pl hl hw => exec_wrongLength h ha hl hw⟩, fun s p e hs hl hq hf he => ?_⟩
  · rw [exec_frameDiscard_two (g := some 0) (b := false) h.listens ha
      (fun z hm hf => (receive_unstopped hm hf _ hd).trans (by rw [← hm]))
      (takeEntry_tagged h.outside rfl (tagKind_framing hd _)) (other_quiet h.quiet _), listens_port h.listens]
  · rw [exec_frameDiscard_two h.listens ha (fun z hm hf => receive_break hm hf _)
      (takeEntry_tagged h.outside rfl (tagKind_break _)) (other_quiet h.quiet _), listens_port h.listens]
  · rw [exec_frameDiscard_two (g := some 0) (b := false) h.listens ha
      (fun z hm hf => (receive_clean hm hf _ b true).trans (by rw [← hm]))
      (by rw [takeEntry_marked, abandon_collect h.outside rfl, openFrame_rejected hb])
      (other_quiet h.quiet _), listens_port h.listens]
  · rw [exec_frameDiscard_two (g := some 0) (b := false) h.listens ha
      (fun z hm hf => (receive_clean hm hf _ b true).trans (by rw [← hm]))
      (by rw [takeEntry_marked, abandon_collect h.outside rfl, openFrame_kept hb])
      (other_quiet h.quiet _), listens_port h.listens]
  · exact (exec_frameDiscard_chars h.listens ha [k] n (by simp) (fun m hm => staysOpen_of (.inl (by simp)))
      (appendChar_tooLong h.outside a k n hn _) (other_quiet h.quiet _)).trans (by rw [listens_port h.listens])
  · refine (exec_frameDiscard_chars h.listens ha [k, 0, c] d (by simp) (fun m hm => ?_)
      (appendChar_badCheck h.outside a k c d hc _) (other_quiet h.quiet _)).trans (by rw [listens_port h.listens])
    have hm3 : m = 0 ∨ m = 1 ∨ m = 2 := by simp at hm; omega
    obtain rfl | rfl | rfl := hm3
    · exact staysOpen_of (.inl (by simp))
    · exact staysOpen_of (.inr (by simp [charAt]))
    · exact staysOpen_of (.inr (by simp [charAt]))
  · have hport : State.takeEntries p 1 s = s.setPort p { s.port p with fifo := [], asm := .wait, lastError := .overrun } := by
      conv_lhs => rw [← setPort_port s p]
      rw [takeEntries_last hf (takeEntry_overrun hl he)]
    rw [exec_frameDiscard hs]
    exact congrArg _ (receiveRaw_eq hport fun q h => by rw [port_setPort_ne h]; exact hq q h)

end Sys2Proof.Machine
end

section
/-! PROOF. The gap timer's expiry (R3, R7), and how the bursts of both ports begin and end (R12 to R15, R33, R168). -/

namespace Sys2Proof.Machine

open Sys2Proof

/-! ## One entry left to take -/

variable {s : State} {p : Side} {x y : Port}

/-- Where one FIFO holds one entry and the other none, that entry is all the assemblers take. -/
theorem settle_one (hq : ∀ q, q ≠ p → (s.port q).fifo = []) {e : Entry} (hx : x.fifo = [e])
    (ht : (s.setPort p { x with fifo := [] }).takeEntry p e = s.setPort p y) (hy : y.fifo = []) :
    (s.setPort p x).settle = s.setPort p y := by
  have hquiet : ∀ q, ((s.setPort p y).port q).fifo = [] := fun q => by
    by_cases hqp : q = p
    · subst hqp; rw [setPort_same, hy]
    · rw [port_setPort_ne hqp, hq q hqp]
  have hdrain : (s.setPort p x).drain p = s.setPort p y := by
    unfold State.drain
    rw [setPort_same, hx]
    show State.takeEntries p 2 _ = _
    rw [takeEntries_cons s p 1 hx, ht, takeEntries_empty p 1 (hquiet p)]
  unfold State.settle
  cases p with
  | up => rw [hdrain, drain_empty (hquiet .dn)]
  | dn =>
    rw [drain_empty (p := .up) (by exact hq .up (by decide)), hdrain]

theorem takeEntry_gap_wait (h : x.asm = .wait) : (s.setPort p x).takeEntry p gapEntry = s.setPort p x := by
  show (s.setPort p x).takeGap p false = _
  unfold State.takeGap
  rw [setPort_same, h]
  rfl

/-- A gap entry abandons an open frame (R7). -/
theorem takeEntry_gap_collect (hl : p = .dn → s.link.loopback = false) {cs : List Byte} (h : x.asm = .collect cs) :
    (s.setPort p x).takeEntry p gapEntry = s.setPort p { x with asm := .wait, lastError := .truncated } := by
  show (s.setPort p x).takeGap p false = _
  unfold State.takeGap
  rw [setPort_same, h]
  dsimp only
  rw [setAsm_setPort, discard_setPort hl]
  rfl

/-- A gap entry that meets no open frame is dropped. -/
theorem settle_gap_wait (hq : ∀ q, q ≠ p → (s.port q).fifo = []) (hx : x.fifo = [gapEntry]) (h : x.asm = .wait) :
    (s.setPort p x).settle = s.setPort p { x with fifo := [] } :=
  settle_one hq hx (takeEntry_gap_wait (by exact h)) rfl

theorem settle_gap_collect (hl : p = .dn → s.link.loopback = false) (hq : ∀ q, q ≠ p → (s.port q).fifo = [])
    (hx : x.fifo = [gapEntry]) {cs : List Byte} (h : x.asm = .collect cs) :
    (s.setPort p x).settle = s.setPort p { x with fifo := [], asm := .wait, lastError := .truncated } :=
  settle_one hq hx (takeEntry_gap_collect hl (by exact h)) rfl

theorem storeGap_empty (h : x.fifo = []) : x.storeGap = { x with gapTimer := none, fifo := [gapEntry] } := by
  unfold Port.storeGap Port.store
  rw [if_pos (by rw [h]; decide), h]
  rfl

/-! ## The gap timer (R3, log 4) -/

theorem exec_gapTimerExpiry (h : s.receives p = true) : exec (.gapTimerExpiry p) s = .next (s.expireGap p) := by
  show Host.Outcome.next (s.serving _) = _
  rw [serving_inService (phase_of_receives h)]

theorem expireGap_runs (hr : s.receives p = true) (hg : (s.port p).gapTimer ≠ none) :
    s.expireGap p = (s.setPort p (s.port p).storeGap).settle := by
  unfold State.expireGap
  rw [hr, Option.isSome_iff_ne_none.mpr hg]
  rfl

/-- Settles O9: the gap entry is the one entry the assembler has to take. -/
theorem gapTimerExpiryAbandonsFrame : Obligations.GapTimerExpiryAbandonsFrame := by
  unfold Obligations.GapTimerExpiryAbandonsFrame
  intro s p hquiet hr hl
  have hf := quiet_fifo hquiet p
  rw [exec_gapTimerExpiry hr]
  refine ⟨fun hg => ?_, fun hg hw => congrArg _ ?_, fun cs hg hc => congrArg _ ?_⟩
  · unfold State.expireGap
    rw [hg]
    simp
  · rw [expireGap_runs hr hg, storeGap_empty hf,
      settle_gap_wait (fun q _ => quiet_fifo hquiet q) (by rfl) (by exact hw), ← hf]
  · rw [expireGap_runs hr hg, storeGap_empty hf,
      settle_gap_collect hl (fun q _ => quiet_fifo hquiet q) (by rfl) (by exact hc), ← hf]

/-! ## Frames that leave the queue (R14, R15) -/

/-- A frame whose sending completes nothing: no move, no restart, no SLOT CALL. -/
def TxFrame.Quiet (f : TxFrame) : Prop := f.tie = .plain ∧ f.kind ≠ kindSlotCall

theorem frameSent_quiet {f : TxFrame} (h : f.Quiet) (s : State) : s.frameSent f = s := by
  unfold State.frameSent
  rw [h.1]
  exact if_neg h.2

theorem sendHead_cons {f : TxFrame} {rest : List TxFrame} (h : x.tx = f :: rest) :
    (s.setPort p x).sendHead p = (s.setPort p { x with tx := rest, sentBits := 0 }).frameSent f := by
  unfold State.sendHead
  rw [setPort_same, h]
  simp only [setPort_setPort]

/-- The quiet frames before the last ones leave the queue, and nothing else happens but the count of bits. -/
theorem sendAll_quiet (fs : List TxFrame) (hfs : ∀ f ∈ fs, f.Quiet) {rest : List TxFrame} (hx : x.tx = fs ++ rest) (n : Nat) :
    ∃ k, State.sendAll p (fs.length + n) (s.setPort p x) = State.sendAll p n (s.setPort p { x with tx := rest, sentBits := k }) := by
  induction fs generalizing x with
  | nil =>
    refine ⟨x.sentBits, ?_⟩
    rw [List.nil_append] at hx
    rw [← hx, List.length_nil, Nat.zero_add]
  | cons f fs ih =>
    obtain ⟨k, hk⟩ := ih (x := { x with tx := fs ++ rest, sentBits := 0 }) (fun g hg => hfs g (List.mem_cons_of_mem f hg)) rfl
    refine ⟨k, ?_⟩
    rw [← hk, List.length_cons, Nat.add_right_comm]
    show State.sendAll p (fs.length + n) ((s.setPort p x).sendHead p) = _
    rw [sendHead_cons hx, frameSent_quiet (hfs f List.mem_cons_self)]
    rfl

/-! ## The UP burst (R13 to R15, R168, log 4) -/

theorem exec_replyBurstStart (h : s.phase = .inService) : exec .replyBurstStart s = .next s.beginReply.settle := by
  show Host.Outcome.next (s.serving _) = _
  rw [serving_inService h]

theorem exec_burstComplete (h : s.phase = .inService) (p : Side) :
    exec (.burstComplete p) s = .next (s.completeBurst p) := by
  show Host.Outcome.next (s.serving _) = _
  rw [serving_inService h]

/-- A queued burst whose spacing runs begins at a driver that is released. -/
theorem beginReply_begins (hs : s.phase = .inService) (ht : s.up.tx ≠ []) (hn : s.up.turnaround ≠ none)
    (hd : s.up.driving = false) : s.beginReply = s.setUp s.up.enable := by
  unfold State.beginReply
  rw [if_pos]
  simp [hs, hd, Option.isSome_iff_ne_none, hn, ht]

/-- A port just enabled, whose gap timer ran: the gap entry waits in its FIFO. -/
theorem enable_running (hf : x.fifo = []) (hg : x.gapTimer ≠ none) : x.enable =
    { x with driving := true, sentBits := 0, turnaround := none, awaitMark := false, gapTimer := none, fifo := [gapEntry] } := by
  obtain ⟨n, hn⟩ := Option.ne_none_iff_exists'.mp hg
  unfold Port.enable
  rw [hn, storeGap_empty hf]

theorem enable_stopped (hg : x.gapTimer = none) : x.enable =
    { x with driving := true, sentBits := 0, turnaround := none, awaitMark := false, gapTimer := none } := by
  unfold Port.enable
  rw [hg]
  simp only [← hg]

theorem completeBurst_up (hd : s.up.driving = true) :
    s.completeBurst .up = (State.sendAll .up s.up.tx.length s).releasePort .up := if_pos hd

/-- The UP burst's last frame leaves the queue and the driver is released. -/
theorem completeBurst_up_last (hd : s.up.driving = true) {fs : List TxFrame} {f : TxFrame} (ht : s.up.tx = fs ++ [f])
    (hfs : ∀ g ∈ fs, g.Quiet) :
    s.completeBurst .up = ((s.setUp { s.up with tx := [], sentBits := 0 }).frameSent f).releasePort .up := by
  obtain ⟨k, hk⟩ := sendAll_quiet (s := s) (p := .up) (x := s.up) fs hfs ht 1
  rw [completeBurst_up hd, ht, List.length_append, List.length_singleton]
  have hs : s.setPort .up s.up = s := rfl
  rw [hs] at hk
  rw [hk]
  show ((s.setPort .up { s.up with tx := [f], sentBits := k }).sendHead .up).releasePort .up = _
  rw [sendHead_cons rfl]
  rfl

/-- Settles O10: the gap entry of the enabled driver is all the assembler takes; of a burst's frames only the last
completes anything. -/
theorem upBurstStartsAndCompletes : Obligations.UpBurstStartsAndCompletes := by
  unfold Obligations.UpBurstStartsAndCompletes
  refine ⟨fun s hs hq => ⟨fun ht => ?_, fun ht hn hd hw => ?_, fun cs ht hn hd hc hg => ?_⟩,
    fun s hs => ⟨fun hd => ?_, fun hd hp => ?_, fun fs f a hd ht hp htie hmove => ?_⟩⟩
  · have hno : s.beginReply = s := by simp [State.beginReply, ht]
    rw [exec_replyBurstStart hs, hno, settle_quiet hq]
  · rw [exec_replyBurstStart hs, beginReply_begins hs ht hn hd]
    refine congrArg _ ?_
    by_cases hg : s.up.gapTimer = none
    · rw [enable_stopped hg]
      exact settle_quiet hq
    · rw [enable_running hq.1 hg]
      refine (settle_gap_wait (p := .up) (fun q _ => quiet_fifo hq q) (by rfl) (by exact hw)).trans ?_
      rw [← hq.1]
      rfl
  · rw [exec_replyBurstStart hs, beginReply_begins hs ht hn hd, enable_running hq.1 hg]
    refine congrArg _ ((settle_gap_collect (p := .up) nofun (fun q _ => quiet_fifo hq q) (by rfl) (by exact hc)).trans ?_)
    rw [← hq.1]
    rfl
  · rw [exec_burstComplete hs]
    exact congrArg _ (if_neg (by rw [hd]; decide))
  · obtain ⟨k, hk⟩ := sendAll_quiet (s := s) (p := .up) (x := s.up) s.up.tx hp (List.append_nil _).symm 0
    rw [exec_burstComplete hs, completeBurst_up hd]
    exact congrArg (fun t : State => Host.Outcome.next (t.releasePort .up)) hk
  · rw [exec_burstComplete hs, completeBurst_up_last hd ht hp]
    unfold State.frameSent
    rw [htie]
    exact congrArg (fun t : State => Host.Outcome.next (t.releasePort .up)) (if_pos hmove)

/-! ## The DN burst (R12, R15, R33) -/

/-- The SLOT CALL's list is in force once it is sent. -/
theorem frameSent_slotCall (s : State) (n : Byte) (addresses : List Byte) :
    s.frameSent (slotCall n addresses) = s.modCyc fun c => { c with pollInForce := addresses } := rfl

/-- Settles O11: the orders complete nothing, the SLOT CALL its list, and the window opens. -/
theorem dnBurstCompleteOpensWindow : Obligations.DnBurstCompleteOpensWindow := by
  unfold Obligations.DnBurstCompleteOpensWindow
  intro s orders n addresses c hs hd hl ht hp hc
  obtain ⟨k, hk⟩ := sendAll_quiet (s := s) (p := .dn) (x := s.dn) orders hp ht 1
  have hsend : State.sendAll .dn s.dn.tx.length s =
      (s.setDn { s.dn with tx := [], sentBits := 0 }).modCyc fun c => { c with pollInForce := addresses } := by
    rw [ht, List.length_append, List.length_singleton]
    refine hk.trans ?_
    show (s.setPort .dn { s.dn with tx := [slotCall n addresses], sentBits := k }).sendHead .dn = _
    rw [sendHead_cons rfl, frameSent_slotCall]
    rfl
  have hburst : s.completeBurst .dn = ((State.sendAll .dn s.dn.tx.length s).releasePort .dn).openWindow :=
    if_pos (by rw [hd, hl]; rfl)
  have hopen : ∀ t : State, t.cyc.inFlight = some c → t.openWindow =
      t.setInFlight (some { c with windowOpen := true, pos := 0, slotBits := 0 }) := fun t ht => by
    unfold State.openWindow
    rw [ht]
    rfl
  rw [exec_burstComplete hs, hburst, hsend, hopen _ (by exact hc)]
  rfl

end Sys2Proof.Machine
end

section
/-! PROOF. A LINE CYCLE: what it stores, what its command makes of each section, and whose test aborts (R19, R51, R131,
R133); a SECTION ORDER with RUN: the start conditions in their order (R50, R62). -/

namespace Sys2Proof.Machine

open Sys2Proof

/-! ## From the link to the cycle controller (R9, R19) -/

theorem takeLineCycleFrame_eq (s : State) (n c : Byte) (v : Speed24) :
    s.takeLineCycleFrame (n :: c :: chars24 v) = s.takeLineCycle n c v.toInt := by
  have hv : num24 (n :: c :: chars24 v) 2 = v := num24_chars24 v
  unfold State.takeLineCycleFrame
  rw [hv]
  rfl

theorem takeLineCycle_keeps (s : State) (n c : Byte) (v : Int) :
    SecsOnly (s.storeLine n c v) (s.takeLineCycle n c v) := by
  unfold State.takeLineCycle
  refine SecsOnly.trans ?_ (applyLineCommand_secsOnly _ _)
  split
  · exact (modNotices_testsOnly _ _).secsOnly
  · exact .refl _

theorem exec_lineCycle {s : State} (h : s.UpReady) (n c : Byte) (v : Speed24) :
    exec (.lineCycle n c v) s = .next ((s.heard .up).takeLineCycle n c v.toInt) := by
  have hhand : (s.heard .up).handOff .up 0 kindLineCycle (n :: c :: chars24 v) (s.stamp .up) =
      (s.heard .up).takeLineCycle n c v.toInt := by
    rw [← takeLineCycleFrame_eq]
    rfl
  have hq : ((s.heard .up).takeLineCycle n c v.toInt).Quiet :=
    (takeLineCycle_keeps _ n c _).quiet (heard_quiet h.quiet .up)
  show Host.Outcome.next (s.serving fun t => t.receiveFrame .up 0 kindLineCycle (n :: c :: chars24 v)) = _
  rw [serving_inService h.inService,
    receiveFrame_quiet h.quiet (receives_up h) h.waiting 0 _ _ (by simp [chars24]) (filterKeeps_zero s) (by rw [hhand]; exact hq),
    hhand]

/-! ## What the line command reaches (R51, R133) -/

theorem mapPresent_runner (s : State) (f : Section → Section) (r : Fin 4) : (s.mapPresent f).runner r = s.runner r :=
  runner_congr (by rw [mapPresent_form]) r

/-- An operation on sections and tests that touches no notice but TEST ENDED. -/
theorem SecsOnly.frame {s t : State} (h : SecsOnly s t) (hp : t.part = { s.part with notices := { s.part.notices with
      testEnded := t.part.notices.testEnded } }) :
    t = { s with
      sections := t.sections, runners := t.runners, log := t.log, freeUses := t.freeUses
      part := { s.part with notices := { s.part.notices with testEnded := t.part.notices.testEnded } } } := by
  obtain ⟨ss, rs, lg, nt, fu, rfl⟩ := h.form
  have hnt : nt = { s.part.notices with testEnded := nt.testEnded } := congrArg Part.notices hp
  conv_lhs => rw [hnt]

/-- Sections, tests and their log, and the notice TEST ENDED. -/
theorem applyLineCommand_frame (s : State) (c : LineCommand) :
    s.applyLineCommand c = { s with
      sections := (s.applyLineCommand c).sections, runners := (s.applyLineCommand c).runners
      log := (s.applyLineCommand c).log, freeUses := (s.applyLineCommand c).freeUses
      part := { s.part with notices := { s.part.notices with
        testEnded := (s.applyLineCommand c).part.notices.testEnded } } } := by
  refine (applyLineCommand_secsOnly s c).frame ?_
  unfold State.applyLineCommand
  dsimp only
  conv_lhs => rw [abortAll_notices]
  rw [show (s.mapPresent fun x => x.lineCommand c).part = s.part by rw [mapPresent_form]]

theorem lineCommand_stops {x : Section} (h : x.runState = .running) {c : LineCommand} (hc : c ≠ .run) :
    (x.lineCommand c).runState ≠ .running := by
  cases c with
  | run => exact absurd rfl hc
  | stop => unfold Section.lineCommand Section.lineStop; rw [h]; nofun
  | quickStop => unfold Section.lineCommand Section.lineQuickStop; rw [h]; nofun

/-- A runner aborts at a line command where its claim stands on a section that the command stops. -/
theorem applyLineCommand_runner (s : State) (c : LineCommand) (r : Fin 4) :
    (s.applyLineCommand c).runner r =
      if (s.runner r).state ≠ .idle ∧ c ≠ .run ∧
          ∃ j, (s.runner r).claimed = some j ∧ (s.sec j).present = true ∧ (s.sec j).runState = .running
      then (s.runner r).abortedBy .sectionLeftRunning else s.runner r := by
  unfold State.applyLineCommand
  dsimp only
  rw [abortAll_runner]
  simp only [mem_claimants, mapPresent_runner]
  refine if_congr ?_ rfl rfl
  constructor
  · rintro ⟨⟨-, j, hj, hleft⟩, hi⟩
    obtain ⟨hwas, hnow⟩ := (mem_leftRunning _ _ _).mp hleft
    obtain ⟨hp, hr⟩ := (mem_runningSecs s j).mp hwas
    rw [sec_mapPresent, if_pos hp] at hnow
    exact ⟨hi, fun hc => hnow (by rw [hc]; exact hr), j, hj, hp, hr⟩
  · rintro ⟨hi, hc, j, hj, hp, hr⟩
    refine ⟨⟨hi, j, hj, (mem_leftRunning _ _ _).mpr ⟨(mem_runningSecs s j).mpr ⟨hp, hr⟩, ?_⟩⟩, hi⟩
    rw [sec_mapPresent, if_pos hp]
    exact lineCommand_stops hr hc

/-! ## R51's table -/

theorem lineCommand_atRest {x : Section} (h : x.runState = .stopped ∨ x.runState = .tripped) (c : LineCommand) :
    x.lineCommand c = x := by
  cases c <;> rcases h with h | h <;> simp [Section.lineCommand, Section.lineStop, Section.lineQuickStop, h]

/-- A section that a line command takes over: RUNNING, or STOPPING by REQUEST or ORDER LOST. -/
def Section.TakenByLine (x : Section) : Prop :=
  x.runState = .running ∨ (x.runState = .stopping ∧ (x.cause = .request ∨ x.cause = .orderLost))

theorem lineStop_taken {x : Section} (h : x.TakenByLine) : x.lineStop = x.stopWith .lineStop := by
  unfold Section.lineStop
  rcases h with h | ⟨h, hc⟩
  · rw [h]
  · rw [h]; exact if_pos hc

theorem lineStop_held {x : Section} (h : x.runState = .stopping) (h1 : x.cause ≠ .request) (h2 : x.cause ≠ .orderLost) :
    x.lineStop = x := by
  unfold Section.lineStop
  rw [h]
  exact if_neg (not_or.mpr ⟨h1, h2⟩)

theorem lineQuickStop_taken {x : Section} (h : x.TakenByLine) : x.lineQuickStop = x.stopWith .quickStop := by
  unfold Section.lineQuickStop
  rcases h with h | ⟨h, hc⟩
  · rw [h]
  · rw [h]; exact if_pos hc

theorem lineQuickStop_underLineStop {x : Section} (h : x.runState = .stopping) (hc : x.cause = .lineStop) :
    x.lineQuickStop = { x with cause := .quickStop } := by
  simp [Section.lineQuickStop, h, hc]

theorem lineQuickStop_held {x : Section} (h : x.runState = .stopping) (hc : x.cause = .quickStop ∨ x.cause = .upstreamLoss) :
    x.lineQuickStop = x := by
  rcases hc with hc | hc <;> simp [Section.lineQuickStop, h, hc]

theorem ofChar_quickStop {c : Byte} (h0 : c ≠ 0) (h1 : c ≠ 1) : LineCommand.ofChar c = .quickStop := by
  unfold LineCommand.ofChar
  rw [if_neg h0, if_neg h1]

/-! ## The two obligations on LINE CYCLE -/

/-- The notice LINE SPEED CLAMPED, as a LINE CYCLE leaves it (R19). -/
theorem takeLineCycle_eq (s : State) (n c : Byte) (v : Int) :
    s.takeLineCycle n c v = ({ s.storeLine n c v with
      part := { s.part with notices := { s.part.notices with
        lineClamped := s.part.notices.lineClamped || decide (v < 0 ∨ 250000 < v) } } } : State).applyLineCommand
          (LineCommand.ofChar c) := by
  unfold State.takeLineCycle
  refine congrArg (fun t : State => t.applyLineCommand (LineCommand.ofChar c)) ?_
  have hacts : clampActs 0 250000 v = decide (v < 0 ∨ 250000 < v) := by simp [clampActs]
  rw [hacts]
  split
  · next h => rw [h, Bool.or_true]; rfl
  · next h => rw [Bool.not_eq_true _ |>.mp h, Bool.or_false]; rfl

theorem lineCommand_ofChar_ne_run {c : Byte} (h : c ≠ 1) : LineCommand.ofChar c ≠ .run := by
  unfold LineCommand.ofChar
  rw [if_neg h]
  split <;> nofun

/-- Settles O12. -/
theorem lineCycleStores : Obligations.LineCycleStores := by
  unfold Obligations.LineCycleStores
  intro s n c v h
  refine ⟨_, exec_lineCycle h n c v, ?_⟩
  rw [takeLineCycle_eq]
  conv_lhs => rw [applyLineCommand_frame]
  rw [← clampInt_eq_max_min (by decide)]
  rfl

/-- Settles O13: each present entry by R51's table, and the runners by their claims. -/
theorem lineStopsSections : Obligations.LineStopsSections := by
  unfold Obligations.LineStopsSections
  intro s n c v i h
  refine ⟨_, exec_lineCycle h n c v, ?_⟩
  rw [takeLineCycle_eq, applyLineCommand_sec]
  generalize hu : ({ (s.heard .up).storeLine n c v.toInt with
      part := { (s.heard .up).part with notices := { (s.heard .up).part.notices with
        lineClamped := (s.heard .up).part.notices.lineClamped || decide (v.toInt < 0 ∨ 250000 < v.toInt) } } } : State) = u
  have hsec : ∀ j, u.sec j = s.sec j := fun j => by rw [← hu]; rfl
  have hrun : ∀ r, u.runner r = s.runner r := fun r => by rw [← hu]; rfl
  simp only [applyLineCommand_runner, hsec, hrun]
  refine ⟨fun hrest => ?_, fun hc hp => ⟨fun hmoves => ?_, fun hr h1 h2 => ?_⟩,
    fun h0 h1 hp => ⟨fun hmoves => ?_, fun hr hcause => ?_, fun hr hcause => ?_⟩, fun r j hidle hj hp hr hc => ?_,
    fun r hrest => ?_⟩
  · rcases hrest with rfl | habsent | hrest
    · exact ite_self _
    · rw [habsent]; rfl
    · rw [lineCommand_atRest hrest, ite_self]
  · rw [if_pos hp, hc]
    exact lineStop_taken hmoves
  · rw [if_pos hp, hc]
    exact lineStop_held hr h1 h2
  · rw [if_pos hp, ofChar_quickStop h0 h1]
    exact lineQuickStop_taken hmoves
  · rw [if_pos hp, ofChar_quickStop h0 h1]
    exact lineQuickStop_underLineStop hr hcause
  · rw [if_pos hp, ofChar_quickStop h0 h1]
    exact lineQuickStop_held hr hcause
  · exact if_pos ⟨hidle, lineCommand_ofChar_ne_run hc, j, hj, hp, hr⟩
  · refine if_neg ?_
    rintro ⟨hidle, hc, j, hj, hp, hr⟩
    rcases hrest with hi | rfl | hnone | ⟨k, hk, hgone⟩
    · exact hidle hi
    · exact hc rfl
    · rw [hnone] at hj; cases hj
    · obtain rfl : k = j := Option.some.inj (hk.symm.trans hj)
      rcases hgone with hgone | hgone
      · rw [hgone] at hp; cases hp
      · exact hgone hr

/-! ## A SECTION ORDER with RUN (R50, R62) -/

/-- The lowest slot below the member count at which something holds. -/
theorem find_slot {x : Section} {f : Fin 4 → Bool} {j : Fin 4} (hj : j.val < x.cfg.memberCount) (hf : f j = true)
    (hlow : ∀ k, k < j → f k = false) : x.slots.find? f = some j := by
  unfold Section.slots allSlots
  rw [List.find?_filter]
  obtain rfl | rfl | rfl | rfl : j = 0 ∨ j = 1 ∨ j = 2 ∨ j = 3 := by fin_cases j <;> decide
  · simpa [hf] using hj
  · simpa [hf, hlow 0 (by decide)] using hj
  · simpa [hf, hlow 0 (by decide), hlow 1 (by decide)] using hj
  · simpa [hf, hlow 0 (by decide), hlow 1 (by decide), hlow 2 (by decide)] using hj

theorem find_slot_none {x : Section} {f : Fin 4 → Bool} (h : ∀ k : Fin 4, k.val < x.cfg.memberCount → f k = false) :
    x.slots.find? f = none := by
  rw [List.find?_eq_none]
  intro k hk
  simp [h k (by simpa using (List.mem_filter.mp hk).2)]

/-- A RUN order looks at neither order age nor M. -/
theorem takeOrder_orderRun (x : Section) (m : Int) (c : LineCommand) (b : Bool) :
    (x.takeOrder m).orderRun c b = (x.orderRun c b).takeOrder m := by
  have href : (x.takeOrder m).startRefusal c b = x.startRefusal c b := rfl
  unfold Section.orderRun
  rw [href, show (x.takeOrder m).runState = x.runState from rfl, show (x.takeOrder m).cause = x.cause from rfl]
  split
  · rfl
  · rfl
  · split <;> rfl
  · split <;> rfl

/-- A start is refused with the cause of the first start condition that fails. -/
theorem orderRun_refused {x : Section} (h : x.runState = .stopped) {c : LineCommand} {b : Bool} {r : RefusedCause}
    {j : Option (Fin 4)} (hr : x.startRefusal c b = some (r, j)) :
    x.orderRun c b = { x with refused := r, refusedSlot := j } := by
  unfold Section.orderRun
  rw [h, hr]

theorem orderRun_starts {x : Section} (h : x.runState = .stopped) {c : LineCommand} {b : Bool}
    (hr : x.startRefusal c b = none) : x.orderRun c b =
      { x with
        runState := .running, cause := .none, causeSlot := none, refused := .none, refusedSlot := none
        release := .off } := by
  unfold Section.orderRun
  rw [h, hr]

/-- The start conditions past the line command and the stop seen: the members' (R50). -/
theorem startRefusal_members {x : Section} (h : x.stopSeen = true) (b : Bool) :
    x.startRefusal .run b =
      match x.slots.find? fun j => (x.member j).state != .active with
      | some j => some (.memberNotActive, some j)
      | none =>
        match x.slots.find? fun j => !((x.member j).status.ready && !(x.member j).status.fault) with
        | some j => some (.memberNotReady, some j)
        | none => if b then some (.linkTest, none) else none := by
  unfold Section.startRefusal
  rw [if_neg (not_not_intro rfl), h]
  rfl

/-- Settles O15: the start conditions in their order, each refusing with its own cause, then the start. -/
theorem sectionOrderRun : Obligations.SectionOrderRun := by
  unfold Obligations.SectionOrderRun
  intro s a m i h hi
  have hexec : exec (.sectionOrderRun a m) s = .next ((s.heard .up).setSec i
      { (s.sec i).orderRun s.cyc.lineCommand s.link.running with
        orderAge := 0, master := max 0 (min 250000 m.toInt) }) := by
    rw [exec_sectionOrderRun h hi, ← takeOrder_eq, ← takeOrder_orderRun]
    rfl
  refine ⟨_, hexec, fun hr => ?_, fun hr hc => ?_, fun hr hc => ?_, fun hr hl => ?_, fun hr hl hs => ?_,
    fun j hr hl hs hj hna hlow => ?_, fun j hr hl hs hact hj hbad hlow => ?_, fun hr hl hs hall => ⟨fun ht => ?_, fun ht => ?_⟩⟩
  · unfold Section.orderRun
    rcases hr with hr | hr <;> rw [hr]
  · unfold Section.orderRun
    rw [hr]
    exact if_pos hc
  · simp [Section.orderRun, hr, hc]
  · exact orderRun_refused hr (if_pos hl)
  · refine orderRun_refused hr ?_
    unfold Section.startRefusal
    rw [if_neg (not_not_intro hl), hs]
    rfl
  · refine orderRun_refused hr ?_
    rw [hl, startRefusal_members hs, find_slot hj (by simpa using hna) fun k hk => by simpa using hlow k hk]
  · refine orderRun_refused hr ?_
    rw [hl, startRefusal_members hs, find_slot_none fun k hk => by simpa using hact k hk,
      find_slot hj (by rcases hbad with hb | hb <;> simp [hb]) fun k hk => by simp [hlow k hk]]
  · refine orderRun_refused hr ?_
    rw [hl, startRefusal_members hs, find_slot_none fun k hk => by simp [hall k hk],
      find_slot_none fun k hk => by simp [hall k hk], ht]
    rfl
  · refine orderRun_starts hr ?_
    rw [hl, startRefusal_members hs, find_slot_none fun k hk => by simp [hall k hk],
      find_slot_none fun k hk => by simp [hall k hk], ht]
    rfl

end Sys2Proof.Machine
end

section
/-! PROOF. A start request: deferred, or served at once (R30, R31); the local period timer (R29), and a valid POLL CALL,
heard as it arrives or taken late from the FIFO (R22 to R26, R158, log 28). -/

namespace Sys2Proof.Machine

open Sys2Proof

/-! ## What a start can change (R31, R32) -/

/-- A computed start: the numbers, the sections, the tests and their log. -/
theorem computedStart_frame (b : State) : b.computedStart = { b with
    cyc := { b.cyc with
      cycleNumber := b.cyc.cycleNumber + 1, cycleCount := b.cyc.cycleCount + 1, pendingStart := false }
    sections := b.computedStart.sections, runners := b.computedStart.runners, log := b.computedStart.log
    freeUses := b.computedStart.freeUses
    part := { b.part with notices := { b.part.notices with testEnded := b.computedStart.part.notices.testEnded } } } :=
  (computedStart_secsOnly b).frame (computedStart_part b)

/-- A state that agrees with another on what neither a frame nor a start reaches. -/
theorem eq_with {s t : State} {x : Part} (h1 : t.pending = s.pending) (h2 : t.phase = s.phase) (h3 : t.link = s.link)
    (h4 : t.chain = s.chain) (h5 : t.steps = s.steps) (h6 : t.store = s.store) (h7 : t.part = x) :
    t = { s with
      up := t.up, dn := t.dn, cyc := t.cyc, mgmt := t.mgmt, sections := t.sections, runners := t.runners, log := t.log
      freeUses := t.freeUses, part := x } := by
  rw [← h1, ← h2, ← h3, ← h4, ← h5, ← h6, ← h7]

/-- A state that is another's but for the fields a start may change, with a burst and a cycle put in. -/
theorem launch_frame {b u : State} (h : u = { b with
      cyc := { b.cyc with
        cycleNumber := b.cyc.cycleNumber + 1, cycleCount := b.cyc.cycleCount + 1, pendingStart := false }
      sections := u.sections, runners := u.runners, log := u.log, freeUses := u.freeUses
      part := { b.part with notices := { b.part.notices with testEnded := u.part.notices.testEnded } } })
    (x : Port) (c : Option Cycle) (secs : Vector Section 16) :
    { u with dn := x, cyc := { u.cyc with inFlight := c }, sections := secs } = { b with
      dn := x
      cyc := { b.cyc with
        cycleNumber := b.cyc.cycleNumber + 1, cycleCount := b.cyc.cycleCount + 1, pendingStart := false
        inFlight := c }
      sections := secs, runners := u.runners, log := u.log, freeUses := u.freeUses
      part := { b.part with notices := { b.part.notices with testEnded := u.part.notices.testEnded } } } := by
  conv_lhs => rw [h]

/-- A start: what it computes, the DN burst, and the cycle in flight. -/
theorem started_frame (b : State) : b.started = { b with
    dn := b.started.dn
    cyc := { b.cyc with
      cycleNumber := b.cyc.cycleNumber + 1, cycleCount := b.cyc.cycleCount + 1, pendingStart := false
      inFlight := b.started.cyc.inFlight }
    sections := b.started.sections, runners := b.started.runners, log := b.started.log, freeUses := b.started.freeUses
    part := { b.part with notices := { b.part.notices with testEnded := b.started.part.notices.testEnded } } } := by
  have h := computedStart_frame b
  have hdn : b.computedStart.dn = b.dn := (congrArg State.dn h :)
  have hcycle : b.computedStart.cyc.inFlight = b.cyc.inFlight := (congrArg (fun t : State => t.cyc.inFlight) h :)
  unfold State.started
  generalize b.computedStart = u at h hdn hcycle ⊢
  split
  · rw [hdn, hcycle]
    exact h
  · exact launch_frame h u.launched.dn (some u.newCycle) u.launched.sections

/-- A start request made while a cycle is in flight or a link test runs is deferred (R30). -/
theorem requestStart_deferred {b : State} (hq : b.Quiet) (hw : b.dn.asm = .wait)
    (h : b.cyc.inFlight ≠ none ∨ b.link.running = true) :
    b.requestStart.settle = { b with cyc := { b.cyc with pendingStart := true } } := by
  rw [requestStart_settle hq hw, if_neg]
  rintro ⟨hc, ht⟩
  rcases h with h | h
  · exact h hc
  · rw [h] at ht; cases ht

/-! ## The local period timer (R29, R30, log 4) -/

theorem exec_localPeriodTimerExpiry {s : State} (hs : s.phase = .inService) (ht : s.cyc.localTimer ≠ none) :
    exec .localPeriodTimerExpiry s = .next s.startLocal.requestStart.settle := by
  show Host.Outcome.next (s.serving fun t => if t.cyc.localTimer.isSome then t.expireLocal.settle else t) = _
  rw [serving_inService hs, if_pos (Option.isSome_iff_ne_none.mpr ht)]
  rfl

/-- Settles O19. -/
theorem localPeriodRequestsStart : Obligations.LocalPeriodRequestsStart := by
  unfold Obligations.LocalPeriodRequestsStart
  intro s hs hq hw
  refine ⟨fun ht => ?_, fun ht hd => ?_, fun ht hc hl => ?_⟩
  · show Host.Outcome.next (s.serving fun t => if t.cyc.localTimer.isSome then t.expireLocal.settle else t) = _
    rw [serving_inService hs, ht]
    rfl
  · rw [exec_localPeriodTimerExpiry hs ht]
    exact congrArg _ (requestStart_deferred (b := s.startLocal) hq hw hd)
  · have hstart := State.StartsFrom.localPeriod ⟨⟨hq, hw⟩, hc, hl⟩ hs ht
    refine ⟨s.startLocal.started, exec_starts hstart, ?_⟩
    rw [started_frame]
    exact ⟨rfl, rfl, rfl, rfl, hstart⟩

/-! ## A valid POLL CALL (R22, R25, R26, R158) -/

/-- The upstream state and both timers, and whether a reply is still pending. -/
theorem answerPoll_cyc (s : State) (age : Nat) : (s.answerPoll age).cyc = { s.cyc with
    upState := .linked, lossTimer := some 0, localTimer := none
    pendingReply := if s.up.tx = [] then none else s.cyc.pendingReply } := by
  unfold State.answerPoll State.queueBurst
  by_cases ht : s.up.tx = []
  · rw [if_pos (by simp [State.pollLink, State.pollAccess, ht]), if_pos ht]
    rfl
  · rw [if_neg (by simpa [State.pollLink, State.pollAccess] using ht), if_neg ht]
    rfl

/-- The burst joins a queue that is empty, its spacing counted from the end of the frame; frames still queued stay. -/
theorem answerPoll_up (s : State) (age : Nat) : (s.answerPoll age).up =
    if s.up.tx = [] then { s.up with tx := s.pollAccess.pollLink.replyBurst, turnaround := some (spacingAt age) }
    else s.up := by
  unfold State.answerPoll State.queueBurst
  by_cases ht : s.up.tx = []
  · rw [if_pos (by simp [State.pollLink, State.pollAccess, ht]), if_pos ht]
    rfl
  · rw [if_neg (by simpa [State.pollLink, State.pollAccess] using ht), if_neg ht]
    rfl

theorem answerPoll_mgmt (s : State) (age : Nat) :
    (s.answerPoll age).mgmt = { s.mgmt with pendingAccess := PendingAccess.polled s.mgmt.pendingAccess } := by
  unfold State.answerPoll State.queueBurst
  split <;> rfl

theorem answerPoll_frame (s : State) (age : Nat) : s.answerPoll age = { s with
    up := (s.answerPoll age).up, cyc := (s.answerPoll age).cyc, mgmt := (s.answerPoll age).mgmt } := by
  unfold State.answerPoll State.queueBurst
  split <;> rfl

/-- The reply burst is never empty: the PART REPORT is always in it (R23). -/
theorem replyBurst_ne_nil (s : State) : s.replyBurst ≠ [] := by simp [State.replyBurst]

/-- A start request leaves the upstream state, its timers, the pending reply, the UP port and the management unit. -/
theorem requestStart_keeps {b : State} (hq : b.Quiet) (hw : b.dn.asm = .wait) :
    b.requestStart.settle.up = b.up ∧ b.requestStart.settle.mgmt = b.mgmt ∧
      b.requestStart.settle.cyc.upState = b.cyc.upState ∧ b.requestStart.settle.cyc.lossTimer = b.cyc.lossTimer ∧
      b.requestStart.settle.cyc.localTimer = b.cyc.localTimer ∧
      b.requestStart.settle.cyc.pendingReply = b.cyc.pendingReply := by
  by_cases h : b.cyc.inFlight = none ∧ b.link.running = false
  · rw [requestStart_free ⟨⟨hq, hw⟩, h.1, h.2⟩, started_frame]
    exact ⟨rfl, rfl, rfl, rfl, rfl, rfl⟩
  · rw [requestStart_deferred hq hw (by
      rcases not_and_or.mp h with h | h
      · exact .inl h
      · exact .inr (by simpa using h))]
    exact ⟨rfl, rfl, rfl, rfl, rfl, rfl⟩

theorem answerPoll_still {s : State} (hq : s.Quiet) (hw : s.dn.asm = .wait) (age : Nat) :
    (s.answerPoll age).Quiet ∧ (s.answerPoll age).dn.asm = .wait := by
  obtain ⟨-, hfifo, hdn, -, -⟩ := answerPoll_keeps s age
  exact ⟨⟨hfifo.trans hq.1, by rw [hdn]; exact hq.2⟩, by rw [hdn]; exact hw⟩

theorem pollCall_heard {s : State} (h : s.UpReady) (hw : s.dn.asm = .wait) :
    ∃ t, exec .pollCall s = .next t ∧
      t.cyc.upState = .linked ∧ t.cyc.lossTimer = some 0 ∧ t.cyc.localTimer = none ∧
      t.mgmt = { s.mgmt with pendingAccess := PendingAccess.polled s.mgmt.pendingAccess } ∧
      t.cyc.pendingReply = (if s.up.tx = [] then none else s.cyc.pendingReply) ∧
      t.up = ((s.heard .up).answerPoll 0).up ∧
      (s.cyc.inFlight = none → s.link.running = false →
        t = ((s.heard .up).answerPoll 0).started ∧ s.StartsFrom .pollCall ((s.heard .up).answerPoll 0)) ∧
      (s.cyc.inFlight ≠ none ∨ s.link.running = true →
        t = { s with
          up := t.up, mgmt := t.mgmt
          cyc := { s.cyc with
            upState := .linked, lossTimer := some 0, localTimer := none, pendingStart := true
            pendingReply := t.cyc.pendingReply } }) := by
  obtain ⟨hq, hwait⟩ := answerPoll_still (heard_quiet h.quiet .up) (show (s.heard .up).dn.asm = .wait from hw) 0
  obtain ⟨hup, hmgmt, hstate, hloss, hlocal, hreply⟩ := requestStart_keeps hq hwait
  have hcyc := answerPoll_cyc (s.heard .up) 0
  refine ⟨_, exec_pollCall h, by rw [hstate, hcyc], by rw [hloss, hcyc], by rw [hlocal, hcyc],
    hmgmt.trans (answerPoll_mgmt _ 0), by rw [hreply, hcyc]; rfl, hup, fun hc hl => ?_, fun hd => ?_⟩
  · have hstart := State.StartsFrom.poll ⟨⟨h.quiet, hw⟩, hc, hl⟩ h
    exact ⟨requestStart_free (startsFrom_free hstart).1, hstart⟩
  · rw [requestStart_deferred hq hwait (by rw [hcyc, (answerPoll_keeps _ 0).2.2.2.1]; exact hd)]
    conv_lhs => rw [answerPoll_frame, hcyc]
    rw [hcyc]
    rfl

/-! ## A POLL CALL taken late from the FIFO (R15, log 28) -/

/-- Five clean entries of a POLL CALL in the FIFO of a port with no frame open, taken one after another. -/
theorem takeEntries_pollCall {s : State} {x : Port} (hx : x.asm = .wait) {a b c d e : Stamp}
    (hf : x.fifo = [charEntry 0 true true a, charEntry 3 false true b, charEntry 0 false true c,
      charEntry ((crc16 [0, 3, 0]).extractLsb' 8 8) false true d,
      charEntry ((crc16 [0, 3, 0]).extractLsb' 0 8) false true e]) :
    State.takeEntries .up 5 (s.setUp x) = (s.setUp { x with fifo := [], asm := .wait }).takePollCall e.age := by
  show State.takeEntries .up 5 (s.setPort .up x) = _
  rw [takeEntries_cons s .up 4 hf, takeEntry_marked, abandon_wait (by exact hx), openFrame_kept (filterKeeps_zero s),
    takeEntries_cons s .up 3 (by rfl), takeEntry_next (by rfl), appendChar_open (staysOpen_of (.inl (by simp))),
    takeEntries_cons s .up 2 (by rfl), takeEntry_next (by rfl), appendChar_open (staysOpen_of (.inr (by decide))),
    takeEntries_cons s .up 1 (by rfl), takeEntry_next (by rfl), appendChar_open (staysOpen_of (.inr (by simp [charAt]))),
    takeEntries_last (by rfl) (takeEntry_next (by rfl) _ _)]
  exact appendChar_complete 0 3 (pl := []) (by decide) e

theorem pollCall_late {s : State} (n : Nat) (hs : s.phase = .inService) (hw : s.up.asm = .wait) (ht : s.up.tx = [])
    (hd : s.dn.fifo = []) (hdw : s.dn.asm = .wait)
    (hf : s.up.fifo = (frameChars 0 0x03 []).mapIdx (fun k x =>
      { body := .char x (decide (k = 0)), framing := false, brk := false, overrun := false
        stamp := { slot := none, age := n + 11 * (4 - k) } })) :
    ∃ t, exec (.frameDiscard .up [] 5) s = .next t ∧
      t.up = { s.up with fifo := [], tx := t.up.tx, turnaround := some (min n 21) } ∧ t.up.tx ≠ [] ∧
      t.cyc.upState = .linked ∧ t.cyc.lossTimer = some 0 ∧ t.cyc.pendingReply = none := by
  have htake := takeEntries_pollCall (s := s) (x := s.up) hw (a := ⟨none, n + 44⟩) (b := ⟨none, n + 33⟩)
    (c := ⟨none, n + 22⟩) (d := ⟨none, n + 11⟩) (e := ⟨none, n⟩) (hf.trans rfl)
  obtain ⟨hq, hwait⟩ := answerPoll_still (s := s.setUp { s.up with fifo := [], asm := .wait }) ⟨rfl, hd⟩ hdw n
  obtain ⟨hup, -, hstate, hloss, -, hreply⟩ := requestStart_keeps hq hwait
  have hup' := answerPoll_up (s.setUp { s.up with fifo := [], asm := .wait }) n
  have hcyc := answerPoll_cyc (s.setUp { s.up with fifo := [], asm := .wait }) n
  rw [if_pos (by exact ht)] at hup' hcyc
  have hempty : ((s.setUp { s.up with fifo := [], asm := .wait }).takePollCall n).up.fifo = [] := by
    show (State.requestStart _).up.fifo = []
    rw [requestStart_up, hup']
    rfl
  refine ⟨((s.setUp { s.up with fifo := [], asm := .wait }).answerPoll n).requestStart.settle, ?_, ?_, ?_,
    by rw [hstate, hcyc], by rw [hloss, hcyc], by rw [hreply, hcyc]⟩
  · rw [exec_frameDiscard hs]
    show Host.Outcome.next ((State.takeEntries .up 5 (s.setUp s.up)).drain .dn) = _
    rw [htake]
    unfold State.settle
    rw [drain_empty (p := .up) (by exact hempty)]
    rfl
  · rw [hup, hup', ← hw]
    rfl
  · rw [hup, hup']
    exact replyBurst_ne_nil _

/-- Settles O16. -/
theorem pollCall : Obligations.PollCall := by
  unfold Obligations.PollCall
  refine ⟨fun s h hw => ?_, fun s n hs hw ht hd hdw hf => pollCall_late n hs hw ht hd hdw hf⟩
  obtain ⟨t, ht, hstate, hloss, hlocal, hmgmt, hreply, hup, hserved, hdeferred⟩ := pollCall_heard h hw
  rw [answerPoll_up] at hup
  refine ⟨t, ht, hstate, hloss, hlocal, fun hp => ?_, fun l hp => ?_, fun l k hp => ?_, fun hq => ⟨?_, ?_⟩,
    fun hq => ⟨?_, ?_⟩, fun hc hl => ?_, hdeferred⟩
  · rw [hmgmt, hp]
    show ({ s.mgmt with pendingAccess := none } : Mgmt) = s.mgmt
    rw [← hp]
  · rw [hmgmt, hp]; rfl
  · rw [hmgmt, hp]; rfl
  · exact hup.trans (if_neg hq)
  · rw [hreply, if_neg hq]
  · rw [hreply, if_pos hq]
  · rw [hup, if_pos (by exact hq)]
    rfl
  · obtain ⟨rfl, hstart⟩ := hserved hc hl
    have hframe := answerPoll_frame (s.heard .up) 0
    have hcyc := answerPoll_cyc (s.heard .up) 0
    have hstarted := started_frame ((s.heard .up).answerPoll 0)
    generalize (s.heard .up).answerPoll 0 = b at hframe hcyc hstarted hstart ⊢
    have hb : b = { s with
        up := b.started.up, mgmt := b.started.mgmt
        cyc := { s.cyc with
          upState := .linked, lossTimer := some 0, localTimer := none, pendingReply := b.started.cyc.pendingReply } } := by
      rw [hstarted]
      conv_lhs => rw [hframe, hcyc]
      rw [hcyc]
      rfl
    refine ⟨?_, ?_, ?_, ?_, ?_⟩
    · rw [hstarted, hcyc]; rfl
    · rw [hstarted, hcyc]; rfl
    · rw [hstarted]
    · rw [hstarted]
      refine eq_with ?_ ?_ ?_ ?_ ?_ ?_ ?_ <;> rw [hframe] <;> rfl
    · rw [← hb]; exact hstart

end Sys2Proof.Machine
end

section
/-! PROOF. The frames of the reply burst, position by position (R23, R24, R166, R170, section 11.2). -/

namespace Sys2Proof.Machine

open Sys2Proof

/-! ## Codes in one character -/

theorem toByte_natCast (n : Nat) : toByte (n : Int) = BitVec.ofNat 8 n := BitVec.ofInt_natCast 8 n

theorem toByte_boolCode (b : Bool) : toByte (boolCode b) = if b then 1 else 0 := by cases b <;> rfl

theorem toByte_rank (l : AccessLevel) : (toByte l.code).toNat = l.rank := by cases l <;> rfl

/-- The sum of the flags of a SECTION REPORT is below 256, so its character shows each of them. -/
theorem sectionFlags_char (f : SectionFlags) : (toByte f.code).toNat =
    (if f.ramping then 1 else 0) + (if f.saturated then 2 else 0) + (if f.ratioLimit then 4 else 0) +
      (if f.trimLimit then 8 else 0) + (if f.degraded then 16 else 0) := by
  obtain ⟨a, b, c, d, e⟩ := f
  revert a b c d e
  decide

/-! ## The two reports -/

/-- The 27 PART fields in their order, the cycle count in four characters. -/
theorem partReport_payload (s : State) : s.partReport.payload =
    [toByte s.part.config.toNat, toByte s.part.mgmtAddr.toNat, toByte s.mgmt.access.code, toByte s.cyc.upState.code,
      toByte s.cyc.lastUpCycle.toNat] ++ (chars32 s.cyc.cycleCount ++
    [toByte s.part.lossLimit, toByte (boolCode s.part.notices.upstreamLoss),
      toByte (boolCode s.part.notices.storeInvalid), toByte (boolCode s.part.notices.overrun),
      toByte (boolCode s.part.notices.lineClamped), toByte (boolCode s.part.notices.sectionTrip),
      toByte (boolCode s.part.notices.testEnded), toByte s.up.lastError.code, toByte s.dn.lastError.code,
      toByte s.log.records.length, toByte s.freePlaces, toByte (s.runner 0).state.code, toByte (s.runner 1).state.code,
      toByte (s.runner 2).state.code, toByte (s.runner 3).state.code, toByte s.store.state.code,
      toByte s.store.lastSave.code, toByte (boolCode s.link.running), toByte s.link.result.code,
      toByte s.link.result.badCode, toByte s.link.result.firstCode]) := rfl

/-- Every position of a PART REPORT in LINKED. -/
theorem partReport_positions (s : State) (p : List Byte) (hp : p = s.partReport.payload) (hl : s.cyc.upState = .linked) :
    p.length = 30 ∧ charAt p 0 = s.part.config ∧ charAt p 1 = s.part.mgmtAddr ∧
      (charAt p 2).toNat = s.mgmt.access.rank ∧ charAt p 3 = 1 ∧ charAt p 4 = s.cyc.lastUpCycle ∧
      num32 p 5 = s.cyc.cycleCount ∧ charAt p 9 = BitVec.ofNat 8 s.part.lossLimit ∧
      (p.drop 10).take 6 = [s.part.notices.upstreamLoss, s.part.notices.storeInvalid, s.part.notices.overrun,
        s.part.notices.lineClamped, s.part.notices.sectionTrip, s.part.notices.testEnded].map (fun b => if b then 1 else 0) ∧
      (p.drop 16).take 4 = [toByte s.up.lastError.code, toByte s.dn.lastError.code,
        BitVec.ofNat 8 s.log.records.length, BitVec.ofNat 8 (64 - s.log.records.length)] ∧
      (p.drop 20).take 4 = [0, 1, 2, 3].map (fun r => toByte (s.runner r).state.code) ∧
      p.drop 24 = [toByte s.store.state.code, toByte s.store.lastSave.code, if s.link.running then 1 else 0,
        toByte s.link.result.code, toByte s.link.result.badCode, toByte s.link.result.firstCode] := by
  rw [partReport_payload] at hp
  simp only [toByte_natCast, toByte_boolCode, BitVec.ofNat_toNat, BitVec.setWidth_eq] at hp
  subst hp
  refine ⟨rfl, rfl, rfl, toByte_rank _, ?_, rfl, num32_chars32 _, rfl, rfl, rfl, rfl, rfl⟩
  show toByte s.cyc.upState.code = 1
  rw [hl]
  rfl

/-- Every position of a SECTION REPORT. -/
theorem sectionReport_positions (a : Byte) (g : Image) (p : List Byte) (hp : p = (sectionReport a g).payload) :
    p.length = 14 ∧ charAt p 0 = toByte g.runState.code ∧ charAt p 1 = toByte g.source.code ∧
    charAt p 2 = toByte g.flags.code ∧ charAt p 3 = toByte g.cause.code ∧ charAt p 4 = slotByte g.causeSlot ∧
    num24 p 5 = BitVec.ofInt 24 g.applied ∧ num24 p 8 = BitVec.ofInt 24 g.leadSpeed ∧
    num16 p 11 = BitVec.ofInt 16 g.load ∧ charAt p 13 = slotByte g.runner := by
  subst hp
  exact ⟨rfl, rfl, rfl, rfl, rfl, rfl, num24_chars24 _, num24_chars24 _, num16_chars16 _, rfl⟩

/-! ## The burst -/

/-- The reports a POLL CALL sends are those of the state it found, but for the upstream state. -/
theorem replyBurst_heard (s : State) : (s.heard .up).pollAccess.pollLink.replyBurst =
    s.presentSecs.map (fun i => sectionReport (s.sec i).cfg.upAddr (s.image i)) ++
      (s.heard .up).pollAccess.pollLink.partReport ::
        (s.cyc.pendingReply.map fun r => manageReply s.part.mgmtAddr r).toList := by
  unfold State.replyBurst
  rw [List.append_assoc]
  rfl

/-- Settles O17: the burst queued by the POLL CALL, and both reports by their payloads. -/
theorem replyBurstFrames : Obligations.ReplyBurstFrames := by
  unfold Obligations.ReplyBurstFrames
  refine ⟨fun s h hw ht => ?_, fun a g p hp => ?_⟩
  · obtain ⟨t, hexec, -, -, -, -, -, hup, -, -⟩ := pollCall_heard h hw
    rw [answerPoll_up, if_pos (by exact ht)] at hup
    refine ⟨t, _, _, hexec, (congrArg Port.tx hup).trans (replyBurst_heard s), ?_, rfl, fun i g hg => ?_, rfl, rfl,
      partReport_positions (s.heard .up).pollAccess.pollLink _ rfl rfl⟩
    · rw [List.map_map]
      rfl
    · unfold State.image
      rw [hg]
      rfl
  · obtain ⟨hlen, h0, h1, h2, h3, h4, h5, h8, h11, h13⟩ := sectionReport_positions a g p hp
    refine ⟨rfl, rfl, hlen, h0, h1, by rw [h2, sectionFlags_char], h3, h4.trans ?_, h5, h8, h11, h13.trans ?_⟩
    · cases g.causeSlot <;> rfl
    · cases g.runner <;> rfl

end Sys2Proof.Machine
end

section
/-! PROOF. The upstream loss event: what it leaves of sections, tests and the pending reply, and that the start it requests
finds no section to stop (R26 to R30, R52, R134, R156, R168, R175). -/

namespace Sys2Proof.Machine

open Sys2Proof

/-! ## TEST ENDED after the aborts of one event (R131, R134) -/

theorem foldlAbort_testEnded (l : List (Fin 4)) (c : AbortCause) {s : State}
    (h : s.part.notices.testEnded = true ∨ ∃ r ∈ l, (s.runner r).state ≠ .idle) :
    (l.foldl (fun t r => t.abortRunner r c) s).part.notices.testEnded = true := by
  induction l generalizing s with
  | nil =>
    rcases h with h | ⟨r, hr, -⟩
    · exact h
    · cases hr
  | cons a l ih =>
    refine ih ?_
    rw [abortRunner_notices]
    show (s.part.notices.testEnded || (s.runner a).state != .idle) = true ∨ _
    by_cases ha : (s.runner a).state = .idle
    · rcases h with h | ⟨r, hr, hbusy⟩
      · exact .inl (by rw [h]; rfl)
      · rcases List.mem_cons.mp hr with rfl | hr
        · exact absurd ha hbusy
        · refine .inr ⟨r, hr, ?_⟩
          rw [abortRunner_runner, if_neg fun e => e.2 ha]
          exact hbusy
    · exact .inl (by simp [ha])

theorem abortAll_testEnded {s : State} {l : List (Fin 4)} (c : AbortCause) (h : ∃ r ∈ l, (s.runner r).state ≠ .idle) :
    (s.abortAll l c).part.notices.testEnded = true := by
  unfold State.abortAll
  split
  · exact foldlAbort_testEnded l c (.inr h)
  · obtain ⟨r, hr, hbusy⟩ := h
    exact foldlAbort_testEnded _ c (.inr ⟨r, mem_pickOrder _ _ _ _ hr, hbusy⟩)

/-- With nobody to abort nothing changes. -/
theorem abortAll_nil (s : State) (c : AbortCause) : s.abortAll [] c = s := rfl

/-! ## Sections and tests at the loss event (R52, R134) -/

theorem lossOnSections_sec (s : State) (i : Fin 16) :
    s.lossOnSections.sec i = if (s.sec i).present then (s.sec i).upstreamLoss else s.sec i := by
  unfold State.lossOnSections
  dsimp only
  rw [(abortAll_testsOnly _ _ _).sec, sec_mapPresent, sec_modCyc]

theorem lossOnSections_runner (s : State) (r : Fin 4) : s.lossOnSections.runner r =
    if (s.runner r).state ≠ .idle then (s.runner r).abortedBy .upstreamLoss else s.runner r := by
  unfold State.lossOnSections
  dsimp only
  rw [abortAll_runner]
  simp only [mem_busyRunners, mapPresent_runner, runner_modCyc, and_self]

theorem lossOnSections_testEnded {s : State} (h : ∃ r, (s.runner r).state ≠ .idle) :
    s.lossOnSections.part.notices.testEnded = true := by
  obtain ⟨r, hr⟩ := h
  have hbusy : (((s.modCyc fun c => { c with upState := .lost, lossTimer := none }).mapPresent
      Section.upstreamLoss).runner r).state ≠ .idle := by rw [mapPresent_runner]; exact hr
  unfold State.lossOnSections
  exact abortAll_testEnded _ ⟨r, (mem_busyRunners _ r).mpr hbusy, hbusy⟩

/-! ## The pending reply, and what waits on it (R28, R168, R175, log 11) -/

/-- A pending reply on which a move waits. -/
def carriesMove (o : Option Reply) : Bool :=
  match o with
  | none => false
  | some r =>
    match r.tie with
    | .move _ => true
    | _ => false

/-- A pending reply on which a restart waits. -/
def carriesRestart (o : Option Reply) : Bool :=
  match o with
  | none => false
  | some r => r.tie == .restart

theorem carriesMove_iff (o : Option Reply) : carriesMove o = true ↔ ∃ r a, o = some r ∧ r.tie = .move a := by
  unfold carriesMove
  cases o with
  | none => simp
  | some r => cases h : r.tie <;> simp [h]

theorem carriesRestart_iff (o : Option Reply) : carriesRestart o = true ↔ ∃ r, o = some r ∧ r.tie = .restart := by
  unfold carriesRestart
  cases o <;> simp

/-- What a discarded reply takes with it: a pending move, a pending restart, or nothing. -/
theorem discardReply_eq (s : State) : s.discardReply = { s with
    cyc := { s.cyc with pendingReply := none }
    mgmt := { s.mgmt with pendingMove := if carriesMove s.cyc.pendingReply then none else s.mgmt.pendingMove }
    store := { s.store with
      pendingRestart := if carriesRestart s.cyc.pendingReply then false else s.store.pendingRestart } } := by
  unfold State.discardReply
  cases hp : s.cyc.pendingReply with
  | none => rfl
  | some r => cases ht : r.tie <;> simp [carriesMove, carriesRestart, State.modCyc, State.modMgmt, State.setStore, ht]

/-- The state the loss event leaves before its start request, field by field. -/
theorem afterLoss_eq (s : State) : s.afterLoss = { s with
    cyc := { s.cyc with upState := .lost, lossTimer := none, localTimer := some 0, pendingReply := none }
    mgmt := { s.mgmt with
      access := .monitor, pendingAccess := none
      pendingMove := if carriesMove s.cyc.pendingReply then none else s.mgmt.pendingMove }
    store := { s.store with
      pendingRestart := if carriesRestart s.cyc.pendingReply then false else s.store.pendingRestart }
    sections := s.lossOnSections.sections, runners := s.lossOnSections.runners, log := s.lossOnSections.log
    freeUses := s.lossOnSections.freeUses
    part := { s.part with notices := { s.part.notices with
      upstreamLoss := true, testEnded := s.lossOnSections.part.notices.testEnded } } } := by
  have hpart : s.lossOnSections.part = { s.part with notices := { s.part.notices with
      testEnded := s.lossOnSections.part.notices.testEnded } } := by
    unfold State.lossOnSections
    dsimp only
    conv_lhs => rw [abortAll_notices]
    rw [show ((s.modCyc fun c => { c with upState := .lost, lossTimer := none }).mapPresent
      Section.upstreamLoss).part = s.part by rw [mapPresent_form]; rfl]
  have hframe := (lossOnSections_secsOnly s).frame hpart
  unfold State.afterLoss
  generalize s.lossOnSections = u at hframe ⊢
  rw [discardReply_eq]
  conv_lhs => rw [hframe]
  rfl

/-! ## The start after a loss: no section is RUNNING, and no order is lost (R53) -/

/-- What the loss event leaves of an entry: no start after it changes cause or stop-seen, since it is not RUNNING, and
STOPPING for no REQUEST. -/
def Section.Unasked (x : Section) : Prop := x.runState ≠ .running ∧ (x.runState = .stopping → x.cause ≠ .request)

/-- Cause, its slot and stop-seen of two entries. -/
def SameCause (x y : Section) : Prop := y.cause = x.cause ∧ y.causeSlot = x.causeSlot ∧ y.stopSeen = x.stopSeen

theorem SameCause.trans {x y z : Section} (h : SameCause x y) (k : SameCause y z) : SameCause x z :=
  ⟨k.1.trans h.1, k.2.1.trans h.2.1, k.2.2.trans h.2.2⟩

theorem upstreamLoss_unasked (x : Section) : x.upstreamLoss.Unasked := by
  unfold Section.upstreamLoss
  cases h : x.runState
  case stopping =>
    dsimp only
    split
    · next hc => exact ⟨by simp, fun _ => by rcases hc with hc | hc <;> simp [hc]⟩
    · exact ⟨by simp, fun _ => nofun⟩
  all_goals simp [Section.Unasked, Section.stopWith]

/-! ## Order age (R53) -/

/-- The order age one start on. -/
def Section.older (x : Section) : Section := { x with orderAge := min 255 (x.orderAge + 1) }

theorem ageOrder_eq (x : Section) : x.ageOrder =
    if x.cfg.orderHold ≤ min 255 (x.orderAge + 1) then
      match x.runState with
      | .running => x.older.stopWith .orderLost
      | .stopping => if x.cause = .request then { x.older with cause := .orderLost, stopSeen := false } else x.older
      | .stopped => x.older
      | .tripped => x.older
    else x.older := by
  have hage : (if x.orderAge < 255 then x.orderAge + 1 else 255) = min 255 (x.orderAge + 1) := by split <;> omega
  unfold Section.ageOrder
  rw [hage]
  rfl

/-- An order age below the hold limit changes nothing else. -/
theorem ageOrder_held {x : Section} (h : min 255 (x.orderAge + 1) < x.cfg.orderHold) : x.ageOrder = x.older := by
  rw [ageOrder_eq, if_neg (Nat.not_le.mpr h)]

theorem ageOrder_running {x : Section} (h : x.cfg.orderHold ≤ min 255 (x.orderAge + 1)) (hr : x.runState = .running) :
    x.ageOrder = x.older.stopWith .orderLost := by
  rw [ageOrder_eq, if_pos h, hr]

theorem ageOrder_requested {x : Section} (h : x.cfg.orderHold ≤ min 255 (x.orderAge + 1)) (hr : x.runState = .stopping)
    (hc : x.cause = .request) : x.ageOrder = { x.older with cause := .orderLost, stopSeen := false } := by
  rw [ageOrder_eq, if_pos h, hr]
  exact if_pos hc

/-- A section that no order moves is not stopped by the age of its orders. -/
theorem ageOrder_unasked {x : Section} (h : x.Unasked) : x.ageOrder = x.older := by
  rw [ageOrder_eq]
  split
  · split
    · next hr => exact absurd hr h.1
    · next hr => exact if_neg (h.2 hr)
    · rfl
    · rfl
  · rfl

theorem beginCycle_sameCause {x : Section} (h : x.Unasked) : SameCause x x.beginCycle := by
  have hrel : x.clearResults.releaseFallsDue.runState = x.runState ∧ SameCause x x.clearResults.releaseFallsDue := by
    unfold Section.releaseFallsDue
    split <;> exact ⟨rfl, rfl, rfl, rfl⟩
  obtain ⟨hrun, hsame⟩ := hrel
  unfold Section.beginCycle
  rw [ageOrder_unasked ⟨by rw [hrun]; exact h.1, by rw [hrun, hsame.1]; exact h.2⟩]
  exact hsame

theorem compute_sameCause (x : Section) (l b o : Int) : SameCause x (x.compute l b o) := by
  have hratio : SameCause x (x.ratioStage l b) := by
    unfold Section.ratioStage Section.followRatio
    split
    · exact ⟨rfl, rfl, rfl⟩
    · split <;> exact ⟨rfl, rfl, rfl⟩
  have htarget : ∀ y : Section, SameCause y (y.targetStage l) := fun y => by
    unfold Section.targetStage
    split <;> exact ⟨rfl, rfl, rfl⟩
  have hramp : ∀ y : Section, SameCause y (y.rampStage o) := fun y => by
    unfold Section.rampStage
    split <;> exact ⟨rfl, rfl, rfl⟩
  have hsettle : ∀ y : Section, SameCause y y.settleStop := fun y => by
    unfold Section.settleStop
    split <;> exact ⟨rfl, rfl, rfl⟩
  exact ((hratio.trans (htarget _)).trans (hramp _)).trans (hsettle _)

theorem computeChain_sameCause (s : State) (i : Fin 16) : SameCause (s.sec i) (s.computeChain.sec i) := by
  unfold State.computeChain
  generalize s.chain = l
  induction l generalizing s with
  | nil => exact ⟨rfl, rfl, rfl⟩
  | cons a l ih =>
    refine SameCause.trans ?_ (ih (s.computeSec a))
    rw [State.computeSec, sec_modSec]
    split
    · next e => subst e; exact compute_sameCause _ _ _ _
    · exact ⟨rfl, rfl, rfl⟩

/-- Where every runner is IDLE no test aborts at a start. -/
theorem announceStart_idle {s : State} (h : ∀ r, (s.runner r).state = .idle) :
    s.announceStart = s.mapPresent Section.beginCycle := by
  unfold State.announceStart
  dsimp only
  have hnone : ∀ l, (s.mapPresent Section.beginCycle).claimants l = [] := fun l =>
    List.eq_nil_iff_forall_not_mem.mpr fun r hr => by
      rw [mem_claimants, mapPresent_runner] at hr
      exact hr.1 (h r)
  rw [hnone, abortAll_nil]

/-- A start with every runner IDLE leaves tests and log as they are. -/
theorem computedStart_idle {b : State} (h : ∀ r, (b.runner r).state = .idle) : b.computedStart = { b with
    cyc := { b.cyc with
      cycleNumber := b.cyc.cycleNumber + 1, cycleCount := b.cyc.cycleCount + 1, pendingStart := false }
    sections := b.computedStart.sections } := by
  unfold State.computedStart
  rw [announceStart_idle (s := b.advanceNumbers) h]
  conv_lhs => rw [computeChain_form, mapPresent_form]
  rw [mapPresent_form]
  rfl

theorem started_idle {b : State} (h : ∀ r, (b.runner r).state = .idle) : b.started = { b with
    dn := b.started.dn, sections := b.started.sections
    cyc := { b.cyc with
      cycleNumber := b.cyc.cycleNumber + 1, cycleCount := b.cyc.cycleCount + 1, pendingStart := false
      inFlight := b.started.cyc.inFlight } } := by
  have hc := computedStart_idle h
  have htests : b.started.runners = b.computedStart.runners ∧ b.started.log = b.computedStart.log ∧
      b.started.freeUses = b.computedStart.freeUses ∧ b.started.part = b.computedStart.part := by
    unfold State.started
    generalize b.computedStart = u
    split <;> exact ⟨rfl, rfl, rfl, rfl⟩
  obtain ⟨hrunners, hlog, hfree, hpart⟩ := htests
  conv_lhs => rw [started_frame, hrunners, hlog, hfree, hpart, hc]

theorem started_sameCause {b : State} (h : ∀ r, (b.runner r).state = .idle) (i : Fin 16)
    (hi : (b.sec i).present = true → (b.sec i).Unasked) : SameCause (b.sec i) (b.started.sec i) := by
  have hcomputed : SameCause (b.sec i) (b.computedStart.sec i) := by
    unfold State.computedStart
    rw [announceStart_idle (s := b.advanceNumbers) h]
    refine SameCause.trans ?_ (computeChain_sameCause _ i)
    rw [sec_mapPresent]
    split
    · next hp => exact beginCycle_sameCause (hi hp)
    · exact ⟨rfl, rfl, rfl⟩
  unfold State.started
  generalize b.computedStart = u at hcomputed ⊢
  split
  · exact hcomputed
  · rw [launched_sec]
    split
    · exact hcomputed
    · exact hcomputed

/-! ## The obligation -/

theorem exec_lossTimerExpiry {s : State} (hs : s.phase = .inService) (hu : s.cyc.upState = .linked)
    (ht : s.cyc.lossTimer ≠ none) : exec .lossTimerExpiry s = .next s.afterLoss.requestStart.settle := by
  show Host.Outcome.next (s.serving fun t => if t.lossTimerRuns then t.takeLoss.settle else t) = _
  have hruns : s.lossTimerRuns = true := by
    unfold State.lossTimerRuns
    rw [hu, Option.isSome_iff_ne_none.mpr ht]
    rfl
  rw [serving_inService hs, if_pos hruns]
  rfl

theorem exec_lossTimerExpiry_stopped {s : State} (hs : s.phase = .inService)
    (h : s.cyc.upState ≠ .linked ∨ s.cyc.lossTimer = none) : exec .lossTimerExpiry s = .next s := by
  show Host.Outcome.next (s.serving fun t => if t.lossTimerRuns then t.takeLoss.settle else t) = _
  have hruns : s.lossTimerRuns = false := by
    unfold State.lossTimerRuns
    rcases h with h | h <;> simp [h]
  rw [serving_inService hs, hruns]
  rfl

/-- R52's table. -/
theorem upstreamLoss_table (x : Section) :
    (x.runState = .running → x.upstreamLoss = x.stopWith .upstreamLoss) ∧
    (x.runState = .stopping → x.cause ≠ .quickStop → x.upstreamLoss = { x with cause := .upstreamLoss, stopSeen := false }) ∧
    (x.runState = .stopping → x.cause = .quickStop → x.upstreamLoss = { x with stopSeen := false }) ∧
    (x.runState = .stopped ∨ x.runState = .tripped → x.upstreamLoss = { x with stopSeen := false }) := by
  unfold Section.upstreamLoss
  refine ⟨fun h => by rw [h], fun h hc => ?_, fun h hc => by rw [h]; exact if_pos (.inl hc), fun h => ?_⟩
  · by_cases hu : x.cause = .upstreamLoss
    · rw [h]
      dsimp only
      rw [if_pos (.inr hu), ← hu]
    · simp [h, hc, hu]
  · rcases h with h | h <;> rw [h]

theorem afterLoss_idle (s : State) (r : Fin 4) : (s.afterLoss.runner r).state = .idle := by
  rw [runner_congr (afterLoss_says s).2.2.2.2.2.2, lossOnSections_runner]
  split
  · rfl
  · next h => exact not_not.mp h

/-- Settles O18. -/
theorem upstreamLoss : Obligations.UpstreamLoss := by
  unfold Obligations.UpstreamLoss
  intro s hs hq hw
  refine ⟨exec_lossTimerExpiry_stopped hs, fun hu ht => ?_⟩
  have hsec : ∀ i, s.afterLoss.sec i = if (s.sec i).present then (s.sec i).upstreamLoss else s.sec i := fun i => by
    rw [← lossOnSections_sec]
    exact sec_congr (afterLoss_says s).2.2.2.2.2.1 i
  have hrunner : ∀ r, s.afterLoss.runner r =
      if (s.runner r).state ≠ .idle then (s.runner r).abortedBy .upstreamLoss else s.runner r := fun r => by
    rw [← lossOnSections_runner]
    exact runner_congr (afterLoss_says s).2.2.2.2.2.2 r
  have hmove : s.afterLoss.mgmt.pendingMove = if carriesMove s.cyc.pendingReply then none else s.mgmt.pendingMove := by
    rw [afterLoss_eq]
  have hrestart : s.afterLoss.store.pendingRestart =
      if carriesRestart s.cyc.pendingReply then false else s.store.pendingRestart := by
    rw [afterLoss_eq]
  obtain ⟨hup, hdn⟩ := afterLoss_ports s
  have hquiet : s.afterLoss.Quiet := ⟨by rw [hup]; exact hq.1, by rw [hdn]; exact hq.2⟩
  have hwait : s.afterLoss.dn.asm = .wait := by rw [hdn]; exact hw
  refine ⟨s.afterLoss, _, exec_lossTimerExpiry hs hu ht, ?_, fun r a hr ha => ?_, fun hno => ?_, fun r hr ha => ?_,
    fun hno => ?_, fun r hr => ?_, fun r hr => ?_, fun hbusy => ?_, fun i => ?_, fun hd => ?_, fun hc hl => ?_⟩
  · conv_lhs => rw [afterLoss_eq]
    rw [afterLoss_eq]
  · rw [hmove, if_pos ((carriesMove_iff _).mpr ⟨r, a, hr, ha⟩)]
  · rw [hmove, if_neg]
    rw [carriesMove_iff]
    rintro ⟨r, a, hr, ha⟩
    exact hno r a hr ha
  · rw [hrestart, if_pos ((carriesRestart_iff _).mpr ⟨r, hr, ha⟩)]
  · rw [hrestart, if_neg]
    rw [carriesRestart_iff]
    rintro ⟨r, hr, ha⟩
    exact hno r hr ha
  · rw [hrunner, if_pos hr]
  · rw [hrunner, if_neg (not_not_intro hr)]
  · have hended := lossOnSections_testEnded hbusy
    rw [afterLoss_eq]
    exact hended
  · obtain ⟨hrunning, hmoving, hquick, hrest⟩ := upstreamLoss_table (s.sec i)
    rw [hsec]
    exact ⟨fun hp => by rw [hp]; rfl, fun hp hr => by rw [if_pos hp]; exact hrunning hr,
      fun hp hr hcause => by rw [if_pos hp]; exact hmoving hr hcause,
      fun hp hr hcause => by rw [if_pos hp]; exact hquick hr hcause, fun hp hr => by rw [if_pos hp]; exact hrest hr⟩
  · refine requestStart_deferred hquiet hwait ?_
    rw [afterLoss_eq]
    exact hd
  · have hstart := State.StartsFrom.loss ⟨⟨hq, hw⟩, hc, hl⟩ hs hu ht
    have hcyc : s.afterLoss.cyc.cycleNumber = s.cyc.cycleNumber ∧ s.afterLoss.cyc.cycleCount = s.cyc.cycleCount := by
      rw [afterLoss_eq]
      exact ⟨rfl, rfl⟩
    rw [requestStart_free (startsFrom_free hstart).1]
    refine ⟨hstart, ?_, fun i => started_sameCause (afterLoss_idle s) i fun hp => ?_⟩
    · rw [← hcyc.1, ← hcyc.2]
      have hstarted := started_idle (afterLoss_idle s)
      generalize s.afterLoss = b at hstarted ⊢
      have hfree : b.started.freeUses = b.freeUses := (congrArg State.freeUses hstarted :)
      rw [hfree]
      exact hstarted
    · rw [hsec] at hp ⊢
      split
      · exact upstreamLoss_unasked _
      · next habsent => rw [if_neg habsent] at hp; exact absurd hp habsent

end Sys2Proof.Machine
end

section
/-! PROOF. When a condition holds: the extremes its quantities read, and the statement O33. -/

namespace Sys2Proof.Machine

open Sys2Proof

/-! ## Extremes of a list -/

theorem foldl_max_bound (l : List Int) (v : Int) :
    v ≤ l.foldl max v ∧ (∀ w ∈ l, w ≤ l.foldl max v) ∧ (l.foldl max v = v ∨ l.foldl max v ∈ l) := by
  induction l generalizing v with
  | nil => exact ⟨Int.le_refl v, by simp, .inl rfl⟩
  | cons w ws ih =>
    obtain ⟨hv, hws, hin⟩ := ih (max v w)
    refine ⟨by rw [List.foldl_cons]; omega, ?_, ?_⟩
    · rintro y (_ | ⟨_, hy⟩)
      · rw [List.foldl_cons]
        omega
      · exact hws y hy
    · rw [List.foldl_cons]
      rcases hin with h | h
      · rcases max_choice v w with hm | hm
        · exact .inl (h.trans hm)
        · exact .inr (by rw [h, hm]; exact List.mem_cons_self)
      · exact .inr (List.mem_cons_of_mem _ h)

theorem foldl_min_bound (l : List Int) (v : Int) :
    l.foldl min v ≤ v ∧ (∀ w ∈ l, l.foldl min v ≤ w) ∧ (l.foldl min v = v ∨ l.foldl min v ∈ l) := by
  induction l generalizing v with
  | nil => exact ⟨Int.le_refl v, by simp, .inl rfl⟩
  | cons w ws ih =>
    obtain ⟨hv, hws, hin⟩ := ih (min v w)
    refine ⟨by rw [List.foldl_cons]; omega, ?_, ?_⟩
    · rintro y (_ | ⟨_, hy⟩)
      · rw [List.foldl_cons]
        omega
      · exact hws y hy
    · rw [List.foldl_cons]
      rcases hin with h | h
      · rcases min_choice v w with hm | hm
        · exact .inl (h.trans hm)
        · exact .inr (by rw [h, hm]; exact List.mem_cons_self)
      · exact .inr (List.mem_cons_of_mem _ h)

theorem greatest_nonneg (l : List Int) : 0 ≤ greatest l := (foldl_max_bound l 0).1

theorem magnitude_eq_max (v : Int) : magnitude v = max v (-v) := by
  unfold magnitude
  split <;> omega

/-- The greatest magnitude of a list that is not empty is one of them, and none of them exceeds it. -/
theorem greatest_of_ne_nil {α : Type} (l : List α) (f : α → Int) (hl : l ≠ []) :
    ∃ m ∈ l, (∀ j ∈ l, max (f j) (-f j) ≤ max (f m) (-f m)) ∧
      greatest (l.map fun j => magnitude (f j)) = max (f m) (-f m) := by
  obtain ⟨_, hbound, hin⟩ := foldl_max_bound (l.map fun j => magnitude (f j)) 0
  have hle : ∀ j ∈ l, max (f j) (-f j) ≤ greatest (l.map fun j => magnitude (f j)) := fun j hj => by
    rw [← magnitude_eq_max]
    exact hbound _ (List.mem_map.mpr ⟨j, hj, rfl⟩)
  rcases hin with h | h
  · obtain ⟨m, hm⟩ := List.exists_mem_of_ne_nil l hl
    change greatest _ = 0 at h
    have := hle m hm
    refine ⟨m, hm, fun j hj => ?_, ?_⟩
    · have := hle j hj
      omega
    · omega
  · obtain ⟨m, hm, he⟩ := List.mem_map.mp h
    have hg : greatest (l.map fun j => magnitude (f j)) = max (f m) (-f m) := by
      rw [← magnitude_eq_max]
      exact he.symm
    exact ⟨m, hm, fun j hj => hg ▸ hle j hj, hg⟩

/-- The spread of a list that is not empty is the difference of two of its values, between which all others lie. -/
theorem spreadOf_of_ne_nil {α : Type} (l : List α) (f : α → Int) (hl : l ≠ []) :
    ∃ hi ∈ l, ∃ lo ∈ l, (∀ j ∈ l, f lo ≤ f j ∧ f j ≤ f hi) ∧ spreadOf (l.map f) = f hi - f lo := by
  obtain ⟨a, as, rfl⟩ := List.exists_cons_of_ne_nil hl
  obtain ⟨hmax, hmaxs, hmaxin⟩ := foldl_max_bound (as.map f) (f a)
  obtain ⟨hmin, hmins, hminin⟩ := foldl_min_bound (as.map f) (f a)
  have hhi : ∃ hi ∈ a :: as, (as.map f).foldl max (f a) = f hi := by
    rcases hmaxin with h | h
    · exact ⟨a, List.mem_cons_self, h⟩
    · obtain ⟨m, hm, he⟩ := List.mem_map.mp h
      exact ⟨m, List.mem_cons_of_mem _ hm, he.symm⟩
  have hlo : ∃ lo ∈ a :: as, (as.map f).foldl min (f a) = f lo := by
    rcases hminin with h | h
    · exact ⟨a, List.mem_cons_self, h⟩
    · obtain ⟨m, hm, he⟩ := List.mem_map.mp h
      exact ⟨m, List.mem_cons_of_mem _ hm, he.symm⟩
  obtain ⟨hi, hhim, hhie⟩ := hhi
  obtain ⟨lo, hlom, hloe⟩ := hlo
  refine ⟨hi, hhim, lo, hlom, ?_, ?_⟩
  · rintro j (_ | ⟨_, hj⟩)
    · exact ⟨hloe ▸ hmin, hhie ▸ hmax⟩
    · exact ⟨hloe ▸ hmins _ (List.mem_map.mpr ⟨j, hj, rfl⟩), hhie ▸ hmaxs _ (List.mem_map.mpr ⟨j, hj, rfl⟩)⟩
  · rw [← hhie, ← hloe]
    rfl

/-- The spread of a list is not below 0. -/
theorem spreadOf_nonneg (l : List Int) : 0 ≤ spreadOf l := by
  cases l with
  | nil => exact Int.le_refl 0
  | cons v vs =>
    have hmax := (foldl_max_bound vs v).1
    have hmin := (foldl_min_bound vs v).1
    change 0 ≤ vs.foldl max v - vs.foldl min v
    omega

/-! ## The judgement -/

/-- The quantities that are magnitudes do not read below 0. -/
theorem reading_magnitude (q : Quantity) (x : Section) (hq : q = .shareError ∨ q = .trim ∨ q = .spread) :
    ∃ v, q.reading x = .inl v ∧ 0 ≤ v := by
  rcases hq with rfl | rfl | rfl
  · exact ⟨_, rfl, greatest_nonneg _⟩
  · exact ⟨_, rfl, greatest_nonneg _⟩
  · exact ⟨_, rfl, spreadOf_nonneg _⟩

/-- The members a judgement takes, as one filter of the slots. -/
theorem sharers_eq (x : Section) :
    x.sharers = [0, 1, 2, 3].filter fun j => decide (j.val < x.cfg.memberCount ∧ (x.member j).state ≠ .lost) := by
  unfold Section.sharers Section.slots allSlots
  rw [List.filter_filter]
  exact List.filter_congr fun j _ => by cases (x.member j).state <;> simp

theorem followers_eq (x : Section) : x.followers = x.sharers.filter fun j => decide (j ≠ 0) :=
  List.filter_congr fun j _ => by by_cases h : j = 0 <;> simp [h]

theorem magnitude_le (v b : Int) : magnitude v ≤ b ↔ v ≤ b ∧ -v ≤ b := by
  rw [magnitude_eq_max]
  omega

/-- A condition on a value, by its relation. -/
theorem holds_value {k : Condition} {x : Section} {v : Int} (h : k.quantity.reading x = .inl v) :
    (k.relation = .below → (k.holds x = true ↔ v < k.limit)) ∧
    (k.relation = .above → (k.holds x = true ↔ k.limit < v)) ∧
    (k.relation = .within → (k.holds x = true ↔ v - k.limit ≤ k.band ∧ k.limit - v ≤ k.band)) ∧
    (k.relation = .outside → (k.holds x = true ↔ k.band < v - k.limit ∨ k.band < k.limit - v)) := by
  unfold Condition.holds
  rw [h]
  refine ⟨fun hr => ?_, fun hr => ?_, fun hr => ?_, fun hr => ?_⟩
  · simp [hr]
  · simp [hr]
  · simp only [hr, decide_eq_true_eq, magnitude_le]
    omega
  · simp only [hr, decide_eq_true_eq, magnitude_eq_max]
    omega

/-- A condition on a flag, by its relation. -/
theorem holds_flag {k : Condition} {x : Section} {b : Bool} (h : k.quantity.reading x = .inr b) :
    (k.relation = .set → (k.holds x = true ↔ b = true)) ∧
    (k.relation = .clear → (k.holds x = true ↔ b = false)) := by
  unfold Condition.holds
  rw [h]
  exact ⟨fun hr => by simp [hr], fun hr => by simp [hr]⟩

/-- Settles O33, from the judgement by relation and the extremes of the lists its quantities read. -/
theorem conditionHolds : Obligations.ConditionHolds := by
  rintro k x taken followers size htaken hfollowers rfl
  rw [← sharers_eq] at htaken
  subst htaken
  rw [← followers_eq] at hfollowers
  subst hfollowers
  have hreads {q : Quantity} (h : k.quantity = q) : k.quantity.reading x = q.reading x := by rw [h]
  refine ⟨fun v hv => ?_, fun b => holds_flag, fun hq hr hl => ?_, fun hq hne => ?_, fun hq => ⟨fun he => ?_, fun hne => ?_⟩,
    fun hq => ⟨fun he => ?_, fun hne => ?_⟩, fun hq => hreads hq, fun hq => hreads hq, fun hq => hreads hq,
    fun hq => hreads hq, fun hq => hreads hq, fun hq => hreads hq, fun hq => hreads hq⟩
  · obtain ⟨hbelow, habove, hwithin, houtside⟩ := holds_value hv
    refine ⟨hbelow, habove, hwithin, houtside, fun hr hb => ?_⟩
    rw [hwithin hr, hb]
    omega
  · obtain ⟨v, hv, hpos⟩ := reading_magnitude k.quantity x hq
    rw [Bool.eq_false_iff, Ne, (holds_value hv).1 hr]
    omega
  · obtain ⟨hi, hhi, lo, hlo, hall, he⟩ := spreadOf_of_ne_nil x.sharers (fun j => (x.member j).speed) hne
    exact ⟨hi, hhi, lo, hlo, hall, (hreads hq).trans (congrArg Sum.inl he)⟩
  · rw [hreads hq, Quantity.reading, he]
    rfl
  · obtain ⟨m, hm, hall, he⟩ := greatest_of_ne_nil x.followers (fun j => (x.member j).shareError) hne
    exact ⟨m, hm, hall, (hreads hq).trans (congrArg Sum.inl he)⟩
  · rw [hreads hq, Quantity.reading, he]
    rfl
  · obtain ⟨m, hm, hall, he⟩ := greatest_of_ne_nil x.followers (fun j => (x.member j).trim) hne
    exact ⟨m, hm, hall, (hreads hq).trans (congrArg Sum.inl he)⟩

end Sys2Proof.Machine
end

section
/-! PROOF. The resets: the configuration word of the straps, the store a reset leaves, and the statement O54. -/

namespace Sys2Proof.Machine

open Sys2Proof

/-- The bits of the configuration word as the levels of the pins write them. -/
def strapSum (p : Straps) : Nat :=
  (if p.ma0 = .low then 0 else 1) + (if p.ma1 = .low then 0 else 2) + (if p.cp0 = .low then 0 else 4) +
    (if p.cp1 = .high then 8 else 0) + (if p.lvl = .low then 0 else 16) + (if p.rst = .low then 0 else 32)

theorem strapUp_eq (l : PinLevel) : strapUp l = if l = .low then 0 else 1 := by cases l <;> rfl

theorem strapDown_eq (l : PinLevel) : strapDown l = if l = .high then 1 else 0 := by cases l <;> rfl

theorem configWord_toNat (p : Straps) : (configWord p).toNat = strapSum p := by
  unfold configWord strapSum
  simp only [strapUp_eq, strapDown_eq, BitVec.toNat_ofNat]
  split_ifs <;> rfl

/-- No copy is good exactly when every copy there is fails its check. -/
theorem good_eq_false (x : Option StoreCopy) : StoreCopy.good x = false ↔ ∀ c, x = some c → c.crcMatches = false := by
  cases x with
  | none => exact ⟨fun _ _ h => (nomatch h), fun _ => rfl⟩
  | some c => exact ⟨fun h d hc => Option.some.inj hc ▸ h, fun h => h c rfl⟩

/-- The store is invalid after a reset that cuts a save short or finds no good copy. -/
theorem good_afterReset (x : Store) :
    StoreCopy.good (if x.state = .saving then none else x.copy) = false ↔
      x.state = .saving ∨ ∀ c, x.copy = some c → c.crcMatches = false := by
  by_cases h : x.state = .saving
  · simp [h, StoreCopy.good]
  · rw [if_neg h, good_eq_false]
    simp [h]

/-- What a reset leaves, by what the store held. -/
theorem resetBlocks_eq (s : State) (phase : Phase) (word : Byte) :
    s.resetBlocks phase word = { State.reset with
      pending := s.pending, phase := phase, freeUses := s.freeUses
      part := { config := word, mgmtAddr := 60 + (word &&& 3), lossLimit := 5
                notices := { upstreamLoss := false, overrun := false, lineClamped := false, sectionTrip := false
                             testEnded := false
                             storeInvalid := decide (s.store.state = .saving ∨
                               ∀ c, s.store.copy = some c → c.crcMatches = false) } }
      store := {
        state := if s.store.state = .saving ∨ ∀ c, s.store.copy = some c → c.crcMatches = false then .invalid
          else .valid
        lastSave := .none, snapshot := none, pendingRestart := false
        copy := if s.store.state = .saving then none else s.store.copy } } := by
  have hgood := good_afterReset s.store
  unfold State.resetBlocks Part.afterReset Store.afterReset Notices.reset strappedAddr
  cases h : StoreCopy.good (if s.store.state = .saving then none else s.store.copy) with
  | false =>
    have hbad := hgood.mp h
    rw [if_pos hbad, decide_eq_true hbad]
    dsimp only
    rw [h]
    rfl
  | true =>
    have hbad : ¬(s.store.state = .saving ∨ ∀ c, s.store.copy = some c → c.crcMatches = false) := fun hb => by
      rw [hgood.mpr hb] at h
      cases h
    rw [if_neg hbad, decide_eq_false hbad]
    dsimp only
    rw [h]
    rfl

/-- Settles O54. -/
theorem resetsAndSupply : Obligations.ResetsAndSupply := by
  intro s p config t hconfig ht
  have hword : configWord p = config := BitVec.eq_of_toNat_eq ((configWord_toNat p).trans hconfig.symm)
  have hreset (phase : Phase) (word : Byte) : s.resetBlocks phase word = t s phase word := by
    rw [resetBlocks_eq, ht]
  subst hword
  refine ⟨congrArg _ (hreset _ _), fun hon => ?_, fun hoff => ?_, fun hon => ?_, congrArg _ (hreset _ _)⟩
  · exact congrArg _ ((if_neg hon).trans (hreset _ _))
  · exact ⟨congrArg _ (if_pos hoff), congrArg _ (if_pos hoff)⟩
  · exact congrArg _ ((if_neg hon).trans (hreset _ _))

end Sys2Proof.Machine
end

section
/-! PROOF. How a COMMAND reaches the function that serves it, the refusals by level and by length, and the statements O52
and O53. -/

namespace Sys2Proof.Machine

open Sys2Proof

/-! ## Arguments (R167) -/

theorem toIndex_of_eq {n : Nat} {v : Int} {i : Fin n} (h : v = i.val) : toIndex n v = some i := by
  rw [h]
  exact toIndex_natCast i.isLt

theorem toIndex_out {n : Nat} {v : Int} (h : v < 0 ∨ (n : Int) ≤ v) : toIndex n v = none := by
  unfold toIndex
  split
  · rw [dif_neg (by omega)]
  · rfl

theorem ranged_in {lo hi v : Int} (h : lo ≤ v ∧ v ≤ hi) : ranged lo hi v = some v :=
  if_pos (inRange_iff.mpr h)

theorem ranged_out {lo hi v : Int} (h : v < lo ∨ hi < v) : ranged lo hi v = none :=
  if_neg fun hr => by
    obtain ⟨_, _⟩ := inRange_iff.mp hr
    omega

/-! ## Levels (R159) -/

theorem hasLevel_guard {s : State} {i : Fin 16} (h : s.LevelFor i) : s.hasLevel (s.guardLevel i) = true :=
  decide_eq_true h

theorem hasLevel_guard_not {s : State} {i : Fin 16} (h : ¬s.LevelFor i) : s.hasLevel (s.guardLevel i) = false :=
  decide_eq_false h

theorem hasLevel_engineer {s : State} (h : s.mgmt.access = .engineer) : s.hasLevel .engineer = true := by
  unfold State.hasLevel
  rw [h]
  rfl

theorem hasLevel_engineer_not {s : State} (h : s.mgmt.access ≠ .engineer) : s.hasLevel .engineer = false := by
  unfold State.hasLevel
  cases hl : s.mgmt.access
  · rfl
  · rfl
  · exact absurd hl h

theorem hasLevel_operate {s : State} (h : s.mgmt.access ≠ .monitor) : s.hasLevel .operate = true := by
  unfold State.hasLevel
  cases hl : s.mgmt.access
  · exact absurd hl h
  · rfl
  · rfl

theorem hasLevel_operate_not {s : State} (h : s.mgmt.access = .monitor) : s.hasLevel .operate = false := by
  unfold State.hasLevel
  rw [h]
  rfl

/-! ## A COMMAND and the function that serves it (R152) -/

/-- The frame of command `c` is served by `f` whatever the state is. -/
def AsksFor (c : Instr) (f : State → Served) : Prop :=
  ∃ verb args, c.managePayload = some (0x06 :: verb :: args) ∧ args.length ≤ 122 ∧ ∀ s, command verb args s = f s

theorem asksFor_adjustDraw {args : List Byte} (hl : args.length = 12) : AsksFor (.adjustDraw args) (reqAdjustDraw args) :=
  ⟨_, _, rfl, by omega, fun _ => if_pos hl⟩

theorem asksFor_transferToCascade {args : List Byte} (hl : args.length = 8) :
    AsksFor (.transferToCascade args) (reqTransfer args) := ⟨_, _, rfl, by omega, fun _ => if_pos hl⟩

theorem asksFor_transferToFollow {args : List Byte} (hl : args.length = 8) :
    AsksFor (.transferToFollow args) (reqTransfer args) := ⟨_, _, rfl, by omega, fun _ => if_pos hl⟩

theorem asksFor_releaseTrip {args : List Byte} (hl : args.length = 4) :
    AsksFor (.releaseTrip args) (reqReleaseTrip args) := ⟨_, _, rfl, by omega, fun _ => if_pos hl⟩

theorem asksFor_startTest {args : List Byte} (hl : args.length = 12) : AsksFor (.startTest args) (reqStartTest args) :=
  ⟨_, _, rfl, by omega, fun _ => if_pos hl⟩

theorem asksFor_stopTest {args : List Byte} (hl : args.length = 4) : AsksFor (.stopTest args) (reqStopTest args) :=
  ⟨_, _, rfl, by omega, fun _ => if_pos hl⟩

theorem asksFor_pauseTest {args : List Byte} (hl : args.length = 4) : AsksFor (.pauseTest args) (reqPauseTest args) :=
  ⟨_, _, rfl, by omega, fun _ => if_pos hl⟩

theorem asksFor_resumeTest {args : List Byte} (hl : args.length = 4) : AsksFor (.resumeTest args) (reqResumeTest args) :=
  ⟨_, _, rfl, by omega, fun _ => if_pos hl⟩

theorem asksFor_fetchLog {args : List Byte} (hl : args.length = 4) : AsksFor (.fetchLog args) (reqFetchLog args) :=
  ⟨_, _, rfl, by omega, fun _ => if_pos hl⟩

theorem asksFor_dropLog {args : List Byte} (hl : args.length = 4) : AsksFor (.dropLog args) (reqDropLog args) :=
  ⟨_, _, rfl, by omega, fun _ => if_pos hl⟩

theorem asksFor_linkTest : AsksFor (.linkTest []) reqLinkTest := ⟨_, _, rfl, Nat.zero_le _, fun _ => rfl⟩

theorem asksFor_saveTables : AsksFor (.saveTables []) reqSaveTables := ⟨_, _, rfl, Nat.zero_le _, fun _ => rfl⟩

theorem asksFor_restart : AsksFor (.restart []) reqRestart := ⟨_, _, rfl, Nat.zero_le _, fun _ => rfl⟩

theorem asksFor_moveAddress {args : List Byte} (hl : args.length = 4) :
    AsksFor (.moveAddress args) (reqMoveAddress args) := ⟨_, _, rfl, by omega, fun _ => if_pos hl⟩

theorem asksFor_clearNotices : AsksFor (.clearNotices []) reqClearNotices := ⟨_, _, rfl, Nat.zero_le _, fun _ => rfl⟩

/-- The three commands on a runner are served by functions that begin alike. -/
theorem AsksFor.exec {c : Instr} {f : State → Served} (ha : AsksFor c f) {s : State} (h : s.MgmtReady) {t : State}
    {r : Reply} (hv : f s.asked = served t r) (hq : t.Quiet) : exec c s = .next (t.sendReply r) := by
  obtain ⟨verb, args, hc, hl, hf⟩ := ha
  exact exec_command (v := served t r) hc h hl ((hf _).trans hv) rfl hq

theorem AsksFor.refused {c : Instr} {f : State → Served} (ha : AsksFor c f) {s : State} (h : s.MgmtReady)
    {code : ResultCode} {off : Byte} (hv : f s.asked = refuse s.asked code off) :
    Machine.exec c s = .next (s.asked.sendReply (reply code off [])) := ha.exec h hv (asked_quiet h.quiet)

/-! ## Refusals by level (R159) -/

theorem reqAdjustDraw_level {s : State} {args : List Byte} {i : Fin 16} (hi : arg args 0 = i.val)
    (hl : ¬s.LevelFor i) : reqAdjustDraw args s = refuse s .level 0xFF := by
  unfold reqAdjustDraw
  simp only [toIndex_of_eq hi, hasLevel_guard_not hl, Bool.not_false, if_true]

theorem reqTransfer_level {s : State} {args : List Byte} {i : Fin 16} (hi : arg args 0 = i.val)
    (hl : ¬s.LevelFor i) : reqTransfer args s = refuse s .level 0xFF := by
  unfold reqTransfer
  simp only [toIndex_of_eq hi, hasLevel_guard_not hl, Bool.not_false, if_true]

theorem reqReleaseTrip_level {s : State} {args : List Byte} {i : Fin 16} (hi : arg args 0 = i.val)
    (hl : ¬s.LevelFor i) : reqReleaseTrip args s = refuse s .level 0xFF := by
  unfold reqReleaseTrip
  simp only [toIndex_of_eq hi, hasLevel_guard_not hl, Bool.not_false, if_true]

theorem reqStartTest_level {s : State} {args : List Byte} {r : Fin 4} {i : Fin 16} {k : Fin 96}
    (hr : arg args 0 = r.val) (hi : arg args 1 = i.val) (hk : arg args 2 = k.val) (hl : ¬s.LevelFor i) :
    reqStartTest args s = refuse s .level 0xFF := by
  unfold reqStartTest
  simp only [toIndex_of_eq hr, toIndex_of_eq hi, toIndex_of_eq hk, hasLevel_guard_not hl, Bool.not_false, if_true]

/-- The level in force is below the one a command on runner `r` needs. -/
theorem hasLevel_runner_not {s : State} {r : Fin 4}
    (h : ((s.runner r).state = .idle ∧ s.mgmt.access = .monitor) ∨
      ((s.runner r).state ≠ .idle ∧ ∃ i, (s.runner r).claimed = some i ∧ ¬s.LevelFor i)) :
    s.hasLevel (s.runnerLevel r) = false := by
  unfold State.runnerLevel
  rcases h with ⟨hidle, hmon⟩ | ⟨hbusy, i, hi, hl⟩
  · rw [if_pos hidle]
    exact hasLevel_operate_not hmon
  · rw [if_neg hbusy, hi]
    exact hasLevel_guard_not hl

theorem reqPauseTest_eq {args : List Byte} {r : Fin 4} (hr : arg args 0 = r.val) (s : State) : reqPauseTest args s =
    if !s.hasLevel (s.runnerLevel r) then refuse s .level noIndex
    else if (s.runner r).state ≠ .running then refuse s .state noIndex
    else
      done (s.setRunner r { s.runner r with state := .paused })
        (State.runnerValue (s.setRunner r { s.runner r with state := .paused }) r) := by
  unfold reqPauseTest
  rw [toIndex_of_eq hr]

theorem reqResumeTest_eq {args : List Byte} {r : Fin 4} (hr : arg args 0 = r.val) (s : State) : reqResumeTest args s =
    if !s.hasLevel (s.runnerLevel r) then refuse s .level noIndex
    else if (s.runner r).state ≠ .paused then refuse s .state noIndex
    else
      done (s.setRunner r { s.runner r with state := .running })
        (State.runnerValue (s.setRunner r { s.runner r with state := .running }) r) := by
  unfold reqResumeTest
  rw [toIndex_of_eq hr]

theorem reqStopTest_eq {args : List Byte} {r : Fin 4} (hr : arg args 0 = r.val) (s : State) : reqStopTest args s =
    if !s.hasLevel (s.runnerLevel r) then refuse s .level noIndex
    else if (s.runner r).state = .idle then refuse s .state noIndex
    else done (s.stopRunner r) ((s.stopRunner r).runnerValue r) := by
  unfold reqStopTest
  rw [toIndex_of_eq hr]

/-- A command on a runner: refused below its level, and for an IDLE runner. -/
theorem asksFor_runner {args : List Byte} (hl : args.length = 4) {c : Instr}
    (hc : c = .pauseTest args ∨ c = .resumeTest args ∨ c = .stopTest args) :
    ∃ f, AsksFor c f ∧ ∀ (s : State) (r : Fin 4), arg args 0 = r.val →
      (s.hasLevel (s.runnerLevel r) = false → f s = refuse s .level 0xFF) ∧
      (s.hasLevel (s.runnerLevel r) = true → (s.runner r).state = .idle → f s = refuse s .state 0xFF) := by
  have hbelow {b : Bool} {v w : Served} (h : b = false) : (if !b then v else w) = v := by rw [h]; rfl
  have habove {b : Bool} {v w : Served} (h : b = true) : (if !b then v else w) = w := by rw [h]; rfl
  have hnot {x : RunnerState} (y : RunnerState) (h : x = .idle) (hy : y ≠ .idle) : x ≠ y := h ▸ hy.symm
  rcases hc with rfl | rfl | rfl
  · exact ⟨_, asksFor_pauseTest hl, fun s r hr => ⟨fun hlev => (reqPauseTest_eq hr s).trans (hbelow hlev),
      fun hlev hidle => (reqPauseTest_eq hr s).trans ((habove hlev).trans (if_pos (hnot .running hidle nofun)))⟩⟩
  · exact ⟨_, asksFor_resumeTest hl, fun s r hr => ⟨fun hlev => (reqResumeTest_eq hr s).trans (hbelow hlev),
      fun hlev hidle => (reqResumeTest_eq hr s).trans ((habove hlev).trans (if_pos (hnot .paused hidle nofun)))⟩⟩
  · exact ⟨_, asksFor_stopTest hl, fun s r hr => ⟨fun hlev => (reqStopTest_eq hr s).trans (hbelow hlev),
      fun hlev hidle => (reqStopTest_eq hr s).trans ((habove hlev).trans (if_pos hidle))⟩⟩

/-- A command whose function first asks for a level that is not in force. -/
theorem AsksFor.level {c : Instr} {f : State → Served} (ha : AsksFor c f) {s : State} (h : s.MgmtReady)
    {l : AccessLevel} {g : State → Served}
    (hf : ∀ t : State, f t = if !t.hasLevel l then refuse t .level 0xFF else g t) (hl : s.hasLevel l = false) :
    Machine.exec c s = .next (s.asked.sendReply (reply .level 0xFF [])) :=
  ha.refused h ((hf _).trans (if_pos (by
    change (!s.hasLevel l) = true
    rw [hl]
    rfl)))

/-- Settles O52. -/
theorem levelRefusals : Obligations.LevelRefusals := by
  intro s h
  refine ⟨fun hl => ⟨?_, fun args ha => ?_⟩, fun hl => ⟨?_, fun args ha => ?_⟩, fun args i hl hi => ⟨fun ha => ?_,
    fun ha => ⟨?_, ?_⟩, fun ha => ?_⟩, fun args r i k hl ha hr hi hk => ?_, fun args r ha hr hl c hc => ?_⟩
  · have hlev := hasLevel_engineer_not hl
    rintro c (rfl | rfl | rfl)
    · exact asksFor_linkTest.level h (fun _ => rfl) hlev
    · exact asksFor_saveTables.level h (fun _ => rfl) hlev
    · exact asksFor_restart.level h (fun _ => rfl) hlev
  · exact (asksFor_moveAddress ha).level h (fun _ => rfl) (hasLevel_engineer_not hl)
  · exact asksFor_clearNotices.level h (fun _ => rfl) (hasLevel_operate_not hl)
  · exact (asksFor_dropLog ha).level h (fun _ => rfl) (hasLevel_operate_not hl)
  · exact (asksFor_adjustDraw ha).refused h (reqAdjustDraw_level hi hl)
  · exact (asksFor_transferToCascade ha).refused h (reqTransfer_level hi hl)
  · exact (asksFor_transferToFollow ha).refused h (reqTransfer_level hi hl)
  · exact (asksFor_releaseTrip ha).refused h (reqReleaseTrip_level hi hl)
  · exact (asksFor_startTest ha).refused h (reqStartTest_level hr hi hk hl)
  · obtain ⟨f, hf, hserves⟩ := asksFor_runner ha hc
    exact hf.refused h ((hserves s.asked r hr).1 (hasLevel_runner_not hl))

/-! ## Codes and lengths the part does not know (R152, R179) -/

theorem request_unknown {k : Byte} (hk : k = 0 ∨ 6 < k.toNat) (old : Option PendingAccess) (args : List Byte)
    (s : State) : request old k args s = refuse s .unknown 0xFF := by
  have hne (b : Byte) (h0 : b ≠ 0) (h6 : b.toNat ≤ 6) : k ≠ b := by
    rintro rfl
    rcases hk with rfl | hk
    · exact h0 rfl
    · omega
  unfold request
  rw [if_neg (hne 1 (by decide) (by decide)), if_neg (hne 2 (by decide) (by decide)),
    if_neg (hne 3 (by decide) (by decide)), if_neg (hne 4 (by decide) (by decide)),
    if_neg (hne 5 (by decide) (by decide)), if_neg (hne 6 (by decide) (by decide))]

theorem command_unknown {v : Byte} (hv : v = 0 ∨ 14 < v.toNat) (args : List Byte) (s : State) :
    command v args s = refuse s .unknown 0xFF := by
  have hne (b : Byte) (h0 : b ≠ 0) (h14 : b.toNat ≤ 14) : v ≠ b := by
    rintro rfl
    rcases hv with rfl | hv
    · exact h0 rfl
    · omega
  unfold command
  rw [if_neg (hne 1 (by decide) (by decide)), if_neg (hne 2 (by decide) (by decide)),
    if_neg (hne 3 (by decide) (by decide)), if_neg (hne 4 (by decide) (by decide)),
    if_neg (hne 5 (by decide) (by decide)), if_neg (hne 6 (by decide) (by decide)),
    if_neg (hne 7 (by decide) (by decide)), if_neg (hne 8 (by decide) (by decide)),
    if_neg (hne 9 (by decide) (by decide)), if_neg (hne 10 (by decide) (by decide)),
    if_neg (hne 11 (by decide) (by decide)), if_neg (hne 12 (by decide) (by decide)),
    if_neg (hne 13 (by decide) (by decide)), if_neg (hne 14 (by decide) (by decide))]

/-- A payload of a wrong length, or with a code the part does not know, is refused with this code. -/
def Misformed (code : ResultCode) (pl : List Byte) : Prop :=
  ∃ k args, pl = k :: args ∧ ∀ old s, request old k args s = refuse s code 0xFF

theorem misformed_sized {k : Byte} {args : List Byte} {n : Nat} (hl : args.length ≠ n)
    {f : Option PendingAccess → List Byte → State → Served}
    (h : ∀ old s, request old k args s = sized n args s (f old)) : Misformed .range (k :: args) :=
  ⟨k, args, rfl, fun old s => (h old s).trans (if_neg hl)⟩

theorem misformed_command {verb : Byte} {args : List Byte} {n : Nat} (hl : args.length ≠ n)
    {f : List Byte → State → Served} (h : ∀ s, command verb args s = sized n args s f) :
    Misformed .range (6 :: verb :: args) := ⟨6, verb :: args, rfl, fun _ s => (h s).trans (if_neg hl)⟩

theorem misformed_write {args : List Byte} (hl : args.length % 4 ≠ 0 ∨ args.length < 4 ∨ 112 < args.length) :
    Misformed .range (5 :: args) :=
  ⟨5, args, rfl, fun _ s => by
    have hno : ¬writeSized args = true := by
      simp only [writeSized, Bool.and_eq_true, beq_iff_eq, decide_eq_true_eq]
      omega
    exact if_neg (e := refuse s .range 0xFF) hno⟩

theorem length_ne_zero {α : Type} {l : List α} (h : l ≠ []) : l.length ≠ 0 := fun h0 => h (List.length_eq_zero_iff.mp h0)

/-- What the refusal of a misformed request leaves. -/
theorem exec_misformed {s : State} (h : s.MgmtReady) {c : Instr} {pl : List Byte} (hc : c.managePayload = some pl)
    (hl : pl.length ≤ 124) {code : ResultCode} (hm : Misformed code pl) :
    exec c s = .next (s.asked.sendReply (reply code 0xFF [])) := by
  obtain ⟨k, args, rfl, hr⟩ := hm
  exact exec_request (v := refuse s.asked code 0xFF) hc h (Nat.le_of_succ_le_succ hl) (hr _ _) rfl (asked_quiet h.quiet)

/-! ## Where a reply goes (R154) -/

theorem sendReply_linked {s : State} (h : s.cyc.upState = .linked) (r : Reply) :
    s.sendReply r = { s with cyc := { s.cyc with pendingReply := some r } } := if_pos h

theorem sendReply_full {s : State} (h : s.cyc.upState ≠ .linked) (hl : 18 ≤ s.up.tx.length) (r : Reply) :
    s.sendReply r = s := by
  have hq (f : TxFrame) : s.up.queueFrame f = s.up := if_neg (Nat.not_lt.mpr hl)
  have he : s.up.tx.isEmpty = false := by
    cases ht : s.up.tx with
    | nil => rw [ht] at hl; exact absurd hl (by decide)
    | cons f fs => rfl
  have hs : s.sendReply r = s.setUp { s.up.queueFrame (manageReply s.part.mgmtAddr r) with
      turnaround := if s.up.tx.isEmpty then some (spacingAt 0) else s.up.turnaround } := if_neg h
  rw [hs, hq, he]
  rfl

theorem sendReply_queued {s : State} (h : s.cyc.upState ≠ .linked) (hl : s.up.tx.length < 18) (r : Reply) :
    s.sendReply r = { s with up := { s.up with
      tx := s.up.tx ++ [manageReply s.part.mgmtAddr r]
      turnaround := if s.up.tx = [] then some 0 else s.up.turnaround } } := by
  have hq (f : TxFrame) : s.up.queueFrame f = { s.up with tx := s.up.tx ++ [f] } := if_pos hl
  have hs : s.sendReply r = s.setUp { s.up.queueFrame (manageReply s.part.mgmtAddr r) with
      turnaround := if s.up.tx.isEmpty then some (spacingAt 0) else s.up.turnaround } := if_neg h
  rw [hs, hq]
  cases s.up.tx <;> rfl

/-! ## A frame that meets a pending reply (R155) -/

theorem takeManage_overrun {s : State} (hu : s.cyc.upState = .linked) (hp : s.cyc.pendingReply ≠ none)
    (pl : List Byte) (age : Nat) :
    s.takeManage pl age = { s with part := { s.part with notices := { s.part.notices with overrun := true } } } := by
  have ho : s.overruns = true := by
    unfold State.overruns
    rw [hu]
    exact Option.isSome_iff_ne_none.mpr hp
  exact if_pos ho

theorem handOff_manage {s : State} {pl : List Byte} (hne : pl ≠ []) (hl : pl.length ≤ 124) (n : Stamp) :
    s.handOff .up s.part.mgmtAddr kindManage pl n = s.takeManage pl n.age := by
  have hfits : decide (1 ≤ pl.length ∧ pl.length ≤ 124) = true :=
    decide_eq_true ⟨List.length_pos_iff.mpr hne, hl⟩
  unfold State.handOff State.handOffUp
  rw [if_neg fun e => absurd e.1 (by decide), if_neg fun e => absurd e.1 (by decide), if_pos ⟨rfl, rfl⟩]
  exact if_pos hfits

theorem receiveManage_overrun {s : State} (h : s.UpReady) (hu : s.cyc.upState = .linked)
    (hp : s.cyc.pendingReply ≠ none) {pl : List Byte} (hne : pl ≠ []) (hl : pl.length ≤ 124) :
    s.receiveManage pl = { s.heard .up with
      part := { s.part with notices := { s.part.notices with overrun := true } } } := by
  have hhand : (s.heard .up).handOff .up s.part.mgmtAddr kindManage pl (s.stamp .up) = { s.heard .up with
      part := { s.part with notices := { s.part.notices with overrun := true } } } :=
    (handOff_manage (s := s.heard .up) hne hl _).trans (takeManage_overrun (s := s.heard .up) hu hp pl _)
  unfold State.receiveManage
  rw [receiveFrame_quiet h.quiet (receives_up h) h.waiting _ _ _ hl (filterKeeps_mgmt s), hhand]
  rw [hhand]
  exact heard_quiet h.quiet .up

/-- Settles O53. -/
theorem unknownLengthsAndOverrun : Obligations.UnknownLengthsAndOverrun := by
  intro s
  refine ⟨fun h code pl c hc hl hbad => ?_, fun h hu hp c pl hc hne hl => ?_⟩
  · have hm : Misformed code pl := by
      rcases hbad with ⟨k, rest, rfl, hk, rfl⟩ | ⟨v, rest, rfl, hv, rfl⟩ | ⟨rfl, args, hbad⟩
      · exact ⟨k, rest, rfl, fun old t => request_unknown hk old rest t⟩
      · exact ⟨6, v :: rest, rfl, fun _ t => command_unknown hv rest t⟩
      · rcases hbad with ⟨rfl, ha⟩ | ⟨rfl, ha⟩ | ⟨rfl, ha⟩ | ⟨rfl, ha⟩ | ⟨rfl, ha⟩ | ⟨rfl, ha⟩ | ⟨rfl, ha⟩ | ⟨rfl, ha⟩ |
          ⟨rfl, ha⟩ | ⟨rfl, ha⟩ | ⟨rfl, ha⟩ | ⟨rfl, ha⟩ | ⟨rfl, ha⟩ | ⟨rfl, ha⟩ | ⟨rfl, ha⟩ | ⟨rfl, ha⟩ | ⟨rfl, ha⟩ |
          ⟨rfl, ha⟩ | ⟨rfl, ha⟩
        all_goals cases hc
        · exact misformed_sized ha fun _ _ => rfl
        · exact misformed_sized (length_ne_zero ha) (f := fun _ _ => reqClose) fun _ _ => rfl
        · exact misformed_sized ha (f := fun _ => reqSelect) fun _ _ => rfl
        · exact misformed_sized ha (f := fun _ => reqRead) fun _ _ => rfl
        · exact misformed_write ha
        · exact misformed_command ha fun _ => rfl
        · exact misformed_command ha fun _ => rfl
        · exact misformed_command ha fun _ => rfl
        · exact misformed_command ha fun _ => rfl
        · exact misformed_command ha fun _ => rfl
        · exact misformed_command ha fun _ => rfl
        · exact misformed_command ha fun _ => rfl
        · exact misformed_command ha fun _ => rfl
        · exact misformed_command ha fun _ => rfl
        · exact misformed_command (length_ne_zero ha) (f := fun _ => reqLinkTest) fun _ => rfl
        · exact misformed_command (length_ne_zero ha) (f := fun _ => reqSaveTables) fun _ => rfl
        · exact misformed_command (length_ne_zero ha) (f := fun _ => reqRestart) fun _ => rfl
        · exact misformed_command ha fun _ => rfl
        · exact misformed_command (length_ne_zero ha) (f := fun _ => reqClearNotices) fun _ => rfl
    have hexec := exec_misformed h hc hl hm
    refine ⟨fun hu => hexec.trans (congrArg Host.Outcome.next (sendReply_linked (s := s.asked) hu _)),
      fun hu hfull => hexec.trans (congrArg Host.Outcome.next (sendReply_full (s := s.asked) hu hfull _)),
      fun hu hroom => hexec.trans (congrArg Host.Outcome.next (sendReply_queued (s := s.asked) hu hroom _))⟩
  · rw [exec_manage hc, serving_inService h.inService, receiveManage_overrun h hu hp hne hl]

end Sys2Proof.Machine
end

section
/-! PROOF. ACCESS, CLOSE and SELECT, and the statements O39 and O40. -/

namespace Sys2Proof.Machine

open Sys2Proof

/-! ## ACCESS (R157, R158) -/

/-- A request of sub-kind `k` that leaves state `t` and reply `r`. -/
theorem exec_asked {c : Instr} {k : Byte} {args : List Byte} (hc : c.managePayload = some (k :: args)) {s : State}
    (h : s.MgmtReady) (hl : args.length ≤ 123) {t : State} {r : Reply}
    (hv : request s.mgmt.pendingAccess k args s.asked = served t r) (hq : t.Quiet) :
    exec c s = .next (t.sendReply r) := exec_request (v := served t r) hc h hl hv rfl hq

theorem levelOfCode_rank (l : AccessLevel) : AccessLevel.ofCode l.rank = some l := by cases l <;> rfl

theorem levelOfCode_none {v : Int} (h : v < 0 ∨ 2 < v) : AccessLevel.ofCode v = none := by
  unfold AccessLevel.ofCode
  rw [if_neg (by omega), if_neg (by omega), if_neg (by omega)]

theorem maxLevel_rank (w : Byte) : (maxLevel w).rank = if w.getLsbD 4 then 2 else 1 := by
  unfold maxLevel
  split <;> rfl

theorem request_access (old : Option PendingAccess) {args : List Byte} (hl : args.length = 4) (s : State) :
    request old 0x01 args s = reqAccess old args s := if_pos hl

theorem reqAccess_range (old : Option PendingAccess) {args : List Byte} (h : arg args 0 < 0 ∨ 2 < arg args 0)
    (s : State) : reqAccess old args s = served s (reply .range 0xFF [s.levelValue]) := by
  unfold reqAccess
  rw [levelOfCode_none h]

/-- ACCESS to a level there is, in its order of checks. -/
theorem reqAccess_level (old : Option PendingAccess) {args : List Byte} {l : AccessLevel} (h : arg args 0 = l.rank)
    (s : State) : reqAccess old args s =
      if s.cyc.upState ≠ .linked then served s (reply .state 0xFF [s.levelValue])
      else if (maxLevel s.part.config).rank < l.rank then served s (reply .level 0xFF [s.levelValue])
      else if l.rank ≤ s.mgmt.access.rank then done (s.setAccess l) [(s.setAccess l).levelValue]
      else if confirms old l then done (s.setAccess l) [(s.setAccess l).levelValue]
      else served (s.modMgmt fun m => { m with pendingAccess := some { level := l, polls := 0 } })
        (reply .pending 0xFF [s.levelValue]) := by
  unfold reqAccess
  rw [h, levelOfCode_rank]
  rfl

theorem confirms_iff (old : Option PendingAccess) (l : AccessLevel) :
    confirms old l = true ↔ old = some { level := l, polls := 1 } := beq_iff_eq

/-- Settles O39. -/
theorem accessRequest : Obligations.AccessRequest := by
  rintro s args max h hl rfl
  have hreq := request_access s.mgmt.pendingAccess hl s.asked
  have hq := asked_quiet h.quiet
  have hlen : args.length ≤ 123 := by omega
  rw [← maxLevel_rank]
  refine ⟨fun hr => ?_, fun l harg => ?_⟩
  · exact exec_asked (c := .access args) rfl h hlen (hreq.trans (reqAccess_range _ hr _)) hq
  have hlev := hreq.trans (reqAccess_level s.mgmt.pendingAccess harg s.asked)
  refine ⟨fun hu => ?_, fun hu hm => ?_, fun hu hm hgrant => ?_, fun hu hm hlow hno => ?_⟩
  · exact exec_asked (c := .access args) rfl h hlen (hlev.trans (if_pos hu)) hq
  · exact exec_asked (c := .access args) rfl h hlen (hlev.trans ((if_neg (not_not_intro hu)).trans (if_pos hm))) hq
  · refine exec_asked (c := .access args) rfl h hlen
      (hlev.trans ((if_neg (not_not_intro hu)).trans ((if_neg (Nat.not_lt.mpr hm)).trans ?_)))
      (t := s.asked.setAccess l) (r := reply .done 0xFF [toValue l.rank]) hq
    by_cases hle : l.rank ≤ s.mgmt.access.rank
    · exact if_pos hle
    · exact (if_neg hle).trans (if_pos ((confirms_iff _ _).mpr (hgrant.resolve_left hle)))
  · exact exec_asked (c := .access args) rfl h hlen
      (hlev.trans ((if_neg (not_not_intro hu)).trans ((if_neg (Nat.not_lt.mpr hm)).trans
        ((if_neg (Nat.not_le.mpr hlow)).trans (if_neg fun hc => hno ((confirms_iff _ _).mp hc)))))) hq

/-! ## CLOSE and SELECT (R156, R160) -/

theorem tableOfCode_none {v : Int} (h : v < 0 ∨ 4 < v) : Table.ofCode v = none := by
  unfold Table.ofCode
  rw [if_neg (by omega), if_neg (by omega), if_neg (by omega), if_neg (by omega), if_neg (by omega)]

theorem modeOfCode_none {v : Int} (h : v < 0 ∨ 2 < v) : CursorMode.ofCode v = none := by
  unfold CursorMode.ofCode
  rw [if_neg (by omega), if_neg (by omega), if_neg (by omega)]

/-- The code, entries and fields of each table, as SELECT takes them. -/
theorem table_row {t : Table} {code : Int} {entries fields : Nat}
    (h : (t, code, entries, fields) ∈ [(Table.sections, (0 : Int), 16, 41), (.members, 1, 64, 13), (.steps, 2, 96, 24),
      (.runners, 3, 4, 16), (.part, 4, 1, 27)]) :
    Table.ofCode code = some t ∧ t.entries = entries ∧ t.fields = fields := by
  simp only [List.mem_cons, Prod.mk.injEq, List.not_mem_nil, or_false] at h
  rcases h with ⟨rfl, rfl, rfl, rfl⟩ | ⟨rfl, rfl, rfl, rfl⟩ | ⟨rfl, rfl, rfl, rfl⟩ | ⟨rfl, rfl, rfl, rfl⟩ |
    ⟨rfl, rfl, rfl, rfl⟩
  · exact ⟨rfl, rfl, rfl⟩
  · exact ⟨rfl, rfl, rfl⟩
  · exact ⟨rfl, rfl, rfl⟩
  · exact ⟨rfl, rfl, rfl⟩
  · exact ⟨rfl, rfl, rfl⟩

theorem exec_select_refused {s : State} (h : s.MgmtReady) {args : List Byte} (hl : args.length = 16)
    {code : ResultCode} {i : Byte} (hv : reqSelect args s.asked = refuse s.asked code i) :
    exec (.select args) s = .next (s.asked.sendReply (reply code i [])) :=
  exec_asked (c := .select args) rfl h (by omega) ((request_select _ hl _).trans hv) (asked_quiet h.quiet)

/-- Settles O40. -/
theorem closeAndSelect : Obligations.CloseAndSelect := by
  refine ⟨fun s h => ?_, fun s args h hl => ⟨fun hr => ?_, fun t code entries fields hrow hcode => ?_⟩⟩
  · exact exec_asked (c := .close []) rfl h (Nat.zero_le _) (t := s.asked.setAccess .monitor) rfl
      (asked_quiet h.quiet)
  · refine exec_select_refused h hl ?_
    unfold reqSelect
    rw [tableOfCode_none hr]
  obtain ⟨hcode', rfl, rfl⟩ := table_row hrow
  have ht : Table.ofCode (arg args 0) = some t := hcode ▸ hcode'
  refine ⟨fun he => ?_, fun e he hlt => ⟨fun hf => ?_, fun f hf hflt => ⟨fun hm => ?_, fun m hm => ?_⟩⟩⟩
  · refine exec_select_refused h hl ?_
    unfold reqSelect
    simp only [ht, toIndex_out he]
  · refine exec_select_refused h hl ?_
    unfold reqSelect
    simp only [ht, he, toIndex_natCast hlt, toIndex_out hf]
  · refine exec_select_refused h hl ?_
    unfold reqSelect
    simp only [ht, he, toIndex_natCast hlt, hf, toIndex_natCast hflt, modeOfCode_none hm]
  · have hmode : CursorMode.ofCode (arg args 3) = some m := by
      rw [hm]
      cases m <;> rfl
    exact exec_select_accepted h hl ht he hf hmode hlt hflt

end Sys2Proof.Machine
end

section
/-! PROOF. The commands on sections at rest and on runners: RELEASE TRIP, START TEST, PAUSE, RESUME and STOP, with the
statements O46, O47 and O48. -/

namespace Sys2Proof.Machine

open Sys2Proof

/-! ## RELEASE TRIP (R61) -/

theorem reqReleaseTrip_level_ok {s : State} {args : List Byte} {i : Fin 16} (hi : arg args 0 = i.val)
    (hl : s.LevelFor i) : reqReleaseTrip args s =
      if !(s.sec i).present then refuse s .absent (indexByte i)
      else if (s.sec i).runState ≠ .tripped then refuse s .state noIndex
      else done (s.modSec i Section.releaseTrip) [] := by
  unfold reqReleaseTrip
  simp only [toIndex_of_eq hi, hasLevel_guard hl, Bool.not_true, Bool.false_eq_true, if_false]

theorem releaseTrip_member (x : Section) (j : Fin 4) : x.releaseTrip.member j = { x.member j with
    faultReset := (x.member j).faultReset ||
      (decide (j.val < x.cfg.memberCount) && (x.member j).status.fault) } := by
  have hm : x.releaseTrip.member j = if j.val < x.cfg.memberCount ∧ (x.member j).status.fault = true then
      { x.member j with faultReset := true } else x.member j :=
    member_mapMembers x (fun j m =>
      if j.val < x.cfg.memberCount ∧ m.status.fault = true then { m with faultReset := true } else m) j
  rw [hm]
  by_cases h : j.val < x.cfg.memberCount ∧ (x.member j).status.fault = true
  · rw [if_pos h, decide_eq_true h.1, h.2, Bool.and_true, Bool.or_true]
  · have hoff : (decide (j.val < x.cfg.memberCount) && (x.member j).status.fault) = false := by
      rw [Bool.and_eq_false_iff, decide_eq_false_iff_not]
      exact (not_and_or.mp h).imp_right Bool.eq_false_iff.mpr
    rw [if_neg h, hoff, Bool.or_false]

/-- Settles O46. -/
theorem releaseTrip : Obligations.ReleaseTrip := by
  intro s args i h hl hi hlev
  have hreq := reqReleaseTrip_level_ok (s := s.asked) hi hlev
  refine ⟨fun hp => ?_, fun hp hr => ?_, fun hp hr => ?_⟩
  · exact (asksFor_releaseTrip hl).refused h (hreq.trans (if_pos (congrArg not hp)))
  · exact (asksFor_releaseTrip hl).refused h
      (hreq.trans ((if_neg (Bool.eq_false_iff.mp (congrArg not hp))).trans (if_pos hr)))
  · refine ⟨(s.sec i).mapMembers fun j m =>
      if j.val < (s.sec i).cfg.memberCount ∧ m.status.fault = true then { m with faultReset := true } else m,
      ?_, rfl, fun j => releaseTrip_member (s.sec i) j⟩
    exact (asksFor_releaseTrip hl).exec h (t := s.asked.modSec i Section.releaseTrip) (r := reply .done 0xFF [])
      (hreq.trans ((if_neg (Bool.eq_false_iff.mp (congrArg not hp))).trans (if_neg (not_not_intro hr))))
      (asked_quiet h.quiet)

/-! ## START TEST (R121, R122) -/

theorem toIndex_in {n : Nat} {v : Int} (h0 : 0 ≤ v) (hn : v < n) : ∃ i : Fin n, toIndex n v = some i :=
  ⟨⟨v.toNat, by omega⟩, toIndex_of_eq (by simp [h0])⟩

/-- START TEST at the level of the section: refused by the checks, or begun. -/
theorem reqStartTest_level_ok {s : State} {args : List Byte} {r : Fin 4} {i : Fin 16} {k : Fin 96}
    (hr : arg args 0 = r.val) (hi : arg args 1 = i.val) (hk : arg args 2 = k.val) (hl : s.LevelFor i) :
    (∀ e, startTestRefusal s r i k = some e → reqStartTest args s = refuse s e.1 e.2) ∧
    (startTestRefusal s r i k = none →
      reqStartTest args s = done ((s.setRunner r ((s.runner r).begin i k)).enterStep r k)
        (State.runnerValues ((s.setRunner r ((s.runner r).begin i k)).enterStep r k) r)) := by
  unfold reqStartTest
  simp only [toIndex_of_eq hr, toIndex_of_eq hi, toIndex_of_eq hk, hasLevel_guard hl, Bool.not_true, Bool.false_eq_true,
    if_false]
  exact ⟨fun e he => by rw [he], fun hn => by rw [hn]⟩

/-- The checks of START TEST on a runner that is IDLE, for a section that is RUNNING. -/
theorem startTestRefusal_running {s : State} {r : Fin 4} {i : Fin 16} {k : Fin 96} (hr : (s.runner r).state = .idle)
    (hp : (s.sec i).present = true) (hrun : (s.sec i).runState = .running) :
    (∀ q, s.claimant i = some q → startTestRefusal s r i k = some (.claimed, indexByte q)) ∧
    (s.claimant i = none → startTestRefusal s r i k =
      if !(s.stepRec k).present then some (.absent, indexByte k)
      else if s.freePlaces < s.notIdle + 1 then some (.log, noIndex)
      else none) := by
  unfold startTestRefusal
  rw [if_neg (not_not_intro hr), if_neg (Bool.eq_false_iff.mp (congrArg not hp)), if_neg (not_not_intro hrun)]
  exact ⟨fun q hq => by rw [hq], fun hn => by rw [hn]⟩

/-- Settles O47. -/
theorem startTest : Obligations.StartTest := by
  intro s args h hl
  have hask := asksFor_startTest hl
  refine ⟨fun h0 => ?_, fun h0 h0' h1 => ?_, fun h0 h0' h1 h1' h2 => ?_, fun r i k hr hi hk hlev => ?_⟩
  · refine hask.refused h ?_
    unfold reqStartTest
    rw [toIndex_out (by omega)]
  · obtain ⟨r, hr⟩ := toIndex_in (n := 4) h0 (by omega)
    refine hask.refused h ?_
    unfold reqStartTest
    simp only [hr, toIndex_out (n := 16) (v := arg args 1) (by omega)]
  · obtain ⟨r, hr⟩ := toIndex_in (n := 4) h0 (by omega)
    obtain ⟨i, hi⟩ := toIndex_in (n := 16) h1 (by omega)
    refine hask.refused h ?_
    unfold reqStartTest
    simp only [hr, hi, toIndex_out (n := 96) (v := arg args 2) (by omega)]
  obtain ⟨hno, hyes⟩ := reqStartTest_level_ok (s := s.asked) hr hi hk hlev
  have hrefused {code : ResultCode} {off : Byte} (he : startTestRefusal s.asked r i k = some (code, off)) :
      exec (.startTest args) s = .next (s.asked.sendReply (reply code off [])) :=
    hask.refused h (hno _ he)
  refine ⟨fun hbusy => hrefused (if_pos hbusy), fun hidle => ⟨fun hp => ?_, fun hp hrun => ?_, fun hp hrun => ?_⟩⟩
  · exact hrefused ((if_neg (not_not_intro hidle)).trans (if_pos (congrArg not hp)))
  · exact hrefused ((if_neg (not_not_intro hidle)).trans
      ((if_neg (Bool.eq_false_iff.mp (congrArg not hp))).trans (if_pos hrun)))
  obtain ⟨hclaimed, hfree⟩ := startTestRefusal_running (s := s.asked) (k := k) hidle hp hrun
  refine ⟨fun q hq => hrefused (hclaimed q hq), fun hc => ?_⟩
  have hchecks := hfree hc
  refine ⟨fun hk => ?_, fun hk hfull => ?_, fun hk hroom => ?_⟩
  · exact hrefused (hchecks.trans (if_pos (congrArg not hk)))
  · exact hrefused (hchecks.trans ((if_neg (Bool.eq_false_iff.mp (congrArg not hk))).trans (if_pos hfull)))
  · have hnone : startTestRefusal s.asked r i k = none :=
      hchecks.trans ((if_neg (Bool.eq_false_iff.mp (congrArg not hk))).trans (if_neg (Nat.not_lt.mpr hroom)))
    exact ⟨_, rfl, hask.exec h (hyes hnone) ((enterStep_secsOnly _ r k).quiet (asked_quiet h.quiet))⟩

/-! ## PAUSE, RESUME and STOP (R135, R136, R138) -/

theorem setRunner_setRunner (s : State) (r : Fin 4) (u v : Runner) :
    (s.setRunner r u).setRunner r v = s.setRunner r v :=
  congrArg (fun rs => { s with runners := rs }) (Vector.set_set ..)

/-- The level a command on a busy runner needs is the guard level of the section it claims. -/
theorem hasLevel_runner {s : State} {r : Fin 4} {i : Fin 16} (hb : (s.runner r).state ≠ .idle)
    (hi : (s.runner r).claimed = some i) (hl : s.LevelFor i) : s.hasLevel (s.runnerLevel r) = true := by
  unfold State.runnerLevel
  rw [if_neg hb, hi]
  exact hasLevel_guard hl

/-- A test end: the record of what runner `u` did, and the runner IDLE. -/
theorem endTest_eq {s : State} {r : Fin 4} {i : Fin 16} {u : Runner} (hu : s.runner r = u) (hi : u.claimed = some i)
    (o : RecordOutcome) (out : TestOutcome) (c : AbortCause) : s.endTest r o out c = { s with
      runners := s.runners.set r (u.ended out c)
      log := { s.log with
        nextSeq := s.log.nextSeq + 1
        records := s.log.records ++ [
          { seq := s.log.nextSeq, count := s.cyc.cycleCount, kind := .testEnd, runner := r, sec := i
            step := u.step.getD 0, outcome := o, elapsed := u.elapsed
            applied := (s.sec i).applied, leadSpeed := ((s.sec i).member 0).speed, load := (s.sec i).load
            offset := u.offset, flags := u.flags, members := (s.sec i).memberList }] } } := by
  subst hu
  unfold State.endTest State.formRecord
  dsimp only
  rw [hi]
  rfl

/-- What a stopped runner leaves: its record of the stop in the log, and itself IDLE. -/
theorem stopRunner_eq {s : State} {r : Fin 4} {i : Fin 16} (hi : (s.runner r).claimed = some i) :
    s.stopRunner r = { s with
      runners := s.runners.set r { s.runner r with
        offset := 0, claimed := none, state := .idle, outcome := .stopped, abortCause := .none
        pendingRecord := if (s.runner r).state = .waiting then none else (s.runner r).pendingRecord }
      log := { s.log with
        waiters := if (s.runner r).state = .waiting then s.log.waiters.filter (· != r) else s.log.waiters
        nextSeq := s.log.nextSeq + 1
        records := s.log.records ++ [
          { seq := s.log.nextSeq, count := s.cyc.cycleCount, kind := .testEnd, runner := r, sec := i
            step := (s.runner r).step.getD 0, outcome := .stopped, elapsed := (s.runner r).elapsed
            applied := (s.sec i).applied, leadSpeed := ((s.sec i).member 0).speed, load := (s.sec i).load
            offset := (s.runner r).offset, flags := (s.runner r).flags, members := (s.sec i).memberList }] } } := by
  unfold State.stopRunner State.dropPendingRecord
  by_cases hw : (s.runner r).state = .waiting
  · rw [if_pos hw, if_pos hw, if_pos hw]
    have hleft : (State.leaveWaiters (s.setRunner r { s.runner r with pendingRecord := none }) r).runner r =
        { s.runner r with pendingRecord := none } := (runner_setRunner s r r _).trans (if_pos rfl)
    rw [endTest_eq hleft hi]
    unfold State.leaveWaiters State.modLog State.setRunner
    dsimp only
    rw [Vector.set_set]
    rfl
  · rw [if_neg hw, if_neg hw, if_neg hw]
    exact endTest_eq rfl hi _ _ _

/-- Settles O48. -/
theorem pauseResumeStop : Obligations.PauseResumeStop := by
  intro s args r i h hl hr
  have hq := asked_quiet h.quiet
  have hown (u : Runner) : (s.asked.setRunner r u).runner r = u := (runner_setRunner _ r r u).trans (if_pos rfl)
  refine ⟨fun hidle hmon c hc => ?_, fun hi hlev => ?_⟩
  · obtain ⟨f, hf, hserves⟩ := asksFor_runner hl hc
    refine hf.refused h ((hserves s.asked r hr).2 ?_ hidle)
    have hlevel : s.asked.runnerLevel r = .operate := if_pos hidle
    rw [hlevel]
    exact hasLevel_operate hmon
  have hlevel (hb : (s.runner r).state ≠ .idle) : ¬(!s.asked.hasLevel (s.asked.runnerLevel r)) = true := by
    rw [hasLevel_runner (s := s.asked) hb hi hlev]
    exact Bool.false_ne_true
  have hpause (hb : (s.runner r).state ≠ .idle) := (reqPauseTest_eq hr s.asked).trans (if_neg (hlevel hb))
  have hresume (hb : (s.runner r).state ≠ .idle) := (reqResumeTest_eq hr s.asked).trans (if_neg (hlevel hb))
  have hother {x : RunnerState} (y : RunnerState) {z : RunnerState} (hx : x = z) (hz : z ≠ y) : x ≠ y := hx ▸ hz
  refine ⟨fun hrun => ?_, fun hpau => ?_, fun hwait => ?_, fun hb => ?_⟩
  · have hb := hother .idle hrun nofun
    refine ⟨(asksFor_resumeTest hl).refused h ((hresume hb).trans (if_pos (hother .paused hrun nofun))), ?_⟩
    refine (asksFor_pauseTest hl).exec h ((hpause hb).trans ((if_neg (not_not_intro hrun)).trans ?_)) hq
    unfold State.runnerValue
    rw [hown]
    rfl
  · have hb := hother .idle hpau nofun
    refine ⟨(asksFor_pauseTest hl).refused h ((hpause hb).trans (if_pos (hother .running hpau nofun))), ?_⟩
    refine (asksFor_resumeTest hl).exec h ((hresume hb).trans ((if_neg (not_not_intro hpau)).trans ?_)) hq
    unfold State.runnerValue
    rw [hown]
    rfl
  · have hb := hother .idle hwait nofun
    exact ⟨(asksFor_pauseTest hl).refused h ((hpause hb).trans (if_pos (hother .running hwait nofun))),
      (asksFor_resumeTest hl).refused h ((hresume hb).trans (if_pos (hother .paused hwait nofun)))⟩
  · have hstop := (reqStopTest_eq hr s.asked).trans ((if_neg (hlevel hb)).trans (if_neg hb))
    have hleft := stopRunner_eq (s := s.asked) hi
    have hidle : (s.asked.stopRunner r).runnerValue r = [0] := by
      unfold State.runnerValue State.stopRunner State.endTest
      rw [runner_setRunner, if_pos rfl]
      rfl
    rw [hidle] at hstop
    exact ((asksFor_stopTest hl).exec h hstop ((stopRunner_testsOnly s.asked r).secsOnly.quiet hq)).trans
      (congrArg (fun t : State => Host.Outcome.next (t.sendReply (reply .done 0xFF [0]))) hleft)

end Sys2Proof.Machine
end

section
/-! PROOF. Transfers between the source modes and draw adjustments, with the statements O45 and O44. -/

namespace Sys2Proof.Machine

open Sys2Proof

/-! ## Ratios (R67) -/

theorem clampRatio_eq (q : Int) : clampRatio q = max 900000 (min 1100000 q) := clampInt_eq_max_min (by decide) q

theorem clampActs_iff {lo hi x : Int} : clampActs lo hi x = true ↔ x < lo ∨ hi < x := by
  simp [clampActs]

theorem clampActs_eq (lo hi x : Int) : clampActs lo hi x = decide (x < lo ∨ hi < x) := by
  rw [Bool.eq_iff_iff, clampActs_iff, decide_eq_true_eq]

theorem clampActs_false {lo hi x : Int} : clampActs lo hi x = false ↔ lo ≤ x ∧ x ≤ hi := by
  rw [clampActs_eq, decide_eq_false_iff_not]
  omega

/-- The ratio a CASCADE section forms over a base ratio. -/
theorem formRatio_eq {x : Section} {base exact : Int} (h : exact = (2 * (base * (10000 + x.draw)) + 10000) / 20000) :
    x.formRatio base = { x with
      ratio := max 900000 (min 1100000 exact)
      flags := { x.flags with ratioLimit := decide (exact < 900000 ∨ 1100000 < exact) } } := by
  have he : exactRatio base x.draw = exact := by
    rw [h]
    rfl
  unfold Section.formRatio ratioClamps
  rw [he, clampRatio_eq, clampActs_eq]

theorem sec_modSec_same (s : State) (i : Fin 16) (f : Section → Section) : (s.modSec i f).sec i = f (s.sec i) :=
  (sec_modSec s i i f).trans (if_pos rfl)

/-! ## TRANSFER (R80, R81) -/

theorem reqTransfer_level_ok {s : State} {args : List Byte} {i : Fin 16} (hi : arg args 0 = i.val)
    (hl : s.LevelFor i) :
    (Source.ofCode (arg args 1) = none → reqTransfer args s = refuse s .range 0xFF) ∧
    ∀ m, Source.ofCode (arg args 1) = some m →
      ((s.sec i).present = false → reqTransfer args s = refuse s .absent (indexByte i)) ∧
      ((s.sec i).present = true →
        (∀ r, s.claimant i = some r → reqTransfer args s = refuse s .claimed (indexByte r)) ∧
        (s.claimant i = none →
          (m = .cascade → reqTransfer args s = transferCascade i s) ∧
          (m = .follow → reqTransfer args s = transferFollow i s))) := by
  unfold reqTransfer
  simp only [toIndex_of_eq hi, hasLevel_guard hl, Bool.not_true, Bool.false_eq_true, if_false]
  refine ⟨fun hn => by rw [hn], fun m hm => ⟨fun hp => ?_, fun hp => ⟨fun r hr => ?_, fun hc => ⟨?_, ?_⟩⟩⟩⟩
  · simp only [hm, hp, Bool.not_false, if_true]
  · simp only [hm, hp, hr, Bool.not_true, Bool.false_eq_true, if_false]
  · rintro rfl
    simp only [hm, hp, hc, Bool.not_true, Bool.false_eq_true, if_false]
  · rintro rfl
    simp only [hm, hp, hc, Bool.not_true, Bool.false_eq_true, if_false]

theorem sourceOfCode_none {v : Int} (h : v < 0 ∨ 1 < v) : Source.ofCode v = none := by
  unfold Source.ofCode
  rw [if_neg (by omega), if_neg (by omega)]

theorem sourceOfCode_zero {v : Int} (h : v = 0) : Source.ofCode v = some .follow := if_pos h

theorem sourceOfCode_one {v : Int} (h : v = 1) : Source.ofCode v = some .cascade := by rw [h]; rfl

/-- A section that goes to CASCADE over a base ratio. -/
theorem toCascade_eq (x : Section) (base : Int) : x.toCascade base = { x with
    draw := max (-500) (min 500 (backDraw base x.observed)), source := .cascade
    ratio := max 900000 (min 1100000 (exactRatio base (x.toCascade base).draw))
    flags := { x.flags with ratioLimit := decide (exactRatio base (x.toCascade base).draw < 900000 ∨
      1100000 < exactRatio base (x.toCascade base).draw) } } := by
  have hd : (x.toCascade base).draw = max (-500) (min 500 (backDraw base x.observed)) :=
    clampInt_eq_max_min (by decide) _
  rw [hd]
  unfold Section.toCascade
  rw [clampInt_eq_max_min (by decide)]
  exact formRatio_eq rfl

theorem transferCascade_eq {s : State} {i : Fin 16} (hf : (s.sec i).source = .follow)
    (hrun : (s.sec i).runState = .running) (hl : 1000 ≤ s.cyc.lineSpeed) :
    transferCascade i s = served (s.modSec i fun x => x.toCascade (s.baseRatio i))
      (reply (if clampActs (-500) 500 (backDraw (s.baseRatio i) (s.sec i).observed) then .doneClamped else .done) noIndex
        [toValue ((s.sec i).toCascade (s.baseRatio i)).draw, toValue ((s.sec i).toCascade (s.baseRatio i)).ratio]) := by
  unfold transferCascade State.drawValues
  rw [if_neg (by rw [hf]; decide), if_neg (not_not_intro ⟨hrun, hl⟩)]
  dsimp only
  rw [sec_modSec_same]

/-- Settles O45. -/
theorem transfers : Obligations.Transfers := by
  intro s args i h hl hi hlev
  have hq := asked_quiet h.quiet
  obtain ⟨hrange, hserve⟩ := reqTransfer_level_ok (s := s.asked) hi hlev
  have hcas := asksFor_transferToCascade hl
  have hfol := asksFor_transferToFollow hl
  refine ⟨fun hbad => hcas.refused h (hrange (sourceOfCode_none hbad)), fun hm c hc => ?_, fun hp hc => ?_⟩
  · have hask : AsksFor c (reqTransfer args) := by
      rcases hc with rfl | rfl
      · exact hcas
      · exact hfol
    obtain ⟨m, hm⟩ : ∃ m, Source.ofCode (arg args 1) = some m := by
      rcases hm with hm | hm
      · exact ⟨_, sourceOfCode_zero hm⟩
      · exact ⟨_, sourceOfCode_one hm⟩
    obtain ⟨habsent, hpresent⟩ := hserve m hm
    exact ⟨fun hp => hask.refused h (habsent hp), fun r hp hr => hask.refused h ((hpresent hp).1 r hr)⟩
  have hcascade (hm : arg args 1 = 1) : reqTransfer args s.asked = transferCascade i s.asked :=
    ((((hserve _ (sourceOfCode_one hm)).2 hp).2 hc).1 rfl)
  have hfollow (hm : arg args 1 = 0) : reqTransfer args s.asked = transferFollow i s.asked :=
    ((((hserve _ (sourceOfCode_zero hm)).2 hp).2 hc).2 rfl)
  refine ⟨fun x hx => ?_, fun hm hsrc => ?_, fun hm hsrc hno => ?_, fun hm hsrc hrun hspeed => ?_⟩
  · rcases hx with ⟨hm, hsrc, rfl⟩ | ⟨hm, hsrc, rfl⟩
    · exact hcas.exec h ((hcascade hm).trans (if_pos hsrc)) hq
    · exact hfol.exec h ((hfollow hm).trans (if_pos hsrc)) hq
  · refine hfol.exec h ((hfollow hm).trans ((if_neg (by
      change ¬(s.sec i).source = .follow
      rw [hsrc]; decide)).trans ?_)) hq
    unfold State.drawValues
    dsimp only
    rw [sec_modSec_same]
    rfl
  · refine hcas.refused h ((hcascade hm).trans ((if_neg (by
      change ¬(s.sec i).source = .cascade
      rw [hsrc]; decide)).trans (if_pos ?_)))
    rintro ⟨hr, hs⟩
    rcases hno with hno | hno
    · exact hno hr
    · exact absurd hs (by
        change ¬1000 ≤ s.cyc.lineSpeed
        omega)
  · have heq := transferCascade_eq (s := s.asked) (i := i) hsrc hrun hspeed
    refine ⟨s.baseRatio i, _, exactRatio (s.baseRatio i) ((s.sec i).toCascade (s.baseRatio i)).draw, _, _, rfl, rfl,
      toCascade_eq (s.sec i) (s.baseRatio i), rfl, rfl, ?_⟩
    rw [clampActs_eq] at heq
    simp only [decide_eq_true_eq] at heq
    exact hcas.exec h ((hcascade hm).trans heq) hq

/-! ## Draw adjustments (R74 to R77) -/

theorem foldl_modSec_sec (f : Section → Section) (l : List (Fin 16)) (hl : l.Nodup) (s : State) (k : Fin 16) :
    (l.foldl (fun u c => u.modSec c f) s).sec k = if k ∈ l then f (s.sec k) else s.sec k := by
  induction l generalizing s with
  | nil => rfl
  | cons c l ih =>
    obtain ⟨hc, hl⟩ := List.nodup_cons.mp hl
    rw [List.foldl_cons, ih hl, sec_modSec]
    by_cases hk : k = c
    · subst hk
      simp [hc]
    · simp [hk, Ne.symm hk]

theorem foldl_modSec_form (f : Section → Section) (l : List (Fin 16)) (s : State) :
    l.foldl (fun u c => u.modSec c f) s = { s with sections := (l.foldl (fun u c => u.modSec c f) s).sections } := by
  induction l generalizing s with
  | nil => rfl
  | cons c l ih =>
    conv_lhs => rw [List.foldl_cons, ih]
    rfl

/-- A draw adjustment acts on the section table alone. -/
theorem adjustDraw_form (s : State) (i : Fin 16) (d : Int) (m : DrawMode) :
    (s.adjustDraw i d m).state = { s with sections := (s.adjustDraw i d m).state.sections } := by
  cases m with
  | carry => rfl
  | hold => exact foldl_modSec_form _ _ _

theorem adjustOwn_sec (s : State) (i : Fin 16) (d : Int) (k : Fin 16) : (s.adjustOwn i d).sec k =
    if i = k then { s.sec i with draw := clampInt (-500) 500 ((s.sec i).draw + d) }.formRatio (s.baseRatio i)
    else s.sec k := sec_modSec s i k _

/-- The entry that takes the adjustment: its draw, and the ratio formed from it. -/
theorem adjustOwn_own (s : State) (i : Fin 16) (d : Int) : (s.adjustOwn i d).sec i = { s.sec i with
    draw := max (-500) (min 500 ((s.sec i).draw + d))
    ratio := max 900000 (min 1100000 (exactRatio (s.baseRatio i) ((s.adjustOwn i d).sec i).draw))
    flags := { (s.sec i).flags with ratioLimit := decide (
      exactRatio (s.baseRatio i) ((s.adjustOwn i d).sec i).draw < 900000 ∨
        1100000 < exactRatio (s.baseRatio i) ((s.adjustOwn i d).sec i).draw) } } := by
  rw [adjustOwn_sec, if_pos rfl, clampInt_eq_max_min (by decide)]
  exact formRatio_eq rfl

/-- The sections that section `i` draws: CASCADE, with `i` as their draw base (R77). -/
def State.IsChild (s : State) (i k : Fin 16) : Prop :=
  k ≠ i ∧ (s.sec k).present = true ∧ (s.sec k).cfg.drawBase = some i ∧ (s.sec k).source = .cascade

theorem mem_children_adjustOwn {s : State} {i : Fin 16} (hb : (s.sec i).cfg.drawBase ≠ some i) (d : Int)
    (k : Fin 16) : k ∈ (s.adjustOwn i d).children i ↔ s.IsChild i k := by
  unfold State.children State.IsChild
  rw [List.mem_filter, mem_presentSecs, Bool.and_eq_true, beq_iff_eq, beq_iff_eq, adjustOwn_sec]
  by_cases hk : i = k
  · subst hk
    rw [if_pos rfl]
    exact ⟨fun hc => absurd hc.2.1 hb, fun hc => absurd rfl hc.1⟩
  · rw [if_neg hk]
    exact ⟨fun hc => ⟨Ne.symm hk, hc⟩, fun hc => hc.2⟩

/-- The children are met in ascending index order. -/
theorem children_ascend (s : State) (i : Fin 16) : (s.children i).Pairwise (· < ·) := by
  have h : allSections.Pairwise (· < ·) := by decide
  exact (h.filter _).filter _

/-- The draw that keeps a child's ratio over a new base ratio, before its clamp (R77). -/
def heldDraw (new : Int) (y : Section) : Int := divHalfAway (10000 * (y.ratio - new)) new

/-- What an adjustment leaves of the sections and what it clamps: children are met in HOLD mode alone. -/
theorem adjustDraw_reaches {s : State} {i : Fin 16} (hb : (s.sec i).cfg.drawBase ≠ some i) (d : Int) (m : DrawMode)
    {x : Section} (hx : (s.adjustOwn i d).sec i = x) :
    (∀ k, s.IsChild i k ∧ m = .hold → (s.adjustDraw i d m).state.sec k =
      { s.sec k with draw := max (-500) (min 500 (heldDraw x.ratio (s.sec k))) }) ∧
    (∀ k, ¬(s.IsChild i k ∧ m = .hold) → (s.adjustDraw i d m).state.sec k = (s.adjustOwn i d).sec k) ∧
    (s.adjustDraw i d m).childClamped.Pairwise (· < ·) ∧
    ∀ k, k ∈ (s.adjustDraw i d m).childClamped ↔
      (s.IsChild i k ∧ m = .hold) ∧ (heldDraw x.ratio (s.sec k) < -500 ∨ 500 < heldDraw x.ratio (s.sec k)) := by
  subst hx
  cases m with
  | carry =>
    exact ⟨fun _ h => absurd h.2 (by decide), fun _ _ => rfl, .nil,
      fun k => ⟨fun h => absurd h List.not_mem_nil, fun h => absurd h.1.2 (by decide)⟩⟩
  | hold =>
    have hmem := mem_children_adjustOwn hb d
    have hord := children_ascend (s.adjustOwn i d) i
    have hsec (k : Fin 16) := foldl_modSec_sec (fun y => y.compensate ((s.adjustOwn i d).sec i).ratio)
      ((s.adjustOwn i d).children i) (hord.imp fun h => Fin.ne_of_lt h) (s.adjustOwn i d) k
    have hother {k : Fin 16} (hk : s.IsChild i k) : (s.adjustOwn i d).sec k = s.sec k :=
      (adjustOwn_sec s i d k).trans (if_neg (Ne.symm hk.1))
    refine ⟨fun k hk => ?_, fun k hk => ?_, hord.filter _, fun k => ?_⟩
    · refine (hsec k).trans ?_
      rw [if_pos ((hmem k).mpr hk.1), hother hk.1, ← clampInt_eq_max_min (by decide)]
      rfl
    · exact (hsec k).trans (if_neg fun h => hk ⟨(hmem k).mp h, rfl⟩)
    · refine List.mem_filter.trans ?_
      rw [hmem, clampActs_iff, and_iff_left (rfl : DrawMode.hold = .hold)]
      exact and_congr_right fun hk => by rw [hother hk]; exact Iff.rfl

/-- The first of an ascending list is below every other member. -/
theorem head_eq_of_least {n : Nat} {l : List (Fin n)} (hl : l.Pairwise (· < ·)) {k : Fin n} (hk : k ∈ l)
    (hleast : ∀ j, j < k → j ∉ l) : ∃ rest, l = k :: rest := by
  cases l with
  | nil => exact absurd hk List.not_mem_nil
  | cons c rest =>
    rcases List.mem_cons.mp hk with rfl | hin
    · exact ⟨rest, rfl⟩
    · exact absurd List.mem_cons_self (hleast c ((List.pairwise_cons.mp hl).1 k hin))

/-! ### ADJUST DRAW (R75) -/

theorem drawMode_ofCode_some {v : Int} {m : DrawMode} (h : v = m.code) : DrawMode.ofCode v = some m := by
  rw [h]
  cases m <;> rfl

theorem drawMode_ofCode_none {v : Int} (h : ¬(v = 0 ∨ v = 1)) : DrawMode.ofCode v = none := by
  unfold DrawMode.ofCode
  rw [if_neg (by omega), if_neg (by omega)]

theorem drawArgs_some {args : List Byte} (hd : -1000 ≤ arg args 1 ∧ arg args 1 ≤ 1000) {m : DrawMode}
    (hm : arg args 2 = m.code) : drawArgs args = some (arg args 1, m) := by
  unfold drawArgs
  rw [ranged_in hd, drawMode_ofCode_some hm]

theorem drawArgs_none {args : List Byte}
    (h : ¬(-1000 ≤ arg args 1 ∧ arg args 1 ≤ 1000 ∧ (arg args 2 = 0 ∨ arg args 2 = 1))) : drawArgs args = none := by
  unfold drawArgs
  by_cases hm : arg args 2 = 0 ∨ arg args 2 = 1
  · rw [ranged_out (by omega)]
  · rw [drawMode_ofCode_none hm]
    cases ranged (-1000) 1000 (arg args 1) <;> rfl

theorem drawMode_of_code {v : Int} (h : v = 0 ∨ v = 1) : ∃ m : DrawMode, v = m.code := by
  rcases h with rfl | rfl
  · exact ⟨.carry, rfl⟩
  · exact ⟨.hold, rfl⟩

/-- The first clamped child as an offending index. -/
def childIndex : List (Fin 16) → Byte
  | [] => 0xFF
  | k :: _ => BitVec.ofNat 8 k.val

theorem reqAdjustDraw_level_ok {s : State} {args : List Byte} {i : Fin 16} (hi : arg args 0 = i.val)
    (hl : s.LevelFor i) :
    (drawArgs args = none → reqAdjustDraw args s = refuse s .range 0xFF) ∧
    ∀ d m, drawArgs args = some (d, m) →
      ((s.sec i).present = false → reqAdjustDraw args s = refuse s .absent (indexByte i)) ∧
      ((s.sec i).present = true → (s.sec i).source = .follow → reqAdjustDraw args s = refuse s .state 0xFF) ∧
      ((s.sec i).present = true → (s.sec i).source = .cascade →
        (∀ r, s.claimant i = some r → reqAdjustDraw args s = refuse s .claimed (indexByte r)) ∧
        (s.claimant i = none → reqAdjustDraw args s = served (s.adjustDraw i d m).state
          (reply (if (s.adjustDraw i d m).ownClamped || !(s.adjustDraw i d m).childClamped.isEmpty then .doneClamped
              else .done)
            (childIndex (s.adjustDraw i d m).childClamped) ((s.adjustDraw i d m).state.drawValues i)))) := by
  unfold reqAdjustDraw
  simp only [toIndex_of_eq hi, hasLevel_guard hl, Bool.not_true, Bool.false_eq_true, if_false]
  refine ⟨fun hn => by rw [hn], fun d m ha => ⟨fun hp => ?_, fun hp hs => ?_, fun hp hs => ⟨fun r hr => ?_, fun hc => ?_⟩⟩⟩
  · simp only [ha, hp, Bool.not_false, if_true]
  · simp [ha, hp, hs]
  · simp [ha, hp, hs, hr]
  · simp only [ha, hp, hs, hc, Bool.not_true, Bool.false_eq_true, if_false, ne_eq, not_true_eq_false]
    cases (s.adjustDraw i d m).childClamped <;> rfl

/-- Settles O44. -/
theorem adjustDraw : Obligations.AdjustDraw := by
  intro s args h hl
  have hask := asksFor_adjustDraw hl
  refine ⟨fun h0 => hask.refused h ?_, fun i hi hlev mode valid hmode hvalid => ?_⟩
  · unfold reqAdjustDraw
    rw [toIndex_out (by omega)]
  subst hmode
  subst hvalid
  obtain ⟨hrange, hserve⟩ := reqAdjustDraw_level_ok (s := s.asked) hi hlev
  have hargs (hv : -1000 ≤ arg args 1 ∧ arg args 1 ≤ 1000 ∧ (arg args 2 = 0 ∨ arg args 2 = 1)) :
      ∃ m : DrawMode, arg args 2 = m.code ∧ drawArgs args = some (arg args 1, m) := by
    obtain ⟨hd, hd', hm⟩ := hv
    obtain ⟨m, hm⟩ := drawMode_of_code hm
    exact ⟨m, hm, drawArgs_some ⟨hd, hd'⟩ hm⟩
  refine ⟨fun hbad => hask.refused h (hrange (drawArgs_none hbad)), fun hv hp => ?_, fun hv hp hs => ?_,
    fun r hv hp hs hr => ?_, fun hv hp hs hc hb => ?_⟩
  · obtain ⟨m, _, ha⟩ := hargs hv
    exact hask.refused h ((hserve _ m ha).1 hp)
  · obtain ⟨m, _, ha⟩ := hargs hv
    exact hask.refused h ((hserve _ m ha).2.1 hp hs)
  · obtain ⟨m, _, ha⟩ := hargs hv
    exact hask.refused h (((hserve _ m ha).2.2 hp hs).1 r hr)
  obtain ⟨m, hm, ha⟩ := hargs hv
  have hserved := ((hserve _ m ha).2.2 hp hs).2 hc
  have hiff (k : Fin 16) : (k ≠ i ∧ arg args 2 = 1 ∧ (s.sec k).present = true ∧ (s.sec k).cfg.drawBase = some i ∧
      (s.sec k).source = .cascade) ↔ s.asked.IsChild i k ∧ m = .hold := by
    have hmode : arg args 2 = 1 ↔ m = .hold := by
      rw [hm]
      cases m <;> decide
    rw [hmode]
    exact ⟨fun ⟨hne, hh, hk⟩ => ⟨⟨hne, hk⟩, hh⟩, fun ⟨⟨hne, hk⟩, hh⟩ => ⟨hne, hh, hk⟩⟩
  have hx := adjustOwn_own s.asked i (arg args 1)
  have hown (k : Fin 16) (hk : k ≠ i) : (s.asked.adjustOwn i (arg args 1)).sec k = s.sec k :=
    (adjustOwn_sec s.asked i _ k).trans (if_neg hk.symm)
  have hform := adjustDraw_form s.asked i (arg args 1) m
  have hquiet := (adjustDraw_secsOnly s.asked i (arg args 1) m).quiet (asked_quiet h.quiet)
  have hclamps : (s.asked.adjustDraw i (arg args 1) m).ownClamped =
      clampActs (-500) 500 ((s.sec i).draw + arg args 1) := by cases m <;> rfl
  obtain ⟨hchild, hrest, hord, hclamped⟩ := adjustDraw_reaches (s := s.asked) hb (arg args 1) m rfl
  have hself := hrest i fun hk => hk.1.1 rfl
  generalize (s.asked.adjustOwn i (arg args 1)).sec i = x at hx hchild hclamped hself
  generalize s.asked.adjustDraw i (arg args 1) m = a at hserved hform hquiet hclamps hchild hrest hord hclamped hself
  have hempty (hno : ∀ k, ¬((k ≠ i ∧ arg args 2 = 1 ∧ (s.sec k).present = true ∧ (s.sec k).cfg.drawBase = some i ∧
      (s.sec k).source = .cascade) ∧ (heldDraw x.ratio (s.sec k) < -500 ∨ 500 < heldDraw x.ratio (s.sec k)))) :
      a.childClamped = [] := List.eq_nil_iff_forall_not_mem.mpr fun k hin => by
    obtain ⟨hc, hcl⟩ := (hclamped k).mp hin
    exact hno k ⟨(hiff k).mpr hc, hcl⟩
  have hexec := hask.exec h hserved hquiet
  rw [hclamps] at hexec
  unfold State.drawValues at hexec
  rw [hself] at hexec
  refine ⟨a.state, if clampActs (-500) 500 ((s.sec i).draw + arg args 1) || !a.childClamped.isEmpty then .doneClamped
      else .done, childIndex a.childClamped, s.baseRatio i, exactRatio (s.baseRatio i) x.draw, x,
    fun k => heldDraw x.ratio (s.sec k), _, _, rfl, hx, rfl, rfl, rfl, rfl,
    hexec.trans (congrArg (fun t : State => Host.Outcome.next (t.sendReply _)) hform), hself,
    fun k hk => hchild k ((hiff k).mp hk), fun k hki hk => (hrest k fun hc => hk ((hiff k).mpr hc)).trans (hown k hki),
    fun hcl => ?_, fun hlo hhi hno => ?_, fun hno => ?_, fun k hk hleast => ?_⟩
  · refine if_pos (Bool.or_eq_true_iff.mpr ?_)
    rcases hcl with hcl | hcl | ⟨k, hk, hcl⟩
    · exact .inl (clampActs_iff.mpr (.inl hcl))
    · exact .inl (clampActs_iff.mpr (.inr hcl))
    · have hin := (hclamped k).mpr ⟨(hiff k).mp hk, hcl⟩
      cases hl : a.childClamped with
      | nil => exact absurd (hl ▸ hin) List.not_mem_nil
      | cons c rest => exact .inr rfl
  · rw [hempty hno, clampActs_false.mpr ⟨hlo, hhi⟩]
    rfl
  · rw [hempty hno]
    rfl
  · obtain ⟨rest, hl⟩ := head_eq_of_least hord ((hclamped k).mpr ⟨(hiff k).mp hk.1, hk.2⟩) fun j hj hin => by
      obtain ⟨hc, hcl⟩ := (hclamped j).mp hin
      exact hleast j hj ⟨(hiff j).mpr hc, hcl⟩
    rw [hl]
    rfl

end Sys2Proof.Machine
end

section
/-! PROOF. The maintenance requests: the link test, the management address, the notices, the store and the restart, with
the statements O50 and O51. -/

namespace Sys2Proof.Machine

open Sys2Proof

/-! ## Sections that move -/

/-- Some present section is RUNNING or STOPPING. -/
def State.Moves (s : State) : Prop :=
  ∃ i, (s.sec i).present = true ∧ ((s.sec i).runState = .running ∨ (s.sec i).runState = .stopping)

theorem moving_iff (x : Section) : x.moving = true ↔ x.runState = .running ∨ x.runState = .stopping := by
  unfold Section.moving
  rw [Bool.or_eq_true, beq_iff_eq, beq_iff_eq]

theorem anyMoving_iff (s : State) : (s.presentSecs.any fun i => (s.sec i).moving) = true ↔ s.Moves := by
  rw [List.any_eq_true]
  exact exists_congr fun i => by rw [mem_presentSecs, moving_iff]

theorem not_moves {s : State}
    (h : ∀ i, (s.sec i).present = true → (s.sec i).runState = .stopped ∨ (s.sec i).runState = .tripped) : ¬s.Moves := by
  rintro ⟨i, hp, hm⟩
  rcases h i hp with hr | hr
  · rw [hr] at hm
    exact absurd hm (by decide)
  · rw [hr] at hm
    exact absurd hm (by decide)

/-! ## LINK TEST, MOVE ADDRESS, CLEAR NOTICES (R16, R168, R169) -/

theorem if_not_true {α : Type} {b : Bool} (h : b = true) (x y : α) : (if !b then x else y) = y := by
  rw [h]
  rfl

theorem reqLinkTest_idle {s : State} (hl : s.mgmt.access = .engineer) (hr : s.link.running = false) : reqLinkTest s =
    if s.presentSecs.any fun i => (s.sec i).moving then refuse s .state noIndex
    else done (if s.cyc.inFlight.isNone then
        (s.setLink { LinkTest.reset with running := true }).enterLoopback
      else s.setLink { LinkTest.reset with running := true }) [] := by
  unfold reqLinkTest
  rw [if_not_true (hasLevel_engineer hl), if_neg (by rw [hr]; decide)]
  rfl

theorem reqMoveAddress_range {s : State} (hl : s.mgmt.access = .engineer) {args : List Byte}
    (h : arg args 0 < 1 ∨ 63 < arg args 0) : reqMoveAddress args s = refuse s .range 0xFF := by
  unfold reqMoveAddress
  rw [if_not_true (hasLevel_engineer hl), ranged_out h]

/-- MOVE ADDRESS with an address there is: a conflict, the address in force, or a move that the reply completes. -/
theorem reqMoveAddress_in {s : State} (hl : s.mgmt.access = .engineer) {args : List Byte}
    (h : 1 ≤ arg args 0 ∧ arg args 0 ≤ 63) {a : Byte} (ha : toByte (arg args 0) = a) :
    (∀ i, s.sectionAt a = some i → reqMoveAddress args s = refuse s .conflict (indexByte i)) ∧
    (s.sectionAt a = none → reqMoveAddress args s =
      if a = s.part.mgmtAddr then done s []
      else served (s.modMgmt fun m => { m with pendingMove := some a })
        { code := .done, offending := 0xFF, count := 0, values := [toValue (arg args 0)], tie := .move a }) := by
  subst ha
  unfold reqMoveAddress
  rw [if_not_true (hasLevel_engineer hl), ranged_in h]
  exact ⟨fun i hi => by simp only [hi], fun hn => by simp only [hn]⟩

theorem toByte_of_toNat {v : Int} (h0 : 0 ≤ v) (h1 : v ≤ 63) {a : Byte} (ha : a.toNat = v.toNat) : toByte v = a := by
  obtain ⟨n, rfl⟩ := Int.eq_ofNat_of_zero_le h0
  refine BitVec.eq_of_toNat_eq ?_
  rw [ha]
  unfold toByte
  rw [BitVec.toNat_ofInt]
  omega

/-- Settles O50. -/
theorem maintenanceCommands : Obligations.MaintenanceCommands := by
  intro s h
  have hq := asked_quiet h.quiet
  refine ⟨fun hl hr => ?_, fun hl hr => ⟨fun hm => ?_, fun hm l hlt => ?_⟩, fun args hl ha => ⟨fun hbad => ?_,
    fun h1 h63 a hto => ?_⟩, fun hl => ?_⟩
  · exact asksFor_linkTest.refused h ((if_not_true (hasLevel_engineer hl) _ _).trans (if_pos hr))
  · exact asksFor_linkTest.refused h
      ((reqLinkTest_idle (s := s.asked) hl hr).trans (if_pos ((anyMoving_iff s.asked).mpr hm)))
  · subst hlt
    have hreq := (reqLinkTest_idle (s := s.asked) hl hr).trans
      (if_neg fun hany => not_moves hm ((anyMoving_iff s.asked).mp hany))
    refine ⟨fun hc => ?_, fun hc => ?_⟩
    · exact asksFor_linkTest.exec h (hreq.trans (congrArg (done · []) (if_neg (by
        change ¬s.cyc.inFlight.isNone = true
        rwa [Option.isNone_iff_eq_none])))) hq
    · exact asksFor_linkTest.exec h (hreq.trans (congrArg (done · []) (if_pos (by
        change s.cyc.inFlight.isNone = true
        rw [hc]
        rfl)))) ⟨hq.1, rfl⟩
  · exact (asksFor_moveAddress ha).refused h (reqMoveAddress_range (s := s.asked) hl hbad)
  · obtain ⟨hconflict, hfree⟩ := reqMoveAddress_in (s := s.asked) hl ⟨h1, h63⟩ (toByte_of_toNat (by omega) h63 hto)
    refine ⟨fun i hi => ?_, fun hn he => ?_, fun hn he => ?_⟩
    · exact (asksFor_moveAddress ha).refused h (hconflict i hi)
    · exact (asksFor_moveAddress ha).exec h ((hfree hn).trans (if_pos he)) hq
    · exact (asksFor_moveAddress ha).exec h ((hfree hn).trans (if_neg he)) hq
  · exact asksFor_clearNotices.exec h (if_not_true (hasLevel_operate hl) _ _) hq

/-! ## The store and the restart (R172, R173, R175) -/

theorem snapshot_section (s : State) (i : Fin 16) : s.snapshot.sections[i] = (s.sec i).saved := by
  fin_cases i <;> rfl

theorem saved_member (x : Section) (j : Fin 4) :
    x.saved.ratings[j] = (x.member j).rating ∧ x.saved.weights[j] = (x.member j).weight := by
  fin_cases j <;> exact ⟨rfl, rfl⟩

/-- What a save keeps of an entry: a present one with its draw and source mode in force. -/
theorem saved_cfg (x : Section) :
    (x.present = false → x.saved.cfg = x.cfg) ∧
    (x.present = true → x.saved.cfg = { x.cfg with initDraw := x.draw, initSource := x.source }) :=
  ⟨fun h => if_neg (by rw [h]; decide), fun h => if_pos h⟩

theorem reqRestart_engineer {s : State} (hl : s.mgmt.access = .engineer) (hs : s.store.state ≠ .saving) :
    reqRestart s = if s.presentSecs.any fun i => (s.sec i).moving then refuse s .state noIndex
      else served (s.setStore { s.store with pendingRestart := true })
        { code := .done, offending := noIndex, count := 0, values := [], tie := .restart } := by
  unfold reqRestart
  rw [if_not_true (hasLevel_engineer hl), if_neg hs]

/-- A save ends with a good copy, or with none. -/
theorem completeSave_saving {s : State} (h : s.store.state = .saving) :
    (∀ t, s.store.snapshot = some t →
      s.completeSave .confirmed = (s.setStore (s.store.saved t)).noteStore false) ∧
    (∀ o, o ≠ .confirmed → s.completeSave o = (s.setStore s.store.failed).noteStore true) := by
  unfold State.completeSave
  refine ⟨fun t ht => by simp only [h, ht], fun o ho => ?_⟩
  cases o with
  | confirmed => exact absurd rfl ho
  | writeFailed => simp only [h]
  | crcDiffers => simp only [h]

theorem completeSave_none {s : State} (h : s.store.state ≠ .saving) (o : SaveOutcome) : s.completeSave o = s := by
  unfold State.completeSave
  cases hs : s.store.state with
  | saving => exact absurd hs h
  | invalid => rfl
  | valid => rfl

theorem exec_saveCompletion {s : State} (h : s.phase = .inService) (o : SaveOutcome) :
    exec (.saveCompletion o) s = .next (s.completeSave o) :=
  congrArg Host.Outcome.next (serving_inService h fun t => t.completeSave o)

/-- The frame of a RESTART's reply, sent while the restart is pending, resets the part. -/
theorem frameSent_restart {s : State} {f : TxFrame} (hf : f.tie = .restart) (hp : s.store.pendingRestart = true) :
    s.frameSent f = s.takeReset s.part.config := by
  unfold State.frameSent
  rw [hf]
  exact if_pos hp

theorem takeReset_runner (s : State) (w : Byte) (r : Fin 4) : (s.takeReset w).runner r = Runner.reset := by
  fin_cases r <;> rfl

/-- A reset outside a save keeps the store's copy. -/
theorem takeReset_copy {s : State} (h : s.store.state ≠ .saving) (w : Byte) :
    (s.takeReset w).store.copy = s.store.copy := if_neg h

/-- Settles O51. -/
theorem saveAndRestart : Obligations.SaveAndRestart := by
  intro s
  refine ⟨fun h hl hs => ⟨?_, ?_⟩, fun h hl hs => ⟨?_, fun hm => ?_, fun hm => ?_⟩, fun h => ⟨fun hs o => ?_,
    fun t hs ht => ?_, fun o hs ho => ?_, fun fs f hd htx hfs hf hp hs => ?_⟩⟩
  · exact asksFor_saveTables.refused h ((if_not_true (hasLevel_engineer hl) _ _).trans (if_pos hs))
  · exact asksFor_restart.refused h ((if_not_true (hasLevel_engineer hl) _ _).trans (if_pos hs))
  · refine ⟨s.snapshot, asksFor_saveTables.exec h
      ((if_not_true (hasLevel_engineer hl) _ _).trans (if_neg hs)) (asked_quiet h.quiet), rfl, rfl, rfl, fun i => ?_⟩
    rw [snapshot_section]
    exact ⟨rfl, (saved_cfg _).1, (saved_cfg _).2, saved_member _⟩
  · exact asksFor_restart.refused h
      ((reqRestart_engineer (s := s.asked) hl hs).trans (if_pos ((anyMoving_iff s.asked).mpr hm)))
  · exact asksFor_restart.exec h ((reqRestart_engineer (s := s.asked) hl hs).trans
      (if_neg fun hany => not_moves hm ((anyMoving_iff s.asked).mp hany))) (asked_quiet h.quiet)
  · rw [exec_saveCompletion h, completeSave_none hs]
  · rw [exec_saveCompletion h, (completeSave_saving hs).1 t ht]
    rfl
  · rw [exec_saveCompletion h, (completeSave_saving hs).2 o ho]
    rfl
  · have hburst : s.completeBurst .up =
        ((s.setUp { s.up with tx := [], sentBits := 0 }).takeReset s.part.config).releasePort .up := by
      rw [completeBurst_up_last hd htx hfs, frameSent_restart hf (by exact hp)]
      rfl
    refine ⟨_, (exec_burstComplete h .up).trans (congrArg Host.Outcome.next hburst), rfl, rfl, rfl,
      takeReset_copy hs s.part.config, rfl, rfl, rfl, rfl, rfl, rfl, rfl, fun k => ?_, fun i => ?_,
      fun r => takeReset_runner s s.part.config r, rfl⟩
    · exact EntryLaw.stepRec_reset s .startUp s.part.config k
    · exact EntryLaw.sec_reset s .startUp s.part.config i

end Sys2Proof.Machine
end

section
/-! PROOF. The log: the values of a record, the service of the waiters, FETCH LOG and DROP LOG, and the statement O49. -/

namespace Sys2Proof.Machine

open Sys2Proof

/-! ## The characters of a record (section 11.3) -/

theorem chars32_append (a b c d : Byte) : chars32 (a ++ b ++ c ++ d) = [a, b, c, d] := by
  have ha : (a ++ b ++ c ++ d).extractLsb' 24 8 = a := (BitVec.extractLsb'_append_eq_of_le (by decide)).trans
    ((BitVec.extractLsb'_append_eq_of_le (by decide)).trans BitVec.extractLsb'_append_eq_left)
  have hb : (a ++ b ++ c ++ d).extractLsb' 16 8 = b := (BitVec.extractLsb'_append_eq_of_le (by decide)).trans
    ((BitVec.extractLsb'_append_eq_of_le (by decide)).trans BitVec.extractLsb'_append_eq_right)
  have hc : (a ++ b ++ c ++ d).extractLsb' 8 8 = c :=
    (BitVec.extractLsb'_append_eq_of_le (by decide)).trans BitVec.extractLsb'_append_eq_right
  unfold chars32
  rw [ha, hb, hc, BitVec.extractLsb'_append_eq_right]

/-- Values grouped from whole groups of four characters give the characters back. -/
theorem groupValues_chars (l : List Byte) (h : 4 ∣ l.length) :
    (groupValues l).flatMap chars32 = l ∧ 4 * (groupValues l).length = l.length := by
  induction l using groupValues.induct with
  | case1 a b c d rest ih =>
    obtain ⟨hchars, hlen⟩ := ih (by simp only [List.length_cons] at h; omega)
    simp only [groupValues]
    rw [List.flatMap_cons, hchars, chars32_append, List.length_cons]
    exact ⟨rfl, by simp only [List.length_cons]; omega⟩
  | case2 l hl =>
    match l, hl, h with
    | [], _, _ => exact ⟨rfl, rfl⟩
    | [_], _, h => exact absurd (Nat.le_of_dvd (by decide : 0 < 1) h) (by decide : ¬4 ≤ 1)
    | [_, _], _, h => exact absurd (Nat.le_of_dvd (by decide : 0 < 2) h) (by decide : ¬4 ≤ 2)
    | [_, _, _], _, h => exact absurd (Nat.le_of_dvd (by decide : 0 < 3) h) (by decide : ¬4 ≤ 3)
    | a :: b :: c :: d :: rest, hl, _ => exact absurd rfl (hl a b c d rest)

theorem memberEntryChars_length (e : Option MemberEntry) : (memberEntryChars e).length = 7 := by
  cases e <;> rfl

/-- The first half of a record, and the four member entries. -/
theorem recordChars_eq (r : CaptureRecord) : ∃ head, recordChars r = head ++
      (memberEntryChars (r.members.find? fun e => e.slot == 0) ++
        (memberEntryChars (r.members.find? fun e => e.slot == 1) ++
          (memberEntryChars (r.members.find? fun e => e.slot == 2) ++
            memberEntryChars (r.members.find? fun e => e.slot == 3)))) ∧
    head.length = 28 ∧
    head = [match r.kind with
        | .stepEnd => 0
        | .capture => 1
        | .testEnd => 2, BitVec.ofNat 8 r.runner.val] ++ chars16 r.seq ++ chars32 r.count ++
      [BitVec.ofNat 8 r.sec.val, BitVec.ofNat 8 r.step.val] ++
      (match r.outcome with
        | .met => [0, 0]
        | .done => [1, 0]
        | .timeout => [2, 0]
        | .completed => [3, 0]
        | .stopped => [4, 0]
        | .aborted cause => [5, toByte cause.code]) ++
      chars32 (BitVec.ofNat 32 r.elapsed) ++
      [(if r.flags.draw then 1 else 0) + (if r.flags.compensation then 2 else 0) +
        (if r.flags.saturated then 4 else 0)] ++
      chars24 (BitVec.ofInt 24 r.applied) ++ chars24 (BitVec.ofInt 24 r.leadSpeed) ++
      chars24 (BitVec.ofInt 24 r.offset) ++ chars16 (BitVec.ofInt 16 r.load) := by
  have hkind : toByte r.kind.code = match r.kind with
      | .stepEnd => 0
      | .capture => 1
      | .testEnd => 2 := by cases r.kind <;> rfl
  have hout : [r.outcome.code, toByte r.outcome.causeCode] = match r.outcome with
      | .met => [0, 0]
      | .done => [1, 0]
      | .timeout => [2, 0]
      | .completed => [3, 0]
      | .stopped => [4, 0]
      | .aborted cause => [5, toByte cause.code] := by cases r.outcome <;> rfl
  have hflags : toByte r.flags.code = (if r.flags.draw then 1 else 0) + (if r.flags.compensation then 2 else 0) +
      (if r.flags.saturated then 4 else 0) := by
    unfold ClampFlags.code
    cases r.flags.draw <;> cases r.flags.compensation <;> cases r.flags.saturated <;> rfl
  refine ⟨[toByte r.kind.code, BitVec.ofNat 8 r.runner.val] ++ chars16 r.seq ++ chars32 r.count
    ++ [BitVec.ofNat 8 r.sec.val, BitVec.ofNat 8 r.step.val] ++ [r.outcome.code, toByte r.outcome.causeCode]
    ++ chars32 (BitVec.ofNat 32 r.elapsed) ++ [toByte r.flags.code]
    ++ chars24 (BitVec.ofInt 24 r.applied) ++ chars24 (BitVec.ofInt 24 r.leadSpeed)
    ++ chars24 (BitVec.ofInt 24 r.offset) ++ chars16 (BitVec.ofInt 16 r.load), ?_, rfl, ?_⟩
  · unfold recordChars allSlots
    simp only [List.append_assoc, List.flatMap_cons, List.flatMap_nil, List.append_nil, List.cons_append, List.nil_append]
  · rw [hkind, hout, hflags]

theorem recordChars_length (r : CaptureRecord) : (recordChars r).length = 56 := by
  obtain ⟨head, hr, hlen, _⟩ := recordChars_eq r
  rw [hr]
  simp only [List.length_append, hlen, memberEntryChars_length]

/-- The seven characters of one member entry. -/
theorem recordChars_member (r : CaptureRecord) (k : Fin 4) :
    ((recordChars r).drop (28 + 7 * k.val)).take 7 = memberEntryChars (r.members.find? fun e => e.slot == k) := by
  obtain ⟨head, hr, hlen, _⟩ := recordChars_eq r
  have h0 := memberEntryChars_length (r.members.find? fun e => e.slot == 0)
  have h1 := memberEntryChars_length (r.members.find? fun e => e.slot == 1)
  have h2 := memberEntryChars_length (r.members.find? fun e => e.slot == 2)
  have h3 := memberEntryChars_length (r.members.find? fun e => e.slot == 3)
  rw [hr, ← List.drop_drop, List.drop_left' hlen]
  match k with
  | 0 => exact List.take_left' h0
  | 1 =>
    rw [List.drop_left' (by exact h0)]
    exact List.take_left' h1
  | 2 =>
    rw [← List.append_assoc, List.drop_left' (by rw [List.length_append, h0, h1]; rfl)]
    exact List.take_left' h2
  | 3 =>
    rw [← List.append_assoc, ← List.append_assoc,
      List.drop_left' (by rw [List.length_append, List.length_append, h0, h1, h2]; rfl)]
    exact List.take_of_length_le (Nat.le_of_eq h3)

theorem recordValues_chars (r : CaptureRecord) :
    (recordValues r).flatMap chars32 = recordChars r ∧ (recordValues r).length = 14 := by
  have hlen := recordChars_length r
  obtain ⟨hchars, hfour⟩ := groupValues_chars (recordChars r) (by rw [hlen]; decide)
  exact ⟨hchars, by unfold recordValues; omega⟩

/-! ## The service of the waiters (R147) -/

theorem serveWaiters_stop {u : State} (h : u.log.waiters = [] ∨ 64 - u.log.records.length ≤ u.notIdle) (n : Nat) :
    State.serveWaiters n u = u := by
  cases n with
  | zero => rfl
  | succ n =>
    unfold State.serveWaiters
    cases hw : u.log.waiters with
    | nil => rfl
    | cons r rest =>
      have hfull := h.resolve_left (by rw [hw]; exact List.cons_ne_nil _ _)
      exact if_neg fun hp => Nat.not_lt.mpr hfull (of_decide_eq_true hp)

theorem serveRunner_eq {u : State} {r : Fin 4} {rest : List (Fin 4)} {c : CaptureRecord} (hw : u.log.waiters = r :: rest)
    (hr : r ∉ rest) (hc : (u.runner r).pendingRecord = some c) : u.serveRunner r = State.goOn
      { u.setRunner r { u.runner r with pendingRecord := none, state := .running } with
        log := { u.log with
          waiters := rest, records := u.log.records ++ [{ c with seq := u.log.nextSeq }]
          nextSeq := u.log.nextSeq + 1 } } r := by
  have hrest : (r :: rest).filter (fun q => q != r) = rest := by
    rw [List.filter_cons_of_neg (by simp)]
    exact List.filter_eq_self.mpr fun q hq => bne_iff_ne.mpr fun e => hr (e ▸ hq)
  unfold State.serveRunner State.leaveWaiters State.modLog
  simp only [hc]
  have hwaiters : ((u.writeRecord c).setRunner r
      { u.runner r with pendingRecord := none, state := .running }).log.waiters = r :: rest := hw
  rw [hwaiters, hrest]
  rfl

theorem serveWaiters_serves {u : State} {r : Fin 4} {rest : List (Fin 4)} (hw : u.log.waiters = r :: rest)
    (hp : u.notIdle < 64 - u.log.records.length) (n : Nat) :
    State.serveWaiters (n + 1) u = State.serveWaiters n (u.serveRunner r) := by
  have hplace : u.hasPlace = true := decide_eq_true hp
  conv_lhs => unfold State.serveWaiters
  rw [hw]
  exact if_pos hplace

/-! ## FETCH LOG and DROP LOG (R149, R150) -/

theorem reqFetchLog_in {s : State} {args : List Byte} {n : Nat} (ha : arg args 0 = n) (h1 : 1 ≤ n) (h2 : n ≤ 2) :
    reqFetchLog args s = served s
      { code := if s.log.records.length < n then .doneClamped else .done, offending := 0xFF
        count := min n s.log.records.length, tie := .plain
        values := (s.log.records.take n).flatMap recordValues } := by
  have hlt : min n s.log.records.length < n ↔ s.log.records.length < n := by omega
  unfold reqFetchLog
  rw [ranged_in (by omega), ha]
  simp only [Int.toNat_natCast, List.length_take, hlt]

theorem reqDropLog_in {s : State} (hl : s.mgmt.access ≠ .monitor) {args : List Byte} {n : Nat} (ha : arg args 0 = n)
    (h1 : 1 ≤ n) (h64 : n ≤ 64) : reqDropLog args s = served (s.dropLog n)
      { code := if s.log.records.length < n then .doneClamped else .done, offending := 0xFF
        count := min s.log.records.length n, tie := .plain
        values := [toValue (s.dropLog n).log.records.length,
          toValue ((64 - (s.dropLog n).log.records.length : Nat) : Int)] } := by
  unfold reqDropLog
  rw [if_not_true (hasLevel_operate hl), ranged_in (by omega), ha]
  rfl

theorem dropLog_eq {s : State} {n : Nat} (hn : 1 ≤ n) :
    (s.log.records = [] ∨ s.log.waiters = [] → s.dropLog n = s.dropRecords n) ∧
    (s.log.records ≠ [] → s.dropLog n = State.serveWaiters s.log.waiters.length (s.dropRecords n)) := by
  have hne : (n == 0) = false := beq_eq_false_iff_ne.mpr (by omega)
  have hserve (h : s.log.records ≠ []) :
      s.dropLog n = State.serveWaiters s.log.waiters.length (s.dropRecords n) := by
    unfold State.dropLog
    rw [hne, Bool.or_false]
    exact if_neg fun he => h (List.isEmpty_iff.mp he)
  refine ⟨fun h => ?_, hserve⟩
  by_cases hr : s.log.records = []
  · unfold State.dropLog
    rw [hr]
    rfl
  · rw [hserve hr, h.resolve_left hr]
    rfl

/-- Settles O49. -/
theorem fetchAndDropLog : Obligations.FetchAndDropLog := by
  refine ⟨fun s args h hl => ⟨fun hbad => ?_, fun n ha h1 h2 => ?_, fun hlev hbad => ?_, fun n hlev ha h1 h64 => ?_⟩,
    fun u n hstop => serveWaiters_stop hstop n, fun u n r rest rec hw hr hp hc => ?_, fun r cs hcs => ?_⟩
  · refine (asksFor_fetchLog hl).refused h ?_
    unfold reqFetchLog
    rw [ranged_out hbad]
  · exact (asksFor_fetchLog hl).exec h (reqFetchLog_in ha h1 h2) (asked_quiet h.quiet)
  · refine (asksFor_dropLog hl).refused h ?_
    unfold reqDropLog
    rw [if_not_true (hasLevel_operate (s := s.asked) hlev), ranged_out hbad]
  · obtain ⟨hdrop, hserve⟩ := dropLog_eq (s := s.asked) h1
    exact ⟨s.asked.dropLog n, s.asked.dropRecords n, rfl, hdrop, fun hr _ => hserve hr,
      (asksFor_dropLog hl).exec h (reqDropLog_in (s := s.asked) hlev ha h1 h64)
        ((dropLog_secsOnly s.asked n).quiet (asked_quiet h.quiet))⟩
  · rw [serveWaiters_serves hw hp, serveRunner_eq hw hr hc]
  · obtain ⟨hchars, hlen⟩ := recordValues_chars r
    rw [hchars] at hcs
    subst hcs
    refine ⟨hlen, recordChars_length r, ?_, fun k => ⟨fun hno => ?_, fun before e after hm he hb => ?_⟩⟩
    · obtain ⟨head, hr, hhead, heq⟩ := recordChars_eq r
      rw [hr, List.take_left' hhead]
      exact heq
    · have hnone : (r.members.find? fun e => e.slot == k) = none :=
        List.find?_eq_none.mpr fun e hm he => hno e hm (beq_iff_eq.mp he)
      rw [recordChars_member, hnone]
      rfl
    · have hfind : (r.members.find? fun e => e.slot == k) = some e := by
        rw [hm, List.find?_append, List.find?_eq_none.mpr fun x hx he => hb x hx (beq_iff_eq.mp he)]
        exact List.find?_cons_of_pos (p := fun x : MemberEntry => x.slot == k) (beq_iff_eq.mpr he)
      rw [recordChars_member, hfind]
      rfl

end Sys2Proof.Machine
end

section
/-! PROOF. The entry into a step and the end of one, with the statements O37 and O36. -/

namespace Sys2Proof.Machine

open Sys2Proof

/-! ## The entry checks (R123) -/

theorem entryFailure_badStep {rec : StepRecord} {x : Section}
    (h : rec.present = false ∨ (rec.action = .weight ∧ x.cfg.memberCount ≤ rec.memberSlot.val)) :
    entryFailure rec x = some .badStep := by
  unfold entryFailure
  by_cases hp : rec.present = false
  · rw [hp]
    rfl
  · rw [if_neg (by simpa using hp), if_pos (h.resolve_left hp)]

theorem entryFailure_wrongSource {rec : StepRecord} {x : Section} (hp : rec.present = true) (ha : rec.action = .draw)
    (hs : x.source = .follow) : entryFailure rec x = some .wrongSource := by
  unfold entryFailure
  rw [if_neg (by simp [hp]), if_neg (by simp [ha]), if_pos ⟨ha, by rw [hs]; decide⟩]

theorem entryFailure_none {rec : StepRecord} {x : Section} (hp : rec.present = true)
    (hw : rec.action = .weight → rec.memberSlot.val < x.cfg.memberCount)
    (hd : rec.action = .draw → x.source = .cascade) : entryFailure rec x = none := by
  unfold entryFailure
  rw [if_neg (by simp [hp]), if_neg fun h => Nat.not_lt.mpr h.2 (hw h.1), if_neg fun h => h.2 (hd h.1)]

theorem enterStep_fails {s : State} {r : Fin 4} {i : Fin 16} {n : Fin 96} {c : AbortCause}
    (hi : (s.runner r).claimed = some i) (h : entryFailure (s.stepRec n) (s.sec i) = some c) :
    s.enterStep r n = s.failEntry r n c := by
  unfold State.enterStep
  simp only [hi, h]

theorem enterStep_enters {s : State} {r : Fin 4} {i : Fin 16} {n : Fin 96} (hi : (s.runner r).claimed = some i)
    (h : entryFailure (s.stepRec n) (s.sec i) = none) :
    s.enterStep r n = (s.setRunner r ((s.runner r).entered n)).entryEffect r i (s.stepRec n) := by
  unfold State.enterStep
  simp only [hi, h]

/-! ## A failed entry (R123, R131) -/

/-- A failed entry of a RUNNING runner aborts it, with the step it did not enter as its current step. -/
theorem failEntry_runner {s : State} {r : Fin 4} (hrun : (s.runner r).state = .running) (n : Fin 96) (c : AbortCause) :
    (s.failEntry r n c).runner r = { s.runner r with
      step := some n, elapsed := 0, flags := { draw := false, compensation := false, saturated := false }
      state := .idle, claimed := none, offset := 0, outcome := .aborted, abortCause := c } := by
  unfold State.failEntry
  rw [abortRunner_runner, runner_setRunner, if_pos rfl, if_pos ⟨rfl, by simp [hrun]⟩]
  simp only [Runner.abortedBy, hrun, ClampFlags.clear]
  rfl

theorem failEntry_sections (s : State) (r : Fin 4) (n : Fin 96) (c : AbortCause) :
    (s.failEntry r n c).sections = s.sections := (abortRunner_testsOnly _ r c).sections

/-! ## The entry effects (R108) -/

/-- A draw adjustment and the record of a runner do not meet. -/
theorem foldl_modSec_setRunner (f : Section → Section) (l : List (Fin 16)) (s : State) (r : Fin 4) (u : Runner) :
    l.foldl (fun t c => t.modSec c f) (s.setRunner r u) = (l.foldl (fun t c => t.modSec c f) s).setRunner r u := by
  induction l generalizing s with
  | nil => rfl
  | cons c l ih => exact ih (s.modSec c f)

theorem adjustDraw_setRunner (s : State) (r : Fin 4) (u : Runner) (i : Fin 16) (d : Int) (m : DrawMode) :
    (s.setRunner r u).adjustDraw i d m =
      { s.adjustDraw i d m with state := (s.adjustDraw i d m).state.setRunner r u } := by
  cases m with
  | carry => rfl
  | hold =>
    unfold State.adjustDraw
    exact congrArg (fun t => ({ state := t, ownClamped := _, childClamped := _ } : Adjusted))
      (foldl_modSec_setRunner _ _ (s.adjustOwn i d) r u)

/-- Settles O37. -/
theorem stepEntry : Obligations.StepEntry := by
  rintro s r i n sr u e hrun hi rfl rfl rfl
  have hown (v : Runner) : (s.setRunner r v).runner r = v := (runner_setRunner s r r v).trans (if_pos rfl)
  refine ⟨fun hbad => ?_, fun hp ha hs => ?_, fun hp => ⟨fun ha => ?_, fun ha => ?_, fun ha => ?_, fun ha => ?_,
    fun ha hw => ?_, fun ha hs => ?_⟩⟩
  · rw [enterStep_fails hi (entryFailure_badStep hbad)]
    exact ⟨failEntry_runner hrun n _, failEntry_sections s r n _⟩
  · rw [enterStep_fails hi (entryFailure_wrongSource hp ha hs)]
    exact ⟨failEntry_runner hrun n _, failEntry_sections s r n _⟩
  · rw [enterStep_enters hi (entryFailure_none hp (by rcases ha with ha | ha <;> simp [ha])
      (by rcases ha with ha | ha <;> simp [ha]))]
    unfold State.entryEffect
    rcases ha with ha | ha <;> rw [ha] <;> rfl
  all_goals
    rw [enterStep_enters hi (entryFailure_none hp (by simp [*]) (by simp [*]))]
    unfold State.entryEffect
    rw [ha]
    dsimp only
  · rw [hown, setRunner_setRunner]
    rfl
  · rw [hown, setRunner_setRunner]
    rfl
  · rw [hown, setRunner_setRunner]
    rfl
  · rfl
  · rw [hown, adjustDraw_setRunner, setRunner_setRunner]
    rfl

/-! ## The end of a step (R118, R127 to R130) -/

/-- A step end that has no record to write. -/
theorem stepEnd_plain {s : State} {r : Fin 4} {sr : StepRecord} (h : sr.recordDue = none) (o : RecordOutcome) :
    s.stepEnd r sr o = s.goOn r := by
  unfold State.stepEnd
  rw [h]

theorem stepEnd_due {s : State} {r : Fin 4} {sr : StepRecord} {kind : RecordKind} (h : sr.recordDue = some kind)
    (o : RecordOutcome) : s.stepEnd r sr o =
      if s.hasPlace then (s.writeRecord (s.formRecord r kind o)).goOn r
      else s.holdRecord r (s.formRecord r kind o) := by
  unfold State.stepEnd
  rw [h]

theorem goOn_next {s : State} {r : Fin 4} {k : Fin 96} (hk : (s.runner r).step = some k) :
    (∀ n, (s.stepRec k).nextStep = some n → s.goOn r = s.enterStep r n) ∧
    ((s.stepRec k).nextStep = none → s.goOn r = s.completeTest r) := by
  unfold State.goOn
  simp only [hk]
  exact ⟨fun n hn => by rw [hn], fun hn => by rw [hn]⟩

theorem recordDue_eq (sr : StepRecord) : sr.recordDue =
    if (decide (sr.action = .capture) || sr.captureAtEnd) = true then
      some (if sr.action = .capture then .capture else .stepEnd) else none := by
  unfold StepRecord.recordDue
  by_cases ha : sr.action = .capture
  · simp [ha]
  · simp [ha]

/-- The record a step end forms. -/
theorem formRecord_eq {s : State} {r : Fin 4} {i : Fin 16} {k : Fin 96} (hi : (s.runner r).claimed = some i)
    (hk : (s.runner r).step = some k) (kind : RecordKind) (o : RecordOutcome) : s.formRecord r kind o =
      { seq := 0, count := s.cyc.cycleCount, kind := kind, runner := r, sec := i, step := k, outcome := o
        elapsed := (s.runner r).elapsed, applied := (s.sec i).applied, leadSpeed := ((s.sec i).member 0).speed
        load := (s.sec i).load, offset := (s.runner r).offset, flags := (s.runner r).flags
        members := (s.sec i).memberList } := by
  unfold State.formRecord
  simp only [hi, hk, Option.getD_some]

/-- Settles O36. -/
theorem stepEndRecordsAndGoesOn : Obligations.StepEndRecordsAndGoesOn := by
  rintro s r i k sr out rec due place hrun hi hk rfl rfl rfl rfl
  have hdue := recordDue_eq (s.stepRec k)
  have hform := formRecord_eq hi hk
    (if (s.stepRec k).action = .capture then .capture else .stepEnd) out
  refine ⟨fun hd hno => ?_, fun t ht hroom => ?_⟩
  · rw [stepEnd_due (hdue.trans (if_pos hd)), if_neg (by exact fun h => hno (of_decide_eq_true h)), hform]
    rfl
  have hgo : s.stepEnd r (s.stepRec k) out = t.goOn r := by
    by_cases hd : (decide ((s.stepRec k).action = .capture) || (s.stepRec k).captureAtEnd) = true
    · rw [if_pos hd] at ht
      rw [stepEnd_due (hdue.trans (if_pos hd)), if_pos (by exact decide_eq_true (hroom hd)), hform, ht]
      rfl
    · rw [if_neg hd] at ht
      rw [stepEnd_plain (hdue.trans (if_neg hd)), ht]
  have hrunner : t.runner r = s.runner r := by
    rw [ht]
    split <;> rfl
  have hstep : t.stepRec k = s.stepRec k := by
    rw [ht]
    split <;> rfl
  obtain ⟨hnext, hlast⟩ := goOn_next (s := t) (hrunner ▸ hk)
  rw [hstep] at hnext hlast
  refine ⟨fun n hn => hgo.trans (hnext n hn), fun hn => (hgo.trans (hlast hn)).trans ?_⟩
  unfold State.completeTest
  rw [endTest_eq hrunner hi, ht, hk]
  split <;> rfl

end Sys2Proof.Machine
end

section
/-! PROOF. The report of a member and the end of its slot, with the statements O26 and O27. -/

namespace Sys2Proof.Machine

open Sys2Proof

/-! ## A MEMBER REPORT (R12, R34) -/

theorem reportOf_payload (e : Byte) (v : Speed24) (q : Torque16) (f : Byte) :
    reportOf (memberReportPayload e v q f) = { speed := v, torque := q, status := f } := by
  have hv : num24 (memberReportPayload e v q f) 1 = v := num24_cons_chars24 e v
  have hq : num16 (memberReportPayload e v q f) 4 = q := num16_chars16 q
  unfold reportOf
  rw [hv, hq]
  rfl

/-- A MEMBER REPORT handed over is taken by the slot that runs, or dropped. -/
theorem takeMemberReport_runs {s : State} {c : Cycle} {n : SlotRef} (hc : s.cyc.inFlight = some c)
    (hw : c.windowOpen = true) (hn : c.slots[c.pos]? = some n) (a e : Byte) (v : Speed24) (q : Torque16) (f : Byte) :
    s.takeMemberReport a (s.stamp .dn) (memberReportPayload e v q f) =
      if a = n.address ∧ e = s.cyc.cycleNumber ∧ c.report = none then
        s.setInFlight (some { c with report := some { speed := v, torque := q, status := f } })
      else s := by
  have hcur : c.current = some n := (if_pos hw).trans hn
  have hstamp : (s.stamp .dn).slot = some { cycle := s.cyc.cycleNumber, slot := c.pos } := by
    unfold State.stamp State.slotMoment
    simp only [hc]
    exact if_pos hw
  have hacc : s.acceptsReport c n a (s.stamp .dn) (memberReportPayload e v q f) = true ↔
      a = n.address ∧ e = s.cyc.cycleNumber ∧ c.report = none := by
    unfold State.acceptsReport
    rw [hstamp]
    simp only [Bool.and_eq_true, beq_iff_eq, true_and, Option.isNone_iff_eq_none, and_assoc]
    exact Iff.rfl
  unfold State.takeMemberReport
  simp only [hc, hcur, hacc, reportOf_payload]

theorem takeMemberReport_idle {s : State} (h : s.cyc.inFlight = none ∨
    ∃ c, s.cyc.inFlight = some c ∧ c.windowOpen = false) (a : Byte) (st : Stamp) (pl : List Byte) :
    s.takeMemberReport a st pl = s := by
  unfold State.takeMemberReport
  rcases h with h | ⟨c, h, hw⟩
  · simp only [h]
  · have hcur : c.current = none := if_neg (by rw [hw]; decide)
    simp only [h, hcur]

theorem handOff_memberReport {s : State} (h : s.link.loopback = false) (a : Byte) (st : Stamp) (e : Byte) (v : Speed24)
    (q : Torque16) (f : Byte) : s.handOff .dn a kindMemberReport (memberReportPayload e v q f) st =
      s.takeMemberReport a st (memberReportPayload e v q f) := by
  unfold State.handOff State.handOffDn
  rw [if_neg (by rw [h]; decide)]
  rfl

theorem takeMemberReport_quiet {s : State} (h : s.Quiet) (a : Byte) (st : Stamp) (pl : List Byte) :
    (s.takeMemberReport a st pl).Quiet := by
  unfold State.takeMemberReport
  split
  · exact h
  · split
    · exact h
    · split
      · exact h
      · exact h

/-- A MEMBER REPORT heard at the DN port: from an address off the poll list it is lost, else it is handed over. -/
theorem exec_memberReport_heard {s : State} (h : s.Hears .dn) (a e : Byte) (v : Speed24) (q : Torque16) (f : Byte) :
    (a ∉ s.cyc.pollInForce → exec (.memberReport a e v q f) s = .next (s.heard .dn)) ∧
    (a ∈ s.cyc.pollInForce → exec (.memberReport a e v q f) s =
      .next ((s.heard .dn).takeMemberReport a (s.stamp .dn) (memberReportPayload e v q f))) := by
  have hl := h.outside rfl
  have hk : s.filterKeeps .dn a = s.cyc.pollInForce.contains a := if_neg (by rw [hl]; decide)
  rw [exec_memberReport hl, serving_inService (phase_of_receives h.listening)]
  refine ⟨fun hno => ?_, fun hin => ?_⟩
  · rw [receiveFrame_rejected h.quiet h.listening h.waiting _ _ _ (by rw [hk]; simpa using hno)]
  · have hhand := handOff_memberReport (s := s.heard .dn) hl a (s.stamp .dn) e v q f
    rw [receiveFrame_quiet h.quiet h.listening h.waiting _ _ _ (by show 7 ≤ 124; decide)
      (by rw [hk]; simpa using hin), hhand]
    rw [hhand]
    exact takeMemberReport_quiet (heard_quiet h.quiet .dn) _ _ _

/-- Settles O26. -/
theorem memberReportTaken : Obligations.MemberReportTaken := by
  intro s a e v q f h
  obtain ⟨hoff, hon⟩ := exec_memberReport_heard h a e v q f
  refine ⟨fun c n hc hw hn => ?_, fun hidle => ?_⟩
  · have htake := takeMemberReport_runs (s := s.heard .dn) hc hw hn a e v q f
    refine ⟨fun hin ha he hr => ?_, fun hno => ?_⟩
    · exact (hon hin).trans (congrArg Host.Outcome.next (htake.trans (if_pos ⟨ha, he, hr⟩)))
    · by_cases hin : a ∈ s.cyc.pollInForce
      · refine (hon hin).trans (congrArg Host.Outcome.next (htake.trans (if_neg ?_)))
        rintro ⟨ha, he, hr⟩
        rcases hno with hno | hno | hno | hno
        · exact hno hin
        · exact hno ha
        · exact hno he
        · exact hno hr
      · exact hoff hin
  · by_cases hin : a ∈ s.cyc.pollInForce
    · exact (hon hin).trans (congrArg Host.Outcome.next (takeMemberReport_idle (s := s.heard .dn) hidle _ _ _))
    · exact hoff hin

/-! ## The end of a slot (R33, R35) -/

theorem endSlot_idle {s : State} (h : s.cyc.inFlight = none ∨ ∃ c, s.cyc.inFlight = some c ∧ c.windowOpen = false) :
    s.endSlot = s := by
  unfold State.endSlot
  rcases h with h | ⟨c, h, hw⟩
  · simp only [h]
  · have hcur : c.current = none := if_neg (by rw [hw]; decide)
    simp only [h, hcur]

/-- What a slot delivers: nothing for a withdrawn section, else the report, or the miss outside a link test. -/
theorem deliverSlot_dropped {s : State} {c : Cycle} {q : SlotRef} (h : q.sec ∈ c.dropped) : s.deliverSlot c q = s :=
  if_pos (List.contains_iff_mem.mpr h)

theorem deliverSlot_report {s : State} {c : Cycle} {q : SlotRef} (h : q.sec ∉ c.dropped) {r : MemberRep}
    (hr : c.report = some r) : s.deliverSlot c q =
      s.setSec q.sec ((s.sec q.sec).setMember q.slot (((s.sec q.sec).member q.slot).takeReport r)) := by
  unfold State.deliverSlot
  rw [if_neg fun hc => h (List.contains_iff_mem.mp hc), hr]
  rfl

theorem deliverSlot_miss {s : State} {c : Cycle} {q : SlotRef} (h : q.sec ∉ c.dropped) (hr : c.report = none) :
    s.deliverSlot c q = if s.link.running then s else
      s.setSec q.sec ((s.sec q.sec).setMember q.slot ((s.sec q.sec).member q.slot).takeMiss) := by
  unfold State.deliverSlot
  rw [if_neg fun hc => h (List.contains_iff_mem.mp hc), hr]
  rfl

theorem takeReport_eq (m : Member) (r : MemberRep) : m.takeReport r = { m with
    result := .valid
    speed := max (-250000) (min 250000 r.speed.toInt)
    torque := max (-3000) (min 3000 r.torque.toInt)
    status := { ready := r.status.getLsbD 0, running := r.status.getLsbD 1, fault := r.status.getLsbD 2
                limit := r.status.getLsbD 3 } } := by
  unfold Member.takeReport
  rw [clampInt_eq_max_min (by decide), clampInt_eq_max_min (by decide)]
  rfl

/-- The slot is its section's last, and the section is delivered. -/
theorem completes_iff (c : Cycle) (q : SlotRef) :
    c.completes q = true ↔ (∀ n, c.slots[c.pos + 1]? = some n → n.sec ≠ q.sec) ∧ q.sec ∉ c.dropped := by
  unfold Cycle.completes Cycle.lastOfSection
  rw [Bool.and_eq_true, Bool.not_eq_true', ← Bool.not_eq_true, List.contains_iff_mem]
  refine and_congr_left fun _ => ?_
  cases c.slots[c.pos + 1]? with
  | none => simp
  | some n => simp

theorem closeSlot_open {s : State} {c : Cycle} {q : SlotRef} (h : c.completes q = false) :
    s.closeSlot c q = { s.deliverSlot c q with
      cyc := { s.cyc with inFlight := some { c with pos := c.pos + 1, slotBits := 0, report := none } } } := by
  obtain ⟨_, _, _, _, _, hcyc, _⟩ := (deliverSlot_secsOnly s c q).keeps
  have hclose : s.closeSlot c q = (s.deliverSlot c q).setInFlight (some c.nextSlot) :=
    if_neg (by rw [h]; decide)
  rw [hclose, ← hcyc]
  rfl

/-- Settles O27. -/
theorem slotResultDelivered : Obligations.SlotResultDelivered := by
  refine ⟨fun s hs hq hidle => ?_, fun s c q h => ⟨s.deliverSlot c q, s.closeSlot c q, exec_slotEnd h, rfl, rfl,
    fun hmore => if_pos hmore, fun hopen => closeSlot_open (Bool.eq_false_iff.mpr fun hc => ?_),
    deliverSlot_dropped, fun hd hr hl => ?_, fun hd hr hl => ?_, fun r hd hr => ?_⟩⟩
  · show Host.Outcome.next (s.serving fun t => t.endSlot.settle) = _
    rw [serving_inService hs, endSlot_idle hidle, settle_quiet hq]
  · obtain ⟨hlast, hin⟩ := (completes_iff c q).mp hc
    rcases hopen with ⟨n, hn, hsec⟩ | hdrop
    · exact hlast n hn hsec
    · exact hin hdrop
  · exact (deliverSlot_miss hd hr).trans (if_pos hl)
  · exact (deliverSlot_miss hd hr).trans (if_neg (by rw [hl]; decide))
  · rw [deliverSlot_report hd hr, takeReport_eq]

end Sys2Proof.Machine
end

section
/-! PROOF. What a runner's step leaves of the part: its own record, the log, and of the sections the draws, the ratios and
the weights alone. -/

namespace Sys2Proof.Machine

open Sys2Proof

/-- A section that a test has acted on: its draw, its ratio with RATIO LIMIT, and the weights of its members. -/
def Section.Tested (x y : Section) : Prop :=
  (∃ d r b ms, y = { x with draw := d, ratio := r, flags := { x.flags with ratioLimit := b }, members := ms }) ∧
    ∀ j, ∃ w, y.member j = { x.member j with weight := w }

theorem Section.Tested.refl (x : Section) : x.Tested x := ⟨⟨_, _, _, _, rfl⟩, fun _ => ⟨_, rfl⟩⟩

theorem Section.Tested.trans {x y z : Section} (h : x.Tested y) (k : y.Tested z) : x.Tested z := by
  obtain ⟨⟨d, r, b, ms, rfl⟩, hm⟩ := h
  obtain ⟨⟨d', r', b', ms', rfl⟩, km⟩ := k
  refine ⟨⟨d', r', b', ms', rfl⟩, fun j => ?_⟩
  obtain ⟨w, hw⟩ := hm j
  obtain ⟨w', hw'⟩ := km j
  exact ⟨w', by rw [hw', hw]⟩

theorem Section.Tested.of_members {x y : Section} (h : ∃ d r b, y = { x with
    draw := d, ratio := r, flags := { x.flags with ratioLimit := b } }) : x.Tested y := by
  obtain ⟨d, r, b, rfl⟩ := h
  exact ⟨⟨d, r, b, _, rfl⟩, fun _ => ⟨_, rfl⟩⟩

theorem Section.tested_setWeight (x : Section) (j : Fin 4) (w : Int) : x.Tested (x.setWeight j w) := by
  refine ⟨⟨_, _, _, _, rfl⟩, fun k => ?_⟩
  unfold Section.setWeight
  rw [member_setMember]
  split
  · next h => exact ⟨w, by rw [h]⟩
  · exact ⟨_, rfl⟩

/-- What runner `r` does in a step: its own record changes, the log, the notice of a test's end, and sections as a test
acts on them. -/
structure RunnerActs (r : Fin 4) (s t : State) : Prop where
  frame : t = { s with
    sections := t.sections, runners := t.runners, log := t.log
    part := { s.part with notices := { s.part.notices with testEnded := t.part.notices.testEnded } } }
  others : ∀ q, q ≠ r → t.runner q = s.runner q
  sections : ∀ i, (s.sec i).Tested (t.sec i)

namespace RunnerActs

variable {r : Fin 4} {s t u : State}

theorem refl (r : Fin 4) (s : State) : RunnerActs r s s := ⟨rfl, fun _ _ => rfl, fun _ => .refl _⟩

theorem trans (h : RunnerActs r s t) (k : RunnerActs r t u) : RunnerActs r s u := by
  refine ⟨?_, fun q hq => (k.others q hq).trans (h.others q hq), fun i => (h.sections i).trans (k.sections i)⟩
  conv_lhs => rw [k.frame, h.frame]

/-- The runner's own record and the log are what it may change at will. -/
theorem own {v : Runner} {l : Log} : RunnerActs r s { s.setRunner r v with log := l } :=
  ⟨rfl, fun q hq => (runner_setRunner s r q v).trans (if_neg hq.symm), fun _ => .refl _⟩

theorem setRunner (v : Runner) : RunnerActs r s (s.setRunner r v) := own (l := s.log)

theorem writeRecord (c : CaptureRecord) : RunnerActs r s (s.writeRecord c) := ⟨rfl, fun _ _ => rfl, fun _ => .refl _⟩

theorem setTestEnded : RunnerActs r s (s.modNotices Notices.setTestEnded) := ⟨rfl, fun _ _ => rfl, fun _ => .refl _⟩

theorem endTest (o : RecordOutcome) (out : TestOutcome) (c : AbortCause) : RunnerActs r s (s.endTest r o out c) :=
  (writeRecord _).trans (setRunner _)

theorem abortRunner (c : AbortCause) : RunnerActs r s (s.abortRunner r c) := by
  have hdrop : RunnerActs r s (s.dropPendingRecord r) := by
    unfold State.dropPendingRecord
    split
    · exact own
    · exact refl r s
  unfold State.abortRunner
  split
  · exact refl r s
  · exact (hdrop.trans (endTest _ _ _)).trans setTestEnded

theorem modSec {i : Fin 16} {f : Section → Section} (hf : (s.sec i).Tested (f (s.sec i))) :
    RunnerActs r s (s.modSec i f) := by
  refine ⟨rfl, fun _ _ => rfl, fun k => ?_⟩
  rw [sec_modSec]
  split
  · next h => exact h ▸ hf
  · exact .refl _

theorem adjustDraw (i : Fin 16) (d : Int) (m : DrawMode) : RunnerActs r s (s.adjustDraw i d m).state := by
  have hown : RunnerActs r s (s.adjustOwn i d) := modSec (.of_members ⟨_, _, _, rfl⟩)
  have hfold (v : Int) (l : List (Fin 16)) (t : State) :
      RunnerActs r t (l.foldl (fun u c => u.modSec c fun x => x.compensate v) t) := by
    induction l generalizing t with
    | nil => exact refl r t
    | cons c l ih => exact (modSec (.of_members ⟨_, _, _, rfl⟩)).trans (ih _)
  cases m with
  | carry => exact hown
  | hold => exact hown.trans (hfold _ _ _)

theorem entryEffect (i : Fin 16) (k : StepRecord) : RunnerActs r s (s.entryEffect r i k) := by
  unfold State.entryEffect
  cases k.action with
  | hold => exact refl r s
  | capture => exact refl r s
  | step => exact setRunner _
  | ramp => exact setRunner _
  | square => exact setRunner _
  | draw => exact (adjustDraw i _ _).trans (setRunner _)
  | weight => exact modSec (Section.tested_setWeight _ _ _)

theorem enterStep (n : Fin 96) : RunnerActs r s (s.enterStep r n) := by
  unfold State.enterStep
  split
  · exact refl r s
  · split
    · exact (setRunner _).trans (abortRunner _)
    · exact (setRunner _).trans (entryEffect _ _)

theorem goOn : RunnerActs r s (s.goOn r) := by
  unfold State.goOn
  split
  · exact refl r s
  · split
    · exact enterStep _
    · exact (endTest _ _ _).trans setTestEnded

theorem stepEnd (k : StepRecord) (o : RecordOutcome) : RunnerActs r s (s.stepEnd r k o) := by
  unfold State.stepEnd
  split
  · exact goOn
  · split
    · exact (writeRecord _).trans goOn
    · exact own

theorem progressStep (i : Fin 16) (k : Fin 96) (full : Bool) : RunnerActs r s (s.progressStep r i k full) := by
  unfold State.progressStep
  dsimp only
  split
  · exact (setRunner _).trans (abortRunner _)
  · split
    · exact (setRunner _).trans (stepEnd _ _)
    · split
      · split
        · exact (setRunner _).trans (stepEnd _ _)
        · split
          · exact (setRunner _).trans (stepEnd _ _)
          · exact (setRunner _).trans (abortRunner _)
      · exact setRunner _

end RunnerActs

/-- A window completion reaches the claimant of the section, and no other runner. -/
theorem runnerCompletion_acts (s : State) (i : Fin 16) :
    (s.claimant i = none → s.runnerCompletion i = s) ∧
    ∀ r, s.claimant i = some r → RunnerActs r s (s.runnerCompletion i) := by
  unfold State.runnerCompletion
  refine ⟨fun hn => by simp only [hn], fun r hr => ?_⟩
  simp only [hr]
  split
  · exact .progressStep _ _ _
  · exact .refl r s

end Sys2Proof.Machine
end

section
/-! PROOF. A window completion: what the member monitor leaves in each case, what reaches the runner that claims the
section, and the statements O34 and O35. -/

namespace Sys2Proof.Machine

open Sys2Proof

/-! ## The member monitor, case by case (R56 to R62) -/

theorem setSec_setSec (s : State) (i : Fin 16) (x y : Section) : (s.setSec i x).setSec i y = s.setSec i y :=
  congrArg (fun v : Vector Section 16 => { s with sections := v }) (Vector.set_set ..)

theorem modSec_modSec (s : State) (i : Fin 16) (f g : Section → Section) :
    (s.modSec i f).modSec i g = s.modSec i fun x => g (f x) := by
  have h : (s.modSec i f).modSec i g = (s.setSec i (f (s.sec i))).setSec i (g ((s.modSec i f).sec i)) := rfl
  rw [h, setSec_setSec, sec_modSec_same]
  rfl

/-- The trip a moving section takes at its completion, from the slot results alone. -/
def Section.tripsAt (x : Section) : Option (StopCause × Option (Fin 4)) :=
  x.completeMembers.tripCause (x.newlyLost x.completeMembers)

theorem monitorCompletion_trips {s : State} {i : Fin 16} (hm : (s.sec i).moving = true) {c : StopCause}
    {j : Option (Fin 4)} (ht : (s.sec i).tripsAt = some (c, j)) : s.monitorCompletion i =
      ((s.modSec i fun x => x.completeMembers.trip c j).modNotices Notices.setSectionTrip).abortClaimant i
        .sectionLeftRunning := by
  unfold State.monitorCompletion State.judgeMoving
  dsimp only
  rw [if_pos hm, sec_modSec_same]
  unfold Section.tripsAt at ht
  simp only [ht]
  unfold State.enterTripped
  rw [modSec_modSec]

theorem monitorCompletion_stays {s : State} {i : Fin 16} (hm : (s.sec i).moving = true)
    (ht : (s.sec i).tripsAt = none) :
    s.monitorCompletion i = s.modSec i fun x => x.completeMembers.degrade (x.newlyLost x.completeMembers) := by
  unfold State.monitorCompletion State.judgeMoving
  dsimp only
  rw [if_pos hm, sec_modSec_same]
  unfold Section.tripsAt at ht
  simp only [ht]
  rw [modSec_modSec]
  rfl

theorem monitorCompletion_rest {s : State} {i : Fin 16} (hm : (s.sec i).moving = false)
    (hr : (s.sec i).release ≠ .due) : s.monitorCompletion i = s.modSec i Section.completeMembers := by
  unfold State.monitorCompletion State.releaseCheck
  dsimp only
  rw [if_neg (by rw [hm]; decide), sec_modSec_same]
  exact if_neg hr

theorem monitorCompletion_faulty {s : State} {i : Fin 16} (hm : (s.sec i).moving = false)
    (hr : (s.sec i).release = .due) {j : Fin 4} (hf : (s.sec i).completeMembers.faultSlot = some j)
    (hs : (s.sec i).runState = .stopped) : s.monitorCompletion i =
      (s.modSec i fun x => x.completeMembers.disarm.trip .memberFault (some j)).modNotices Notices.setSectionTrip := by
  unfold State.monitorCompletion State.releaseCheck
  dsimp only
  rw [if_neg (by rw [hm]; decide), sec_modSec_same, if_pos (by exact hr)]
  simp only [hf]
  rw [if_pos (by exact hs)]
  unfold State.enterTripped
  rw [modSec_modSec, modSec_modSec]

theorem monitorCompletion_released {s : State} {i : Fin 16} (hm : (s.sec i).moving = false)
    (hr : (s.sec i).release = .due)
    (hf : (s.sec i).completeMembers.faultSlot = none ∨ (s.sec i).runState ≠ .stopped) :
    s.monitorCompletion i = s.modSec i fun x => x.completeMembers.disarm := by
  unfold State.monitorCompletion State.releaseCheck
  dsimp only
  rw [if_neg (by rw [hm]; decide), sec_modSec_same, if_pos (by exact hr)]
  cases hslot : (s.sec i).completeMembers.faultSlot with
  | none =>
    dsimp only
    rw [modSec_modSec]
  | some j =>
    dsimp only
    rw [if_neg (by exact hf.resolve_left (by rw [hslot]; exact nofun)), modSec_modSec]

/-- The load-share unit at a completion changes members, load and TRIM LIMIT alone. -/
theorem loadShare_form (x : Section) : ∃ ms l b, x.loadShare =
    { x with members := ms, load := l, flags := { x.flags with trimLimit := b } } := by
  have hload : ∃ l, x.convertTorques.formLoad = { x.convertTorques with load := l } := by
    unfold Section.formLoad
    split
    · exact ⟨_, rfl⟩
    · exact ⟨_, rfl⟩
  obtain ⟨l, hl⟩ := hload
  have hshares : ∃ ms, x.convertTorques.formLoad.formShares = { x with members := ms, load := l } := by
    unfold Section.formShares
    rw [hl]
    split
    · exact ⟨_, rfl⟩
    · exact ⟨_, rfl⟩
  obtain ⟨ms, hms⟩ := hshares
  unfold Section.loadShare Section.updateTrims
  rw [hms]
  split
  · exact ⟨_, _, _, rfl⟩
  · exact ⟨_, _, _, rfl⟩

theorem loadShare_runState (x : Section) : x.loadShare.runState = x.runState := by
  obtain ⟨_, _, _, h⟩ := loadShare_form x
  rw [h]

/-! ## What reaches the runner (R36) -/

theorem claimant_congr {s t : State} (h : t.runners = s.runners) (i : Fin 16) : t.claimant i = s.claimant i := by
  unfold State.claimant State.busyRunners State.runner
  rw [h]

theorem deliverSlot_runners (s : State) (c : Cycle) (q : SlotRef) : (s.deliverSlot c q).runners = s.runners := by
  unfold State.deliverSlot
  split
  · rfl
  · split
    · rfl
    · split <;> rfl

/-- The state in which a slot's section completes its window, before the monitor's judgement. -/
def State.slotClosed (s : State) (c : Cycle) (q : SlotRef) : State :=
  (s.deliverSlot c q).setInFlight (some { c with pos := c.pos + 1, slotBits := 0, report := none })

/-- What the member monitor and the load-share unit leave at a window completion. -/
def State.judged (s : State) (c : Cycle) (q : SlotRef) : State :=
  ((s.slotClosed c q).monitorCompletion q.sec).modSec q.sec Section.loadShare

theorem closeSlot_completes {s : State} {c : Cycle} {q : SlotRef} (h : s.Completes c q) :
    s.closeSlot c q = (s.judged c q).runnerCompletion q.sec :=
  if_pos ((completes_iff c q).mpr ⟨h.last, h.delivered⟩)

/-- A section that is RUNNING after its completion was not tripped: no runner has been touched. -/
theorem judged_runners {s : State} {c : Cycle} {q : SlotRef} (h : ((s.judged c q).sec q.sec).runState = .running) :
    (s.judged c q).runners = s.runners := by
  have hclosed : (s.slotClosed c q).runners = s.runners := deliverSlot_runners s c q
  have hrun : (((s.slotClosed c q).monitorCompletion q.sec).sec q.sec).runState = .running := by
    rw [← h, State.judged, sec_modSec_same, loadShare_runState]
  have hsame : ((s.slotClosed c q).monitorCompletion q.sec).runners = (s.slotClosed c q).runners := by
    cases hm : ((s.slotClosed c q).sec q.sec).moving with
    | true =>
      cases ht : ((s.slotClosed c q).sec q.sec).tripsAt with
      | none => rw [monitorCompletion_stays hm ht]; rfl
      | some e =>
        rw [monitorCompletion_trips hm ht, (abortClaimant_testsOnly _ _ _).sec] at hrun
        change (((s.slotClosed c q).modSec q.sec fun x => x.completeMembers.trip e.1 e.2).sec q.sec).runState = _ at hrun
        rw [sec_modSec_same] at hrun
        exact absurd hrun (by exact nofun)
    | false =>
      by_cases hr : ((s.slotClosed c q).sec q.sec).release = .due
      · by_cases hf : ((s.slotClosed c q).sec q.sec).completeMembers.faultSlot = none ∨
            ((s.slotClosed c q).sec q.sec).runState ≠ .stopped
        · rw [monitorCompletion_released hm hr hf]
          rfl
        · obtain ⟨hslot, hs⟩ := not_or.mp hf
          obtain ⟨j, hj⟩ := Option.ne_none_iff_exists'.mp hslot
          rw [monitorCompletion_faulty hm hr hj (not_not.mp hs)]
          rfl
      · rw [monitorCompletion_rest hm hr]
        rfl
  exact hsame.trans hclosed

theorem judged_stepRec (s : State) (c : Cycle) (q : SlotRef) (k : Fin 96) :
    (s.judged c q).stepRec k = s.stepRec k := by
  have hs : (s.judged c q).steps = s.steps :=
    ((monitorCompletion_secsOnly (s.slotClosed c q) q.sec).trans (modSec_secsOnly _ _ _ (loadShare_place _))).keeps.2.2.2.2.2.2.2.1.trans
      (deliverSlot_secsOnly s c q).keeps.2.2.2.2.2.2.2.1
  unfold State.stepRec
  rw [hs]

/-- A completion of a RUNNING section reaches the runner that claims it, in the state it had before the slot ended. -/
theorem closeSlot_running {s : State} {c : Cycle} {q : SlotRef} (h : s.Completes c q) {r : Fin 4}
    (hr : s.claimant q.sec = some r) (hx : ((s.judged c q).sec q.sec).runState = .running) :
    ((s.runner r).state = .paused ∨ (s.runner r).state = .waiting → s.closeSlot c q = s.judged c q) ∧
    ∀ k, (s.runner r).state = .running → (s.runner r).step = some k → s.closeSlot c q =
      (s.judged c q).progressStep r q.sec k ((s.judged c q).sec q.sec).full := by
  have hrs := judged_runners hx
  have hc : (s.judged c q).claimant q.sec = some r := (claimant_congr hrs _).trans hr
  have hu : (s.judged c q).runner r = s.runner r := congrArg (fun v : Vector Runner 4 => v[r]) hrs
  rw [closeSlot_completes h]
  unfold State.runnerCompletion
  simp only [hc, hu]
  refine ⟨fun hp => ?_, fun k hs hk => by simp only [hs, hk]⟩
  rcases hp with hp | hp
  · simp only [hp]
  · simp only [hp]

end Sys2Proof.Machine
end

section
/-! PROOF. The progress of a runner at a window completion, and the statements O34 and O35. -/

namespace Sys2Proof.Machine

open Sys2Proof

/-! ## The judgements of one completion (R109 to R115) -/

theorem count_eq (k : Condition) (x : Section) (full : Bool) (n : Nat) : k.count x full n =
    if k.present = true ∧ full = true then (if k.holds x = true then n + 1 else 0) else n := by
  unfold Condition.count
  simp only [Bool.and_eq_true]

/-- A runner after a completion: its progress, SATURATED SEEN and the two settle counters. -/
theorem judged_eq (u : Runner) (sr : StepRecord) (x : Section) (full : Bool) : u.judged sr x full = { u.advance sr with
    flags := { u.flags with saturated := u.flags.saturated || x.flags.saturated }
    advanceCount := if sr.advance.present = true ∧ full = true then
      (if sr.advance.holds x = true then u.advanceCount + 1 else 0) else u.advanceCount
    abortCount := if sr.abort.present = true ∧ full = true then
      (if sr.abort.holds x = true then u.abortCount + 1 else 0) else u.abortCount } := by
  unfold Runner.judged
  rw [count_eq, count_eq]

theorem advance_dwell {sr : StepRecord} (h1 : sr.action ≠ .ramp) (h2 : sr.action ≠ .square) (u : Runner) :
    u.advance sr = { u with elapsed := u.elapsed + 1 } := by
  unfold Runner.advance
  cases ha : sr.action with
  | ramp => exact absurd ha h1
  | square => exact absurd ha h2
  | hold => rfl
  | step => rfl
  | draw => rfl
  | weight => rfl
  | capture => rfl

theorem advance_ramp {sr : StepRecord} (h : sr.action = .ramp) (u : Runner) : u.advance sr = { u with
    elapsed := u.elapsed + 1
    offset := u.rampStart + divHalfAway ((sr.v - u.rampStart) * (u.elapsed + 1)) sr.d } := by
  unfold Runner.advance rampOffset
  rw [h]
  rfl

theorem advance_square {sr : StepRecord} (h : sr.action = .square) (u : Runner) :
    (u.phase = .first → u.phaseCount + 1 < sr.d →
      u.advance sr = { u with elapsed := u.elapsed + 1, phaseCount := u.phaseCount + 1 }) ∧
    (u.phase = .first → sr.d ≤ u.phaseCount + 1 →
      u.advance sr = { u with elapsed := u.elapsed + 1, offset := sr.v2, phase := .second, phaseCount := 0 }) ∧
    (u.phase = .second → u.phaseCount + 1 < sr.d2 →
      u.advance sr = { u with elapsed := u.elapsed + 1, phaseCount := u.phaseCount + 1 }) ∧
    (u.phase = .second → sr.d2 ≤ u.phaseCount + 1 → 1 < u.repeatsLeft →
      u.advance sr = { u with
        elapsed := u.elapsed + 1, offset := sr.v, phase := .first, phaseCount := 0, repeatsLeft := u.repeatsLeft - 1 }) ∧
    (u.phase = .second → sr.d2 ≤ u.phaseCount + 1 → u.repeatsLeft ≤ 1 →
      u.advance sr = { u with elapsed := u.elapsed + 1, repeatsLeft := 0, phaseCount := 0 }) := by
  unfold Runner.advance Runner.squareProgress
  rw [h]
  refine ⟨fun hp hd => ?_, fun hp hd => ?_, fun hp hd => ?_, fun hp hd hl => ?_, fun hp hd hl => ?_⟩
  · simp only [hp]
    exact if_neg (Nat.not_le.mpr hd)
  · simp only [hp]
    exact if_pos hd
  · simp only [hp]
    exact if_neg (Nat.not_le.mpr hd)
  · simp only [hp]
    exact (if_pos hd).trans (if_pos hl)
  · simp only [hp]
    exact (if_pos hd).trans (if_neg (Nat.not_lt.mpr hl))

theorem advance_elapsed (u : Runner) (sr : StepRecord) : (u.advance sr).elapsed = u.elapsed + 1 := by
  unfold Runner.advance Runner.squareProgress
  cases sr.action with
  | square =>
    dsimp only
    split
    · split <;> rfl
    · split
      · split <;> rfl
      · rfl
  | ramp => rfl
  | hold => rfl
  | step => rfl
  | draw => rfl
  | weight => rfl
  | capture => rfl

theorem advance_state (u : Runner) (sr : StepRecord) : (u.advance sr).state = u.state := by
  unfold Runner.advance Runner.squareProgress
  cases sr.action with
  | square =>
    dsimp only
    split
    · split <;> rfl
    · split
      · split <;> rfl
      · rfl
  | ramp => rfl
  | hold => rfl
  | step => rfl
  | draw => rfl
  | weight => rfl
  | capture => rfl

theorem dwellReached_dwell {sr : StepRecord} (h : sr.action ≠ .square) (w : Runner) :
    sr.dwellReached w = decide (sr.d ≤ w.elapsed) := by
  unfold StepRecord.dwellReached
  cases ha : sr.action with
  | square => exact absurd ha h
  | ramp => rfl
  | hold => rfl
  | step => rfl
  | draw => rfl
  | weight => rfl
  | capture => rfl

theorem dwellReached_square {sr : StepRecord} (h : sr.action = .square) (w : Runner) :
    sr.dwellReached w = (w.repeatsLeft == 0) := by
  unfold StepRecord.dwellReached
  rw [h]

/-! ## Progress that goes on -/

/-- Neither condition reached and the dwell not over: the runner takes its progress. -/
theorem progressStep_continues {s : State} {r : Fin 4} {i : Fin 16} {k : Fin 96} {full : Bool}
    (hab : (s.stepRec k).abort.reached (s.sec i) full (s.runner r).abortCount = false)
    (had : (s.stepRec k).advance.reached (s.sec i) full (s.runner r).advanceCount = false)
    (hd : (s.stepRec k).dwellReached ((s.runner r).judged (s.stepRec k) (s.sec i) full) = false) :
    s.progressStep r i k full = s.setRunner r ((s.runner r).judged (s.stepRec k) (s.sec i) full) := by
  unfold State.progressStep
  simp only [hab, had, hd, Bool.false_eq_true, if_false]

/-- Settles O34. -/
theorem progressContinues : Obligations.ProgressContinues := by
  intro s c q r k h hr
  refine ⟨s.closeSlot c q, rfl, exec_slotEnd h.toSlotRuns, ?_⟩
  rintro base x u sr full hbase rfl rfl rfl rfl hrun
  have hbase : base = s.judged c q := hbase
  subst hbase
  obtain ⟨hidle, hprog⟩ := closeSlot_running h hr hrun
  refine ⟨hidle, fun hstate hk hab had w hw => ?_⟩
  have hrunner : (s.judged c q).runner r = s.runner r :=
    congrArg (fun v : Vector Runner 4 => v[r]) (judged_runners hrun)
  have hrec := judged_stepRec s c q k
  rw [hprog k hstate hk]
  have hgoes (hd : (s.stepRec k).dwellReached ((s.runner r).judged (s.stepRec k) ((s.judged c q).sec q.sec)
      ((s.judged c q).sec q.sec).full) = false) := progressStep_continues (s := s.judged c q) (i := q.sec)
    (by rw [hrec, hrunner]; exact hab) (by rw [hrec, hrunner]; exact had) (by rw [hrec, hrunner]; exact hd)
  rw [hrec, hrunner, judged_eq] at hgoes
  have hdwell (ha : (s.stepRec k).action ≠ .square) (hd : (s.runner r).elapsed + 1 < (s.stepRec k).d) :=
    hgoes (by rw [dwellReached_dwell ha, advance_elapsed]; exact decide_eq_false (Nat.not_le.mpr hd))
  refine ⟨fun h1 h2 hd => ?_, fun ha hd => ?_, fun ha hn hp hd => ?_, fun ha hn hp hd => ?_, fun ha hn hp hd => ?_,
    fun ha hl hp hd => ?_⟩
  · rw [hdwell h2 hd, advance_dwell h1 h2, hw]
  · rw [hdwell (by rw [ha]; decide) hd, advance_ramp ha, hw]
  all_goals
    obtain ⟨hfirst, hturn, hsecond, hagain, _⟩ := advance_square ha (s.runner r)
    have hsq := dwellReached_square ha
  · rw [hgoes (by rw [hsq, hfirst hp hd]; exact beq_eq_false_iff_ne.mpr hn), hfirst hp hd, hw]
  · rw [hgoes (by rw [hsq, hturn hp hd]; exact beq_eq_false_iff_ne.mpr hn), hturn hp hd, hw]
  · rw [hgoes (by rw [hsq, hsecond hp hd]; exact beq_eq_false_iff_ne.mpr hn), hsecond hp hd, hw]
  · rw [hgoes (by rw [hsq, hagain hp hd hl]; exact beq_eq_false_iff_ne.mpr (by show (s.runner r).repeatsLeft - 1 ≠ 0; omega)),
      hagain hp hd hl, hw]

/-! ## Progress that ends a step -/

/-- The judgements in their order, on the runner `w` after its progress. -/
theorem progressStep_ends {s : State} {r : Fin 4} {i : Fin 16} {k : Fin 96} {full : Bool} {u w : Runner}
    {sr : StepRecord} (hu : s.runner r = u) (hsr : s.stepRec k = sr) (hw : u.judged sr (s.sec i) full = w) :
    (sr.abort.reached (s.sec i) full u.abortCount = true →
      s.progressStep r i k full = (s.setRunner r w).abortRunner r .abortCondition) ∧
    (sr.abort.reached (s.sec i) full u.abortCount = false →
      (sr.advance.reached (s.sec i) full u.advanceCount = true →
        s.progressStep r i k full = (s.setRunner r w).stepEnd r sr .met) ∧
      (sr.advance.reached (s.sec i) full u.advanceCount = false → sr.dwellReached w = true →
        (sr.endsDone = true → s.progressStep r i k full = (s.setRunner r w).stepEnd r sr .done) ∧
        (sr.endsDone = false →
          (sr.onTimeout = .next → s.progressStep r i k full = (s.setRunner r w).stepEnd r sr .timeout) ∧
          (sr.onTimeout = .abort → s.progressStep r i k full = (s.setRunner r w).abortRunner r .timeout)))) := by
  subst hu hsr hw
  unfold State.progressStep
  refine ⟨fun hab => by simp only [hab, if_true], fun hab => ⟨fun had => ?_, fun had hd => ⟨fun he => ?_,
    fun he => ⟨fun ho => ?_, fun ho => ?_⟩⟩⟩⟩
  · simp only [hab, had, Bool.false_eq_true, if_false, if_true]
  · simp only [hab, had, hd, he, Bool.false_eq_true, if_false, if_true]
  · simp only [hab, had, hd, he, ho, Bool.false_eq_true, if_false, if_true]
  · simp only [hab, had, hd, he, ho, Bool.false_eq_true, if_false, if_true]

theorem abortRunner_aborted {s : State} {r : Fin 4} {w : Runner} (hw : w.state ≠ .idle) (c : AbortCause) :
    ((s.setRunner r w).abortRunner r c).runner r = w.abortedBy c ∧
      ((s.setRunner r w).abortRunner r c).part.notices.testEnded = true := by
  have hown : (s.setRunner r w).runner r = w := (runner_setRunner s r r w).trans (if_pos rfl)
  rw [abortRunner_runner, abortRunner_notices, hown, if_pos ⟨rfl, hw⟩]
  exact ⟨rfl, by simp [hw]⟩

/-- Settles O35. -/
theorem progressEnds : Obligations.ProgressEnds := by
  intro s c q r k h hr hstate hk
  refine ⟨s.closeSlot c q, rfl, exec_slotEnd h.toSlotRuns, ?_⟩
  rintro base x u w sr full hbase rfl rfl rfl rfl hrun hw
  have hbase : base = s.judged c q := hbase
  subst hbase
  rw [(closeSlot_running h hr hrun).2 k hstate hk]
  have hrunner : (s.judged c q).runner r = s.runner r :=
    congrArg (fun v : Vector Runner 4 => v[r]) (judged_runners hrun)
  obtain ⟨haborts, hends⟩ := progressStep_ends (i := q.sec) hrunner (judged_stepRec s c q k) hw.symm
  have hbusy : w.state ≠ .idle := by
    rw [hw, judged_eq]
    change ((s.runner r).advance (s.stepRec k)).state ≠ .idle
    rw [advance_state, hstate]
    exact nofun
  refine ⟨fun hab => ?_, fun hab => ⟨fun had => (hends hab).1 had, fun had => ⟨fun ha hd => ?_, fun ha hp hl hd => ?_,
    fun h1 h2 hd => ?_⟩⟩⟩
  · rw [haborts hab]
    exact abortRunner_aborted hbusy _
  all_goals have hover := (hends hab).2 had
  · have hdw : (s.stepRec k).dwellReached w = true := by
      rw [dwellReached_dwell (by rw [ha]; decide), hw, judged_eq, advance_elapsed]
      exact decide_eq_true hd
    exact (hover hdw).1 (by unfold StepRecord.endsDone; rw [ha]; rfl)
  · have hdw : (s.stepRec k).dwellReached w = true := by
      obtain ⟨_, _, _, _, hlast⟩ := advance_square ha (s.runner r)
      rw [dwellReached_square ha, hw, judged_eq, hlast hp hd hl]
      rfl
    exact (hover hdw).1 (by unfold StepRecord.endsDone; rw [ha]; rfl)
  · have hdw : (s.stepRec k).dwellReached w = true := by
      rw [dwellReached_dwell h2, hw, judged_eq, advance_elapsed]
      exact decide_eq_true hd
    have hdone : (s.stepRec k).endsDone = !(s.stepRec k).advance.present := by
      unfold StepRecord.endsDone
      rw [beq_eq_false_iff_ne.mpr h1, beq_eq_false_iff_ne.mpr h2]
      rfl
    obtain ⟨hyes, hno⟩ := hover hdw
    rw [hdone] at hyes hno
    refine ⟨fun hp => hyes (by rw [hp]; rfl), fun hp ho => (hno (by rw [hp]; rfl)).1 ho, fun hp ho => ?_⟩
    rw [(hno (by rw [hp]; rfl)).2 ho]
    exact abortRunner_aborted hbusy _

end Sys2Proof.Machine
end

section
/-! PROOF. The load-share unit at a window completion, member by member (R84 to R89). -/

namespace Sys2Proof.Machine

open Sys2Proof

/-! ## What the load-share unit reads of the members -/

theorem sharers_congr {x y : Section} (hc : y.cfg = x.cfg) (hs : ∀ j, (y.member j).state = (x.member j).state) :
    y.sharers = x.sharers := by
  rw [sharers_eq, sharers_eq, hc]
  exact List.filter_congr fun j _ => by rw [hs]

theorem mem_sharers (x : Section) (j : Fin 4) :
    j ∈ x.sharers ↔ j.val < x.cfg.memberCount ∧ (x.member j).state ≠ .lost := by
  have hall : j ∈ ([0, 1, 2, 3] : List (Fin 4)) := by fin_cases j <;> simp
  rw [sharers_eq, List.mem_filter, decide_eq_true_eq]
  exact and_iff_right hall

theorem mem_followers (x : Section) (j : Fin 4) : j ∈ x.followers ↔ j ≠ 0 ∧ j ∈ x.sharers := by
  rw [followers_eq, List.mem_filter, decide_eq_true_eq, and_comm]

theorem full_iff (x : Section) : x.full = true ↔ x.sharers ≠ [] ∧ ∀ j ∈ x.sharers, (x.member j).result = .valid := by
  unfold Section.full
  rw [Bool.and_eq_true, Bool.not_eq_true', ← Bool.not_eq_true, List.isEmpty_iff, List.all_eq_true]
  simp only [beq_iff_eq]

theorem full_congr {x y : Section} (hc : y.cfg = x.cfg) (hs : ∀ j, (y.member j).state = (x.member j).state)
    (hr : ∀ j, (y.member j).result = (x.member j).result) : y.full = x.full := by
  rw [Bool.eq_iff_iff, full_iff, full_iff, sharers_congr hc hs]
  simp only [hr]

theorem sumInt_eq_sum (l : List Int) : sumInt l = l.sum := List.sum_eq_foldl.symm

/-! ## The stages -/

/-- Stage 1 at a member. -/
def Section.convertedAt (x : Section) (j : Fin 4) : Int :=
  if j.val < x.cfg.memberCount ∧ (x.member j).result = .valid then
    ((x.member j).torque * (x.member j).rating).tdiv 1000
  else (x.member j).converted

theorem convertTorques_member (x : Section) (j : Fin 4) :
    x.convertTorques.member j = { x.member j with converted := x.convertedAt j } := by
  have hm : x.convertTorques.member j = if j.val < x.cfg.memberCount ∧ (x.member j).result = .valid then
      (x.member j).convert else x.member j :=
    member_mapMembers x (fun j m => if j.val < x.cfg.memberCount ∧ m.result = .valid then m.convert else m) j
  rw [hm]
  unfold Section.convertedAt
  by_cases h : j.val < x.cfg.memberCount ∧ (x.member j).result = .valid
  · rw [if_pos h, if_pos h]
    rfl
  · rw [if_neg h, if_neg h]

theorem formLoad_eq (x : Section) : x.formLoad = { x with
    load := if x.loaded = [] then x.load else
      ((x.loaded.map fun j => (x.member j).converted).sum * 1000).tdiv (x.loaded.map fun j => (x.member j).rating).sum } := by
  unfold Section.formLoad
  rw [sumInt_eq_sum, sumInt_eq_sum]
  by_cases h : x.loaded = []
  · rw [if_pos h, if_pos (List.isEmpty_iff.mpr h)]
  · rw [if_neg h, if_neg fun he => h (List.isEmpty_iff.mp he)]
    rfl

theorem formShares_member (x : Section) (j : Fin 4) : x.formShares.member j =
    if x.full = true ∧ j ∈ x.sharers then (x.member j).share x.totalTorque x.totalWeight else x.member j := by
  unfold Section.formShares
  by_cases h : x.full = true
  · rw [if_pos h, member_mapMembers]
    simp only [List.contains_iff_mem, h, true_and]
  · rw [if_neg h, if_neg fun hc => h hc.1]

theorem updateTrims_member (x : Section) (j : Fin 4) : x.updateTrims.member j =
    if x.updatesTrims = true ∧ j ∈ x.followers then (x.member j).updateTrim x.cfg else x.member j := by
  unfold Section.updateTrims
  by_cases h : x.updatesTrims = true
  · rw [if_pos h]
    refine (member_mapMembers x (fun j m => if x.followers.contains j then m.updateTrim x.cfg else m) j).trans ?_
    simp only [List.contains_iff_mem, h, true_and]
  · rw [if_neg h, if_neg fun hc => h hc.1]

theorem updateTrims_trimLimit (x : Section) : x.updateTrims.flags.trimLimit =
    if x.updatesTrims = true then x.followers.any fun j => (x.member j).trimClamps x.cfg else x.flags.trimLimit := by
  unfold Section.updateTrims
  split <;> rfl

/-! ## The unit as a whole -/

/-- The section after the first two stages. -/
def Section.loadFormed (x : Section) : Section := x.convertTorques.formLoad

theorem loadFormed_member (x : Section) (j : Fin 4) :
    x.loadFormed.member j = { x.member j with converted := x.convertedAt j } := by
  unfold Section.loadFormed
  rw [formLoad_eq]
  exact convertTorques_member x j

theorem loadFormed_form (x : Section) : ∃ ms l, x.loadFormed = { x with members := ms, load := l } := by
  unfold Section.loadFormed
  rw [formLoad_eq]
  exact ⟨_, _, rfl⟩

theorem loadFormed_cfg (x : Section) : x.loadFormed.cfg = x.cfg := by
  obtain ⟨_, _, h⟩ := loadFormed_form x
  rw [h]

theorem loadFormed_sharers (x : Section) : x.loadFormed.sharers = x.sharers :=
  sharers_congr (loadFormed_cfg x) fun j => by rw [loadFormed_member]

theorem loadFormed_full (x : Section) : x.loadFormed.full = x.full :=
  full_congr (loadFormed_cfg x) (fun j => by rw [loadFormed_member]) fun j => by rw [loadFormed_member]

/-- The section after the first three stages. -/
def Section.shareFormed (x : Section) : Section := x.loadFormed.formShares

theorem shareFormed_member (x : Section) (j : Fin 4) : x.shareFormed.member j =
    if x.full = true ∧ j ∈ x.sharers then
      ({ x.member j with converted := x.convertedAt j } : Member).share x.loadFormed.totalTorque x.loadFormed.totalWeight
    else { x.member j with converted := x.convertedAt j } := by
  unfold Section.shareFormed
  rw [formShares_member, loadFormed_full, loadFormed_sharers, loadFormed_member]

theorem shareFormed_form (x : Section) : ∃ ms, x.shareFormed = { x.loadFormed with members := ms } := by
  unfold Section.shareFormed Section.formShares
  split
  · exact ⟨_, rfl⟩
  · exact ⟨_, rfl⟩

/-- Shares change the share target and the share error of a member. -/
theorem shareFormed_keeps (x : Section) (j : Fin 4) : ∃ a b, x.shareFormed.member j =
    { x.member j with converted := x.convertedAt j, shareTarget := a, shareError := b } := by
  rw [shareFormed_member]
  split
  · exact ⟨_, _, rfl⟩
  · exact ⟨_, _, rfl⟩

theorem shareFormed_cfg (x : Section) : x.shareFormed.cfg = x.cfg := by
  obtain ⟨_, h⟩ := shareFormed_form x
  rw [h]
  exact loadFormed_cfg x

theorem shareFormed_rest (x : Section) : x.shareFormed.runState = x.runState ∧ x.shareFormed.applied = x.applied ∧
    x.shareFormed.flags = x.flags ∧ x.shareFormed.load = x.loadFormed.load := by
  obtain ⟨_, h⟩ := shareFormed_form x
  obtain ⟨_, _, h'⟩ := loadFormed_form x
  rw [h, h']
  exact ⟨rfl, rfl, rfl, rfl⟩

theorem shareFormed_sharers (x : Section) : x.shareFormed.sharers = x.sharers :=
  sharers_congr (shareFormed_cfg x) fun j => by
    obtain ⟨_, _, h⟩ := shareFormed_keeps x j
    rw [h]

theorem shareFormed_full (x : Section) : x.shareFormed.full = x.full :=
  full_congr (shareFormed_cfg x)
    (fun j => by
      obtain ⟨_, _, h⟩ := shareFormed_keeps x j
      rw [h])
    fun j => by
      obtain ⟨_, _, h⟩ := shareFormed_keeps x j
      rw [h]

theorem loadShare_eq (x : Section) : x.loadShare = x.shareFormed.updateTrims := rfl

/-- A trim update happens at a full completion of a RUNNING section at or above its share enable speed. -/
theorem updatesTrims_iff (x : Section) : x.shareFormed.updatesTrims = true ↔
    x.runState = .running ∧ x.cfg.shareEnable ≤ x.applied ∧ x.full = true := by
  obtain ⟨hrun, happ, _, _⟩ := shareFormed_rest x
  unfold Section.updatesTrims
  rw [hrun, happ, shareFormed_cfg, shareFormed_full, Bool.and_eq_true, Bool.and_eq_true, beq_iff_eq, decide_eq_true_eq,
    and_assoc]

/-- One member after the load-share unit. -/
theorem loadShare_member (x : Section) (j : Fin 4) : x.loadShare.member j =
    if x.shareFormed.updatesTrims = true ∧ j ≠ 0 ∧ j ∈ x.sharers then (x.shareFormed.member j).updateTrim x.cfg
    else x.shareFormed.member j := by
  have hf : j ∈ x.shareFormed.followers ↔ j ≠ 0 ∧ j ∈ x.sharers := by rw [mem_followers, shareFormed_sharers]
  rw [loadShare_eq, updateTrims_member, shareFormed_cfg]
  simp only [hf]

/-- A trim update changes the trim alone. -/
theorem updateTrim_form (m : Member) (c : Settings) : ∃ t, m.updateTrim c = { m with trim := t } := by
  unfold Member.updateTrim
  split
  · exact ⟨_, rfl⟩
  · exact ⟨_, rfl⟩

theorem loadShare_keeps (x : Section) (j : Fin 4) : ∃ t, x.loadShare.member j = { x.shareFormed.member j with trim := t } := by
  rw [loadShare_member]
  split
  · exact updateTrim_form _ _
  · exact ⟨_, rfl⟩

/-- A member that is LOST has its torque converted and nothing else. -/
theorem loadShare_lost {x : Section} {j : Fin 4} (h : (x.member j).state = .lost) :
    x.loadShare.member j = { x.member j with converted := x.convertedAt j } := by
  have hno : j ∉ x.sharers := fun hj => ((mem_sharers x j).mp hj).2 h
  rw [loadShare_member, if_neg fun hc => hno hc.2.2, shareFormed_member, if_neg fun hc => hno hc.2]

end Sys2Proof.Machine
end

section
/-! PROOF. What a window completion leaves of its section: the member states, the trips and the release check, with the
statements O28 and O29. -/

namespace Sys2Proof.Machine

open Sys2Proof

/-! ## The section after the member monitor (R56 to R62) -/

/-- What the member monitor makes of section `x` at its completion, case by case. -/
inductive Monitored (x : Section) : Section → Prop
  | trips {c : StopCause} {j : Option (Fin 4)} (moves : x.moving = true) (trip : x.tripsAt = some (c, j)) :
    Monitored x (x.completeMembers.trip c j)
  | stays (moves : x.moving = true) (trip : x.tripsAt = none) :
    Monitored x (x.completeMembers.degrade (x.newlyLost x.completeMembers))
  | rests (still : x.moving = false) (undue : x.release ≠ .due) : Monitored x x.completeMembers
  | faulty {j : Fin 4} (still : x.moving = false) (due : x.release = .due)
    (fault : x.completeMembers.faultSlot = some j) (stopped : x.runState = .stopped) :
    Monitored x (x.completeMembers.disarm.trip .memberFault (some j))
  | released (still : x.moving = false) (due : x.release = .due)
    (clear : x.completeMembers.faultSlot = none ∨ x.runState ≠ .stopped) : Monitored x x.completeMembers.disarm

/-- The state after the member monitor: its section, its notice, and of the runners the claimant that a trip aborts. -/
theorem monitorCompletion_monitored (s : State) (i : Fin 16) :
    Monitored (s.sec i) ((s.monitorCompletion i).sec i) ∧
    (∀ k, k ≠ i → (s.monitorCompletion i).sec k = s.sec k) := by
  cases hm : (s.sec i).moving with
  | true =>
    cases ht : (s.sec i).tripsAt with
    | none =>
      rw [monitorCompletion_stays hm ht, sec_modSec_same]
      exact ⟨.stays hm ht, fun k hk => (sec_modSec s i k _).trans (if_neg hk.symm)⟩
    | some e =>
      rw [monitorCompletion_trips hm ht]
      have hsec (k : Fin 16) := (abortClaimant_testsOnly ((s.modSec i fun x => x.completeMembers.trip e.1 e.2).modNotices
        Notices.setSectionTrip) i .sectionLeftRunning).sec k
      refine ⟨?_, fun k hk => (hsec k).trans
        ((sec_modSec s i k fun x => x.completeMembers.trip e.1 e.2).trans (if_neg hk.symm))⟩
      rw [hsec i]
      change Monitored _ ((s.modSec i fun x => x.completeMembers.trip e.1 e.2).sec i)
      rw [sec_modSec_same]
      exact .trips hm ht
  | false =>
    by_cases hr : (s.sec i).release = .due
    · by_cases hf : (s.sec i).completeMembers.faultSlot = none ∨ (s.sec i).runState ≠ .stopped
      · rw [monitorCompletion_released hm hr hf, sec_modSec_same]
        exact ⟨.released hm hr hf, fun k hk => (sec_modSec s i k _).trans (if_neg hk.symm)⟩
      · obtain ⟨hslot, hs⟩ := not_or.mp hf
        obtain ⟨j, hj⟩ := Option.ne_none_iff_exists'.mp hslot
        rw [monitorCompletion_faulty hm hr hj (not_not.mp hs)]
        refine ⟨?_, fun k hk =>
          (sec_modSec s i k fun x => x.completeMembers.disarm.trip .memberFault (some j)).trans (if_neg hk.symm)⟩
        change Monitored _ ((s.modSec i fun x => x.completeMembers.disarm.trip .memberFault (some j)).sec i)
        rw [sec_modSec_same]
        exact .faulty hm hr hj (not_not.mp hs)
    · rw [monitorCompletion_rest hm hr, sec_modSec_same]
      exact ⟨.rests hm hr, fun k hk => (sec_modSec s i k _).trans (if_neg hk.symm)⟩

/-! ## Member states (R56, R57, R92) -/

theorem completeMembers_member (x : Section) (j : Fin 4) : x.completeMembers.member j =
    if j.val < x.cfg.memberCount then (x.member j).completed x.cfg.missLimit x.runState else x.member j :=
  member_mapMembers x _ j

/-- The table of the member states at a completion. -/
theorem completed_table (m : Member) (l : Nat) (run : RunState) :
    (m.result = .none → m.completed l run = m) ∧
    (m.result = .valid → m.state ≠ .lost ∨ run = .stopped ∨ run = .tripped →
      m.completed l run = { m with state := .active, missCount := 0 }) ∧
    (m.result = .valid → m.state = .lost → ¬(run = .stopped ∨ run = .tripped) → m.completed l run = m) ∧
    (m.result = .miss → m.state = .absent ∨ m.state = .lost → m.completed l run = m) ∧
    (m.result = .miss → m.state = .active ∨ m.state = .missing →
      (m.missCount + 1 < l → m.completed l run = { m with state := .missing, missCount := m.missCount + 1 }) ∧
      (l ≤ m.missCount + 1 → m.completed l run =
        { m with state := .lost, missCount := m.missCount + 1, trim := 0, shareTarget := 0, shareError := 0 })) := by
  unfold Member.completed
  refine ⟨fun hr => by simp only [hr], fun hr hst => ?_, fun hr hl hrun => ?_, fun hr hst => ?_, fun hr hst =>
    ⟨fun hlow => ?_, fun hmax => ?_⟩⟩
  · cases hm : m.state with
    | lost =>
      simp only [hr]
      exact if_pos (hst.resolve_left (not_not_intro hm))
    | absent => simp only [hr]
    | active => simp only [hr]
    | missing => simp only [hr]
  · simp only [hr, hl]
    exact if_neg hrun
  · rcases hst with hst | hst <;> simp only [hr, hst]
  · rcases hst with hst | hst
    · simp only [hr, hst]
      exact if_neg (Nat.not_le.mpr hlow)
    · simp only [hr, hst]
      exact if_neg (Nat.not_le.mpr hlow)
  · rcases hst with hst | hst
    · simp only [hr, hst]
      exact if_pos hmax
    · simp only [hr, hst]
      exact if_pos hmax

/-- The monitor changes a member as its completion does, and the trim of every member of a section that trips. -/
theorem monitored_member {x z : Section} (h : Monitored x z) (j : Fin 4) :
    z.member j = x.completeMembers.member j ∨ z.member j = { x.completeMembers.member j with trim := 0 } := by
  have htrip (y : Section) (c : StopCause) (k : Option (Fin 4)) :
      (y.trip c k).member j = { y.member j with trim := 0 } := member_mapMembers y (fun _ m => { m with trim := 0 }) j
  cases h with
  | trips _ _ => exact .inr (htrip _ _ _)
  | stays _ _ =>
    unfold Section.degrade
    split
    · exact .inl rfl
    · exact .inl rfl
  | rests _ _ => exact .inl rfl
  | faulty _ _ _ _ => exact .inr (htrip _ _ _)
  | released _ _ _ => exact .inl rfl

/-! ## The section after the window completion -/

/-- The section of a completion: monitored, its load shared, and acted on by the test of its runner. -/
theorem closeSlot_section {s : State} {c : Cycle} {q : SlotRef} (h : s.Completes c q) :
    ∃ z, Monitored ((s.deliverSlot c q).sec q.sec) z ∧ (s.judged c q).sec q.sec = z.loadShare ∧
      z.loadShare.Tested ((s.closeSlot c q).sec q.sec) := by
  have hz : (s.judged c q).sec q.sec = (((s.slotClosed c q).monitorCompletion q.sec).sec q.sec).loadShare := by
    unfold State.judged
    rw [sec_modSec_same]
  refine ⟨_, (monitorCompletion_monitored (s.slotClosed c q) q.sec).1, hz, ?_⟩
  rw [← hz, closeSlot_completes h]
  obtain ⟨hnone, hsome⟩ := runnerCompletion_acts (s.judged c q) q.sec
  cases hc : (s.judged c q).claimant q.sec with
  | none =>
    rw [hnone hc]
    exact .refl _
  | some r => exact (hsome r hc).sections q.sec

/-- A member after the completion of its section: its state, its miss count and its result are those of the monitor. -/
theorem completion_member {x z y : Section} (hz : Monitored x z) (hy : z.loadShare.Tested y) (j : Fin 4) :
    (y.member j).state = (x.completeMembers.member j).state ∧
    (y.member j).missCount = (x.completeMembers.member j).missCount ∧
    (z.member j).state = (x.completeMembers.member j).state := by
  obtain ⟨w, hw⟩ := hy.2 j
  obtain ⟨t, ht⟩ := loadShare_keeps z j
  obtain ⟨a, b, hab⟩ := shareFormed_keeps z j
  rw [hw, ht, hab]
  rcases monitored_member hz j with hm | hm
  · rw [hm]
    exact ⟨rfl, rfl, rfl⟩
  · rw [hm]
    exact ⟨rfl, rfl, rfl⟩

/-- A member that becomes LOST at the completion of its section has neither trim nor share. -/
theorem completion_lost {x z y : Section} (hz : Monitored x z) (hy : z.loadShare.Tested y) {j : Fin 4}
    (hl : (x.completeMembers.member j).state = .lost) (h0 : (x.completeMembers.member j).trim = 0 ∧
      (x.completeMembers.member j).shareTarget = 0 ∧ (x.completeMembers.member j).shareError = 0) :
    (y.member j).trim = 0 ∧ (y.member j).shareTarget = 0 ∧ (y.member j).shareError = 0 := by
  obtain ⟨w, hw⟩ := hy.2 j
  rw [hw, loadShare_lost ((completion_member hz hy j).2.2.trans hl)]
  rcases monitored_member hz j with hm | hm
  · rw [hm]
    exact h0
  · rw [hm]
    exact ⟨rfl, h0.2⟩

/-- Settles O28. -/
theorem memberStateTable : Obligations.MemberStateTable := by
  intro s c q h
  refine ⟨s.closeSlot c q, rfl, exec_slotEnd h.toSlotRuns, ?_⟩
  rintro x y j rfl rfl
  obtain ⟨z, hz, _, hy⟩ := closeSlot_section h
  obtain ⟨hstate, hmiss, _⟩ := completion_member hz hy j
  have hlost := completion_lost hz hy (j := j)
  generalize (s.closeSlot c q).sec q.sec = y at *
  generalize (s.deliverSlot c q).sec q.sec = x at *
  rw [hstate, hmiss]
  rw [completeMembers_member] at hlost ⊢
  refine ⟨fun hj => ?_, fun hj => ?_⟩
  · rw [if_neg (Nat.not_lt.mpr hj)]
    exact ⟨rfl, rfl⟩
  rw [if_pos hj] at hlost ⊢
  obtain ⟨hnone, hback, hstill, hkept, hmissed⟩ := completed_table (x.member j) x.cfg.missLimit x.runState
  refine ⟨fun hr => ?_, fun hr hst => ?_, fun hr hl hrun => ?_, fun hr hst => ?_, fun hr hst => ?_⟩
  · rw [hnone hr]
    exact ⟨rfl, rfl⟩
  · rw [hback hr hst]
    exact ⟨rfl, rfl⟩
  · rw [hstill hr hl (by rcases hrun with hrun | hrun <;> rw [hrun] <;> decide)]
    exact ⟨hl, rfl⟩
  · rw [hkept hr hst]
    exact ⟨rfl, rfl⟩
  · obtain ⟨hlow, hmax⟩ := hmissed hr hst
    by_cases hlim : x.cfg.missLimit ≤ (x.member j).missCount + 1
    · rw [hmax hlim] at hlost ⊢
      exact ⟨rfl, fun hc => absurd hlim (Nat.not_le.mpr hc), fun _ => ⟨rfl, hlost rfl ⟨rfl, rfl, rfl⟩⟩⟩
    · rw [hlow (Nat.not_le.mp hlim)]
      exact ⟨rfl, fun _ => rfl, fun hc => absurd hc hlim⟩

end Sys2Proof.Machine
end

section
/-! PROOF. Trips, degradation and the release check at a window completion, and the statement O29. -/

namespace Sys2Proof.Machine

open Sys2Proof

/-! ## What a completion leaves outside its section -/

/-- A window completion reaches the sections, the runners, the log and two notices. -/
def WindowFrame (s t : State) : Prop := t = { s with
  sections := t.sections, runners := t.runners, log := t.log
  part := { s.part with notices := { s.part.notices with
    sectionTrip := t.part.notices.sectionTrip, testEnded := t.part.notices.testEnded } } }

theorem WindowFrame.trans {s t u : State} (h : WindowFrame s t) (k : WindowFrame t u) : WindowFrame s u := by
  unfold WindowFrame at h k ⊢
  conv_lhs => rw [k, h]

theorem WindowFrame.modSec (s : State) (i : Fin 16) (f : Section → Section) : WindowFrame s (s.modSec i f) := rfl

theorem WindowFrame.abortClaimant (s : State) (i : Fin 16) (c : AbortCause) : WindowFrame s (s.abortClaimant i c) := by
  have h := abortClaimant_frame s i c
  unfold WindowFrame
  generalize s.abortClaimant i c = t at h
  rw [h]

theorem RunnerActs.window {r : Fin 4} {s t : State} (h : RunnerActs r s t) : WindowFrame s t := by
  unfold WindowFrame
  conv_lhs => rw [h.frame]
  rw [h.frame]

theorem monitorCompletion_window (s : State) (i : Fin 16) : WindowFrame s (s.monitorCompletion i) := by
  cases hm : (s.sec i).moving with
  | true =>
    cases ht : (s.sec i).tripsAt with
    | none =>
      rw [monitorCompletion_stays hm ht]
      exact .modSec s i _
    | some e =>
      rw [monitorCompletion_trips hm ht]
      have hset : WindowFrame s ((s.modSec i fun x => x.completeMembers.trip e.1 e.2).modNotices
        Notices.setSectionTrip) := rfl
      exact hset.trans (.abortClaimant _ i _)
  | false =>
    by_cases hr : (s.sec i).release = .due
    · by_cases hf : (s.sec i).completeMembers.faultSlot = none ∨ (s.sec i).runState ≠ .stopped
      · rw [monitorCompletion_released hm hr hf]
        exact .modSec s i _
      · obtain ⟨hslot, hs⟩ := not_or.mp hf
        obtain ⟨j, hj⟩ := Option.ne_none_iff_exists'.mp hslot
        rw [monitorCompletion_faulty hm hr hj (not_not.mp hs)]
        exact rfl
    · rw [monitorCompletion_rest hm hr]
      exact .modSec s i _

theorem judged_window (s : State) (c : Cycle) (q : SlotRef) : WindowFrame (s.slotClosed c q) (s.judged c q) :=
  (monitorCompletion_window _ _).trans (.modSec _ _ _)

theorem closeSlot_window {s : State} {c : Cycle} {q : SlotRef} (h : s.Completes c q) :
    WindowFrame (s.slotClosed c q) (s.closeSlot c q) := by
  rw [closeSlot_completes h]
  obtain ⟨hnone, hsome⟩ := runnerCompletion_acts (s.judged c q) q.sec
  cases hc : (s.judged c q).claimant q.sec with
  | none =>
    rw [hnone hc]
    exact judged_window s c q
  | some r => exact (judged_window s c q).trans (hsome r hc).window

/-- A slot's result changes the section table alone. -/
theorem deliverSlot_form (s : State) (c : Cycle) (q : SlotRef) :
    s.deliverSlot c q = { s with sections := (s.deliverSlot c q).sections } := by
  unfold State.deliverSlot
  split
  · rfl
  · split
    · rfl
    · split <;> rfl

theorem closeSlot_frame {s : State} {c : Cycle} {q : SlotRef} (h : s.Completes c q) :
    s.closeSlot c q = { s with
      cyc := { s.cyc with inFlight := some { c with pos := c.pos + 1, slotBits := 0, report := none } }
      sections := (s.closeSlot c q).sections, runners := (s.closeSlot c q).runners, log := (s.closeSlot c q).log
      part := { s.part with notices := { s.part.notices with
        sectionTrip := (s.closeSlot c q).part.notices.sectionTrip
        testEnded := (s.closeSlot c q).part.notices.testEnded } } } := by
  have hw := closeSlot_window h
  have hclosed : s.slotClosed c q = { s with
      cyc := { s.cyc with inFlight := some { c with pos := c.pos + 1, slotBits := 0, report := none } }
      sections := (s.deliverSlot c q).sections } :=
    congrArg (fun t : State => t.setInFlight
      (some { c with pos := c.pos + 1, slotBits := 0, report := none })) (deliverSlot_form s c q)
  rw [hclosed] at hw
  exact hw

/-- A completion of a section that no runner claims reaches its own entry alone. -/
theorem closeSlot_unclaimed {s : State} {c : Cycle} {q : SlotRef} (h : s.Completes c q) (hc : s.claimant q.sec = none) :
    (s.closeSlot c q).runners = s.runners ∧ (s.closeSlot c q).log = s.log ∧
      ∀ i, i ≠ q.sec → (s.closeSlot c q).sec i = s.sec i := by
  have hclosed : (s.slotClosed c q).claimant q.sec = none := (claimant_congr (deliverSlot_runners s c q) _).trans hc
  have hmon : ((s.slotClosed c q).monitorCompletion q.sec).runners = (s.slotClosed c q).runners ∧
      ((s.slotClosed c q).monitorCompletion q.sec).log = (s.slotClosed c q).log := by
    cases hm : ((s.slotClosed c q).sec q.sec).moving with
    | true =>
      cases ht : ((s.slotClosed c q).sec q.sec).tripsAt with
      | none =>
        rw [monitorCompletion_stays hm ht]
        exact ⟨rfl, rfl⟩
      | some e =>
        rw [monitorCompletion_trips hm ht, abortClaimant_unclaimed (by exact hclosed)]
        exact ⟨rfl, rfl⟩
    | false =>
      by_cases hr : ((s.slotClosed c q).sec q.sec).release = .due
      · by_cases hf : ((s.slotClosed c q).sec q.sec).completeMembers.faultSlot = none ∨
            ((s.slotClosed c q).sec q.sec).runState ≠ .stopped
        · rw [monitorCompletion_released hm hr hf]
          exact ⟨rfl, rfl⟩
        · obtain ⟨hslot, hs⟩ := not_or.mp hf
          obtain ⟨j, hj⟩ := Option.ne_none_iff_exists'.mp hslot
          rw [monitorCompletion_faulty hm hr hj (not_not.mp hs)]
          exact ⟨rfl, rfl⟩
      · rw [monitorCompletion_rest hm hr]
        exact ⟨rfl, rfl⟩
  have hnone := (runnerCompletion_acts (s.judged c q) q.sec).1
    ((claimant_congr (t := s.judged c q) hmon.1 q.sec).trans hclosed)
  rw [closeSlot_completes h, hnone]
  refine ⟨hmon.1.trans (deliverSlot_runners s c q), hmon.2.trans ?_, fun i hi => ?_⟩
  · change (s.deliverSlot c q).log = s.log
    rw [deliverSlot_form]
  · have hjudged : (s.judged c q).sec i = ((s.slotClosed c q).monitorCompletion q.sec).sec i :=
      (sec_modSec _ _ _ _).trans (if_neg hi.symm)
    rw [hjudged, (monitorCompletion_monitored _ _).2 i hi]
    change (s.deliverSlot c q).sec i = s.sec i
    unfold State.deliverSlot
    split
    · rfl
    · split
      · exact (sec_modSec _ _ _ _).trans (if_neg hi.symm)
      · split
        · rfl
        · exact (sec_modSec _ _ _ _).trans (if_neg hi.symm)

/-! ## Trips (R58, R59) -/

/-- What the load-share unit and the test of the runner leave of a section. -/
structure Section.Kept (z y : Section) : Prop where
  runState : y.runState = z.runState
  cause : y.cause = z.cause
  causeSlot : y.causeSlot = z.causeSlot
  applied : y.applied = z.applied
  stopSeen : y.stopSeen = z.stopSeen
  release : y.release = z.release
  ramping : y.flags.ramping = z.flags.ramping
  saturated : y.flags.saturated = z.flags.saturated
  degraded : y.flags.degraded = z.flags.degraded

theorem completion_kept {z y : Section} (h : z.loadShare.Tested y) : z.Kept y := by
  obtain ⟨_, _, _, hform⟩ := loadShare_form z
  obtain ⟨⟨_, _, _, _, rfl⟩, _⟩ := h
  rw [hform]
  exact ⟨rfl, rfl, rfl, rfl, rfl, rfl, rfl, rfl, rfl⟩

theorem completion_shared {z y : Section} (h : z.loadShare.Tested y) :
    y.load = z.loadShare.load ∧ y.flags.trimLimit = z.loadShare.flags.trimLimit ∧
      ∀ j, ∃ w, y.member j = { z.loadShare.member j with weight := w } := by
  obtain ⟨⟨_, _, _, _, rfl⟩, hm⟩ := h
  exact ⟨rfl, rfl, hm⟩

/-- Without a trim update the trims and TRIM LIMIT stand. -/
theorem loadShare_noUpdate {z : Section} (h : ¬z.shareFormed.updatesTrims = true) :
    z.loadShare.flags.trimLimit = z.flags.trimLimit ∧ ∀ j, (z.loadShare.member j).trim = (z.member j).trim := by
  refine ⟨?_, fun j => ?_⟩
  · rw [loadShare_eq, updateTrims_trimLimit, if_neg h, (shareFormed_rest _).2.2.1]
  · obtain ⟨a, b, hab⟩ := shareFormed_keeps z j
    rw [loadShare_member, if_neg fun hc => h hc.1, hab]

/-- What a trip with a cause and a slot makes of section `x`, and the notice it gives. -/
def Section.TrippedTo (x y : Section) (c : StopCause) (k : Option (Fin 4)) (notice : Prop) : Prop :=
  y.runState = .tripped ∧ y.cause = c ∧ y.causeSlot = k ∧ y.applied = 0 ∧ y.stopSeen = false ∧
    y.flags.ramping = false ∧ y.flags.saturated = false ∧ y.flags.trimLimit = false ∧
    y.flags.degraded = x.flags.degraded ∧ (∀ j, (y.member j).trim = 0) ∧ notice

/-- A section that its completion trips. -/
theorem completion_tripped {x y : Section} {c : StopCause} {k : Option (Fin 4)} (hy : (x.trip c k).loadShare.Tested y)
    {notice : Prop} (hn : notice) : x.TrippedTo y c k notice := by
  have hno : ¬(x.trip c k).shareFormed.updatesTrims = true := fun hu =>
    absurd ((updatesTrims_iff _).mp hu).1 (by exact nofun)
  obtain ⟨hlimit, htrim⟩ := loadShare_noUpdate hno
  obtain ⟨_, hflag, hmem⟩ := completion_shared hy
  have hk := completion_kept hy
  refine ⟨hk.runState, hk.cause, hk.causeSlot, hk.applied, hk.stopSeen, hk.ramping, hk.saturated,
    hflag.trans hlimit, hk.degraded, fun j => ?_, hn⟩
  obtain ⟨w, hw⟩ := hmem j
  have hz : (x.trip c k).member j = { x.member j with trim := 0 } :=
    member_mapMembers x (fun _ m => { m with trim := 0 }) j
  rw [hw]
  exact (htrim j).trans (by rw [hz])

/-- A completion that trips its section sets SECTION TRIP. -/
theorem closeSlot_notice {s : State} {c : Cycle} {q : SlotRef} (h : s.Completes c q)
    (hset : ((s.slotClosed c q).monitorCompletion q.sec).part.notices.sectionTrip = true) :
    (s.closeSlot c q).part.notices.sectionTrip = true := by
  have hj : (s.judged c q).part.notices.sectionTrip = true := hset
  rw [closeSlot_completes h]
  obtain ⟨hnone, hsome⟩ := runnerCompletion_acts (s.judged c q) q.sec
  cases hc : (s.judged c q).claimant q.sec with
  | none => rw [hnone hc, hj]
  | some r =>
    rw [(hsome r hc).frame]
    exact hj

theorem abortClaimant_sectionTrip (s : State) (i : Fin 16) (c : AbortCause) :
    (s.abortClaimant i c).part.notices.sectionTrip = s.part.notices.sectionTrip := by
  rw [abortClaimant_notices]

/-- A moving section that trips at its completion: the section, the notice, and the runner it leaves. -/
theorem closeSlot_trips {s : State} {c : Cycle} {q : SlotRef} (h : s.Completes c q) {x : Section}
    (hx : (s.deliverSlot c q).sec q.sec = x) (hm : x.moving = true) {e : StopCause × Option (Fin 4)}
    (ht : x.tripsAt = some e) :
    (x.completeMembers.trip e.1 e.2).loadShare.Tested ((s.closeSlot c q).sec q.sec) ∧
    (s.closeSlot c q).part.notices.sectionTrip = true ∧
    ∀ r, s.claimant q.sec = some r →
      (s.closeSlot c q).runner r = (s.runner r).abortedBy .sectionLeftRunning := by
  have hx' : (s.slotClosed c q).sec q.sec = x := hx
  have hmon := monitorCompletion_trips (s := s.slotClosed c q) (i := q.sec) (c := e.1) (j := e.2)
    (by rw [hx']; exact hm) (by rw [hx']; exact ht)
  refine ⟨?_, closeSlot_notice h ?_, fun r hr => ?_⟩
  · obtain ⟨z, hz, _, hy⟩ := closeSlot_section h
    rw [hx] at hz
    cases hz with
    | trips _ trip => rw [trip] at ht; cases ht; exact hy
    | stays _ trip => rw [trip] at ht; cases ht
    | rests still _ => rw [hm] at still; cases still
    | faulty still _ _ _ => rw [hm] at still; cases still
    | released still _ _ => rw [hm] at still; cases still
  · rw [hmon, abortClaimant_sectionTrip]
    rfl
  · have hclosed : (s.slotClosed c q).runners = s.runners := deliverSlot_runners s c q
    have hown (p : Fin 4) : (s.slotClosed c q).runner p = s.runner p :=
      congrArg (fun v : Vector Runner 4 => v[p]) hclosed
    have hclaim : (s.slotClosed c q).claimant q.sec = some r := (claimant_congr hclosed _).trans hr
    have hjudged : (s.judged c q).runner r = (s.runner r).abortedBy .sectionLeftRunning := by
      change ((s.slotClosed c q).monitorCompletion q.sec).runner r = _
      rw [hmon, abortClaimant_runner, if_pos (by exact hclaim)]
      exact congrArg (Runner.abortedBy · .sectionLeftRunning) (hown r)
    rw [closeSlot_completes h]
    obtain ⟨hnone, hsome⟩ := runnerCompletion_acts (s.judged c q) q.sec
    cases hc : (s.judged c q).claimant q.sec with
    | none => rw [hnone hc, hjudged]
    | some p =>
      have hne : r ≠ p := by
        rintro rfl
        exact (claimant_some hc).1 (by rw [hjudged]; rfl)
      rw [(hsome p hc).others r hne, hjudged]

/-- A section at rest whose due release check finds a fault: the section and the notice. -/
theorem closeSlot_faulty {s : State} {c : Cycle} {q : SlotRef} (h : s.Completes c q) {x : Section}
    (hx : (s.deliverSlot c q).sec q.sec = x) (hm : x.moving = false) (hd : x.release = .due) {j : Fin 4}
    (hf : x.completeMembers.faultSlot = some j) (hs : x.runState = .stopped) :
    (x.completeMembers.disarm.trip .memberFault (some j)).loadShare.Tested ((s.closeSlot c q).sec q.sec) ∧
    (s.closeSlot c q).part.notices.sectionTrip = true := by
  have hx' : (s.slotClosed c q).sec q.sec = x := hx
  have hmon := monitorCompletion_faulty (s := s.slotClosed c q) (i := q.sec) (j := j)
    (by rw [hx']; exact hm) (by rw [hx']; exact hd) (by rw [hx']; exact hf) (by rw [hx']; exact hs)
  refine ⟨?_, closeSlot_notice h (by rw [hmon]; rfl)⟩
  obtain ⟨z, hz, _, hy⟩ := closeSlot_section h
  rw [hx] at hz
  cases hz with
  | trips moves _ => rw [hm] at moves; cases moves
  | stays moves _ => rw [hm] at moves; cases moves
  | rests _ undue => exact absurd hd undue
  | faulty _ _ fault _ => rw [fault] at hf; cases hf; exact hy
  | released _ _ clear =>
    rcases clear with hno | hno
    · rw [hno] at hf; cases hf
    · exact absurd hs hno

/-! ## The conditions of a trip (R58) -/

/-- Member `j` shows a fault in a valid report and is not LOST. -/
def Section.Faulty (x : Section) (j : Fin 4) : Prop :=
  j.val < x.cfg.memberCount ∧ (x.completeMembers.member j).state ≠ .lost ∧ (x.member j).result = .valid ∧
    (x.member j).status.fault = true

/-- Member `j` becomes LOST at this completion. -/
def Section.Gone (x : Section) (j : Fin 4) : Prop :=
  j.val < x.cfg.memberCount ∧ (x.member j).state ≠ .lost ∧ (x.completeMembers.member j).state = .lost

theorem completeMembers_report (x : Section) (j : Fin 4) :
    (x.completeMembers.member j).result = (x.member j).result ∧
      (x.completeMembers.member j).status = (x.member j).status := by
  have hm (m : Member) (l : Nat) (run : RunState) :
      (m.completed l run).result = m.result ∧ (m.completed l run).status = m.status := by
    unfold Member.completed
    split
    · exact ⟨rfl, rfl⟩
    · split <;> exact ⟨rfl, rfl⟩
    · exact ⟨rfl, rfl⟩
    · exact ⟨rfl, rfl⟩
    · exact ⟨rfl, rfl⟩
    · split <;> exact ⟨rfl, rfl⟩
  rw [completeMembers_member]
  split
  · exact hm _ _ _
  · exact ⟨rfl, rfl⟩

/-- What makes a slot the one of a fault. -/
theorem fault_iff (x : Section) (j : Fin 4) :
    decide (((x.completeMembers.member j).state != .lost) = true ∧
      ((x.completeMembers.member j).result == .valid && (x.completeMembers.member j).status.fault) = true) = true ↔
      (x.completeMembers.member j).state ≠ .lost ∧ (x.member j).result = .valid ∧
        (x.member j).status.fault = true := by
  obtain ⟨hr, hs⟩ := completeMembers_report x j
  rw [hr, hs, decide_eq_true_eq, Bool.and_eq_true, bne_iff_ne, beq_iff_eq]

theorem faultSlot_some {x : Section} {j : Fin 4} (hj : x.Faulty j) (hlow : ∀ k, k < j → ¬x.Faulty k) :
    x.completeMembers.faultSlot = some j := by
  obtain ⟨hcount, hfault⟩ := hj
  unfold Section.faultSlot Section.sharers
  rw [List.find?_filter]
  refine find_slot (by exact hcount) ((fault_iff x j).mpr hfault) fun k hk => ?_
  exact Bool.eq_false_iff.mpr fun hc => hlow k hk ⟨Nat.lt_trans hk hcount, (fault_iff x k).mp hc⟩

theorem faultSlot_none {x : Section} (h : ∀ k, ¬x.Faulty k) : x.completeMembers.faultSlot = none := by
  unfold Section.faultSlot Section.sharers
  rw [List.find?_filter]
  exact find_slot_none fun k hk => Bool.eq_false_iff.mpr fun hc => h k ⟨hk, (fault_iff x k).mp hc⟩

theorem mem_newlyLost (x : Section) (j : Fin 4) : j ∈ x.newlyLost x.completeMembers ↔ x.Gone j := by
  have hall : j ∈ allSlots := by fin_cases j <;> simp [allSlots]
  unfold Section.newlyLost Section.slots Section.Gone
  rw [List.mem_filter, List.mem_filter, Bool.and_eq_true, bne_iff_ne, beq_iff_eq, decide_eq_true_eq]
  simp only [hall, true_and]

theorem newlyLost_ascends (x y : Section) : (x.newlyLost y).Pairwise (· < ·) := by
  have h : allSlots.Pairwise (· < ·) := by decide
  exact (h.filter _).filter _

/-- The trip that a moving section takes, by the first condition that holds. -/
theorem tripsAt_table (x : Section) :
    (x.Gone 0 → x.tripsAt = some (.leadLost, none)) ∧
    (∀ j, ¬x.Gone 0 → x.Faulty j → (∀ k, k < j → ¬x.Faulty k) → x.tripsAt = some (.memberFault, some j)) ∧
    (∀ j, ¬x.Gone 0 → (∀ k, ¬x.Faulty k) → x.Gone j → (∀ k, k < j → ¬x.Gone k) → x.cfg.degradeAllowed = false →
      x.tripsAt = some (.memberLost, some j)) ∧
    (¬x.Gone 0 → (∀ k, ¬x.Faulty k) → x.cfg.degradeAllowed = true ∨ (∀ j, ¬x.Gone j) → x.tripsAt = none) := by
  have hlead (h : ¬x.Gone 0) : ¬(x.newlyLost x.completeMembers).contains 0 = true := fun hc =>
    h ((mem_newlyLost x 0).mp (List.contains_iff_mem.mp hc))
  unfold Section.tripsAt Section.tripCause
  refine ⟨fun h => if_pos (List.contains_iff_mem.mpr ((mem_newlyLost x 0).mpr h)), fun j h0 hj hlow => ?_,
    fun j h0 hf hj hlow hd => ?_, fun h0 hf hd => ?_⟩
  · rw [if_neg (hlead h0), faultSlot_some hj hlow]
  · obtain ⟨rest, hl⟩ := head_eq_of_least (newlyLost_ascends x x.completeMembers) ((mem_newlyLost x j).mpr hj)
      fun k hk hin => hlow k hk ((mem_newlyLost x k).mp hin)
    rw [if_neg (hlead h0), faultSlot_none hf, hl]
    exact if_neg (by
      change ¬x.cfg.degradeAllowed = true
      rw [hd]
      decide)
  · rw [if_neg (hlead h0), faultSlot_none hf]
    cases hl : x.newlyLost x.completeMembers with
    | nil => rfl
    | cons j rest =>
      have hj : x.Gone j := (mem_newlyLost x j).mp (hl ▸ List.mem_cons_self)
      exact if_pos (hd.resolve_right fun hno => hno j hj)

/-! ## The statement -/

theorem moving_false {x : Section} (h : x.runState = .stopped ∨ x.runState = .tripped) : x.moving = false := by
  unfold Section.moving
  rcases h with h | h <;> rw [h] <;> rfl

/-- A moving section that its completion does not trip is degraded when a member became LOST. -/
theorem completion_degraded (x : Section) : (x.completeMembers.degrade (x.newlyLost x.completeMembers)).flags.degraded =
    true ↔ x.flags.degraded = true ∨ ∃ j, x.Gone j := by
  unfold Section.degrade
  by_cases hl : (x.newlyLost x.completeMembers).isEmpty = true
  · rw [if_pos hl]
    have hno : ¬∃ j, x.Gone j := fun ⟨j, hj⟩ => by
      have hin := (mem_newlyLost x j).mpr hj
      rw [List.isEmpty_iff.mp hl] at hin
      exact List.not_mem_nil hin
    exact ⟨fun h => .inl h, fun h => h.resolve_right hno⟩
  · rw [if_neg hl]
    obtain ⟨j, hj⟩ := List.exists_mem_of_ne_nil _ fun he => hl (List.isEmpty_iff.mpr he)
    exact ⟨fun _ => .inr ⟨j, (mem_newlyLost x j).mp hj⟩, fun _ => rfl⟩

theorem degrade_runState (x : Section) (l : List (Fin 4)) :
    (x.degrade l).runState = x.runState ∧ (x.degrade l).cause = x.cause := by
  unfold Section.degrade
  split <;> exact ⟨rfl, rfl⟩

/-- Settles O29. -/
theorem tripAtCompletion : Obligations.TripAtCompletion := by
  intro s c q h
  refine ⟨s.closeSlot c q, rfl, exec_slotEnd h.toSlotRuns, closeSlot_frame h, fun hmore => if_pos hmore,
    closeSlot_unclaimed h, ?_⟩
  rintro x y gone faulty tripped hx rfl hgone hfaulty rfl
  obtain ⟨z, hz, _, hy⟩ := closeSlot_section h
  have hkept := completion_kept hy
  have hstate (j : Fin 4) := (completion_member hz hy j).1
  have htrips (hm : x.moving = true) {e : StopCause × Option (Fin 4)} (ht : x.tripsAt = some e) :=
    closeSlot_trips h hx.symm hm ht
  have hfaults (hm : x.moving = false) (hd : x.release = .due) {j : Fin 4}
      (hf : x.completeMembers.faultSlot = some j) (hs : x.runState = .stopped) :=
    closeSlot_faulty h hx.symm hm hd hf hs
  rw [← hx] at hz hstate
  have hg : gone = x.Gone := by
    rw [hgone]
    exact funext fun j => by rw [hstate]; rfl
  have hf : faulty = x.Faulty := by
    rw [hfaulty]
    exact funext fun j => by rw [hstate]; rfl
  subst hg hf
  have htripped {e : StopCause × Option (Fin 4)} (hm : x.moving = true) (ht : x.tripsAt = some e) :
      x.TrippedTo ((s.closeSlot c q).sec q.sec) e.1 e.2 ((s.closeSlot c q).part.notices.sectionTrip = true) := by
    obtain ⟨hsec, hnotice, _⟩ := htrips hm ht
    exact completion_tripped hsec hnotice
  obtain ⟨hlead, hfault, hlost, hnone⟩ := tripsAt_table x
  refine ⟨fun hmoves => ?_, fun hrest => ?_⟩
  · have hm := (moving_iff x).mpr hmoves
    refine ⟨fun h0 => htripped hm (hlead h0), fun j h0 hj hlow => htripped hm (hfault j h0 hj hlow),
      fun j h0 hno hj hlow hd => htripped hm (hlost j h0 hno hj hlow hd), fun h0 hno hd => ?_, fun r hr hrun => ?_⟩
    · have ht := hnone h0 hno hd
      cases hz with
      | trips _ trip => rw [ht] at trip; cases trip
      | stays _ _ =>
        obtain ⟨hrun, hcause⟩ := degrade_runState x.completeMembers (x.newlyLost x.completeMembers)
        exact ⟨hkept.runState.trans hrun, hkept.cause.trans hcause,
          (iff_of_eq (congrArg (· = true) hkept.degraded)).trans (completion_degraded x)⟩
      | rests still _ => rw [hm] at still; cases still
      | faulty still _ _ _ => rw [hm] at still; cases still
      | released still _ _ => rw [hm] at still; cases still
    · cases ht : x.tripsAt with
      | some e => exact (htrips hm ht).2.2 r hr
      | none =>
        have hsame : z.runState = x.runState := by
          cases hz with
          | trips _ trip => rw [ht] at trip; cases trip
          | stays _ _ => exact (degrade_runState x.completeMembers _).1
          | rests still _ => rw [hm] at still; cases still
          | faulty still _ _ _ => rw [hm] at still; cases still
          | released still _ _ => rw [hm] at still; cases still
        rw [hkept.runState, hsame] at hrun
        rw [hrun] at hmoves
        exact absurd hmoves (by decide)
  · have hm := moving_false hrest
    refine ⟨fun hud => ?_, fun hd => ⟨?_, fun j hs hj hlow => ?_, fun hclear => ?_⟩⟩
    · cases hz with
      | trips moves _ => rw [hm] at moves; cases moves
      | stays moves _ => rw [hm] at moves; cases moves
      | rests _ _ => exact ⟨hkept.runState, hkept.cause, hkept.release⟩
      | faulty _ due _ _ => exact absurd due hud
      | released _ due _ => exact absurd due hud
    · cases hz with
      | trips moves _ => rw [hm] at moves; cases moves
      | stays moves _ => rw [hm] at moves; cases moves
      | rests _ undue => exact absurd hd undue
      | faulty _ _ _ _ => exact hkept.release
      | released _ _ _ => exact hkept.release
    · obtain ⟨hsec, hnotice⟩ := hfaults hm hd (faultSlot_some hj hlow) hs
      exact completion_tripped hsec hnotice
    · cases hz with
      | trips moves _ => rw [hm] at moves; cases moves
      | stays moves _ => rw [hm] at moves; cases moves
      | rests _ undue => exact absurd hd undue
      | faulty _ _ fault stopped =>
        rcases hclear with ht | hno
        · rw [stopped] at ht; cases ht
        · rw [faultSlot_none hno] at fault; cases fault
      | released _ _ _ => exact ⟨hkept.runState, hkept.cause⟩

end Sys2Proof.Machine
end

section
/-! PROOF. The section load, the shares and the trim updates at a window completion, with the statements O30 and O31. -/

namespace Sys2Proof.Machine

open Sys2Proof

/-! ## What the monitor leaves of a member's figures -/

theorem completed_kept (m : Member) (l : Nat) (run : RunState) : ∃ st n t a b, m.completed l run =
    { m with state := st, missCount := n, trim := t, shareTarget := a, shareError := b } := by
  unfold Member.completed
  split
  · exact ⟨_, _, _, _, _, rfl⟩
  · split
    · exact ⟨_, _, _, _, _, rfl⟩
    · exact ⟨_, _, _, _, _, rfl⟩
  · exact ⟨_, _, _, _, _, rfl⟩
  · exact ⟨_, _, _, _, _, rfl⟩
  · exact ⟨_, _, _, _, _, rfl⟩
  · split
    · exact ⟨_, _, _, _, _, rfl⟩
    · exact ⟨_, _, _, _, _, rfl⟩

/-- A member that is not LOST after its completion keeps its trim and its share. -/
theorem completed_present (m : Member) (l : Nat) (run : RunState) (h : (m.completed l run).state ≠ .lost) :
    (m.completed l run).trim = m.trim ∧ (m.completed l run).shareTarget = m.shareTarget ∧
      (m.completed l run).shareError = m.shareError := by
  revert h
  unfold Member.completed
  split
  · exact fun _ => ⟨rfl, rfl, rfl⟩
  · split
    · exact fun _ => ⟨rfl, rfl, rfl⟩
    · exact fun _ => ⟨rfl, rfl, rfl⟩
  · exact fun _ => ⟨rfl, rfl, rfl⟩
  · exact fun _ => ⟨rfl, rfl, rfl⟩
  · exact fun _ => ⟨rfl, rfl, rfl⟩
  · split
    · exact fun h => absurd rfl h
    · exact fun _ => ⟨rfl, rfl, rfl⟩

theorem completeMembers_kept (x : Section) (j : Fin 4) : ∃ st n t a b, x.completeMembers.member j =
    { x.member j with state := st, missCount := n, trim := t, shareTarget := a, shareError := b } := by
  rw [completeMembers_member]
  split
  · exact completed_kept _ _ _
  · exact ⟨_, _, _, _, _, rfl⟩

theorem completeMembers_present {x : Section} {j : Fin 4} (h : (x.completeMembers.member j).state ≠ .lost) :
    (x.completeMembers.member j).trim = (x.member j).trim ∧
      (x.completeMembers.member j).shareTarget = (x.member j).shareTarget ∧
      (x.completeMembers.member j).shareError = (x.member j).shareError := by
  rw [completeMembers_member] at h ⊢
  split
  · next hj =>
    rw [if_pos hj] at h
    exact completed_present _ _ _ h
  · exact ⟨rfl, rfl, rfl⟩

/-- The figures of a member that the monitor does not change. -/
theorem monitored_figures {x z : Section} (h : Monitored x z) (j : Fin 4) : (z.member j).result = (x.member j).result ∧
    (z.member j).torque = (x.member j).torque ∧ (z.member j).rating = (x.member j).rating ∧
    (z.member j).weight = (x.member j).weight ∧ (z.member j).converted = (x.member j).converted := by
  obtain ⟨_, _, _, _, _, hc⟩ := completeMembers_kept x j
  rcases monitored_member h j with hm | hm
  · rw [hm, hc]
    exact ⟨rfl, rfl, rfl, rfl, rfl⟩
  · rw [hm, hc]
    exact ⟨rfl, rfl, rfl, rfl, rfl⟩

theorem trip_cfg (x : Section) (c : StopCause) (k : Option (Fin 4)) :
    (x.trip c k).cfg = x.cfg ∧ (x.trip c k).load = x.load := ⟨rfl, rfl⟩

theorem disarm_cfg (x : Section) : x.disarm.cfg = x.cfg ∧ x.disarm.load = x.load := ⟨rfl, rfl⟩

theorem completeMembers_cfg (x : Section) : x.completeMembers.cfg = x.cfg ∧ x.completeMembers.load = x.load :=
  ⟨rfl, rfl⟩

theorem degrade_cfg (x : Section) (l : List (Fin 4)) : (x.degrade l).cfg = x.cfg ∧ (x.degrade l).load = x.load := by
  unfold Section.degrade
  split <;> exact ⟨rfl, rfl⟩

theorem monitored_cfg {x z : Section} (h : Monitored x z) : z.cfg = x.cfg ∧ z.load = x.load := by
  obtain ⟨hc, hl⟩ := completeMembers_cfg x
  cases h with
  | trips _ _ =>
    rw [(trip_cfg _ _ _).1, (trip_cfg _ _ _).2, hc, hl]
    exact ⟨rfl, rfl⟩
  | stays _ _ =>
    rw [(degrade_cfg _ _).1, (degrade_cfg _ _).2, hc, hl]
    exact ⟨rfl, rfl⟩
  | rests _ _ => exact ⟨hc, hl⟩
  | faulty _ _ _ _ =>
    rw [(trip_cfg _ _ _).1, (trip_cfg _ _ _).2, (disarm_cfg _).1, (disarm_cfg _).2, hc, hl]
    exact ⟨rfl, rfl⟩
  | released _ _ _ =>
    rw [(disarm_cfg _).1, (disarm_cfg _).2, hc, hl]
    exact ⟨rfl, rfl⟩

/-- The share of a member that is not LOST after the monitor. -/
theorem monitored_share {x z : Section} (h : Monitored x z) {j : Fin 4} (hj : (z.member j).state ≠ .lost) :
    (z.member j).shareTarget = (x.member j).shareTarget ∧ (z.member j).shareError = (x.member j).shareError := by
  rcases monitored_member h j with hm | hm
  · rw [hm] at hj ⊢
    exact (completeMembers_present hj).2
  · rw [hm] at hj ⊢
    exact (completeMembers_present (x := x) (j := j) hj).2

theorem convertedAt_monitored {x z : Section} (h : Monitored x z) (j : Fin 4) : z.convertedAt j =
    if j.val < x.cfg.memberCount ∧ (x.member j).result = .valid then
      ((x.member j).torque * (x.member j).rating).tdiv 1000
    else (x.member j).converted := by
  obtain ⟨hr, ht, hra, _, hc⟩ := monitored_figures h j
  unfold Section.convertedAt
  rw [hr, ht, hra, hc, (monitored_cfg h).1]

/-! ## The load and the shares (R84 to R87) -/

theorem completion_converted {z y : Section} (hy : z.loadShare.Tested y) (j : Fin 4) :
    (y.member j).converted = z.convertedAt j := by
  obtain ⟨w, hw⟩ := hy.2 j
  obtain ⟨t, ht⟩ := loadShare_keeps z j
  obtain ⟨a, b, hab⟩ := shareFormed_keeps z j
  rw [hw, ht, hab]

/-- The members taken at a completion, as the section after it shows them. -/
theorem completion_sharers {x z y : Section} (hz : Monitored x z) (hy : z.loadShare.Tested y) :
    z.sharers = [0, 1, 2, 3].filter fun j => decide (j.val < x.cfg.memberCount ∧ (y.member j).state ≠ .lost) := by
  rw [sharers_eq, (monitored_cfg hz).1]
  refine List.filter_congr fun j _ => ?_
  obtain ⟨hs, _, hzs⟩ := completion_member hz hy j
  rw [hs, hzs]

theorem loaded_monitored {x z : Section} (hz : Monitored x z) :
    z.convertTorques.loaded = z.sharers.filter fun j => decide ((x.member j).result = .valid) := by
  have hs : z.convertTorques.sharers = z.sharers :=
    sharers_congr rfl fun j => by rw [convertTorques_member]
  unfold Section.loaded
  rw [hs]
  refine List.filter_congr fun j _ => ?_
  rw [convertTorques_member]
  change ((z.member j).result == .valid) = _
  rw [(monitored_figures hz j).1, beq_eq_decide]

theorem completion_load {x z y : Section} (hz : Monitored x z) (hy : z.loadShare.Tested y) : y.load =
    if (z.sharers.filter fun j => decide ((x.member j).result = .valid)) = [] then x.load else
      (((z.sharers.filter fun j => decide ((x.member j).result = .valid)).map fun j => (y.member j).converted).sum *
        1000).tdiv
        ((z.sharers.filter fun j => decide ((x.member j).result = .valid)).map fun j => (x.member j).rating).sum := by
  have hl : z.loadShare.load = z.loadFormed.load := by
    rw [loadShare_eq]
    have hu : z.shareFormed.updateTrims.load = z.shareFormed.load := by
      unfold Section.updateTrims
      split <;> rfl
    rw [hu, (shareFormed_rest z).2.2.2]
  rw [(completion_shared hy).1, hl]
  unfold Section.loadFormed
  rw [formLoad_eq, loaded_monitored hz]
  have hc (j : Fin 4) : (z.convertTorques.member j).converted = (y.member j).converted := by
    rw [convertTorques_member, completion_converted hy]
  have hr (j : Fin 4) : (z.convertTorques.member j).rating = (x.member j).rating := by
    rw [convertTorques_member]
    exact (monitored_figures hz j).2.2.1
  have h0 : z.convertTorques.load = x.load := (monitored_cfg hz).2
  simp only [hc, hr, h0]

theorem full_monitored {x z : Section} (hz : Monitored x z) :
    z.full = true ↔ z.sharers ≠ [] ∧ ∀ j ∈ z.sharers, (x.member j).result = .valid := by
  rw [full_iff]
  simp only [fun j => (monitored_figures hz j).1]

/-- The share of a member at a completion that is full. -/
theorem completion_share {x z y : Section} (hz : Monitored x z) (hy : z.loadShare.Tested y) {j : Fin 4}
    (hj : j ∈ z.sharers) :
    (z.full = true →
      (y.member j).shareTarget = divHalfAway ((z.sharers.map fun j => (y.member j).converted).sum * (x.member j).weight)
        (z.sharers.map fun j => (x.member j).weight).sum ∧
      (y.member j).shareError = (y.member j).shareTarget - (y.member j).converted) ∧
    (z.full = false → (y.member j).shareTarget = (x.member j).shareTarget ∧
      (y.member j).shareError = (x.member j).shareError) := by
  obtain ⟨w, hw⟩ := hy.2 j
  obtain ⟨t, ht⟩ := loadShare_keeps z j
  have hshare : (y.member j).shareTarget = (z.shareFormed.member j).shareTarget ∧
      (y.member j).shareError = (z.shareFormed.member j).shareError := by
    rw [hw, ht]
    exact ⟨rfl, rfl⟩
  rw [hshare.1, hshare.2, shareFormed_member]
  refine ⟨fun hf => ?_, fun hf => ?_⟩
  · have htotal : z.loadFormed.totalTorque = (z.sharers.map fun j => (y.member j).converted).sum := by
      unfold Section.totalTorque
      rw [sumInt_eq_sum, loadFormed_sharers]
      simp only [loadFormed_member, completion_converted hy]
    have hweights : z.loadFormed.totalWeight = (z.sharers.map fun j => (x.member j).weight).sum := by
      unfold Section.totalWeight
      rw [sumInt_eq_sum, loadFormed_sharers]
      simp only [loadFormed_member, fun j => (monitored_figures hz j).2.2.2.1]
    rw [if_pos ⟨hf, hj⟩, htotal, hweights, completion_converted hy]
    unfold Member.share
    rw [(monitored_figures hz j).2.2.2.1]
    exact ⟨rfl, rfl⟩
  · rw [if_neg fun hc => by rw [hf] at hc; exact Bool.false_ne_true hc.1]
    exact monitored_share hz ((mem_sharers z j).mp hj).2

/-- Settles O30. -/
theorem loadAndShares : Obligations.LoadAndShares := by
  intro s c q h
  refine ⟨s.closeSlot c q, rfl, exec_slotEnd h.toSlotRuns, ?_⟩
  rintro x y present loaded total weights hx rfl hpresent rfl rfl rfl
  obtain ⟨z, hz, _, hy⟩ := closeSlot_section h
  rw [← hx] at hz
  generalize (s.closeSlot c q).sec q.sec = y at *
  rw [← completion_sharers hz hy] at hpresent
  subst hpresent
  have hload := completion_load hz hy
  refine ⟨fun j hj hr => ?_, fun j hj => ?_, fun hnil => hload.trans (if_pos hnil), fun hsome =>
    hload.trans (if_neg hsome), fun hne hall j hj => ?_, fun hsome j hj => ?_⟩
  · rw [completion_converted hy, convertedAt_monitored hz, if_pos ⟨hj, hr⟩]
  · rw [completion_converted hy, convertedAt_monitored hz, if_neg fun hc => hj.elim (Nat.not_le.mpr hc.1) fun hn => hn hc.2]
  · exact (completion_share hz hy hj).1 ((full_monitored hz).mpr ⟨hne, hall⟩)
  · obtain ⟨k, hk, hno⟩ := hsome
    exact (completion_share hz hy hj).2 (Bool.eq_false_iff.mpr fun hf => hno (((full_monitored hz).mp hf).2 k hk))

/-! ## The trim update (R88 to R90) -/

/-- A section that its completion did not trip: it runs on, and the trims of members not LOST stand before the update. -/
theorem monitored_untripped {x z : Section} (h : Monitored x z) (hrun : z.runState ≠ .tripped) :
    z.runState = x.runState ∧ z.applied = x.applied ∧ z.flags.trimLimit = x.flags.trimLimit ∧
      ∀ j, (z.member j).state ≠ .lost → (z.member j).trim = (x.member j).trim := by
  cases h with
  | trips _ _ => exact absurd rfl hrun
  | faulty _ _ _ _ => exact absurd rfl hrun
  | stays _ _ =>
    have hd : ∃ b, x.completeMembers.degrade (x.newlyLost x.completeMembers) =
        { x.completeMembers with flags := { x.flags with degraded := b } } := by
      unfold Section.degrade
      split
      · exact ⟨_, rfl⟩
      · exact ⟨_, rfl⟩
    obtain ⟨b, hd⟩ := hd
    rw [hd]
    exact ⟨rfl, rfl, rfl, fun j hj => (completeMembers_present (x := x) (j := j) hj).1⟩
  | rests _ _ => exact ⟨rfl, rfl, rfl, fun j hj => (completeMembers_present hj).1⟩
  | released _ _ _ => exact ⟨rfl, rfl, rfl, fun j hj => (completeMembers_present (x := x) (j := j) hj).1⟩

theorem outsideBand_iff {m : Member} {d : Int} : m.outsideBand d = true ↔ d < m.shareError ∨ m.shareError < -d := by
  unfold Member.outsideBand
  rw [decide_eq_true_eq, magnitude_eq_max]
  omega

/-- The trim of a follower after its update. -/
theorem updateTrim_trim (m : Member) (c : Settings) (hl : 0 ≤ c.trimLimit) : (m.updateTrim c).trim =
    if c.deadband < m.shareError ∨ m.shareError < -c.deadband then
      max (-c.trimLimit) (min c.trimLimit (m.trim + divHalfAway (m.shareError * c.ki) 100000))
    else m.trim := by
  unfold Member.updateTrim
  by_cases h : c.deadband < m.shareError ∨ m.shareError < -c.deadband
  · rw [if_pos (outsideBand_iff.mpr h), if_pos h, clampInt_eq_max_min (by omega)]
    rfl
  · rw [if_neg fun hb => h (outsideBand_iff.mp hb), if_neg h]

theorem trimClamps_iff (m : Member) (c : Settings) : m.trimClamps c = true ↔
    (c.deadband < m.shareError ∨ m.shareError < -c.deadband) ∧
      (m.trim + divHalfAway (m.shareError * c.ki) 100000 < -c.trimLimit ∨
        c.trimLimit < m.trim + divHalfAway (m.shareError * c.ki) 100000) := by
  unfold Member.trimClamps
  rw [Bool.and_eq_true, outsideBand_iff, clampActs_iff]
  exact Iff.rfl

/-- Settles O31. -/
theorem trimUpdates : Obligations.TrimUpdates := by
  intro s c q h
  refine ⟨s.closeSlot c q, rfl, exec_slotEnd h.toSlotRuns, ?_⟩
  rintro x y present sum outside updates hx rfl hpresent rfl rfl hupdates hl _
  obtain ⟨z, hz, _, hy⟩ := closeSlot_section h
  rw [← hx] at hz
  generalize (s.closeSlot c q).sec q.sec = y at *
  rw [← completion_sharers hz hy] at hpresent
  subst hpresent
  have hkept := completion_kept hy
  obtain ⟨_, hflag, hmem⟩ := completion_shared hy
  have hcfg := (monitored_cfg hz).1
  have herror (j : Fin 4) : (y.member j).shareError = (z.shareFormed.member j).shareError := by
    obtain ⟨w, hw⟩ := hmem j
    obtain ⟨t, ht⟩ := loadShare_keeps z j
    rw [hw, ht]
  have htrim (j : Fin 4) : (y.member j).trim = (z.loadShare.member j).trim := by
    obtain ⟨w, hw⟩ := hmem j
    rw [hw]
  have hbefore (j : Fin 4) : (z.shareFormed.member j).trim = (z.member j).trim := by
    obtain ⟨a, b, hab⟩ := shareFormed_keeps z j
    rw [hab]
  have hiff (hrun : z.runState ≠ .tripped) : updates ↔ z.shareFormed.updatesTrims = true := by
    obtain ⟨_, happ, _, _⟩ := monitored_untripped hz hrun
    rw [hupdates, updatesTrims_iff, full_monitored hz, hkept.runState, happ, hcfg]
  refine ⟨fun hu => ?_, fun hno hrun => ?_⟩
  · have hrun : z.runState = .running := by
      rw [hupdates] at hu
      exact hkept.runState ▸ hu.1
    have hnot : z.runState ≠ .tripped := by
      rw [hrun]
      exact nofun
    have hup := (hiff hnot).mp hu
    obtain ⟨_, _, _, hstand⟩ := monitored_untripped hz hnot
    have hprior {j : Fin 4} (hj : j ∈ z.sharers) : (z.shareFormed.member j).trim = (x.member j).trim :=
      (hbefore j).trans (hstand j ((mem_sharers z j).mp hj).2)
    have hnew {j : Fin 4} (hj : j ∈ z.sharers) (h0 : j ≠ 0) : (y.member j).trim =
        if x.cfg.deadband < (y.member j).shareError ∨ (y.member j).shareError < -x.cfg.deadband then
          max (-x.cfg.trimLimit) (min x.cfg.trimLimit
            ((x.member j).trim + divHalfAway ((y.member j).shareError * x.cfg.ki) 100000))
        else (x.member j).trim := by
      rw [htrim, loadShare_member, if_pos ⟨hup, h0, hj⟩, updateTrim_trim _ _ (by rw [hcfg]; exact hl), hcfg, herror,
        hprior hj]
    refine ⟨fun j ⟨h0, hj, hout⟩ => (hnew hj h0).trans (if_pos hout), fun j hj hin => ?_, ?_⟩
    · by_cases h0 : j = 0
      · rw [htrim, loadShare_member, if_neg fun hc => hc.2.1 h0, hprior hj]
      · exact (hnew hj h0).trans (if_neg fun hout => hin ⟨h0, hj, hout⟩)
    · rw [hflag, loadShare_eq, updateTrims_trimLimit, if_pos hup, List.any_eq_true, shareFormed_cfg, hcfg]
      refine exists_congr fun j => ?_
      rw [mem_followers, shareFormed_sharers, trimClamps_iff, ← herror, and_assoc]
      refine ⟨fun ⟨h0, hj, hout, hclamp⟩ => ⟨⟨h0, hj, hout⟩, ?_⟩, fun ⟨⟨h0, hj, hout⟩, hclamp⟩ => ⟨h0, hj, hout, ?_⟩⟩
      · rw [hprior hj] at hclamp
        exact hclamp
      · rw [hprior hj]
        exact hclamp
  · have hnot : z.runState ≠ .tripped := hkept.runState ▸ hrun
    obtain ⟨_, _, hlimit, hstand⟩ := monitored_untripped hz hnot
    obtain ⟨hf, ht⟩ := loadShare_noUpdate fun hup => hno ((hiff hnot).mpr hup)
    exact ⟨fun j hj => (htrim j).trans ((ht j).trans (hstand j ((mem_sharers z j).mp hj).2)), hflag.trans (hf.trans hlimit)⟩

end Sys2Proof.Machine
end

section
/-! PROOF. The end of a downstream cycle, and the statement O32. -/

namespace Sys2Proof.Machine

open Sys2Proof

/-! ## The report images (R24) -/

theorem foldl_retakeImage (l : List (Fin 16)) (s : State) (i : Fin 16) :
    (l.foldl State.retakeImage s).cyc.images[i] = if i ∈ l then some (s.takeImage i) else s.cyc.images[i] := by
  induction l generalizing s with
  | nil => rfl
  | cons k l ih =>
    have hsame : (s.retakeImage k).takeImage i = s.takeImage i := rfl
    have hset : (s.retakeImage k).cyc.images[i] = if k = i then some (s.takeImage k) else s.cyc.images[i] := by
      simp [State.retakeImage, State.setImage, State.modCyc, Vector.getElem_set, Fin.ext_iff]
    rw [List.foldl_cons, ih, hsame, hset]
    by_cases hk : k = i
    · subst hk
      simp
    · simp [hk, Ne.symm hk]

/-- The image of a section after the cycle's end: taken again where the cycle delivered it. -/
theorem finishCycle_image (s : State) (c : Cycle) (i : Fin 16) : (s.finishCycle c).cyc.images[i] =
    if (s.sec i).present = true ∧ (∃ n ∈ c.slots, n.sec = i) ∧ i ∉ c.dropped then some (s.takeImage i)
    else s.cyc.images[i] := by
  have hmem : i ∈ s.delivered c ↔ (s.sec i).present = true ∧ (∃ n ∈ c.slots, n.sec = i) ∧ i ∉ c.dropped := by
    unfold State.delivered
    rw [List.mem_filter, mem_presentSecs, Bool.and_eq_true, List.any_eq_true, Bool.not_eq_true', ← Bool.not_eq_true,
      List.contains_iff_mem]
    simp only [beq_iff_eq]
  have h := foldl_retakeImage (s.delivered c) s i
  simp only [hmem] at h
  exact h

/-! ## What the last slot leaves -/

theorem closeSlot_rest (s : State) (c : Cycle) (q : SlotRef) :
    (s.closeSlot c q).pending = s.pending ∧ (s.closeSlot c q).chain = s.chain ∧ (s.closeSlot c q).steps = s.steps ∧
      (s.closeSlot c q).mgmt = s.mgmt ∧ (s.closeSlot c q).store = s.store := by
  have hclosed := deliverSlot_form s c q
  have hwin : SecsOnly (s.slotClosed c q) (s.closeSlot c q) := by
    unfold State.closeSlot
    dsimp only
    split
    · exact windowCompletion_secsOnly _ _
    · exact .refl _
  obtain ⟨hp, _, _, _, _, _, hch, hst, hm, hsto, _⟩ := hwin.keeps
  have hd : (s.slotClosed c q).pending = s.pending ∧ (s.slotClosed c q).chain = s.chain ∧
      (s.slotClosed c q).steps = s.steps ∧ (s.slotClosed c q).mgmt = s.mgmt ∧ (s.slotClosed c q).store = s.store := by
    unfold State.slotClosed
    rw [hclosed]
    exact ⟨rfl, rfl, rfl, rfl, rfl⟩
  exact ⟨hp.trans hd.1, hch.trans hd.2.1, hst.trans hd.2.2.1, hm.trans hd.2.2.2.1, hsto.trans hd.2.2.2.2⟩

/-- Loopback entry, from a state whose link test waits for it. -/
theorem enterLoopback_eq (s : State) : s.enterLoopback = { s with
    link := { s.link with loopback := true, frameNo := 0, awaiting := true, echoBits := 0, sendTimer := none }
    dn := { s.dn with
      fifo := [], asm := .wait, gapTimer := none, awaitMark := false, sentBits := 0, driving := true } } := rfl

/-- Settles O32. -/
theorem cycleEnds : Obligations.CycleEnds := by
  intro s u c q h hw hlast hu
  have hexec := exec_slotEnd h
  obtain ⟨hphase, hup, hdn, hlink, hcyc⟩ := closeSlot_keeps s c q
  obtain ⟨hpending, hchain, hsteps, hmgmt, hstore⟩ := closeSlot_rest s c q
  have hstarts (hp : s.cyc.pendingStart = true) (hl : s.link.running = false) :
      s.StartsFrom .slotEnd ((s.closeSlot c q).finishCycle c) :=
    .cycleEnd ⟨h.quiet, hw⟩ h (by omega) hp hl
  rw [← hu] at hexec hphase hup hdn hlink hcyc hpending hchain hsteps hmgmt hstore hstarts
  clear hu
  have hafter : u.afterSlot c = (u.finishCycle c).afterCycle.settle := if_neg (by omega)
  have himage := finishCycle_image u c
  have hform : u.finishCycle c = { u with cyc := { s.cyc with
      inFlight := none, images := (u.finishCycle c).cyc.images } } := by
    conv_lhs => rw [finishCycle_form, hcyc]
  rw [hafter] at hexec
  generalize hb : u.finishCycle c = b at hexec himage hform hstarts
  have hbq : b.Quiet := by
    rw [hform]
    exact ⟨(congrArg Port.fifo hup).trans h.quiet.1, (congrArg Port.fifo hdn).trans h.quiet.2⟩
  have hblink : b.link = s.link := by rw [hform]; exact hlink
  have hbstart : b.cyc.pendingStart = s.cyc.pendingStart := by rw [hform]
  have hbdn : b.dn = s.dn := by rw [hform]; exact hdn
  refine ⟨_, b, b.cyc.images, hexec, hpending, hphase, hup, hdn, hlink, hchain, hsteps, hmgmt, hstore, by rw [hcyc],
    fun i => ⟨fun hp hin hd => ?_, fun hno => ?_⟩, hform, fun hl hp => ?_, fun hl hlb => ?_, fun hl hp => ?_⟩
  · rw [himage, if_pos ⟨hp, hin, hd⟩]
    rfl
  · rw [himage, if_neg, hcyc]
    rintro ⟨hp, ⟨n, hn, hsec⟩, hd⟩
    rcases hno with hno | hno | hno
    · rw [hno] at hp; cases hp
    · exact hno n hn hsec
    · exact hd hno
  · have hrest : b.afterCycle = b := by
      unfold State.afterCycle State.servePending
      rw [if_neg (by rw [hblink, hl]; decide), hbstart, hp]
      rfl
    rw [hrest, settle_quiet hbq]
  · have henter : b.afterCycle = b.enterLoopback := by
      unfold State.afterCycle
      rw [if_pos (by rw [hblink, hl]), if_neg (by rw [hblink, hlb]; decide)]
    rw [henter, settle_quiet (s := b.enterLoopback) ⟨hbq.1, rfl⟩, enterLoopback_eq, hblink, hbdn]
  · have hs := hstarts hp hl
    have ht := Host.Outcome.next.inj (hexec.symm.trans (exec_starts hs))
    rw [ht, started_frame, hform]
    exact ⟨hform ▸ hs, rfl, rfl, rfl⟩

end Sys2Proof.Machine
end

section
/-! PROOF. One entry through a downstream cycle start, stage by stage: what begins the cycle for it, the ratio and the
target it forms over its base ratio, the ramp, and the entry to STOPPED (R31, R53, R55, R65 to R72). -/

namespace Sys2Proof.Machine

open Sys2Proof

/-! ## The beginning of a cycle (R53, R55, R62) -/

/-- A present entry as the order age finds it: results cleared, an armed release check due. -/
def Section.opened (x : Section) : Section := x.clearResults.releaseFallsDue

theorem beginCycle_eq (x : Section) : x.beginCycle = x.opened.ageOrder := rfl

theorem opened_frame (x : Section) :
    x.opened = { x with release := x.opened.release, members := x.clearResults.members } := by
  unfold Section.opened Section.releaseFallsDue
  split <;> rfl

theorem opened_member (x : Section) (j : Fin 4) : x.opened.member j = { x.member j with result := .none } := by
  have hmembers : x.opened.member j = x.clearResults.member j := by rw [opened_frame]; rfl
  rw [hmembers]
  exact member_mapMembers x _ j

theorem ageOrder_frame (x : Section) : ∃ r c j p,
    x.ageOrder = { x.older with runState := r, cause := c, causeSlot := j, stopSeen := p } := by
  rw [ageOrder_eq]
  split
  · split
    · exact ⟨_, _, _, _, rfl⟩
    · split
      · exact ⟨_, _, _, _, rfl⟩
      · exact ⟨_, _, _, _, rfl⟩
    · exact ⟨_, _, _, _, rfl⟩
    · exact ⟨_, _, _, _, rfl⟩
  · exact ⟨_, _, _, _, rfl⟩

/-- What begins the cycle reaches run state, cause and stop-seen, the order age, the release check and the results. -/
theorem beginCycle_frame (x : Section) : ∃ r c j p q, x.beginCycle = { x with
    runState := r, cause := c, causeSlot := j, stopSeen := p, orderAge := min 255 (x.orderAge + 1), release := q
    members := x.clearResults.members } := by
  obtain ⟨r, c, j, p, h⟩ := ageOrder_frame x.opened
  refine ⟨r, c, j, p, x.opened.release, ?_⟩
  rw [beginCycle_eq, h, Section.older]
  conv_lhs => rw [opened_frame]

theorem beginCycle_member (x : Section) (j : Fin 4) :
    x.beginCycle.member j = { x.member j with result := .none } := by
  obtain ⟨_, _, _, _, _, h⟩ := beginCycle_frame x
  have hmembers : x.beginCycle.member j = x.clearResults.member j := by rw [h]; rfl
  rw [hmembers]
  exact member_mapMembers x _ j

/-- Run state, cause, its slot and stop-seen of two entries agree. -/
def SameRun (x y : Section) : Prop :=
  y.runState = x.runState ∧ y.cause = x.cause ∧ y.causeSlot = x.causeSlot ∧ y.stopSeen = x.stopSeen

theorem opened_fields (x : Section) : SameRun x x.opened ∧ x.opened.orderAge = x.orderAge ∧ x.opened.cfg = x.cfg := by
  rw [opened_frame]
  exact ⟨⟨rfl, rfl, rfl, rfl⟩, rfl, rfl⟩

theorem older_sameRun {x y : Section} (h : SameRun x y) : SameRun x y.older := h

/-- An order age below the hold limit stops nothing. -/
theorem beginCycle_held {x : Section} (h : min 255 (x.orderAge + 1) < x.cfg.orderHold) : SameRun x x.beginCycle := by
  obtain ⟨hrun, hage, hcfg⟩ := opened_fields x
  rw [beginCycle_eq, ageOrder_held (by rw [hage, hcfg]; exact h)]
  exact older_sameRun hrun

/-- A section that no order moves is not stopped by the age of its orders. -/
theorem beginCycle_unasked {x : Section} (h : x.Unasked) : SameRun x x.beginCycle := by
  obtain ⟨hrun, -, -⟩ := opened_fields x
  rw [beginCycle_eq, ageOrder_unasked]
  · exact older_sameRun hrun
  · unfold Section.Unasked
    rw [hrun.1, hrun.2.1]
    exact h

theorem beginCycle_running_lost {x : Section} (hr : x.runState = .running)
    (h : x.cfg.orderHold ≤ min 255 (x.orderAge + 1)) :
    x.beginCycle.runState = .stopping ∧ x.beginCycle.cause = .orderLost ∧ x.beginCycle.causeSlot = none ∧
      x.beginCycle.stopSeen = false := by
  obtain ⟨hrun, hage, hcfg⟩ := opened_fields x
  rw [beginCycle_eq, ageOrder_running (by rw [hage, hcfg]; exact h) (hrun.1.trans hr)]
  exact ⟨rfl, rfl, rfl, rfl⟩

theorem beginCycle_stopping_lost {x : Section} (hr : x.runState = .stopping) (hc : x.cause = .request)
    (h : x.cfg.orderHold ≤ min 255 (x.orderAge + 1)) :
    x.beginCycle.runState = .stopping ∧ x.beginCycle.cause = .orderLost ∧ x.beginCycle.stopSeen = false := by
  obtain ⟨hrun, hage, hcfg⟩ := opened_fields x
  rw [beginCycle_eq, ageOrder_requested (by rw [hage, hcfg]; exact h) (hrun.1.trans hr) (hrun.2.1.trans hc)]
  exact ⟨hrun.1.trans hr, rfl, rfl⟩

theorem staysRunning_sameRun {x : Section} (h : x.StaysRunning) : SameRun x x.beginCycle := beginCycle_held h.2

/-- A section is RUNNING once the cycle has begun just where it stays RUNNING. -/
theorem beginCycle_running_iff (x : Section) : x.beginCycle.runState = .running ↔ x.StaysRunning := by
  constructor
  · intro h
    by_cases hhold : min 255 (x.orderAge + 1) < x.cfg.orderHold
    · exact ⟨(beginCycle_held hhold).1 ▸ h, hhold⟩
    · by_cases hr : x.runState = .running
      · rw [(beginCycle_running_lost hr (Nat.not_lt.mp hhold)).1] at h
        cases h
      · by_cases hq : x.runState = .stopping ∧ x.cause = .request
        · rw [(beginCycle_stopping_lost hq.1 hq.2 (Nat.not_lt.mp hhold)).1] at h
          cases h
        · exact absurd ((beginCycle_unasked ⟨hr, not_and.mp hq⟩).1 ▸ h) hr
  · intro h
    rw [(staysRunning_sameRun h).1, h.1]

/-- A section that is stopping, or that leaves RUNNING, is STOPPING once the cycle has begun. -/
theorem beginCycle_stopping {x : Section}
    (h : x.runState = .stopping ∨ (x.runState = .running ∧ ¬x.StaysRunning)) : x.beginCycle.runState = .stopping := by
  rcases h with h | ⟨hr, hs⟩
  · by_cases hhold : min 255 (x.orderAge + 1) < x.cfg.orderHold
    · exact (beginCycle_held hhold).1.trans h
    · by_cases hc : x.cause = .request
      · exact (beginCycle_stopping_lost h hc (Nat.not_lt.mp hhold)).1
      · exact (beginCycle_unasked ⟨by rw [h]; nofun, fun _ => hc⟩).1.trans h
  · exact (beginCycle_running_lost hr (Nat.not_lt.mp fun hhold => hs ⟨hr, hhold⟩)).1

theorem beginCycle_resting {x : Section} (h : x.runState = .stopped ∨ x.runState = .tripped) :
    SameRun x x.beginCycle :=
  beginCycle_unasked ⟨by rcases h with h | h <;> simp [h], by rcases h with h | h <;> simp [h]⟩

/-! ## Ratio and target (R66 to R69) -/

/-- An entry with its ratio and its target formed. -/
def Section.formed (x : Section) (l base : Int) : Section := (x.ratioStage l base).targetStage l

theorem compute_eq (x : Section) (l base o : Int) :
    x.compute l base o = ((x.formed l base).rampStage o).settleStop := rfl

theorem ratioStage_frame (x : Section) (l base : Int) : ∃ r v g,
    x.ratioStage l base = { x with ratio := r, observed := v, flags := { x.flags with ratioLimit := g } } := by
  unfold Section.ratioStage Section.followRatio
  split
  · exact ⟨_, _, _, rfl⟩
  · split <;> exact ⟨_, _, _, rfl⟩

/-- The first two stages reach ratios, target and RATIO LIMIT. -/
theorem formed_frame (x : Section) (l base : Int) : ∃ r v g a,
    x.formed l base = { x with
      ratio := r, observed := v, flags := { x.flags with ratioLimit := g }, target := a } := by
  unfold Section.formed
  obtain ⟨r, v, g, h⟩ := ratioStage_frame x l base
  rw [h]
  unfold Section.targetStage
  split <;> exact ⟨_, _, _, _, rfl⟩

theorem targetStage_ratios (x : Section) (l : Int) :
    (x.targetStage l).ratio = x.ratio ∧ (x.targetStage l).observed = x.observed ∧
      (x.targetStage l).flags = x.flags := by
  unfold Section.targetStage
  split <;> exact ⟨rfl, rfl, rfl⟩

/-- The ratio of a CASCADE section is formed over the base ratio, and its observed ratio stays. -/
theorem formed_cascade {x : Section} (h : x.source = .cascade) {l base exact : Int}
    (he : exact = (2 * (base * (10000 + x.draw)) + 10000) / 20000) :
    (x.formed l base).ratio = max 900000 (min 1100000 exact) ∧ (x.formed l base).observed = x.observed ∧
      (x.formed l base).flags.ratioLimit = decide (exact < 900000 ∨ 1100000 < exact) := by
  have hstage : x.ratioStage l base = x.formRatio base := by unfold Section.ratioStage; rw [h]
  unfold Section.formed
  obtain ⟨hratio, hobserved, hflags⟩ := targetStage_ratios (x.ratioStage l base) l
  rw [hratio, hobserved, hflags, hstage, formRatio_eq he]
  exact ⟨rfl, rfl, rfl⟩

theorem observes_iff (x : Section) (l : Int) : x.observes l = true ↔ x.runState = .running ∧ 1000 ≤ l ∧ 0 < x.master := by
  unfold Section.observes
  rw [Bool.and_eq_true, Bool.and_eq_true, beq_iff_eq, decide_eq_true_eq, decide_eq_true_eq, and_assoc]

/-- The ratio of a FOLLOW section is observed, or held. -/
theorem formed_follow {x : Section} (h : x.source = .follow) (l base : Int) :
    (x.observes l = true → ∀ obs, obs = (2 * (x.master * 1000000) + l) / (2 * l) →
      (x.formed l base).ratio = max 900000 (min 1100000 obs) ∧
      (x.formed l base).observed = (x.formed l base).ratio ∧
      (x.formed l base).flags.ratioLimit = decide (obs < 900000 ∨ 1100000 < obs)) ∧
    (x.observes l = false → (x.formed l base).ratio = x.observed ∧ (x.formed l base).observed = x.observed ∧
      (x.formed l base).flags.ratioLimit = x.flags.ratioLimit) := by
  have hstage : x.ratioStage l base = x.followRatio l := by unfold Section.ratioStage; rw [h]
  unfold Section.formed
  obtain ⟨hratio, hobserved, hflags⟩ := targetStage_ratios (x.ratioStage l base) l
  rw [hratio, hobserved, hflags, hstage]
  unfold Section.followRatio
  refine ⟨fun ho obs hobs => ?_, fun ho => ?_⟩
  · have he : observedExact l x.master = obs := hobs.symm
    rw [if_pos ho, he]
    exact ⟨clampRatio_eq obs, rfl, clampActs_eq _ _ obs⟩
  · rw [ho]
    exact ⟨rfl, rfl, rfl⟩

/-! ## The ramp, and the entry to STOPPED (R70 to R72) -/

/-- The ramp and the entry to STOPPED reach A, flags, run state and trims: not the ratios, not the target. -/
theorem compute_frame (x : Section) (l base o : Int) : ∃ a r sat ramp deg lim m,
    x.compute l base o = { x.formed l base with
      applied := a, runState := r, members := m
      flags := { (x.formed l base).flags with saturated := sat, ramping := ramp, degraded := deg, trimLimit := lim } } := by
  rw [compute_eq]
  generalize x.formed l base = y
  have hramp : ∃ a sat ramp, y.rampStage o = { y with
      applied := a, flags := { y.flags with saturated := sat, ramping := ramp } } := by
    unfold Section.rampStage
    split <;> exact ⟨_, _, _, rfl⟩
  obtain ⟨a, sat, ramp, h⟩ := hramp
  rw [h]
  unfold Section.settleStop
  split <;> exact ⟨_, _, _, _, _, _, _, rfl⟩

/-- A stage of the computation changes of a member its trim alone. -/
theorem compute_member (x : Section) (l base o : Int) (j : Fin 4) :
    (x.compute l base o).member j = { x.member j with trim := ((x.compute l base o).member j).trim } := by
  have hformed : (x.formed l base).members = x.members := by
    obtain ⟨_, _, _, _, h⟩ := formed_frame x l base
    rw [h]
  have hramp : ∀ y : Section, (y.rampStage o).members = y.members := fun y => by
    unfold Section.rampStage
    split <;> rfl
  have hstages : (((x.formed l base).rampStage o)).member j = x.member j := by
    unfold Section.member
    rw [hramp, hformed]
  rw [compute_eq]
  unfold Section.settleStop
  split
  · have hzero : ((x.formed l base).rampStage o).enterStopped.member j =
        { ((x.formed l base).rampStage o).member j with trim := 0 } :=
      member_mapMembers _ (fun _ m => { m with trim := 0 }) j
    rw [hzero, hstages]
  · rw [hstages]

theorem rampToward_eq {cur goal step : Int} (h : 0 ≤ step) :
    (cur + step < goal → rampToward cur goal step = cur + step) ∧
    (goal < cur - step → rampToward cur goal step = cur - step) ∧
    (goal ≤ cur + step → cur - step ≤ goal → rampToward cur goal step = goal) := by
  unfold rampToward magnitude
  refine ⟨fun hup => ?_, fun hdown => ?_, fun hup hdown => ?_⟩
  · rw [if_neg (by split <;> omega), if_pos (by omega)]
  · rw [if_neg (by split <;> omega), if_neg (by omega)]
  · rw [if_pos (by split <;> omega)]

theorem compute_running {x : Section} (h : x.runState = .running) (l base o : Int) :
    x.compute l base o = { x.formed l base with
      applied := rampToward x.applied ((x.formed l base).goal o) x.cfg.accel
      flags := { (x.formed l base).flags with
        saturated := (x.formed l base).goalClamps o
        ramping := rampToward x.applied ((x.formed l base).goal o) x.cfg.accel != (x.formed l base).goal o } } := by
  obtain ⟨_, _, _, _, hf⟩ := formed_frame x l base
  rw [compute_eq, hf]
  unfold Section.rampStage
  rw [h]
  unfold Section.settleStop
  rw [if_neg (by simp)]

theorem rampStage_stopping {x : Section} (h : x.runState = .stopping) (o : Int) : x.rampStage o = { x with
    applied := rampToward x.applied 0 x.stopStep
    flags := { x.flags with saturated := false, ramping := rampToward x.applied 0 x.stopStep != 0 } } := by
  unfold Section.rampStage
  split
  · next e => rw [h] at e; cases e
  · rfl
  · next e => rw [h] at e; cases e
  · next e => rw [h] at e; cases e

/-- A STOPPING section takes the ramp of its cause, and is STOPPED where A reaches 0. -/
theorem compute_stopping {x : Section} (h : x.runState = .stopping) (l base o : Int) :
    (rampToward x.applied 0 x.stopStep ≠ 0 → x.compute l base o = { x.formed l base with
      applied := rampToward x.applied 0 x.stopStep
      flags := { (x.formed l base).flags with saturated := false, ramping := true } }) ∧
    (rampToward x.applied 0 x.stopStep = 0 → x.compute l base o = { (x.formed l base).zeroTrims with
      runState := .stopped, applied := 0
      flags := { (x.formed l base).zeroTrims.flags with ramping := false, saturated := false, degraded := false } }) := by
  obtain ⟨_, _, _, _, hf⟩ := formed_frame x l base
  have hstep : (x.formed l base).stopStep = x.stopStep := by rw [hf]; rfl
  have hrun : (x.formed l base).runState = .stopping := by rw [hf]; exact h
  have happ : (x.formed l base).applied = x.applied := by rw [hf]
  rw [compute_eq, rampStage_stopping hrun, hstep, happ]
  unfold Section.settleStop
  refine ⟨fun hne => ?_, fun he => ?_⟩
  · rw [if_neg fun hz => hne hz.2, bne_iff_ne.mpr hne]
  · rw [if_pos ⟨hrun, he⟩, he]
    rfl

theorem compute_resting {x : Section} (h : x.runState = .stopped ∨ x.runState = .tripped) (l base o : Int) :
    x.compute l base o = { x.formed l base with
      applied := 0, flags := { (x.formed l base).flags with saturated := false, ramping := false } } := by
  obtain ⟨_, _, _, _, hf⟩ := formed_frame x l base
  rw [compute_eq, hf]
  unfold Section.rampStage
  rcases h with h | h
  · rw [h]
    exact if_neg (by simp)
  · rw [h]
    exact if_neg (by simp)

end Sys2Proof.Machine
end

section
/-! PROOF. A section's entry after a downstream cycle start, from its entry before it, its base ratio as this start formed
it, and its claimant's offset; the ratio formed (O23). -/

namespace Sys2Proof.Machine

open Sys2Proof

/-! ## The base ratio is the one formed at this start (R47, R65, R66) -/

theorem baseRatio_eq (s : State) (i : Fin 16) :
    ((s.sec i).cfg.drawBase = none → s.baseRatio i = 1000000) ∧
    ∀ d, (s.sec i).cfg.drawBase = some d → s.baseRatio i = (s.sec d).ratio := by
  unfold State.baseRatio
  exact ⟨fun h => by rw [h], fun d h => by rw [h]⟩

theorem baseRatio_congr {s t : State} {i : Fin 16} (hb : (t.sec i).cfg.drawBase = (s.sec i).cfg.drawBase)
    (hr : ∀ d, (s.sec i).cfg.drawBase = some d → (t.sec d).ratio = (s.sec d).ratio) :
    t.baseRatio i = s.baseRatio i := by
  cases hd : (s.sec i).cfg.drawBase with
  | none => rw [(baseRatio_eq s i).1 hd, (baseRatio_eq t i).1 (hb.trans hd)]
  | some d => rw [(baseRatio_eq s i).2 d hd, (baseRatio_eq t i).2 d (hb.trans hd), hr d hd]

/-- A draw base stands before the sections that draw from it. -/
theorem State.ChainSound.base_before {s : State} (h : s.ChainSound) {i d : Fin 16} (hi : (s.sec i).present = true)
    (hd : (s.sec i).cfg.drawBase = some d) {pre post : List (Fin 16)} (hc : s.chain = pre ++ i :: post) :
    d ∉ i :: post := by
  have hdepth := h.depths i hi
  unfold State.DepthRight at hdepth
  rw [hd] at hdepth
  obtain ⟨-, hdepth⟩ := hdepth
  have hordered := h.ordered
  rw [hc] at hordered
  obtain ⟨-, hsuffix, -⟩ := List.pairwise_append.mp hordered
  obtain ⟨hafter, -⟩ := List.pairwise_cons.mp hsuffix
  intro hm
  rcases List.mem_cons.mp hm with he | hm
  · rw [he] at hdepth
    have hself := congrArg (Option.getD · 0) hdepth
    simp at hself
  · have hbefore := hafter d hm
    unfold State.ChainBefore at hbefore
    rw [hdepth] at hbefore
    simp only [Option.getD_some] at hbefore
    omega

theorem foldl_computeSec_cyc (l : List (Fin 16)) (s : State) :
    (l.foldl State.computeSec s).cyc = s.cyc ∧ (l.foldl State.computeSec s).runners = s.runners := by
  induction l generalizing s with
  | nil => exact ⟨rfl, rfl⟩
  | cons a l ih => exact ih _

theorem computeChain_place (s : State) (i : Fin 16) : SamePlace (s.sec i) (s.computeChain.sec i) :=
  (computeChain_secsOnly s).place i

/-- A present section is computed once, over the base ratio that the whole computation leaves. -/
theorem computeChain_sec_base {s : State} (h : s.ChainSound) {i : Fin 16} (hi : (s.sec i).present = true) :
    s.computeChain.sec i = (s.sec i).compute s.cyc.lineSpeed (s.computeChain.baseRatio i) (s.offsetOf i) := by
  obtain ⟨pre, post, hc⟩ := List.append_of_mem ((h.listed i).mpr hi)
  have hnodup := h.nodup
  rw [hc] at hnodup
  obtain ⟨-, hsuffix, hpre⟩ := List.nodup_append.mp hnodup
  obtain ⟨hpost, -⟩ := List.nodup_cons.mp hsuffix
  have hipre : i ∉ pre := fun hm => hpre i hm i List.mem_cons_self rfl
  have hchain : s.computeChain = post.foldl State.computeSec ((pre.foldl State.computeSec s).computeSec i) := by
    unfold State.computeChain
    rw [hc, List.foldl_append, List.foldl_cons]
  have hsec := foldl_computeSec_sec_of_notMem hipre s
  obtain ⟨hcyc, hrunners⟩ := foldl_computeSec_cyc pre s
  have hbase : s.computeChain.baseRatio i = (pre.foldl State.computeSec s).baseRatio i := by
    refine baseRatio_congr ?_ fun d hd => ?_
    · rw [hsec]
      exact (computeChain_place s i).drawBase
    · rw [hsec] at hd
      have hdn := h.base_before hi hd hc
      rw [hchain, foldl_computeSec_sec_of_notMem fun hm => hdn (List.mem_cons_of_mem _ hm), State.computeSec, sec_modSec,
        if_neg fun e : i = d => hdn (e ▸ List.mem_cons_self)]
  have hoffset : (pre.foldl State.computeSec s).offsetOf i = s.offsetOf i := by
    unfold State.offsetOf State.claimant State.busyRunners State.runner
    rw [hrunners]
  rw [hbase, hchain, foldl_computeSec_sec_of_notMem hpost, State.computeSec, sec_modSec_same, hsec, hcyc, hoffset]

/-! ## The claimant of a section that stays RUNNING (R133) -/

/-- The section that a runner claims is present and leaves RUNNING at a start. -/
def State.ClaimEnds (s : State) (r : Fin 4) : Prop :=
  ∃ i, (s.runner r).claimed = some i ∧ (s.sec i).present = true ∧ (s.sec i).runState = .running ∧
    ¬(s.sec i).StaysRunning

theorem announceStart_runner (s : State) (r : Fin 4) :
    (s.ClaimEnds r → (s.runner r).state ≠ .idle →
      s.announceStart.runner r = (s.runner r).abortedBy .sectionLeftRunning) ∧
    (¬s.ClaimEnds r → s.announceStart.runner r = s.runner r) := by
  unfold State.announceStart
  rw [abortAll_runner, mapPresent_runner]
  have hleft : ∀ i, i ∈ (s.mapPresent Section.beginCycle).leftRunning s.runningSecs ↔
      (s.sec i).present = true ∧ (s.sec i).runState = .running ∧ ¬(s.sec i).StaysRunning := fun i => by
    rw [mem_leftRunning, mem_runningSecs, sec_mapPresent, and_assoc]
    refine and_congr_right fun hp => and_congr_right fun hr => ?_
    rw [if_pos hp, Ne, beginCycle_running_iff]
  have hmem := mem_claimants (s.mapPresent Section.beginCycle)
    ((s.mapPresent Section.beginCycle).leftRunning s.runningSecs) r
  rw [mapPresent_runner] at hmem
  refine ⟨fun ⟨i, hi, hm⟩ hb => if_pos ⟨hmem.mpr ⟨hb, i, hi, (hleft i).mpr hm⟩, hb⟩, fun hno => if_neg ?_⟩
  rintro ⟨hm, -⟩
  obtain ⟨-, i, hi, hm⟩ := hmem.mp hm
  exact hno ⟨i, hi, (hleft i).mp hm⟩

theorem announceStart_runner_kept {s : State} {i : Fin 16} (h : (s.sec i).StaysRunning) {r : Fin 4}
    (hr : (s.runner r).claimed = some i) : s.announceStart.runner r = s.runner r := by
  refine (announceStart_runner s r).2 ?_
  rintro ⟨k, hk, -, -, hs⟩
  rw [hr] at hk
  obtain rfl := Option.some.inj hk
  exact hs h

/-- A start leaves a runner or ends its claim. -/
theorem announceStart_runner_unclaimed (s : State) (r : Fin 4) :
    s.announceStart.runner r = s.runner r ∨ (s.announceStart.runner r).claimed = none := by
  unfold State.announceStart
  rw [abortAll_runner, mapPresent_runner]
  split
  · exact .inr rfl
  · exact .inl rfl

theorem claimant_form (s : State) (i : Fin 16) : s.claimant i =
    allRunners.find? fun r => (s.runner r).state != .idle && (s.runner r).claimed == some i := by
  unfold State.claimant State.busyRunners
  rw [List.find?_filter]
  simp only [Bool.decide_and, Bool.decide_eq_true]

/-- Aborts of other sections' tests leave the offset a section is computed with. -/
theorem offsetOf_of_kept {s t : State} {i : Fin 16}
    (hkept : ∀ r, (s.runner r).claimed = some i → t.runner r = s.runner r)
    (hother : ∀ r, t.runner r = s.runner r ∨ (t.runner r).claimed = none) : t.offsetOf i = s.offsetOf i := by
  have hclaims : ∀ r, ((t.runner r).state != .idle && (t.runner r).claimed == some i) =
      ((s.runner r).state != .idle && (s.runner r).claimed == some i) := fun r => by
    by_cases hr : (s.runner r).claimed = some i
    · rw [hkept r hr]
    · rcases hother r with he | hn
      · rw [he]
      · rw [hn, beq_eq_false_iff_ne.mpr hr, Bool.and_false]
        exact Bool.and_false _
  have hclaimant : t.claimant i = s.claimant i := by
    rw [claimant_form, claimant_form, funext hclaims]
  unfold State.offsetOf
  rw [hclaimant]
  cases hc : s.claimant i with
  | none => rfl
  | some r => exact congrArg Runner.offset (hkept r (claimant_some hc).2)

theorem announceStart_offsetOf {s : State} {i : Fin 16} (h : (s.sec i).StaysRunning) :
    s.announceStart.offsetOf i = s.offsetOf i :=
  offsetOf_of_kept (fun _ hr => announceStart_runner_kept h hr) (announceStart_runner_unclaimed s)

/-! ## One entry through a start -/

theorem advanceNumbers_reads (b : State) (i : Fin 16) : b.advanceNumbers.sec i = b.sec i ∧
    b.advanceNumbers.offsetOf i = b.offsetOf i ∧ b.advanceNumbers.cyc.lineSpeed = b.cyc.lineSpeed := ⟨rfl, rfl, rfl⟩

/-- The offset a start computes a section with (R70): its claimant's, once the aborts of the start are made. -/
def State.startOffset (b : State) (i : Fin 16) : Int := b.advanceNumbers.announceStart.offsetOf i

theorem startOffset_staysRunning {b : State} {i : Fin 16} (h : (b.sec i).StaysRunning) :
    b.startOffset i = b.offsetOf i := announceStart_offsetOf (s := b.advanceNumbers) h

theorem computedStart_sec_base {b : State} (h : b.ChainSound) {i : Fin 16} (hi : (b.sec i).present = true) :
    b.computedStart.sec i =
      (b.sec i).beginCycle.compute b.cyc.lineSpeed (b.computedStart.baseRatio i) (b.startOffset i) := by
  have hframe := announceStart_secsOnly b.advanceNumbers
  have hsound : b.advanceNumbers.announceStart.ChainSound :=
    State.ChainSound.ofSecs (h.same (t := b.advanceNumbers) rfl fun _ => .refl _) hframe
  have hsec : b.advanceNumbers.announceStart.sec i = (b.sec i).beginCycle := by
    rw [announceStart_sec, if_pos (show (b.advanceNumbers.sec i).present = true from hi)]
    rfl
  have hb := computeChain_sec_base hsound (i := i) (by rw [hsec, (beginCycle_place _).present, hi])
  obtain ⟨-, -, -, -, -, hcyc, -⟩ := hframe.keeps
  rw [hsec, hcyc] at hb
  exact hb

theorem computedStart_place (b : State) (i : Fin 16) : SamePlace (b.sec i) (b.computedStart.sec i) :=
  (computedStart_secsOnly b).place i

theorem computedStart_presentSecs (b : State) : b.computedStart.presentSecs = b.presentSecs := by
  unfold State.presentSecs
  exact congrArg (fun p => allSections.filter p) (funext fun i => (computedStart_place b i).present)

theorem computedStart_sec_absent {b : State} (h : b.ChainSound) {i : Fin 16} (hi : (b.sec i).present = false) :
    b.computedStart.sec i = b.sec i := by
  have hframe := announceStart_secsOnly b.advanceNumbers
  have hsound : b.advanceNumbers.announceStart.ChainSound :=
    State.ChainSound.ofSecs (h.same (t := b.advanceNumbers) rfl fun _ => .refl _) hframe
  have hsec : b.advanceNumbers.announceStart.sec i = b.sec i := by
    rw [announceStart_sec, if_neg (by rw [(advanceNumbers_reads b i).1, hi]; nofun)]
    rfl
  unfold State.computedStart State.computeChain
  rw [foldl_computeSec_sec_of_notMem, hsec]
  rw [hsound.listed, hsec, hi]
  nofun

/-- With a section present a start sends its burst. -/
theorem started_launched {b : State} (h : b.presentSecs ≠ []) : b.started = b.computedStart.launched :=
  if_neg (by rw [computedStart_presentSecs]; exact h)

theorem started_unsent {b : State} (h : b.presentSecs = []) : b.started = b.computedStart :=
  if_pos (by rw [computedStart_presentSecs]; exact h)

theorem presentSecs_ne_nil {b : State} {i : Fin 16} (hi : (b.sec i).present = true) : b.presentSecs ≠ [] :=
  List.ne_nil_of_mem ((mem_presentSecs b i).mpr hi)

theorem started_sec_present {b : State} {i : Fin 16} (hi : (b.sec i).present = true) :
    b.started.sec i = (b.computedStart.sec i).clearFaultResets := by
  have hp := (computedStart_place b i).present.trans hi
  rw [started_launched (presentSecs_ne_nil hi), launched_sec, if_pos hp]

theorem started_baseRatio (b : State) (i : Fin 16) : b.started.baseRatio i = b.computedStart.baseRatio i := by
  refine baseRatio_congr ?_ fun d _ => (started_ratio_target b d).1
  unfold State.started
  generalize b.computedStart = u
  split
  · rfl
  · rw [launched_sec]
    split <;> rfl

/-- A present section after a start: the cycle begins for it, it is computed, its fault resets are sent. -/
theorem started_sec {b : State} (h : b.ChainSound) {i : Fin 16} (hi : (b.sec i).present = true) :
    b.started.sec i = ((b.sec i).beginCycle.compute b.cyc.lineSpeed (b.started.baseRatio i)
      (b.startOffset i)).clearFaultResets := by
  rw [started_sec_present hi, computedStart_sec_base h hi, started_baseRatio]

theorem started_runner (b : State) (r : Fin 4) : b.started.runner r = b.advanceNumbers.announceStart.runner r := by
  have hcomputed : b.computedStart.runners = b.advanceNumbers.announceStart.runners := by
    unfold State.computedStart
    generalize b.advanceNumbers.announceStart = u
    rw [computeChain_form]
  unfold State.started
  generalize b.computedStart = u at hcomputed ⊢
  split
  · exact runner_congr hcomputed r
  · exact runner_congr hcomputed r

/-! ## The ratio (R65 to R68) -/

/-- Settles O23. -/
theorem ratioFormed : Obligations.RatioFormed := by
  unfold Obligations.RatioFormed
  intro s b k i hk hs hi
  obtain ⟨r, c, j, p, q, hbegun⟩ := beginCycle_frame (b.sec i)
  have hsec := started_sec (chainSound_kept.startsFrom hk hs) hi
  have hbases := baseRatio_eq b.started i
  have hdrawBase : (b.started.sec i).cfg.drawBase = (b.sec i).cfg.drawBase := by
    rw [started_sec_present hi]
    exact (computedStart_place b i).drawBase
  rw [hdrawBase] at hbases
  generalize b.started.baseRatio i = base at hsec hbases
  generalize b.startOffset i = o at hsec
  obtain ⟨_, _, _, _, _, _, _, hcompute⟩ := compute_frame (b.sec i).beginCycle b.cyc.lineSpeed base o
  obtain ⟨_, _, _, _, hformed⟩ := formed_frame (b.sec i).beginCycle b.cyc.lineSpeed base
  have hreads : (b.started.sec i).draw = (b.sec i).draw ∧
      (b.started.sec i).ratio = ((b.sec i).beginCycle.formed b.cyc.lineSpeed base).ratio ∧
      (b.started.sec i).observed = ((b.sec i).beginCycle.formed b.cyc.lineSpeed base).observed ∧
      (b.started.sec i).flags.ratioLimit =
        ((b.sec i).beginCycle.formed b.cyc.lineSpeed base).flags.ratioLimit := by
    rw [hsec, hcompute]
    refine ⟨?_, rfl, rfl, rfl⟩
    show ((b.sec i).beginCycle.formed b.cyc.lineSpeed base).draw = _
    rw [hformed, hbegun]
  have hx : (b.sec i).beginCycle.draw = (b.sec i).draw ∧ (b.sec i).beginCycle.master = (b.sec i).master ∧
      (b.sec i).beginCycle.source = (b.sec i).source ∧ (b.sec i).beginCycle.observed = (b.sec i).observed ∧
      (b.sec i).beginCycle.flags = (b.sec i).flags := by
    rw [hbegun]
    exact ⟨rfl, rfl, rfl, rfl, rfl⟩
  obtain ⟨hdraw, hmaster, hsource, hobserved, hflags⟩ := hx
  have hobserves := observes_iff (b.sec i).beginCycle b.cyc.lineSpeed
  rw [beginCycle_running_iff, hmaster] at hobserves
  obtain ⟨hdraw', hratio, hobs, hlimit⟩ := hreads
  refine ⟨b.started, base, _, _, exec_starts hk, hbases.1, hbases.2, rfl, rfl, hdraw', fun hc => ?_,
    fun hf hstays hl hm => ?_, fun hf hnot => ?_⟩
  · obtain ⟨h1, h2, h3⟩ := formed_cascade (hsource.trans hc) (l := b.cyc.lineSpeed) (base := base) rfl
    rw [hratio, hobs, hlimit, h1, h2, h3, hobserved, hdraw, decide_eq_true_eq]
    exact ⟨rfl, rfl, Iff.rfl⟩
  · obtain ⟨h1, h2, h3⟩ := (formed_follow (hsource.trans hf) b.cyc.lineSpeed base).1
      (hobserves.mpr ⟨hstays, hl, hm⟩) _ rfl
    rw [hratio, hobs, hlimit, h2, h1, h3, hmaster, decide_eq_true_eq]
    exact ⟨rfl, rfl, Iff.rfl⟩
  · obtain ⟨h1, h2, h3⟩ := (formed_follow (hsource.trans hf) b.cyc.lineSpeed base).2
      (Bool.eq_false_iff.mpr (mt hobserves.mp hnot))
    rw [hratio, hobs, hlimit, h1, h2, h3, hobserved, hflags]
    exact ⟨rfl, rfl, rfl⟩

end Sys2Proof.Machine
end

section
/-! PROOF. The ramp of a start (O25) and ORDER LOST at a start (O22). -/

namespace Sys2Proof.Machine

open Sys2Proof

/-- A present entry as a start leaves it, from the offset it is computed with, over some base ratio. -/
theorem started_sec_some {b : State} (h : b.ChainSound) {i : Fin 16} (hi : (b.sec i).present = true) :
    ∃ base, b.started.sec i =
      ((b.sec i).beginCycle.compute b.cyc.lineSpeed base (b.startOffset i)).clearFaultResets :=
  ⟨_, started_sec h hi⟩

theorem formed_fields (x : Section) (l base : Int) : (x.formed l base).cfg = x.cfg ∧ (x.formed l base).cause = x.cause ∧
    (x.formed l base).causeSlot = x.causeSlot ∧ (x.formed l base).stopSeen = x.stopSeen ∧
    (x.formed l base).runState = x.runState := by
  obtain ⟨_, _, _, _, h⟩ := formed_frame x l base
  rw [h]
  exact ⟨rfl, rfl, rfl, rfl, rfl⟩

theorem compute_target (x : Section) (l base o : Int) :
    (x.compute l base o).target = (x.formed l base).target := by
  obtain ⟨_, _, _, _, _, _, _, h⟩ := compute_frame x l base o
  rw [h]

/-- The cause, its slot and stop-seen after the computation, and which run state it can leave. -/
theorem compute_run (x : Section) (l base o : Int) : (x.compute l base o).cause = x.cause ∧
    (x.compute l base o).causeSlot = x.causeSlot ∧ (x.compute l base o).stopSeen = x.stopSeen ∧
    (x.runState ≠ .stopping → (x.compute l base o).runState = x.runState) ∧
    (x.runState = .stopping →
      (x.compute l base o).runState = if (x.compute l base o).applied = 0 then .stopped else .stopping) := by
  obtain ⟨hcause, hslot, hseen⟩ := compute_sameCause x l base o
  obtain ⟨-, -, -, -, hrun⟩ := formed_fields x l base
  refine ⟨hcause, hslot, hseen, fun h => ?_, fun h => ?_⟩
  · cases hr : x.runState with
    | running => rw [compute_running hr]; exact hrun.trans hr
    | stopping => exact absurd hr h
    | stopped => rw [compute_resting (.inl hr)]; exact hrun.trans hr
    | tripped => rw [compute_resting (.inr hr)]; exact hrun.trans hr
  · obtain ⟨hmoves, hstops⟩ := compute_stopping h l base o
    by_cases hz : rampToward x.applied 0 x.stopStep = 0
    · rw [hstops hz]
      rfl
    · rw [hmoves hz]
      show (x.formed l base).runState = if rampToward x.applied 0 x.stopStep = 0 then _ else _
      rw [if_neg hz, hrun, h]

theorem clearFaultResets_fields (x : Section) : x.clearFaultResets.runState = x.runState ∧
    x.clearFaultResets.cause = x.cause ∧ x.clearFaultResets.causeSlot = x.causeSlot ∧
    x.clearFaultResets.stopSeen = x.stopSeen ∧ x.clearFaultResets.applied = x.applied ∧
    x.clearFaultResets.flags = x.flags ∧ x.clearFaultResets.target = x.target :=
  ⟨rfl, rfl, rfl, rfl, rfl, rfl, rfl⟩

theorem clearFaultResets_member (x : Section) (j : Fin 4) : x.clearFaultResets.member j =
    if j.val < x.cfg.memberCount then { x.member j with faultReset := false } else x.member j :=
  member_mapMembers x _ j

/-! ## The ramp (R54, R70 to R72, R91) -/

theorem stopStep_eq (x : Section) :
    ((x.cause = .quickStop ∨ x.cause = .upstreamLoss) → x.stopStep = x.cfg.quickRamp) ∧
    (x.cause ≠ .quickStop → x.cause ≠ .upstreamLoss → x.stopStep = x.cfg.stopRamp) := by
  unfold Section.stopStep
  refine ⟨fun h => ?_, fun hq hu => ?_⟩
  · rcases h with h | h <;> rw [h]
  · split
    · next h => exact absurd h hq
    · next h => exact absurd h hu
    · rfl

/-- The ramp towards standstill. -/
theorem rampToward_zero {cur step : Int} (hcur : 0 ≤ cur) (hstep : 0 ≤ step) :
    (step < cur → rampToward cur 0 step = cur - step) ∧ (cur ≤ step → rampToward cur 0 step = 0) := by
  obtain ⟨-, hdown, hreach⟩ := rampToward_eq (cur := cur) (goal := 0) hstep
  exact ⟨fun h => hdown (by omega), fun h => hreach (by omega) (by omega)⟩

theorem stopStep_nonneg {x : Section} (h : x.cfg.Sound) : 0 ≤ x.stopStep := by
  obtain ⟨hq, hs⟩ := stopStep_eq x
  obtain ⟨hs1, -⟩ := h.stopRamp
  obtain ⟨hq1, -⟩ := h.quickRamp
  by_cases hc : x.cause = .quickStop ∨ x.cause = .upstreamLoss
  · rw [hq hc]; omega
  · rw [not_or] at hc
    rw [hs hc.1 hc.2]; omega

theorem goal_eq {x : Section} (h : 0 ≤ x.cfg.maxSpeed) (o : Int) :
    x.goal o = max 0 (min x.cfg.maxSpeed (x.target + o)) := clampInt_eq_max_min h _

/-- The ramp of a RUNNING section. -/
theorem compute_ramp_running {x : Section} (h : x.runState = .running) (hs : x.cfg.Sound) (l base o : Int) {goal : Int}
    (hg : goal = max 0 (min x.cfg.maxSpeed ((x.compute l base o).target + o))) :
    (x.applied + x.cfg.accel < goal → (x.compute l base o).applied = x.applied + x.cfg.accel) ∧
    (goal < x.applied - x.cfg.accel → (x.compute l base o).applied = x.applied - x.cfg.accel) ∧
    (goal ≤ x.applied + x.cfg.accel → x.applied - x.cfg.accel ≤ goal → (x.compute l base o).applied = goal) ∧
    ((x.compute l base o).flags.ramping = true ↔ (x.compute l base o).applied ≠ goal) ∧
    ((x.compute l base o).flags.saturated = true ↔
      (x.compute l base o).target + o < 0 ∨ x.cfg.maxSpeed < (x.compute l base o).target + o) := by
  obtain ⟨hcfg, -⟩ := formed_fields x l base
  obtain ⟨hmax, -⟩ := hs.maxSpeed
  obtain ⟨haccel, -⟩ := hs.accel
  rw [compute_target] at hg ⊢
  have hgoal : (x.formed l base).goal o = goal := by rw [goal_eq (by rw [hcfg]; exact hmax), hcfg, hg]
  rw [compute_running h, hgoal]
  obtain ⟨hup, hdown, hreach⟩ := rampToward_eq (cur := x.applied) (goal := goal) (step := x.cfg.accel) (by omega)
  refine ⟨hup, hdown, hreach, bne_iff_ne, ?_⟩
  show (x.formed l base).goalClamps o = true ↔ _
  unfold Section.goalClamps
  rw [clampActs_iff, hcfg]

/-- The ramp of a STOPPING section. -/
theorem compute_ramp_stopping {x : Section} (h : x.runState = .stopping) (hs : x.Sound) (l base o : Int) :
    (x.compute l base o).flags.saturated = false ∧
    (x.stopStep < x.applied → (x.compute l base o).applied = x.applied - x.stopStep ∧
      (x.compute l base o).runState = .stopping ∧ (x.compute l base o).flags.ramping = true) ∧
    (x.applied ≤ x.stopStep → (x.compute l base o).applied = 0 ∧ (x.compute l base o).runState = .stopped ∧
      (x.compute l base o).flags.ramping = false ∧ (x.compute l base o).flags.degraded = false ∧
      (x.compute l base o).flags.trimLimit = false ∧ ∀ j, ((x.compute l base o).member j).trim = 0) := by
  obtain ⟨hmoves, hstops⟩ := compute_stopping h l base o
  obtain ⟨hfalls, hreach⟩ := rampToward_zero hs.applied.1 (stopStep_nonneg hs.cfg)
  obtain ⟨-, -, -, -, hrun⟩ := formed_fields x l base
  refine ⟨?_, fun hlt => ?_, fun hle => ?_⟩
  · by_cases hz : rampToward x.applied 0 x.stopStep = 0
    · rw [hstops hz]
    · rw [hmoves hz]
  · rw [hmoves (by rw [hfalls hlt]; omega)]
    exact ⟨hfalls hlt, hrun.trans h, rfl⟩
  · rw [hstops (hreach hle)]
    refine ⟨rfl, rfl, rfl, rfl, rfl, fun j => ?_⟩
    exact congrArg Member.trim (member_mapMembers (x.formed l base) (fun _ m => { m with trim := 0 }) j)

theorem clearFaultResets_trim (x : Section) (j : Fin 4) : (x.clearFaultResets.member j).trim = (x.member j).trim := by
  rw [clearFaultResets_member]
  split <;> rfl

theorem beginCycle_numbers (x : Section) : x.beginCycle.cfg = x.cfg ∧ x.beginCycle.applied = x.applied := by
  obtain ⟨_, _, _, _, _, h⟩ := beginCycle_frame x
  rw [h]
  exact ⟨rfl, rfl⟩

/-- Settles O25. -/
theorem goalAndRamp : Obligations.GoalAndRamp := by
  unfold Obligations.GoalAndRamp
  intro s b k i hk hs ht hi
  have htables := b.tablesSound_iff.mpr (entriesSound.kept.startsFrom hk (s.tablesSound_iff.mp ht))
  have hsound := (htables.sections i).beginCycle
  obtain ⟨base, hsec⟩ := started_sec_some (chainSound_kept.startsFrom hk hs) hi
  have hoffset := fun hstays : (b.sec i).StaysRunning => startOffset_staysRunning hstays
  generalize b.startOffset i = o at hsec hoffset
  obtain ⟨hcfg, happ⟩ := beginCycle_numbers (b.sec i)
  obtain ⟨hcause, -⟩ := compute_run (b.sec i).beginCycle b.cyc.lineSpeed base o
  obtain ⟨hquick, hstop⟩ := stopStep_eq (b.sec i).beginCycle
  rw [hcfg] at hquick hstop
  refine ⟨b.started, _, (b.sec i).beginCycle.stopStep, exec_starts hk, rfl, ?_⟩
  obtain ⟨hf1, hf2, -, -, hf5, hf6, hf7⟩ := clearFaultResets_fields
    ((b.sec i).beginCycle.compute b.cyc.lineSpeed base o)
  have htrim := clearFaultResets_trim ((b.sec i).beginCycle.compute b.cyc.lineSpeed base o)
  rw [hsec, hf1, hf2, hf5, hf6, hf7, hcause]
  refine ⟨hquick, hstop, fun hstays => ?_, fun hstops => ?_, fun hrests => ?_⟩
  · have hramp := compute_ramp_running ((beginCycle_running_iff (b.sec i)).mpr hstays) hsound.cfg b.cyc.lineSpeed base o rfl
    rw [hcfg, happ, hoffset hstays] at hramp
    rw [hoffset hstays]
    exact hramp
  · obtain ⟨hsat, hfalls, hreach⟩ := compute_ramp_stopping (beginCycle_stopping hstops) hsound b.cyc.lineSpeed base o
    rw [happ] at hfalls hreach
    refine ⟨hsat, hfalls, fun hle => ?_⟩
    obtain ⟨h1, h2, h3, h4, h5, h6⟩ := hreach hle
    exact ⟨h1, h2, h3, h4, h5, fun j => (htrim j).trans (h6 j)⟩
  · rw [compute_resting (by rw [(beginCycle_resting hrests).1]; exact hrests)]
    exact ⟨rfl, rfl, rfl⟩

/-! ## ORDER LOST at a start (R53, R72, R133) -/

/-- Settles O22. -/
theorem orderLostAtStart : Obligations.OrderLostAtStart := by
  unfold Obligations.OrderLostAtStart
  intro s b k i hk hs hi
  obtain ⟨base, hsec⟩ := started_sec_some (chainSound_kept.startsFrom hk hs) hi
  generalize b.startOffset i = o at hsec
  obtain ⟨hcause, hslot, hseen, hkeeps, hsettles⟩ := compute_run (b.sec i).beginCycle b.cyc.lineSpeed base o
  obtain ⟨hf1, hf2, hf3, hf4, hf5, -⟩ := clearFaultResets_fields
    ((b.sec i).beginCycle.compute b.cyc.lineSpeed base o)
  have hrunner := announceStart_runner b.advanceNumbers
  refine ⟨b.started, exec_starts hk, ?_⟩
  rw [hsec, hf1, hf2, hf3, hf4, hf5, hcause, hslot, hseen]
  refine ⟨fun hstays => ?_, fun hrun hlost => ?_, fun hrun hc hhold => ?_, fun hrun hno => ?_, fun hstops => ?_,
    fun hrests => ?_⟩
  · have hsame := staysRunning_sameRun hstays
    have hbegun := (beginCycle_running_iff (b.sec i)).mpr hstays
    exact ⟨(hkeeps (by rw [hbegun]; nofun)).trans hbegun, hsame.2.1, fun r hr =>
      (started_runner b r).trans (announceStart_runner_kept (s := b.advanceNumbers) hstays hr)⟩
  · obtain ⟨-, h1, h2, h3⟩ := beginCycle_running_lost hrun (Nat.not_lt.mp fun hhold => hlost ⟨hrun, hhold⟩)
    exact ⟨h1, h2, h3, fun r hb hr => (started_runner b r).trans ((hrunner r).1 ⟨i, hr, hi, hrun, hlost⟩ hb)⟩
  · obtain ⟨-, h1, h2⟩ := beginCycle_stopping_lost hrun hc hhold
    exact ⟨h1, h2⟩
  · have hsame : SameRun (b.sec i) (b.sec i).beginCycle := by
      rcases hno with hc | hhold
      · exact beginCycle_unasked ⟨by rw [hrun]; nofun, fun _ => hc⟩
      · exact beginCycle_held hhold
    exact ⟨hsame.2.1, hsame.2.2.2⟩
  · exact hsettles (beginCycle_stopping hstops)
  · have hsame := beginCycle_resting hrests
    refine ⟨(hkeeps ?_).trans hsame.1, hsame.2.1, hsame.2.2.2⟩
    rw [hsame.1]
    rcases hrests with h | h <;> rw [h] <;> nofun

end Sys2Proof.Machine
end

section
/-! PROOF. What a downstream cycle start sends: the cycle in flight and the burst (O20), and what each MEMBER ORDER
carries (O21). -/

namespace Sys2Proof.Machine

open Sys2Proof

/-! ## Settings, member states and fault resets through the computation -/

/-- Settings, member states and fault resets of two entries agree. -/
def SameOrders (x y : Section) : Prop :=
  y.cfg = x.cfg ∧ ∀ j, (y.member j).state = (x.member j).state ∧ (y.member j).faultReset = (x.member j).faultReset

theorem SameOrders.refl (x : Section) : SameOrders x x := ⟨rfl, fun _ => ⟨rfl, rfl⟩⟩

theorem SameOrders.trans {x y z : Section} (h : SameOrders x y) (k : SameOrders y z) : SameOrders x z :=
  ⟨k.1.trans h.1, fun j => ⟨(k.2 j).1.trans (h.2 j).1, (k.2 j).2.trans (h.2 j).2⟩⟩

theorem beginCycle_sameOrders (x : Section) : SameOrders x x.beginCycle :=
  ⟨(beginCycle_numbers x).1, fun j => by rw [beginCycle_member]; exact ⟨rfl, rfl⟩⟩

theorem compute_cfg (x : Section) (l base o : Int) : (x.compute l base o).cfg = x.cfg := by
  obtain ⟨_, _, _, _, _, _, _, h⟩ := compute_frame x l base o
  rw [h]
  exact (formed_fields x l base).1

theorem compute_sameOrders (x : Section) (l base o : Int) : SameOrders x (x.compute l base o) :=
  ⟨compute_cfg x l base o, fun j => by rw [compute_member]; exact ⟨rfl, rfl⟩⟩

theorem computeChain_sameOrders (s : State) (i : Fin 16) : SameOrders (s.sec i) (s.computeChain.sec i) := by
  unfold State.computeChain
  generalize s.chain = l
  induction l generalizing s with
  | nil => exact .refl _
  | cons a l ih =>
    refine SameOrders.trans ?_ (ih (s.computeSec a))
    rw [State.computeSec, sec_modSec]
    split
    · next e => subst e; exact compute_sameOrders _ _ _ _
    · exact .refl _

theorem computedStart_sameOrders (b : State) (i : Fin 16) : SameOrders (b.sec i) (b.computedStart.sec i) := by
  unfold State.computedStart
  refine SameOrders.trans ?_ (computeChain_sameOrders _ i)
  rw [announceStart_sec]
  split
  · exact beginCycle_sameOrders _
  · exact .refl _

/-! ## The slots of a cycle (R31) -/

/-- The slots of an entry are those below its member count, in order. -/
theorem slots_val {x : Section} (h : x.cfg.memberCount ≤ 4) : x.slots.map Fin.val = List.range x.cfg.memberCount := by
  unfold Section.slots allSlots
  generalize x.cfg.memberCount = n at h ⊢
  interval_cases n <;> rfl

theorem slots_length {x : Section} (h : x.cfg.memberCount ≤ 4) : x.slots.length = x.cfg.memberCount := by
  rw [← List.length_map Fin.val, slots_val h, List.length_range]

theorem slots_getElem {x : Section} (h : x.cfg.memberCount ≤ 4) {j : Fin 4} (hj : j.val < x.slots.length) :
    x.slots[j.val] = j := by
  have hval : (x.slots.map Fin.val)[j.val]'(by rw [List.length_map]; exact hj) = j.val := by
    simp only [slots_val h, List.getElem_range]
  rw [List.getElem_map] at hval
  exact Fin.ext hval

theorem cycleSlots_address {s : State} (h : ∀ i, (s.sec i).cfg.memberCount ≤ 4) :
    s.cycleSlots.map SlotRef.address = s.presentSecs.flatMap fun i =>
      (List.range (s.sec i).cfg.memberCount).map fun j => (s.sec i).cfg.memberBase + BitVec.ofNat 8 j := by
  unfold State.cycleSlots
  rw [List.map_flatMap]
  congr 1
  funext i
  rw [← slots_val (h i), List.map_map, List.map_map]
  rfl

theorem cycleSlots_sec {s : State} (h : ∀ i, (s.sec i).cfg.memberCount ≤ 4) :
    s.cycleSlots.map SlotRef.sec = s.presentSecs.flatMap fun i => List.replicate (s.sec i).cfg.memberCount i := by
  unfold State.cycleSlots
  rw [List.map_flatMap]
  congr 1
  funext i
  rw [← slots_length (h i), List.map_map]
  exact List.map_const

/-! ## The start as a whole (R31, R32, R53, R55, R99) -/

theorem computedStart_cyc (b : State) : b.computedStart.dn = b.dn ∧
    b.computedStart.cyc.inFlight = b.cyc.inFlight ∧ b.computedStart.cyc.cycleNumber = b.cyc.cycleNumber + 1 := by
  have h := computedStart_frame b
  generalize b.computedStart = u at h
  rw [h]
  exact ⟨rfl, rfl, rfl⟩

theorem compute_orderAge (x : Section) (l base o : Int) : (x.compute l base o).orderAge = x.orderAge := by
  obtain ⟨_, _, _, _, _, _, _, h⟩ := compute_frame x l base o
  obtain ⟨_, _, _, _, hf⟩ := formed_frame x l base
  rw [h]
  show (x.formed l base).orderAge = _
  rw [hf]

theorem beginCycle_orderAge (x : Section) : x.beginCycle.orderAge = min 255 (x.orderAge + 1) := by
  obtain ⟨_, _, _, _, _, h⟩ := beginCycle_frame x
  rw [h]

/-- The results of every member are cleared, the fault resets of those there are. -/
theorem started_member {b : State} (h : b.ChainSound) {i : Fin 16} (hi : (b.sec i).present = true) (j : Fin 4) :
    ((b.started.sec i).member j).result = .none ∧
      (j.val < (b.sec i).cfg.memberCount → ((b.started.sec i).member j).faultReset = false) := by
  obtain ⟨base, hsec⟩ := started_sec_some h hi
  rw [hsec, clearFaultResets_member, compute_cfg, (beginCycle_numbers _).1, compute_member, beginCycle_member]
  split
  · exact ⟨rfl, fun _ => rfl⟩
  · next hj => exact ⟨rfl, fun h => absurd h hj⟩

theorem started_sec_absent {b : State} (h : b.ChainSound) {i : Fin 16} (hi : (b.sec i).present = false) :
    b.started.sec i = b.sec i := by
  have hsec := computedStart_sec_absent h hi
  unfold State.started
  generalize b.computedStart = u at hsec ⊢
  split
  · exact hsec
  · rw [launched_sec, hsec, hi]
    rfl

/-- The burst and the cycle of a start, with a section present. -/
theorem started_sends {b : State} (hcount : ∀ i, (b.sec i).cfg.memberCount ≤ 4) (hp : b.presentSecs ≠ []) :
    b.started.dn = { b.dn with
      tx := b.started.dn.tx, driving := true, sentBits := 0, turnaround := none, awaitMark := false, gapTimer := none } ∧
    ∃ slots orders,
      b.started.cyc.inFlight = some
        { slots := slots, windowOpen := false, pos := 0, slotBits := 0, report := none, dropped := [] } ∧
      slots.map SlotRef.address = b.presentSecs.flatMap (fun i =>
        (List.range (b.sec i).cfg.memberCount).map fun j => (b.sec i).cfg.memberBase + BitVec.ofNat 8 j) ∧
      slots.map SlotRef.sec = b.presentSecs.flatMap (fun i => List.replicate (b.sec i).cfg.memberCount i) ∧
      b.started.dn.tx = orders ++ [slotCall (b.cyc.cycleNumber + 1) (slots.map SlotRef.address)] ∧
      orders.map TxFrame.address = b.presentSecs.map fun i => (b.sec i).cfg.memberBase := by
  have hcfg : ∀ i, (b.computedStart.sec i).cfg = (b.sec i).cfg := fun i => (computedStart_sameOrders b i).1
  have hpresent := computedStart_presentSecs b
  obtain ⟨hdn, -, hnumber⟩ := computedStart_cyc b
  rw [started_launched hp]
  generalize b.computedStart = u at hcfg hpresent hdn hnumber ⊢
  have hcount' : ∀ i, (u.sec i).cfg.memberCount ≤ 4 := fun i => by rw [hcfg]; exact hcount i
  have haddress := cycleSlots_address hcount'
  have hsecs := cycleSlots_sec hcount'
  simp only [hcfg, hpresent] at haddress hsecs
  refine ⟨by rw [← hdn]; rfl, u.cycleSlots, u.presentSecs.map fun i => (u.sec i).memberOrder u.cyc.cycleNumber, rfl,
    haddress, hsecs, by rw [← hnumber]; rfl, ?_⟩
  rw [List.map_map, hpresent]
  exact congrArg (fun f => b.presentSecs.map f) (funext fun i => congrArg Settings.memberBase (hcfg i))

/-- Settles O20. -/
theorem cycleStartSendsOrders : Obligations.CycleStartSendsOrders := by
  unfold Obligations.CycleStartSendsOrders
  intro s b k hk hs ht
  have hchain := chainSound_kept.startsFrom hk hs
  have htables := b.tablesSound_iff.mpr (entriesSound.kept.startsFrom hk (s.tablesSound_iff.mp ht))
  have hfree := (startsFrom_free hk).1
  refine ⟨b.started, exec_starts hk, started_frame b, fun hp => ?_, started_sends fun i =>
    (htables.sections i).cfg.memberCount.2, fun i => ⟨started_sec_absent hchain, fun hi => ⟨?_, started_member hchain hi⟩⟩⟩
  · obtain ⟨hdn, hcycle, -⟩ := computedStart_cyc b
    rw [started_unsent hp]
    exact ⟨hdn, hcycle.trans hfree.noCycle⟩
  · obtain ⟨base, hsec⟩ := started_sec_some hchain hi
    rw [hsec]
    exact (compute_orderAge _ _ _ _).trans (beginCycle_orderAge _)

/-! ## What a MEMBER ORDER carries (R97 to R99, R180) -/

/-- The characters of one block among blocks of one length. -/
theorem charAt_blocks {α : Type} {f : α → List Byte} {w : Nat} (hf : ∀ a, (f a).length = w) (l : List α) (k : Nat)
    (hk : k < l.length) (r : Nat) (hr : r < w) : charAt (l.flatMap f) (w * k + r) = charAt (f l[k]) r := by
  induction l generalizing k with
  | nil => cases hk
  | cons a l ih =>
    unfold charAt at ih ⊢
    cases k with
    | zero =>
      rw [List.flatMap_cons, Nat.mul_zero, Nat.zero_add, List.getD_append _ _ _ _ (by rw [hf]; exact hr)]
      rfl
    | succ k =>
      rw [List.flatMap_cons, List.getD_append_right _ _ _ _ (by rw [hf, Nat.mul_succ]; omega), hf,
        show w * (k + 1) + r - w = w * k + r by rw [Nat.mul_succ]; omega, ih k (Nat.lt_of_succ_lt_succ hk)]
      rfl

/-- The four characters of one member in its section's MEMBER ORDER. -/
def Section.orderEntry (x : Section) (j : Fin 4) : List Byte :=
  x.controlChar j :: chars24 (BitVec.ofInt 24 (x.reference j))

theorem memberOrder_payload (x : Section) (number : Byte) : (x.memberOrder number).payload =
    number :: BitVec.ofNat 8 x.cfg.memberCount :: x.slots.flatMap x.orderEntry := rfl

theorem charAt_memberOrder {x : Section} (h : x.cfg.memberCount ≤ 4) (number : Byte) {j : Fin 4}
    (hj : j.val < x.cfg.memberCount) {r : Nat} (hr : r < 4) :
    charAt (x.memberOrder number).payload (2 + 4 * j.val + r) = charAt (x.orderEntry j) r := by
  have hlen : j.val < x.slots.length := by rw [slots_length h]; exact hj
  have hblock := charAt_blocks (f := x.orderEntry) (w := 4) (fun _ => rfl) x.slots j.val hlen r hr
  rw [slots_getElem h hlen] at hblock
  rw [← hblock, memberOrder_payload, show 2 + 4 * j.val + r = 4 * j.val + r + 1 + 1 by omega]
  rfl

theorem memberOrder_reads {x : Section} (h : x.cfg.memberCount ≤ 4) (number : Byte) {j : Fin 4}
    (hj : j.val < x.cfg.memberCount) :
    charAt (x.memberOrder number).payload (2 + 4 * j.val) = x.controlChar j ∧
      num24 (x.memberOrder number).payload (3 + 4 * j.val) = BitVec.ofInt 24 (x.reference j) := by
  have hchar := fun {r : Nat} (hr : r < 4) => charAt_memberOrder h number hj hr
  refine ⟨hchar (r := 0) (by decide), ?_⟩
  unfold num24
  rw [show 3 + 4 * j.val = 2 + 4 * j.val + 1 by omega, hchar (r := 1) (by decide), hchar (r := 2) (by decide),
    hchar (r := 3) (by decide)]
  exact num24_cons_chars24 _ _

theorem memberOrder_length {x : Section} (h : x.cfg.memberCount ≤ 4) (number : Byte) :
    (x.memberOrder number).payload.length = 2 + 4 * x.cfg.memberCount := by
  have hsum : (x.slots.map fun a => (x.orderEntry a).length).sum = x.slots.length * 4 :=
    (congrArg List.sum (List.map_const (b := 4))).trans List.sum_replicate_nat
  rw [memberOrder_payload, List.length_cons, List.length_cons, List.length_flatMap, hsum, slots_length h]
  omega

theorem toInt_ofInt24 {v : Int} (h : 0 ≤ v ∧ v ≤ 250000) : (BitVec.ofInt 24 v).toInt = v := by
  rw [BitVec.toInt_ofInt]
  exact Int.bmod_eq_of_le (by norm_num; omega) (by norm_num; omega)

theorem reference_bounds {x : Section} (h : x.Sound) (hp : x.present = true) (j : Fin 4) :
    0 ≤ x.reference j ∧ x.reference j ≤ 250000 := by
  obtain ⟨hmax, hmax'⟩ := h.cfg.maxSpeed
  obtain ⟨happ, happ'⟩ := h.applied
  have := happ' hp
  unfold Section.reference clampInt
  split
  · omega
  · split
    · omega
    · split
      · omega
      · split <;> omega

theorem controlChar_toNat (x : Section) (j : Fin 4) : (x.controlChar j).toNat = j.val +
    (if (x.member j).state ≠ .lost ∧ (x.runState = .running ∨ (x.runState = .stopping ∧ 0 < x.applied)) then 16 else 0) +
    (if (x.member j).faultReset then 32 else 0) := by
  have hcommands : x.commandsRun j = true ↔
      (x.member j).state ≠ .lost ∧ (x.runState = .running ∨ (x.runState = .stopping ∧ 0 < x.applied)) := by
    unfold Section.commandsRun Section.sendsRun
    simp only [Bool.and_eq_true, Bool.or_eq_true, beq_iff_eq, decide_eq_true_eq, bne_iff_ne]
    exact and_comm
  unfold Section.controlChar
  rw [BitVec.toNat_ofNat, if_congr hcommands rfl rfl, Nat.mod_eq_of_lt]
  have := j.isLt
  split <;> split <;> omega

/-- Settles O21. -/
theorem memberOrderEntries : Obligations.MemberOrderEntries := by
  unfold Obligations.MemberOrderEntries
  intro s b k i hk ht hi
  have hsound : (b.computedStart.sec i).Sound := by
    have hall := entriesSound.kept.computedStart
      ⟨entriesSound.kept.startsFrom hk (s.tablesSound_iff.mp ht), (startsFrom_free hk).2⟩
    exact (b.computedStart.tablesSound_iff.mpr hall.1).sections i
  have hpresent := (computedStart_place b i).present.trans hi
  have hsec := started_sec_present hi
  obtain ⟨hcfg, hmember⟩ := computedStart_sameOrders b i
  obtain ⟨-, -, hnumber⟩ := computedStart_cyc b
  obtain ⟨hrun, -, -, -, happlied, -, -⟩ := clearFaultResets_fields (b.computedStart.sec i)
  have htrim := clearFaultResets_trim (b.computedStart.sec i)
  have hexec := exec_starts hk
  refine ⟨b.started, (b.computedStart.sec i).memberOrder b.computedStart.cyc.cycleNumber, hexec, ?_⟩
  rw [started_launched (presentSecs_ne_nil hi)] at hsec ⊢
  generalize b.computedStart = u at hsound hpresent hsec hcfg hmember hnumber hrun happlied htrim ⊢
  obtain ⟨hcount, hcount'⟩ := hsound.cfg.memberCount
  rw [hsec, hrun, happlied, ← hcfg]
  refine ⟨List.mem_append_left _ (List.mem_map.mpr ⟨i, (mem_presentSecs u i).mpr hpresent, rfl⟩), rfl, rfl,
    memberOrder_length hcount' _, hnumber, ?_, fun j hj => ?_⟩
  · show (BitVec.ofNat 8 (u.sec i).cfg.memberCount).toNat = _
    rw [BitVec.toNat_ofNat]
    exact Nat.mod_eq_of_lt (by omega)
  · obtain ⟨hstate, hreset⟩ := hmember j
    obtain ⟨hcontrol, hspeed⟩ := memberOrder_reads hcount' u.cyc.cycleNumber hj
    rw [hcontrol, hspeed, controlChar_toNat, toInt_ofInt24 (reference_bounds hsound hpresent j), ← hstate, ← hreset, htrim]
    unfold Section.reference
    refine ⟨fun hlost => if_pos hlost, fun hlost hzero => ?_, fun hlost hne => ?_, rfl⟩
    · rw [if_neg hlost, if_pos hzero]
    · rw [if_neg hlost, if_neg hne]
      exact clampInt_eq_max_min hsound.cfg.maxSpeed.1 _

end Sys2Proof.Machine
end

section
/-! PROOF. The link test's own events (R10, R16 to R18), with the statement O38. -/

namespace Sys2Proof.Machine

open Sys2Proof

/-! ## Judgements (R10, R17) -/

theorem judgeEcho_more {s : State} (h : s.link.frameNo < 15) (b : Option BadKind) :
    s.judgeEcho b = s.setLink (s.link.judged b) := by
  unfold State.judgeEcho
  exact if_pos h

/-- The judgement that a discard in loopback gives the frame sent last, before frame 15: of the frame that awaits one. -/
def State.Judges (s : State) (judged : BadKind → LinkTest) : Prop :=
  (s.link.awaiting = false ∧ judged = fun _ => s.link) ∨
    (s.link.awaiting = true ∧ s.link.frameNo < 15 ∧ judged = fun k => s.link.judged (some k))

theorem discard_judged {s : State} (hl : s.link.loopback = true) {judged : BadKind → LinkTest} (hj : s.Judges judged)
    (x : Port) (k : ErrorKind) : (s.setPort .dn x).discard .dn k =
      (s.setLink (judged k.echoKind)).setPort .dn { x with lastError := k } := by
  unfold State.discard
  rw [latchError_setPort]
  dsimp only
  rw [show (s.setPort .dn { x with lastError := k }).link = s.link from rfl, hl]
  obtain ⟨ha, rfl⟩ | ⟨ha, hn, rfl⟩ := hj
  · rw [ha]
    rfl
  · rw [ha]
    exact judgeEcho_more (by exact hn) _

theorem State.Judges.loopback {s : State} {judged : BadKind → LinkTest} (hj : s.Judges judged) (b : BadKind) :
    (judged b).loopback = s.link.loopback := by
  obtain ⟨-, rfl⟩ | ⟨-, -, rfl⟩ := hj <;> rfl

/-- A second discard of the same frame finds none awaiting. -/
theorem discard_again {s : State} {judged : BadKind → LinkTest} (hj : s.Judges judged) (b : BadKind) (x : Port)
    (k : ErrorKind) : ((s.setLink (judged b)).setPort .dn x).discard .dn k =
      (s.setLink (judged b)).setPort .dn { x with lastError := k } := by
  have ha : (judged b).awaiting = false := by
    obtain ⟨ha, rfl⟩ | ⟨-, -, rfl⟩ := hj
    · exact ha
    · rfl
  unfold State.discard
  rw [latchError_setPort]
  dsimp only
  rw [show ((s.setLink (judged b)).setPort .dn { x with lastError := k }).link = judged b from rfl, ha, Bool.and_false]
  rfl

/-! ## Entries taken from an open frame (R7) -/

section Entries

variable {s : State} {p : Side} {x : Port} {cs : List Byte}

theorem abandon_open (h : x.asm = .collect cs) :
    (s.setPort p x).abandon p = (s.setPort p { x with asm := .wait }).discard p .truncated := by
  unfold State.abandon
  rw [setPort_same, h]
  dsimp only
  rw [setAsm_setPort]

theorem takeEntry_unmarked_tagged (h : x.asm = .collect cs) {d : Byte} {b : Bool} {st : Stamp} {k : ErrorKind}
    (ht : (charEntry d false b st).tagKind = some k) : (s.setPort p x).takeEntry p (charEntry d false b st) =
      (s.setPort p { x with asm := .wait }).discard p k := by
  show (s.setPort p x).takeUnmarked p d (charEntry d false b st).tagKind st = _
  unfold State.takeUnmarked
  rw [ht, setPort_same, h]
  dsimp only
  rw [setAsm_setPort]

theorem takeEntry_marked_tagged (h : x.asm = .collect cs) {d : Byte} {b : Bool} {st : Stamp} {k : ErrorKind}
    (ht : (charEntry d true b st).tagKind = some k) : (s.setPort p x).takeEntry p (charEntry d true b st) =
      ((s.setPort p { x with asm := .wait }).discard p .truncated).discard p k := by
  show (s.setPort p x).takeMarked p d (charEntry d true b st).tagKind = _
  unfold State.takeMarked
  rw [ht]
  dsimp only
  rw [abandon_open h]

/-- An entry tagged OVERRUN, that is no marked character, ends the open frame. -/
theorem takeEntry_overrun_unmarked (h : x.asm = .collect cs) {e : Entry} (he : e.overrun = true)
    (hb : ∀ d, e.body ≠ .char d true) :
    (s.setPort p x).takeEntry p e = (s.setPort p { x with asm := .wait }).discard p .overrun := by
  have ht : e.tagKind = some .overrun := by simp [Entry.tagKind, he]
  unfold State.takeEntry
  split
  · unfold State.takeGap
    rw [setPort_same, h]
    dsimp only
    rw [setAsm_setPort, he, if_pos rfl]
  · next d hd => exact absurd hd (hb d)
  · unfold State.takeUnmarked
    rw [setPort_same, ht, h]
    dsimp only
    rw [setAsm_setPort]

theorem appendChar_tooLong_discard (a k n : Byte) (hn : 124 < n.toNat) (st : Stamp) :
    (s.setPort p x).appendChar p [a, k, n] st = (s.setPort p { x with asm := .wait }).discard p .length := by
  unfold State.appendChar
  rw [if_pos ⟨rfl, hn⟩, setAsm_setPort]

theorem appendChar_badCheck_discard (a k c d : Byte) (hc : c ++ d ≠ crc16 [a, k, 0]) (st : Stamp) :
    (s.setPort p x).appendChar p [a, k, 0, c, d] st = (s.setPort p { x with asm := .wait }).discard p .check := by
  have hcheck : checkPasses [a, k, 0, c, d] = false := by
    show (crc16 [a, k, 0] == c ++ d) = false
    simpa using Ne.symm hc
  show State.completeFrame (s.setPort p x) p [a, k, 0, c, d] st = _
  unfold State.completeFrame
  rw [hcheck, setAsm_setPort]
  rfl

end Entries

/-! ## A part in loopback -/

/-- In loopback the filter keeps address 0 alone (R16). -/
theorem filterKeeps_looped {s : State} (h : s.link.loopback = true) (a : Byte) : s.filterKeeps .dn a = (a == 0) := by
  unfold State.filterKeeps
  exact if_pos h

/-- In loopback, in service, with both FIFOs empty. -/
structure State.Loops (s : State) : Prop where
  inService : s.phase = .inService
  quiet : s.Quiet
  loopback : s.link.loopback = true

namespace State.Loops

variable {s : State}

theorem receives (h : s.Loops) : s.receives .dn = true := by
  unfold State.receives
  rw [h.inService, h.loopback]
  rfl

theorem listens (h : s.Loops) (hw : s.dn.asm = .wait) (hm : s.dn.awaitMark = false) : s.Listens .dn :=
  ⟨h.quiet, hw, h.receives, hm⟩

theorem filter (h : s.Loops) (a : Byte) : s.filterKeeps .dn a = (a == 0) := filterKeeps_looped h.loopback a

/-- With the UP FIFO empty, nothing but the DN port has entries to take. -/
theorem other (h : s.Loops) (l : LinkTest) (y : Port) (q : Side) (hq : q ≠ .dn) :
    (((s.setLink l).setPort .dn y).port q).fifo = [] := by
  rw [port_setPort_ne hq]
  exact quiet_fifo (s := s.setLink l) h.quiet q

theorem exec_echo (h : s.Loops) (pl : List Byte) :
    exec (.echoTest pl) s = .next (s.receiveFrame .dn 0 kindEchoTest pl) := by
  show Host.Outcome.next (s.serving fun t => if t.link.loopback then t.receiveFrame .dn 0 kindEchoTest pl else t) = _
  rw [serving_inService h.inService, if_pos h.loopback]

theorem exec_timeout (h : s.Loops) (ha : s.link.awaiting = true) :
    exec .echoTestTimeout s = .next (s.judgeEcho (some .missing)).settle := by
  show Host.Outcome.next (s.serving fun t => if t.link.loopback && t.link.awaiting then
    (t.judgeEcho (some .missing)).settle else t) = _
  rw [serving_inService h.inService, if_pos (by rw [h.loopback, ha]; rfl)]

theorem exec_send (h : s.Loops) (ha : s.link.awaiting = false) (ht : s.link.sendTimer ≠ none) :
    exec .echoTestSend s = .next s.sendEcho := by
  show Host.Outcome.next (s.serving fun t => if t.echoSendDue then t.sendEcho else t) = _
  rw [serving_inService h.inService, if_pos]
  unfold State.echoSendDue
  rw [h.loopback, ha, Option.isSome_iff_ne_none.mpr ht]
  rfl

/-- A looped ECHO TEST frame of 16 characters, with a frame awaiting its judgement. -/
theorem handOff_echo (h : s.Loops) (ha : s.link.awaiting = true) {pl : List Byte} (hn : pl.length = 16) (st : Stamp) :
    (s.heard .dn).handOff .dn 0 kindEchoTest pl st =
      (s.heard .dn).judgeEcho (if pl = echoPayload s.link.frameNo then none else some .check) := by
  show State.handOffDn _ _ _ _ _ = _
  unfold State.handOffDn
  rw [if_pos (by exact h.loopback), if_pos ⟨rfl, rfl⟩]
  unfold State.lengthOr State.takeEcho
  rw [if_pos (by rw [hn]; rfl), if_pos (by exact ha)]
  rfl

/-- A looped ECHO TEST frame of another length. -/
theorem handOff_echo_length (h : s.Loops) {pl : List Byte} (hn : pl.length ≠ 16) (st : Stamp) :
    (s.heard .dn).handOff .dn 0 kindEchoTest pl st = (s.heard .dn).discard .dn .length := by
  show State.handOffDn _ _ _ _ _ = _
  unfold State.handOffDn
  rw [if_pos (by exact h.loopback), if_pos ⟨rfl, rfl⟩]
  unfold State.lengthOr
  rw [if_neg (by simpa using hn)]

/-- A looped frame whose consumer leaves the DN FIFO empty. -/
theorem exec_echo_settles (h : s.Loops) (hw : s.dn.asm = .wait) {pl : List Byte} (hl : pl.length ≤ 124) {t : State}
    (ht : (s.heard .dn).handOff .dn 0 kindEchoTest pl (s.stamp .dn) = t) (hd : t.dn.fifo = []) :
    exec (.echoTest pl) s = .next t.settle := by
  rw [h.exec_echo]
  refine congrArg _ ?_
  rw [receiveFrame_settles h.quiet h.receives hw 0 kindEchoTest pl hl (h.filter 0) (by rw [ht]; exact hd), ht]

/-! ## Frames before frame 15 -/

theorem timeout_more (h : s.Loops) (ha : s.link.awaiting = true) (hn : s.link.frameNo < 15) :
    exec .echoTestTimeout s = .next (s.setLink (s.link.judged (some .missing))) := by
  rw [h.exec_timeout ha, judgeEcho_more hn, settle_quiet (s := s.setLink (s.link.judged (some .missing))) h.quiet]

theorem heard_dn (hm : s.dn.awaitMark = false) : s.dn.heard = { s.dn with gapTimer := some 0 } := by
  unfold Port.heard
  rw [← hm]

theorem echo_more (h : s.Loops) (ha : s.link.awaiting = true) (hn : s.link.frameNo < 15) (hw : s.dn.asm = .wait)
    (hm : s.dn.awaitMark = false) {pl : List Byte} (hl : pl.length = 16) :
    exec (.echoTest pl) s = .next { s with
      dn := { s.dn with gapTimer := some 0 }
      link := s.link.judged (if pl = echoPayload s.link.frameNo then none else some .check) } := by
  have ht := h.handOff_echo ha hl (s.stamp .dn)
  rw [judgeEcho_more (s := s.heard .dn) hn] at ht
  rw [h.exec_echo_settles hw (by omega) ht (by exact h.quiet.2), settle_quiet (by exact h.quiet), ← heard_dn hm]
  rfl

/-- The discards of a looped frame: each with its latch and its judgement. -/
theorem discards (h : s.Loops) {judged : BadKind → LinkTest} (hj : s.Judges judged) (hw : s.dn.asm = .wait)
    (hm : s.dn.awaitMark = false) :
    (∀ pl, pl.length ≤ 124 → pl.length ≠ 16 → exec (.echoTest pl) s = .next { s with
      dn := { s.dn with gapTimer := some 0, lastError := .length }, link := judged .missing }) ∧
    (∀ d, d ≠ 0 → exec (.frameDiscard .dn [.char 0 true true, .char d false false] 2) s = .next { s with
      dn := { s.dn with gapTimer := some 0, lastError := .framing }, link := judged .framing }) ∧
    (∀ d, exec (.frameDiscard .dn [.char 0 true true, .char d true false] 2) s = .next { s with
      dn := { s.dn with gapTimer := some 0, lastError := .framing }, link := judged .missing }) ∧
    exec (.frameDiscard .dn [.char 0 true true, .char 0 false false] 2) s = .next { s with
      dn := { s.dn with gapTimer := none, awaitMark := true, lastError := .brk }, link := judged .framing } ∧
    (∀ b, b ≠ 0 → exec (.frameDiscard .dn [.char 0 true true, .char b true true] 2) s = .next { s with
      dn := { s.dn with gapTimer := some 0, lastError := .truncated }, link := judged .missing }) ∧
    (∀ k n, 124 < n.toNat →
      exec (.frameDiscard .dn [.char 0 true true, .char k false true, .char n false true] 3) s = .next { s with
        dn := { s.dn with gapTimer := some 0, lastError := .length }, link := judged .missing }) ∧
    ∀ k c d, c ++ d ≠ crc16 [0, k, 0] →
      exec (.frameDiscard .dn
        [.char 0 true true, .char k false true, .char 0 false true, .char c false true, .char d false true] 5) s =
        .next { s with dn := { s.dn with gapTimer := some 0, lastError := .check }, link := judged .check } := by
  have hlisten := h.listens hw hm
  have hport : s.dn = { s.dn with fifo := [], asm := .wait, awaitMark := false } := listens_port hlisten
  have hframe : ∀ k, ({ s.dn with gapTimer := some 0, fifo := [], asm := .wait, lastError := k } : Port) =
      { s.dn with gapTimer := some 0, lastError := k } := fun k => by rw [← hw, ← h.quiet.2]
  have hkeep := h.filter 0
  have hone := fun x k => discard_judged h.loopback hj x k
  refine ⟨fun pl hl hn => ?_, fun d hd => ?_, fun d => ?_, ?_, fun b hb => ?_, fun k n hn => ?_, fun k c d hc => ?_⟩
  · have ht := (h.handOff_echo_length hn (s.stamp .dn)).trans (hone s.dn.heard .length)
    rw [h.exec_echo_settles hw hl ht (by exact h.quiet.2), settle_quiet (by exact h.quiet), heard_dn hm]
    rfl
  · rw [exec_frameDiscard_two (g := some 0) (b := false) hlisten hkeep
      (fun z hz hf => (receive_unstopped hz hf _ fun e => hd e.1).trans (by rw [← hz]))
      ((takeEntry_unmarked_tagged (by rfl) (tagKind_framing (fun e => hd e.1) _)).trans (hone _ _)) (h.other _ _)]
    conv_rhs => rw [hport]
    rfl
  · rw [exec_frameDiscard_two (g := some 0) (b := false) hlisten hkeep
      (fun z hz hf => (receive_unstopped hz hf _ (by simp)).trans (by rw [← hz]))
      ((takeEntry_marked_tagged (by rfl) (tagKind_framing (by simp) _)).trans
        (by rw [hone]; exact discard_again hj _ _ _)) (h.other _ _)]
    conv_rhs => rw [hport]
    rfl
  · rw [exec_frameDiscard_two hlisten hkeep (fun z hz hf => receive_break hz hf _)
      ((takeEntry_unmarked_tagged (by rfl) (tagKind_break _)).trans (hone _ _)) (h.other _ _)]
    conv_rhs => rw [hport]
    rfl
  · rw [exec_frameDiscard_two (g := some 0) (b := false) hlisten hkeep
      (fun z hz hf => (receive_clean hz hf _ b true).trans (by rw [← hz]))
      ((takeEntry_marked _ _).trans (by
        rw [abandon_open (by rfl), hone]
        exact openFrame_rejected ((filterKeeps_looped (by exact (hj.loopback _).trans h.loopback) b).trans
          (beq_eq_false_iff_ne.mpr hb)))) (h.other _ _)]
    conv_rhs => rw [hport]
    rfl
  · refine (exec_frameDiscard_chars hlisten hkeep [k] n (by simp) (fun m _ => staysOpen_of (.inl (by simp)))
      ((appendChar_tooLong_discard 0 k n hn _).trans (hone _ _)) (h.other _ _)).trans ?_
    exact congrArg (fun x => Host.Outcome.next ((s.setLink (judged .missing)).setPort .dn x)) (hframe .length)
  · refine (exec_frameDiscard_chars hlisten hkeep [k, 0, c] d (by simp) (fun m hm => ?_)
      ((appendChar_badCheck_discard 0 k c d hc _).trans (hone _ _)) (h.other _ _)).trans ?_
    · have hm3 : m = 0 ∨ m = 1 ∨ m = 2 := by simp at hm; omega
      obtain rfl | rfl | rfl := hm3
      · exact staysOpen_of (.inl (by simp))
      · exact staysOpen_of (.inr (by simp [charAt]))
      · exact staysOpen_of (.inr (by simp [charAt]))
    · exact congrArg (fun x => Host.Outcome.next ((s.setLink (judged .check)).setPort .dn x)) (hframe .check)

end State.Loops

/-! ## The end of the test (R18) -/

/-- A judgement of frame 15: none for a good frame. -/
def State.EndsTest (s : State) (k : Instr) (j : Option BadKind) : Prop :=
  (k = .echoTestTimeout ∧ j = some .missing) ∨
    ∃ pl, k = .echoTest pl ∧ pl.length = 16 ∧ j = if pl = echoPayload s.link.frameNo then none else some .check

theorem endLinkTest_idle {s : State} (h : s.cyc.pendingStart = false) : s.endLinkTest = s.leaveLoopback := by
  show s.leaveLoopback.servePending = _
  unfold State.servePending
  rw [if_neg]
  show ¬(s.cyc.pendingStart && !false) = true
  rw [h]
  nofun

theorem leaveLoopback_quiet {s : State} (h : s.Quiet) : s.leaveLoopback.Quiet := ⟨h.1, rfl⟩

theorem exec_endsTest_idle {s : State} (h : s.Loops) (hw : s.dn.asm = .wait) (ha : s.link.awaiting = true)
    (hn : 15 ≤ s.link.frameNo) (hd : s.cyc.pendingStart = false) {k : Instr} {j : Option BadKind} (hk : s.EndsTest k j) :
    exec k s = .next (s.setLink (s.link.judged j)).leaveLoopback := by
  have hquiet : (s.setLink (s.link.judged j)).leaveLoopback.Quiet := leaveLoopback_quiet (s := s.setLink _) h.quiet
  obtain ⟨rfl, rfl⟩ | ⟨pl, rfl, hl, rfl⟩ := hk
  · rw [h.exec_timeout ha, judgeEcho_last _ hn, endLinkTest_idle (by exact hd), settle_quiet hquiet]
  · have ht := h.handOff_echo ha hl (s.stamp .dn)
    rw [judgeEcho_last (s := s.heard .dn) _ hn, endLinkTest_idle (by exact hd)] at ht
    rw [h.exec_echo_settles hw (by omega) ht rfl]
    exact congrArg _ (settle_quiet hquiet)

theorem endsTest_starts {s : State} (h : s.Loops) (hw : s.dn.asm = .wait) (ha : s.link.awaiting = true)
    (hn : 15 ≤ s.link.frameNo) (hd : s.cyc.pendingStart = true) (hc : s.cyc.inFlight = none) {k : Instr}
    {j : Option BadKind} (hk : s.EndsTest k j) : s.StartsFrom k (s.setLink (s.link.judged j)).leaveLoopback := by
  obtain ⟨rfl, rfl⟩ | ⟨pl, rfl, hl, rfl⟩ := hk
  · exact .testEnd ⟨h.quiet, hw⟩ h.inService h.loopback ha hn hc hd
  · exact .testJudged ⟨h.quiet, hw⟩ h.inService h.loopback ha hn hc hd hl

/-- Loopback left, with a result. -/
theorem leaveLoopback_eq (s : State) (l : LinkTest) : (s.setLink l).leaveLoopback = { s with
    link := { running := false, loopback := false, frameNo := 0, awaiting := false, badCount := 0
              firstBad := none, echoBits := 0, sendTimer := none, result := l.verdict }
    dn := { s.dn with
      fifo := [], asm := .wait, gapTimer := none, awaitMark := false, sentBits := 0, driving := false }
    cyc := { s.cyc with pollInForce := [] } } := rfl

theorem verdict_judged (l : LinkTest) : (∀ k, (l.judged (some k)).verdict = .failed (l.badCount + 1) (l.firstBad.getD k)) ∧
    (l.badCount = 0 → (l.judged none).verdict = .passed) ∧
    (l.badCount ≠ 0 → ∀ b, l.firstBad = some b → (l.judged none).verdict = .failed l.badCount b) := by
  refine ⟨fun k => rfl, fun h => ?_, fun h b hb => ?_⟩
  · unfold LinkTest.verdict
    exact if_pos h
  · unfold LinkTest.verdict
    rw [if_neg (by exact h)]
    show LinkResult.failed l.badCount (l.firstBad.getD .check) = _
    rw [hb]
    rfl

/-! ## The obligation -/

theorem exec_echo_outside {s : State} (hs : s.phase = .inService) (hl : s.link.loopback = false) :
    exec .echoTestSend s = .next s ∧ exec .echoTestTimeout s = .next s ∧ ∀ pl, exec (.echoTest pl) s = .next s := by
  refine ⟨?_, ?_, fun pl => ?_⟩
  · show Host.Outcome.next (s.serving fun t => if t.echoSendDue then t.sendEcho else t) = _
    rw [serving_inService hs, State.echoSendDue, hl]
    rfl
  · show Host.Outcome.next (s.serving fun t => if t.link.loopback && t.link.awaiting then
      (t.judgeEcho (some .missing)).settle else t) = _
    rw [serving_inService hs, hl]
    rfl
  · show Host.Outcome.next (s.serving fun t => if t.link.loopback then t.receiveFrame .dn 0 kindEchoTest pl else t) = _
    rw [serving_inService hs, hl]
    rfl

/-- Settles O38. -/
theorem linkTestEvents : Obligations.LinkTestEvents := by
  unfold Obligations.LinkTestEvents
  intro s hs hq
  refine ⟨exec_echo_outside hs, fun hl ha ht => State.Loops.exec_send ⟨hs, hq, hl⟩ ha ht, ?_⟩
  rintro bad good rfl rfl
  refine ⟨fun hl ha hn => State.Loops.timeout_more ⟨hs, hq, hl⟩ ha hn, fun pl hl ha hn hw hm hlen => ?_,
    fun judged hl hw hm hj => State.Loops.discards ⟨hs, hq, hl⟩ hj hw hm, fun cs e hl ha hn he hb => ?_, ?_⟩
  · rw [State.Loops.echo_more ⟨hs, hq, hl⟩ ha hn hw hm hlen]
    split
    · next he => rw [if_pos (by exact he)]; rfl
    · next he => rw [if_neg (by exact he)]; rfl
  · have htake : State.takeEntries .dn 1 { s with dn := { s.dn with fifo := [e], asm := .collect cs } } = { s with
        dn := { s.dn with fifo := [], asm := .wait, lastError := .overrun }, link := s.link.judged (some .framing) } :=
      takeEntries_last (s := s) (p := .dn) (x := { s.dn with fifo := [e], asm := .collect cs }) rfl
        ((takeEntry_overrun_unmarked (by rfl) he hb).trans
          (discard_judged hl (judged := fun k => s.link.judged (some k)) (.inr ⟨ha, hn, rfl⟩) _ _))
    rw [exec_frameDiscard (by exact hs), receiveRaw_eq (by exact htake)]
    · rw [← hq.2]
      rfl
    · intro q hne
      cases q
      · exact hq.1
      · exact absurd rfl hne
  · rintro left rfl hl ha hn hw k b hk
    have hloops : s.Loops := ⟨hs, hq, hl⟩
    obtain ⟨hbad, hpassed, hfailed⟩ := verdict_judged s.link
    have hend : ∃ j, s.EndsTest k j ∧ b = (s.setLink (s.link.judged j)).leaveLoopback := by
      obtain ⟨rfl, rfl⟩ | ⟨pl, rfl, hlen, hne, rfl⟩ | ⟨rfl, hz, rfl⟩ | ⟨first, rfl, hnz, hf, rfl⟩ := hk
      · exact ⟨_, .inl ⟨rfl, rfl⟩, by rw [leaveLoopback_eq, hbad]⟩
      · exact ⟨_, .inr ⟨pl, rfl, hlen, rfl⟩, by rw [hn, if_neg hne, leaveLoopback_eq, hbad]⟩
      · exact ⟨_, .inr ⟨_, rfl, rfl, rfl⟩, by rw [hn, if_pos rfl, leaveLoopback_eq, hpassed hz]⟩
      · exact ⟨_, .inr ⟨_, rfl, rfl, rfl⟩, by rw [hn, if_pos rfl, leaveLoopback_eq, hfailed hnz _ hf]⟩
    obtain ⟨j, hj, rfl⟩ := hend
    refine ⟨fun hd => exec_endsTest_idle hloops hw ha (Nat.le_of_eq hn.symm) hd hj, fun hd hc => ?_⟩
    have hstart := endsTest_starts hloops hw ha (Nat.le_of_eq hn.symm) hd hc hj
    refine ⟨hstart, _, exec_starts hstart, ?_⟩
    have hcyc : (s.setLink (s.link.judged j)).leaveLoopback.cyc.cycleNumber = s.cyc.cycleNumber ∧
        (s.setLink (s.link.judged j)).leaveLoopback.cyc.cycleCount = s.cyc.cycleCount := ⟨rfl, rfl⟩
    rw [← hcyc.1, ← hcyc.2]
    generalize (s.setLink (s.link.judged j)).leaveLoopback = b
    rw [started_frame]
    exact ⟨rfl, rfl, rfl, rfl⟩

end Sys2Proof.Machine
end

section
/-! PROOF. The restore and the entry into service (R29, R176 to R178), with the statement O55. -/

namespace Sys2Proof.Machine

open Sys2Proof

/-! ## The tables loaded (R177) -/

theorem ofSaved_member (v : SavedSection) (j : Fin 4) : (Section.ofSaved v).member j =
    { Member.reset with rating := v.ratings[j], weight := v.weights[j] } := by
  have hreset : Section.reset.member j = Member.reset := by simp [Section.member, Section.reset]
  rw [← hreset]
  exact member_mapMembers Section.reset (fun j m => { m with rating := v.ratings[j], weight := v.weights[j] }) j

theorem loadTables_frame (s : State) (t : SavedTables) : s.loadTables t = { s with
    part := { s.part with mgmtAddr := t.mgmtAddr, lossLimit := t.lossLimit }
    steps := t.steps, chain := [], sections := (s.loadTables t).sections } := by
  have hfold : ∀ (l : List (Fin 16)) (u : State),
      l.foldl (fun w i => w.setSec i (Section.ofSaved t.sections[i])) u =
        { u with sections := (l.foldl (fun w i => w.setSec i (Section.ofSaved t.sections[i])) u).sections } := by
    intro l
    induction l with
    | nil => intro u; rfl
    | cons a l ih => intro u; rw [List.foldl_cons, ih]; rfl
  unfold State.loadTables
  dsimp only
  conv_lhs => rw [hfold]
  rfl

/-! ## The passes (R177) -/

theorem tryPresent_eq (c : SavedTables) (s : State) (i : Fin 16) : State.tryPresent c s i =
    if c.sections[i].present = true ∧ (s.sec i).present = false ∧ s.presentRefusal i = none then s.makePresent i
    else s := by
  unfold State.tryPresent
  refine if_congr ?_ rfl rfl
  rw [Bool.and_eq_true, Bool.and_eq_true, Bool.not_eq_true', Option.isNone_iff_eq_none, and_assoc]

/-- Every section present in one state is present in another, and one more is. -/
def State.Grows (s t : State) : Prop :=
  (∀ i, (s.sec i).present = true → (t.sec i).present = true) ∧
    ∃ i, (s.sec i).present = false ∧ (t.sec i).present = true

theorem State.Grows.trans {s t u : State} (h : s.Grows t) (k : t.Grows u) : s.Grows u := by
  obtain ⟨hmono, i, hold, hnew⟩ := h
  exact ⟨fun j hj => k.1 j (hmono j hj), i, hold, k.1 i hnew⟩

/-- A state that grows has more present sections. -/
theorem State.Grows.length_lt {s t : State} (h : s.Grows t) : s.presentSecs.length < t.presentSecs.length := by
  obtain ⟨hmono, i, hold, hnew⟩ := h
  have hsub : s.presentSecs.Sublist t.presentSecs := List.monotone_filter_right allSections fun j hj => hmono j hj
  refine Nat.lt_of_le_of_ne hsub.length_le fun he => ?_
  have hi := (mem_presentSecs t i).mpr hnew
  rw [← hsub.eq_of_length he, mem_presentSecs, hold] at hi
  cases hi

theorem makePresent_sec (s : State) (i j : Fin 16) :
    (s.makePresent i).sec j = if i = j then (s.sec i).madePresent (s.depthFor i) else s.sec j :=
  sec_modSec s i j fun x => x.madePresent (s.depthFor i)

theorem makePresent_grows {s : State} {i : Fin 16} (h : (s.sec i).present = false) : s.Grows (s.makePresent i) := by
  refine ⟨fun j hj => ?_, i, h, by rw [makePresent_sec, if_pos rfl]; rfl⟩
  rw [makePresent_sec]
  split
  · rfl
  · exact hj

theorem foldl_tryPresent_grows (c : SavedTables) (l : List (Fin 16)) (s : State) :
    l.foldl (State.tryPresent c) s = s ∨ s.Grows (l.foldl (State.tryPresent c) s) := by
  induction l generalizing s with
  | nil => exact .inl rfl
  | cons a l ih =>
    have hone : State.tryPresent c s a = s ∨ s.Grows (State.tryPresent c s a) := by
      rw [tryPresent_eq]
      split
      · next h => exact .inr (makePresent_grows h.2.1)
      · exact .inl rfl
    rw [List.foldl_cons]
    rcases hone with he | hg
    · rw [he]
      exact ih s
    · rcases ih (State.tryPresent c s a) with he | hg'
      · rw [he]
        exact .inr hg
      · exact .inr (hg.trans hg')

/-- A pass makes an entry present, or changes nothing. -/
theorem restorePass_grows (c : SavedTables) (s : State) : s.restorePass c = s ∨ s.Grows (s.restorePass c) :=
  foldl_tryPresent_grows c allSections s

/-- The passes end at a state that a pass leaves, or each of them made an entry present. -/
theorem restorePasses_iterate (c : SavedTables) (n : Nat) (s : State) :
    ∃ m ≤ n, restorePasses c n s = (fun u : State => u.restorePass c)^[m] s ∧
      ((restorePasses c n s).restorePass c = restorePasses c n s ∨
        s.presentSecs.length + n ≤ (restorePasses c n s).presentSecs.length) := by
  induction n generalizing s with
  | zero => exact ⟨0, Nat.le_refl 0, rfl, .inr (Nat.le_refl _)⟩
  | succ n ih =>
    unfold restorePasses
    dsimp only
    split
    · next hlt =>
      obtain ⟨m, hm, he, hend⟩ := ih (s.restorePass c)
      exact ⟨m + 1, Nat.succ_le_succ hm, he, hend.imp id fun hlen => by omega⟩
    · next hlt =>
      have hsame := (restorePass_grows c s).resolve_right fun hg => hlt hg.length_lt
      exact ⟨1, Nat.succ_le_succ (Nat.zero_le n), rfl, .inl (congrArg (State.restorePass · c) hsame)⟩

/-- A property of states that making a saved entry present keeps is kept by the passes. -/
theorem restorePasses_of {P : State → Prop} (c : SavedTables)
    (hmake : ∀ u i, P u → c.sections[i].present = true → P (u.makePresent i)) (n : Nat) {s : State} (h : P s) :
    P (restorePasses c n s) := by
  have hpass : ∀ u : State, P u → P (u.restorePass c) := fun u hu => by
    unfold State.restorePass
    generalize allSections = l
    induction l generalizing u with
    | nil => exact hu
    | cons a l ih =>
      refine ih _ ?_
      rw [tryPresent_eq]
      split
      · next ht => exact hmake u a hu ht.1
      · exact hu
  induction n generalizing s with
  | zero => exact h
  | succ n ih =>
    unfold restorePasses
    dsimp only
    split
    · exact ih (hpass s h)
    · exact hpass s h

/-! ## What the restore leaves -/

/-- An entry as the restore leaves it. -/
structure Section.Restored (v : SavedSection) (x : Section) : Prop where
  cfg : x.cfg = v.cfg
  rated : ∀ j : Fin 4, (x.member j).rating = v.ratings[j] ∧ (x.member j).weight = v.weights[j]
  absent : v.present = false → x.present = false
  resting : x.present = true → x.runState = .stopped ∧ x.stopSeen = false ∧ x.source = v.cfg.initSource ∧
    x.draw = v.cfg.initDraw ∧ ∀ j, (x.member j).state = .absent

theorem ofSaved_restored (v : SavedSection) : (Section.ofSaved v).Restored v :=
  ⟨rfl, fun j => by rw [ofSaved_member]; exact ⟨rfl, rfl⟩, fun _ => rfl, nofun⟩

theorem madePresent_restored {v : SavedSection} {x : Section} (h : x.Restored v) (hv : v.present = true) (d : Nat) :
    (x.madePresent d).Restored v := by
  have hmember : ∀ j, (x.madePresent d).member j = { x.member j with
      state := .absent, missCount := 0, result := .none, faultReset := false, speed := 0, torque := 0
      converted := 0, shareTarget := 0, shareError := 0, trim := 0, status := MemberStatus.clear } := fun j =>
    member_mapMembers x (fun _ m => { m with
      state := .absent, missCount := 0, result := .none, faultReset := false, speed := 0, torque := 0
      converted := 0, shareTarget := 0, shareError := 0, trim := 0, status := MemberStatus.clear }) j
  refine ⟨h.cfg, fun j => ?_, fun hf => absurd (hv.symm.trans hf) nofun, fun _ => ⟨rfl, rfl, ?_, ?_, fun j => ?_⟩⟩
  · rw [hmember]
    exact h.rated j
  · exact congrArg Settings.initSource h.cfg
  · exact congrArg Settings.initDraw h.cfg
  · rw [hmember]

/-- What the passes of the restore leave of a state but for its sections, its chain and its images. -/
def State.RestoresFrom (s t : State) : Prop :=
  t = { s with sections := t.sections, chain := t.chain, cyc := { s.cyc with images := t.cyc.images } }

theorem State.RestoresFrom.refl (s : State) : s.RestoresFrom s := rfl

theorem restoresFrom_makePresent {s u : State} (h : s.RestoresFrom u) (i : Fin 16) : s.RestoresFrom (u.makePresent i) := by
  have hmake : u.makePresent i = { u with
      sections := (u.makePresent i).sections, chain := (u.makePresent i).chain
      cyc := { u.cyc with images := (u.makePresent i).cyc.images } } := rfl
  unfold State.RestoresFrom at h ⊢
  generalize u.makePresent i = t at hmake ⊢
  conv_lhs => rw [hmake, h]

/-- The whole restore of a copy: the frame, the entries, the passes. -/
theorem restorePasses_restored (s : State) (c : SavedTables) :
    (s.loadTables c).RestoresFrom (restorePasses c 17 (s.loadTables c)) ∧
      ∀ i : Fin 16, ((restorePasses c 17 (s.loadTables c)).sec i).Restored c.sections[i] := by
  refine restorePasses_of (P := fun u => (s.loadTables c).RestoresFrom u ∧ ∀ i : Fin 16, (u.sec i).Restored c.sections[i]) c
    (fun u i hu hv => ⟨restoresFrom_makePresent hu.1 i, fun k => ?_⟩) 17 ⟨.refl _, fun i => ?_⟩
  · rw [makePresent_sec]
    split
    · next he => subst he; exact madePresent_restored (hu.2 i) hv _
    · exact hu.2 k
  · rw [(loadTables_empty s c).2]
    exact ofSaved_restored _

/-- The passes leave a state that no further pass changes. -/
theorem restorePasses_fixed (s : State) (c : SavedTables) :
    ∃ n ≤ 17, restorePasses c 17 (s.loadTables c) = (fun u : State => u.restorePass c)^[n] (s.loadTables c) ∧
      (restorePasses c 17 (s.loadTables c)).restorePass c = restorePasses c 17 (s.loadTables c) := by
  obtain ⟨n, hn, he, hend⟩ := restorePasses_iterate c 17 (s.loadTables c)
  refine ⟨n, hn, he, hend.resolve_right fun hlen => ?_⟩
  have := presentSecs_length (restorePasses c 17 (s.loadTables c))
  omega

/-- A part whose straps and store do not both allow the restore keeps its reset values. -/
theorem restore_unchosen {s : State} (h : s.part.config.getLsbD 5 = false ∨ s.store.state ≠ .valid) : s.restore = s := by
  unfold State.restore
  rw [if_neg]
  rw [Bool.and_eq_true, beq_iff_eq]
  rintro ⟨hc, hv⟩
  rcases h with h | h
  · exact absurd (hc.symm.trans h) nofun
  · exact h hv

theorem restore_chosen {s : State} (h : s.part.config.getLsbD 5 = true) (hv : s.store.state = .valid) {c : StoreCopy}
    (hc : s.store.copy = some c) : s.restore = restorePasses c.tables 17 (s.loadTables c.tables) := by
  unfold State.restore
  rw [if_pos (by rw [Bool.and_eq_true, beq_iff_eq]; exact ⟨h, hv⟩), hc]

/-! ## A property of entries through a start -/

/-- What the beginning of a cycle, the computation and the burst keep of an entry, a start keeps of it. -/
theorem started_sec_of {P : Section → Prop} (hbegin : ∀ x, P x → P x.beginCycle)
    (hcompute : ∀ x l base o, P x → P (x.compute l base o)) (hclear : ∀ x, P x → P x.clearFaultResets) {b : State}
    {i : Fin 16} (h : P (b.sec i)) : P (b.started.sec i) := by
  have hchain : ∀ (l : List (Fin 16)) (u : State), P (u.sec i) → P ((l.foldl State.computeSec u).sec i) := by
    intro l
    induction l with
    | nil => exact fun _ hu => hu
    | cons a l ih =>
      intro u hu
      refine ih _ ?_
      rw [State.computeSec, sec_modSec]
      split
      · next e => subst e; exact hcompute _ _ _ _ hu
      · exact hu
  have hcomputed : P (b.computedStart.sec i) := by
    unfold State.computedStart State.computeChain
    refine hchain _ _ ?_
    rw [announceStart_sec]
    split
    · exact hbegin _ h
    · exact h
  unfold State.started
  generalize b.computedStart = u at hcomputed ⊢
  split
  · exact hcomputed
  · rw [launched_sec]
    split
    · exact hclear _ hcomputed
    · exact hcomputed

/-- Settings, place, ratings and weights of two entries agree. -/
def SameTables (x y : Section) : Prop :=
  y.cfg = x.cfg ∧ y.present = x.present ∧ ∀ j, (y.member j).rating = (x.member j).rating ∧
    (y.member j).weight = (x.member j).weight

theorem started_sameTables (b : State) (i : Fin 16) : SameTables (b.sec i) (b.started.sec i) := by
  refine started_sec_of (P := SameTables (b.sec i)) (fun x h => ?_) (fun x l base o h => ?_) (fun x h => ?_)
    ⟨rfl, rfl, fun j => ⟨rfl, rfl⟩⟩
  · obtain ⟨hcfg, hpresent, hmembers⟩ := h
    refine ⟨(beginCycle_numbers x).1.trans hcfg, (beginCycle_place x).present.trans hpresent, fun j => ?_⟩
    rw [beginCycle_member]
    exact hmembers j
  · obtain ⟨hcfg, hpresent, hmembers⟩ := h
    refine ⟨(compute_cfg x l base o).trans hcfg, (compute_place x l base o).present.trans hpresent, fun j => ?_⟩
    rw [compute_member]
    exact hmembers j
  · obtain ⟨hcfg, hpresent, hmembers⟩ := h
    refine ⟨hcfg, hpresent, fun j => ?_⟩
    rw [clearFaultResets_member]
    split <;> exact hmembers j

/-- A STOPPED entry with a source, a draw and its members ABSENT. -/
def Section.Rests (q : Source) (d : Int) (x : Section) : Prop :=
  x.runState = .stopped ∧ x.stopSeen = false ∧ x.source = q ∧ x.draw = d ∧ ∀ j, (x.member j).state = .absent

theorem started_rests {b : State} {i : Fin 16} {q : Source} {d : Int} (h : (b.sec i).Rests q d) :
    (b.started.sec i).Rests q d := by
  refine started_sec_of (P := Section.Rests q d) (fun x h => ?_) (fun x l base o h => ?_) (fun x h => ?_) h
  · obtain ⟨hrun, hseen, hsource, hdraw, hmembers⟩ := h
    have hsame := beginCycle_resting (x := x) (.inl hrun)
    obtain ⟨_, _, _, _, _, hbegun⟩ := beginCycle_frame x
    refine ⟨hsame.1.trans hrun, hsame.2.2.2.trans hseen, ?_, ?_, fun j => ?_⟩
    · rw [hbegun]; exact hsource
    · rw [hbegun]; exact hdraw
    · rw [beginCycle_member]; exact hmembers j
  · obtain ⟨hrun, hseen, hsource, hdraw, hmembers⟩ := h
    obtain ⟨-, -, hkept, hstays, -⟩ := compute_run x l base o
    obtain ⟨_, _, _, _, hformed⟩ := formed_frame x l base
    refine ⟨(hstays (by rw [hrun]; nofun)).trans hrun, hkept.trans hseen, ?_, ?_, fun j => ?_⟩
    · rw [compute_resting (.inl hrun), hformed]; exact hsource
    · rw [compute_resting (.inl hrun), hformed]; exact hdraw
    · rw [compute_member]; exact hmembers j
  · obtain ⟨hrun, hseen, hsource, hdraw, hmembers⟩ := h
    refine ⟨hrun, hseen, hsource, hdraw, fun j => ?_⟩
    rw [clearFaultResets_member]
    split <;> exact hmembers j

/-! ## The obligation -/

theorem restore_mgmt (s : State) : s.restore.mgmt = s.mgmt := by
  by_cases h : s.part.config.getLsbD 5 = true ∧ s.store.state = .valid
  · cases hc : s.store.copy with
    | none =>
      unfold State.restore
      rw [hc]
      split <;> rfl
    | some c =>
      have hframe := (restorePasses_restored s c.tables).1
      rw [restore_chosen h.1 h.2 hc]
      unfold State.RestoresFrom at hframe
      generalize restorePasses c.tables 17 (s.loadTables c.tables) = r at hframe ⊢
      rw [hframe, loadTables_frame]
  · rw [restore_unchosen (by
      rcases not_and_or.mp h with h | h
      · exact .inl (by simpa using h)
      · exact .inr h)]

theorem started_reads (b : State) : b.started.phase = b.phase ∧ b.started.up = b.up ∧ b.started.link = b.link ∧
    b.started.mgmt = b.mgmt ∧ b.started.steps = b.steps ∧ b.started.chain = b.chain ∧
    b.started.part.mgmtAddr = b.part.mgmtAddr ∧ b.started.part.lossLimit = b.part.lossLimit ∧
    b.started.cyc.upState = b.cyc.upState ∧ b.started.cyc.localTimer = b.cyc.localTimer ∧
    b.started.cyc.cycleNumber = b.cyc.cycleNumber + 1 ∧ b.started.cyc.cycleCount = b.cyc.cycleCount + 1 := by
  have h := started_frame b
  generalize b.started = t at h ⊢
  rw [h]
  exact ⟨rfl, rfl, rfl, rfl, rfl, rfl, rfl, rfl, rfl, rfl, rfl, rfl⟩

theorem exec_comeIntoService_elsewhere {s : State} (h : s.phase ≠ .startUp) : exec .comeIntoService s = .next s := by
  show Host.Outcome.next (if s.phase = .startUp then s.comeIntoService.settle else s) = _
  rw [if_neg h]

/-- Settles O55. -/
theorem comesIntoService : Obligations.ComesIntoService := by
  unfold Obligations.ComesIntoService
  intro s
  refine ⟨exec_comeIntoService_elsewhere, fun hs hq hw hc hl => ?_⟩
  have hstart := State.StartsFrom.service ⟨⟨hq, hw⟩, hc, by rw [hl]; rfl⟩ hs
  obtain ⟨hup, -, hlink, hcyc⟩ := restore_keeps s
  have hmgmt := restore_mgmt s
  have hexec := exec_starts hstart
  have hphase := (startsFrom_free hstart).2
  obtain ⟨h1, h2, h3, h4, h5, h6, h7, h8, h9, h10, h11, h12⟩ := started_reads s.enterService
  have htables := started_sameTables s.enterService
  have hrests := fun i q d => started_rests (b := s.enterService) (i := i) (q := q) (d := d)
  refine ⟨s.enterService.started, s.restore, hexec, h1.trans hphase, h9.trans ?_, h10.trans rfl, h11.trans ?_,
    h12.trans ?_, h2.trans hup, h3.trans hlink, h4.trans hmgmt, hstart, h7, h8, h5, h6, htables, restore_unchosen,
    fun c hstrap hvalid hcopy => ?_⟩
  · show s.restore.cyc.upState = _
    rw [hcyc]
  · show s.restore.cyc.cycleNumber + 1 = _
    rw [hcyc]
  · show s.restore.cyc.cycleCount + 1 = _
    rw [hcyc]
  · obtain ⟨n, hn, hiterate, hfixed⟩ := restorePasses_fixed s c.tables
    obtain ⟨hframe, hrestored⟩ := restorePasses_restored s c.tables
    have hsec : ∀ i, s.enterService.sec i = s.restore.sec i := fun i => rfl
    rw [restore_chosen hstrap hvalid hcopy] at hsec ⊢
    have hpass : (fun u : State => u.restorePass c.tables) = fun u => (List.finRange 16).foldl (fun u i =>
        if c.tables.sections[i].present = true ∧ (u.sec i).present = false ∧ u.presentRefusal i = none then
          u.makePresent i
        else u) u := by
      funext u
      unfold State.restorePass
      exact congrArg (fun f => allSections.foldl f u) (funext fun u => funext fun i => tryPresent_eq c.tables u i)
    refine ⟨s.loadTables c.tables, _, n, loadTables_frame s c.tables, fun i => ⟨?_, fun j => ?_⟩, rfl, hn,
      hpass ▸ hiterate, ?_, ?_, ?_, fun i => ⟨(hrestored i).cfg, (hrestored i).rated, (hrestored i).absent,
      fun hp => ?_⟩⟩
    · rw [(loadTables_empty s c.tables).2]
      rfl
    · rw [(loadTables_empty s c.tables).2, ofSaved_member]
    · exact (congrFun hpass _).symm.trans hfixed
    · unfold State.RestoresFrom at hframe
      generalize restorePasses c.tables 17 (s.loadTables c.tables) = r at hframe ⊢
      rw [hframe]
    · unfold State.RestoresFrom at hframe
      generalize restorePasses c.tables 17 (s.loadTables c.tables) = r at hframe ⊢
      rw [hframe]
    · have hpresent := (htables i).2.1.symm.trans hp
      rw [hsec] at hpresent
      exact hrests i _ _ (by rw [hsec]; exact (hrestored i).resting hpresent)

end Sys2Proof.Machine
end

section
/-! PROOF. READ through the cursor, what each field reads, and the codes of named values (R161, R162, R165, R166, R170),
with the statement O41. -/

namespace Sys2Proof.Machine

open Sys2Proof

/-! ## The cursor and the values of a READ (R161, R162) -/

theorem move_cases (c : Cursor) :
    (c.mode = .fixed → c.move = c) ∧
    (c.mode ≠ .fixed → c.field + 1 < c.table.fields → c.move = { c with field := c.field + 1 }) ∧
    (c.mode ≠ .fixed → c.table.fields ≤ c.field + 1 → c.entry + 1 < c.table.entries →
      c.move = { c with entry := c.entry + 1, field := 0 }) ∧
    (c.mode ≠ .fixed → c.table.fields ≤ c.field + 1 → c.table.entries ≤ c.entry + 1 →
      c.move = { c with entry := 0, field := 0 }) := by
  have hmoves : c.mode ≠ .fixed → c.move =
      if c.field + 1 < c.table.fields then { c with field := c.field + 1 }
      else if c.entry + 1 < c.table.entries then { c with entry := c.entry + 1, field := 0 }
      else { c with entry := 0, field := 0 } := fun h => by
    unfold Cursor.move
    split
    · next hm => exact absurd hm h
    · rfl
  refine ⟨fun h => ?_, fun h hf => ?_, fun h hf he => ?_, fun h hf he => ?_⟩
  · unfold Cursor.move
    rw [h]
  · rw [hmoves h, if_pos hf]
  · rw [hmoves h, if_neg (Nat.not_lt.mpr hf), if_pos he]
  · rw [hmoves h, if_neg (Nat.not_lt.mpr hf), if_neg (Nat.not_lt.mpr he)]

/-- A move keeps table, mode and whether the cursor is spent. -/
theorem move_keeps (c : Cursor) : c.move.table = c.table ∧ c.move.mode = c.mode ∧ c.move.spent = c.spent := by
  unfold Cursor.move
  split
  · exact ⟨rfl, rfl, rfl⟩
  · split
    · exact ⟨rfl, rfl, rfl⟩
    · split <;> exact ⟨rfl, rfl, rfl⟩

theorem moves_keep (n : Nat) (c : Cursor) : (Cursor.move^[n] c).table = c.table ∧ (Cursor.move^[n] c).mode = c.mode ∧
    (Cursor.move^[n] c).spent = c.spent := by
  induction n generalizing c with
  | zero => exact ⟨rfl, rfl, rfl⟩
  | succ n ih =>
    obtain ⟨ht, hm, hs⟩ := ih c.move
    obtain ⟨ht', hm', hs'⟩ := move_keeps c
    exact ⟨ht.trans ht', hm.trans hm', hs.trans hs'⟩

/-- After a READ or WRITE a SINGLE cursor is spent, another is not. -/
theorem used_eq {c : Cursor} (h : c.spent = false) : c.used = { c with spent := decide (c.mode = .single) } := by
  unfold Cursor.used
  split
  · next hm => rw [decide_eq_true hm]
  · next hm => rw [decide_eq_false hm, ← h]

theorem readValues_eq (s : State) (n : Nat) (c : Cursor) : s.readValues n c =
    ((List.range n).map fun k =>
      toValue (s.readField c.table (Cursor.move^[k] c).entry (Cursor.move^[k] c).field), Cursor.move^[n] c) := by
  induction n generalizing c with
  | zero => rfl
  | succ n ih =>
    unfold State.readValues
    rw [ih, (move_keeps c).1, List.range_succ_eq_map, List.map_cons, List.map_map]
    rfl

theorem request_read (old : Option PendingAccess) {args : List Byte} (hl : args.length = 4) (s : State) :
    request old 0x04 args s = reqRead args s := if_pos hl

theorem liveCursor_none {s : State} (h : s.mgmt.cursor = none ∨ ∃ c, s.mgmt.cursor = some c ∧ c.spent = true) :
    s.liveCursor = none := by
  unfold State.liveCursor
  obtain h | ⟨c, h, hs⟩ := h
  · rw [h]; rfl
  · rw [h]; simp [hs]

/-! ## Codes of condition, member status and clamp flags -/

theorem memberStatus_code_eq (t : MemberStatus) : t.code =
    (if t.ready then 1 else 0) + (if t.running then 2 else 0) + (if t.fault then 4 else 0) +
      (if t.limit then 8 else 0) := by
  obtain ⟨ready, running, fault, limit⟩ := t
  revert ready running fault limit
  decide

theorem clampFlags_code_eq (f : ClampFlags) : f.code =
    (if f.draw then 1 else 0) + (if f.compensation then 2 else 0) + (if f.saturated then 4 else 0) := by
  obtain ⟨draw, compensation, saturated⟩ := f
  revert draw compensation saturated
  decide

/-! ## What each field reads (R102, R119, R165, R170) -/

theorem readField_sections (s : State) (i : Fin 16) (f : Nat) :
    s.readField .sections i.val f = s.sectionField i f := by
  unfold State.readField
  rw [Fin.ofNat_val_eq_self]

theorem memberIndex_eq (i : Fin 16) (j : Fin 4) : memberIndex (4 * i.val + j.val) = (i, j) := by
  unfold memberIndex
  rw [Prod.mk.injEq]
  exact ⟨Fin.ext (by simp only [Fin.val_ofNat]; omega), Fin.ext (by simp only [Fin.val_ofNat]; omega)⟩

theorem readField_members (s : State) (i : Fin 16) (j : Fin 4) (f : Nat) :
    s.readField .members (4 * i.val + j.val) f = ((s.sec i).member j).field f := by
  unfold State.readField
  rw [memberIndex_eq]

theorem readField_steps (s : State) (k : Fin 96) (f : Nat) : s.readField .steps k.val f = (s.stepRec k).field f := by
  unfold State.readField
  rw [Fin.ofNat_val_eq_self]

theorem readField_runners (s : State) (r : Fin 4) (f : Nat) : s.readField .runners r.val f = (s.runner r).field f := by
  unfold State.readField
  rw [Fin.ofNat_val_eq_self]

theorem sectionFields_eq (s : State) (i : Fin 16) (x : Section) (g : Settings) (hx : x = s.sec i) (hg : g = x.cfg) :
    (List.range 41).map (s.readField .sections i.val) =
      [boolCode x.present, g.upAddr.toNat, g.memberBase.toNat, g.memberCount, indexCode g.drawBase, g.initDraw,
        g.initSource.code, g.maxSpeed, g.accel, g.stopRamp, g.quickRamp, g.orderHold, g.missLimit,
        boolCode g.degradeAllowed, g.guard.code, g.ki, g.deadband, g.trimLimit, g.shareEnable, x.runState.code,
        x.source.code, boolCode x.stopSeen, x.cause.code, indexCode x.causeSlot, x.refused.code,
        indexCode x.refusedSlot, x.orderAge, (x.depth.map Int.ofNat).getD (-1), x.draw, x.ratio, x.observed, x.master,
        x.target, x.applied, boolCode x.flags.ramping, boolCode x.flags.saturated, boolCode x.flags.ratioLimit,
        boolCode x.flags.trimLimit, boolCode x.flags.degraded, x.load, indexCode (s.claimant i)] := by
  subst hg hx
  rw [funext (readField_sections s i)]
  have hdepth : s.sectionField i 27 = ((s.sec i).depth.map Int.ofNat).getD (-1) := by
    cases hd : (s.sec i).depth <;> simp [State.sectionField, hd]
  rw [← hdepth]
  rfl

theorem runnerFields_eq (s : State) (r : Fin 4) (u : Runner) (hu : u = s.runner r) :
    (List.range 16).map (s.readField .runners r.val) =
      [u.state.code, indexCode u.claimed, indexCode u.step, u.elapsed, u.advanceCount, u.abortCount, u.phase.code,
        u.phaseCount, u.repeatsLeft, u.rampStart, u.offset,
        (u.pendingRecord.map fun c => c.kind.code).getD (-1),
        (if u.flags.draw then 1 else 0) + (if u.flags.compensation then 2 else 0) +
          (if u.flags.saturated then 4 else 0),
        u.outcome.code, u.abortCause.code, u.stepsRun] := by
  subst hu
  rw [funext (readField_runners s r)]
  have hrecord : (s.runner r).field 11 = ((s.runner r).pendingRecord.map fun c => c.kind.code).getD (-1) := by
    cases hc : (s.runner r).pendingRecord <;> simp [Runner.field, hc]
  rw [← hrecord, ← clampFlags_code_eq]
  rfl

theorem memberFields_eq (s : State) (i : Fin 16) (j : Fin 4) (m : Member) (hm : m = (s.sec i).member j) :
    (List.range 13).map (s.readField .members (4 * i.val + j.val)) =
      [m.rating, m.weight, m.state.code, m.missCount, m.result.code, m.speed, m.torque,
        (if m.status.ready then 1 else 0) + (if m.status.running then 2 else 0) + (if m.status.fault then 4 else 0) +
          (if m.status.limit then 8 else 0),
        boolCode m.faultReset, m.converted, m.shareTarget, m.shareError, m.trim] := by
  subst hm
  rw [funext (readField_members s i j), ← memberStatus_code_eq]
  rfl

theorem stepFields_eq (s : State) (k : Fin 96) (r : StepRecord) (fields : Condition → List Int) (hr : r = s.stepRec k)
    (hfields : fields = fun c => [boolCode c.present, c.quantity.code, c.relation.code, c.limit, c.band, c.settle]) :
    (List.range 24).map (s.readField .steps k.val) =
      [boolCode r.present, r.action.code, r.v, r.v2, r.d, r.d2, r.repeats, r.memberSlot.val, r.drawMode.code,
        r.onTimeout.code, boolCode r.captureAtEnd, indexCode r.nextStep] ++ fields r.advance ++ fields r.abort := by
  subst hr hfields
  rw [funext (readField_steps s k)]
  rfl

theorem partFields_eq (s : State) (n : Notices) (hn : n = s.part.notices) :
    (List.range 27).map (s.readField .part 0) =
      [(s.part.config.toNat : Int), s.part.mgmtAddr.toNat, s.mgmt.access.code, s.cyc.upState.code, s.cyc.lastUpCycle.toNat,
        s.cyc.cycleCount.toNat, s.part.lossLimit] ++
      [n.upstreamLoss, n.storeInvalid, n.overrun, n.lineClamped, n.sectionTrip, n.testEnded].map boolCode ++
      [s.up.lastError.code, s.dn.lastError.code, s.log.records.length, (64 - s.log.records.length : Nat)] ++
      [0, 1, 2, 3].map (fun r => (s.runner r).state.code) ++
      [s.store.state.code, s.store.lastSave.code, boolCode s.link.running, s.link.result.code, s.link.result.badCode,
        s.link.result.firstCode] := by
  subst hn
  rfl

/-! ## READ (R162) -/

theorem reqRead_answered {args : List Byte} {n : Nat} (h1 : 1 ≤ arg args 0) (h2 : arg args 0 ≤ 28) (hn : arg args 0 = n)
    {s : State} {c : Cursor} (hc : s.liveCursor = some c) : reqRead args s =
      served (s.setCursor (Cursor.move^[n] c))
        { code := .done, offending := 0xFF, count := n, tie := .plain
          values := (List.range n).map fun k =>
            toValue (s.readField c.table (Cursor.move^[k] c).entry (Cursor.move^[k] c).field) } := by
  unfold reqRead
  rw [ranged_in ⟨h1, h2⟩, hn]
  dsimp only
  rw [hc]
  dsimp only
  rw [Int.toNat_natCast, readValues_eq]

theorem exec_read {s : State} {args : List Byte} (h : s.MgmtReady) (hl : args.length = 4) {t : State} {r : Reply}
    (hv : reqRead args s.asked = served t r) (hq : t.Quiet) : exec (.read args) s = .next (t.sendReply r) :=
  exec_asked (c := .read args) rfl h (by omega) ((request_read _ hl _).trans hv) hq

/-- Settles O41. -/
theorem readFromCursor : Obligations.ReadFromCursor := by
  unfold Obligations.ReadFromCursor
  refine ⟨fun s args h hl => ⟨fun hr => ?_, fun h1 h2 => ⟨fun hno => ?_, fun c d n hc hn hd => ?_⟩⟩, move_cases,
    sectionFields_eq, memberFields_eq, stepFields_eq, runnerFields_eq, partFields_eq, by decide,
    fun n => ⟨rfl, fun i => rfl⟩, by decide, by decide, by decide, by decide, by decide, by decide, by decide, by decide,
    by decide, by decide, by decide, by decide, by decide, by decide, by decide, by decide, by decide, by decide, by decide,
    by decide, by decide, by decide, by decide, by decide, fun n k => ?_⟩
  · refine exec_read h hl ?_ (asked_quiet h.quiet)
    unfold reqRead
    rw [ranged_out hr]
    rfl
  · refine exec_read h hl ?_ (asked_quiet h.quiet)
    unfold reqRead
    rw [ranged_in ⟨h1, h2⟩]
    dsimp only
    rw [liveCursor_none (s := s.asked) hno]
    rfl
  · obtain ⟨-, hmode, hspent⟩ := moves_keep n c
    rw [exec_read h hl (reqRead_answered h1 h2 hn (liveCursor_asked hc)) (by exact asked_quiet h.quiet)]
    have hused : (Cursor.move^[n] c).used = { d with spent := decide (c.mode = .single) } := by
      subst hd
      conv_rhs => rw [← hmode]
      exact used_eq (hspent.trans hc.2)
    rw [← hused]
    rfl
  · cases k <;> exact ⟨rfl, rfl, rfl⟩

end Sys2Proof.Machine
end

section
/-! PROOF. A WRITE of one value: how it is answered and refused; the checks that present YES runs, what makes an entry
present and what withdraws it (R24, R44 to R48, R163). -/

namespace Sys2Proof.Machine

open Sys2Proof

/-! ## A WRITE of one value (R163) -/

theorem writeSized_four {args : List Byte} (hl : args.length = 4) : writeSized args = true := by
  unfold writeSized
  rw [hl]
  rfl

theorem argList_four {args : List Byte} (hl : args.length = 4) : argList args = [arg args 0] := by
  unfold argList
  rw [hl]
  rfl

/-- How a WRITE of one value is answered where its value is refused. -/
theorem exec_write_one_refused {s : State} (h : s.MgmtReady) {args : List Byte} (hl : args.length = 4) {c : Cursor}
    (hc : s.CursorIs c) {code : ResultCode} {i : Byte}
    (hw : s.asked.writeField c.table c.entry c.field (arg args 0) = .error (code, i)) :
    exec (.write args) s = .next (State.sendReply
      { s.asked with mgmt := { s.asked.mgmt with cursor := some c.used } }
      { code := code, offending := i, count := 0, values := [], tie := .plain }) :=
  exec_write_refused h (writeSized_four hl) hc (u := s.asked) (d := c) (n := 0)
    (by rw [argList_four hl]; exact applyValues_refused hw [] 0 false)

theorem reqWrite_one_stored {s : State} {args : List Byte} (hl : args.length = 4) {c : Cursor} (hc : s.CursorIs c)
    {t : State} (hw : s.asked.writeField c.table c.entry c.field (arg args 0) = .ok t) :
    reqWrite args s.asked = { state := t.setCursor c.move, expired := c.table == .part && t.lossDue, reply :=
      { code := .done, offending := 0xFF, count := 1, values := [], tie := .plain } } := by
  have happly : applyValues (argList args) c s.asked 0 false =
      { state := t, cursor := c.move, applied := 1, refusal := none, expired := c.table == .part && t.lossDue } := by
    rw [argList_four hl, applyValues_stored hw]
    rfl
  unfold reqWrite
  simp only [liveCursor_asked hc, happly]

/-- How a WRITE of one value is answered where its value is stored, and the loss timer has not reached the loss limit. -/
theorem exec_write_one_stored {s : State} (h : s.MgmtReady) {args : List Byte} (hl : args.length = 4) {c : Cursor}
    (hc : s.CursorIs c) {t : State} (hw : s.asked.writeField c.table c.entry c.field (arg args 0) = .ok t)
    (hm : t.mgmt = s.asked.mgmt) (he : c.table = .part → t.lossDue = false) :
    exec (.write args) s = .next (State.sendReply { t with mgmt := { s.asked.mgmt with cursor := some c.move.used } }
      { code := .done, offending := 0xFF, count := 1, values := [], tie := .plain }) := by
  have hexpired : (c.table == .part && t.lossDue) = false := by
    by_cases ht : c.table = .part
    · rw [he ht, Bool.and_false]
    · rw [beq_eq_false_iff_ne.mpr ht, Bool.false_and]
  obtain ⟨hup, hdn⟩ := writeField_ports hw
  obtain ⟨hqup, hqdn⟩ := asked_quiet h.quiet
  have hquiet : (t.setCursor c.move).Quiet := ⟨(congrArg Port.fifo hup).trans hqup, (congrArg Port.fifo hdn).trans hqdn⟩
  rw [exec_request (c := .write args) rfl h (by omega)
    ((request_write _ (writeSized_four hl) _).trans (reqWrite_one_stored hl hc hw)) (by exact hexpired) hquiet, ← hm]
  rfl

theorem writeField_sections (s : State) (i : Fin 16) (f : Nat) (v : Int) :
    s.writeField .sections i.val f v = s.writeSection i f v := by
  unfold State.writeField
  rw [Fin.ofNat_val_eq_self]

theorem writeField_members (s : State) (i : Fin 16) (j : Fin 4) (f : Nat) (v : Int) :
    s.writeField .members (4 * i.val + j.val) f v = s.writeMember i j f v := by
  unfold State.writeField
  rw [memberIndex_eq]

theorem writeField_steps (s : State) (k : Fin 96) (f : Nat) (v : Int) :
    s.writeField .steps k.val f v = s.writeStep k f v := by
  unfold State.writeField
  rw [Fin.ofNat_val_eq_self]

/-! ## The lowest section for which a check fails (R44, R48) -/

theorem presentSecs_sorted (s : State) : s.presentSecs.Pairwise (· < ·) := by
  have hall : allSections.Pairwise (· < ·) := by decide
  exact hall.filter _

theorem find_least {n : Nat} {l : List (Fin n)} (hl : l.Pairwise (· < ·)) {f : Fin n → Bool} {k : Fin n} (hk : k ∈ l)
    (hf : f k = true) (hleast : ∀ j, j < k → j ∈ l → f j = false) : l.find? f = some k := by
  obtain ⟨rest, hrest⟩ := head_eq_of_least (hl.filter f) (List.mem_filter.mpr ⟨hk, hf⟩) fun j hj hm => by
    obtain ⟨hin, hfj⟩ := List.mem_filter.mp hm
    rw [hleast j hj hin] at hfj
    cases hfj
  rw [← List.head?_filter, hrest]
  rfl

/-- The other present sections. -/
def State.others (s : State) (i : Fin 16) : List (Fin 16) := s.presentSecs.filter fun k => k != i

theorem mem_others (s : State) (i k : Fin 16) : k ∈ s.others i ↔ k ≠ i ∧ (s.sec k).present = true := by
  unfold State.others
  rw [List.mem_filter, mem_presentSecs, bne_iff_ne, and_comm]

theorem find_other {s : State} {i k : Fin 16} {f : Fin 16 → Bool} (hk : k ≠ i ∧ (s.sec k).present = true)
    (hf : f k = true) (hleast : ∀ j, j < k → j ≠ i ∧ (s.sec j).present = true → f j = false) :
    (s.others i).find? f = some k :=
  find_least ((presentSecs_sorted s).filter _) ((mem_others s i k).mpr hk) hf fun j hj hm =>
    hleast j hj ((mem_others s i j).mp hm)

theorem find_other_none {s : State} {i : Fin 16} {f : Fin 16 → Bool}
    (h : ∀ k, k ≠ i ∧ (s.sec k).present = true → f k = false) : (s.others i).find? f = none :=
  List.find?_eq_none.mpr fun k hk => by rw [h k ((mem_others s i k).mp hk)]; nofun

theorem drawBase_filter (s : State) (i : Fin 16) (o : Option (Fin 16)) :
    (∀ b, o = some b → ¬(b ≠ i ∧ (s.sec b).present = true) → (o.filter fun b => !(s.others i).contains b) = some b) ∧
    ((∀ b, o = some b → b ≠ i ∧ (s.sec b).present = true) → (o.filter fun b => !(s.others i).contains b) = none) := by
  have hcontains : ∀ b, (s.others i).contains b = true ↔ b ≠ i ∧ (s.sec b).present = true := fun b => by
    rw [List.contains_iff_mem, mem_others]
  refine ⟨fun b ho hb => ?_, fun h => ?_⟩
  · rw [ho, Option.filter_some, if_pos]
    rw [Bool.not_eq_true', Bool.eq_false_iff]
    exact fun hc => hb ((hcontains b).mp hc)
  · cases ho : o with
    | none => rfl
    | some b =>
      rw [Option.filter_some, if_neg]
      rw [(hcontains b).mpr (h b ho)]
      nofun

theorem overlaps_iff (a b : Settings) : a.overlaps b = true ↔
    b.memberBase.toNat < a.memberBase.toNat + a.window ∧ a.memberBase.toNat < b.memberBase.toNat + b.window := by
  unfold Settings.overlaps
  rw [Bool.and_eq_true, decide_eq_true_eq, decide_eq_true_eq, and_comm]

/-- The checks of R44 in their order. -/
theorem presentRefusal_checks (s : State) (i : Fin 16) {g : Settings} (hg : g = (s.sec i).cfg) {other : Fin 16 → Prop}
    (hother : other = fun k => k ≠ i ∧ (s.sec k).present = true) {window : Settings → Nat}
    (hwindow : window = fun h => if h.memberCount ≤ 1 then 1 else if h.memberCount = 2 then 2 else 4) :
    (g.upAddr = 0 → s.presentRefusal i = some (.range, 0xFF)) ∧
    (g.upAddr ≠ 0 →
      (∀ k, other k → (s.sec k).cfg.upAddr = g.upAddr →
        (∀ j, j < k → other j → (s.sec j).cfg.upAddr ≠ g.upAddr) →
        s.presentRefusal i = some (.conflict, BitVec.ofNat 8 k.val)) ∧
      ((∀ k, other k → (s.sec k).cfg.upAddr ≠ g.upAddr) →
        (g.upAddr = s.part.mgmtAddr ∨ s.mgmt.pendingMove = some g.upAddr →
          s.presentRefusal i = some (.conflict, 0xFF)) ∧
        (g.upAddr ≠ s.part.mgmtAddr → s.mgmt.pendingMove ≠ some g.upAddr →
          (g.memberBase = 0 ∨ g.memberBase.toNat % window g ≠ 0 →
            s.presentRefusal i = some (.range, 0xFF)) ∧
          (g.memberBase ≠ 0 → g.memberBase.toNat % window g = 0 →
            ∀ shares : Fin 16 → Prop, shares = (fun k => other k ∧
              g.memberBase.toNat < (s.sec k).cfg.memberBase.toNat + window (s.sec k).cfg ∧
              (s.sec k).cfg.memberBase.toNat < g.memberBase.toNat + window g) →
            (∀ k, shares k → (∀ j, j < k → ¬shares j) →
              s.presentRefusal i = some (.conflict, BitVec.ofNat 8 k.val)) ∧
            ((∀ k, ¬shares k) →
              (g.maxSpeed ≤ 0 → s.presentRefusal i = some (.range, 0xFF)) ∧
              (0 < g.maxSpeed →
                (∀ b, g.drawBase = some b → ¬other b →
                  s.presentRefusal i = some (.absent, BitVec.ofNat 8 b.val)) ∧
                ((∀ b, g.drawBase = some b → other b) → ∀ total : Nat,
                  total = (s.presentSecs.map fun k => (s.sec k).cfg.memberCount).sum + g.memberCount →
                  (32 < total → s.presentRefusal i = some (.limit, 0xFF)) ∧
                  (total ≤ 32 →
                    (∀ j : Fin 4, j.val < g.memberCount → ((s.sec i).member j).rating < 100 →
                      (∀ k : Fin 4, k < j → 100 ≤ ((s.sec i).member k).rating) →
                      s.presentRefusal i = some (.range, BitVec.ofNat 8 j.val)) ∧
                    ((∀ j : Fin 4, j.val < g.memberCount → 100 ≤ ((s.sec i).member j).rating) →
                      s.presentRefusal i = none))))))))) := by
  have hwin : ∀ c, c.window = window c := fun c => by rw [hwindow]; rfl
  have hchecks := State.presentRefusal.eq_1 s i
  rw [show (s.presentSecs.filter fun k => k != i) = s.others i from rfl] at hchecks
  simp only [hwin] at hchecks
  subst hother
  rw [← hg] at hchecks
  refine ⟨fun h => by rw [hchecks, if_pos h], fun haddr => ?_⟩
  rw [if_neg haddr] at hchecks
  refine ⟨fun k hk he hl => ?_, fun hfree => ?_⟩
  · rw [hchecks, find_other (f := fun k => (s.sec k).cfg.upAddr == g.upAddr) hk (beq_iff_eq.mpr he) fun j hj ho =>
      beq_eq_false_iff_ne.mpr (hl j hj ho)]
    rfl
  rw [find_other_none fun k hk => beq_eq_false_iff_ne.mpr (hfree k hk)] at hchecks
  dsimp only at hchecks
  refine ⟨fun h => by rw [hchecks, if_pos h], fun hmgmt hmove => ?_⟩
  rw [if_neg (not_or.mpr ⟨hmgmt, hmove⟩)] at hchecks
  refine ⟨fun h => by rw [hchecks, if_pos h], fun hbase halign => ?_⟩
  rw [if_neg (not_or.mpr ⟨hbase, not_not_intro halign⟩)] at hchecks
  rintro shares rfl
  refine ⟨fun k hk hl => ?_, fun hapart => ?_⟩
  · rw [hchecks, find_other hk.1]
    · rfl
    · rw [overlaps_iff, hwin, hwin]
      exact hk.2
    · intro j hj ho
      rw [Bool.eq_false_iff, ne_eq, overlaps_iff, hwin, hwin]
      exact fun hs => hl j hj ⟨ho, hs⟩
  rw [find_other_none fun k hk => by
    rw [Bool.eq_false_iff, ne_eq, overlaps_iff, hwin, hwin]
    exact fun hs => hapart k ⟨hk, hs⟩] at hchecks
  dsimp only at hchecks
  refine ⟨fun h => by rw [hchecks, if_pos h], fun hspeed => ?_⟩
  rw [if_neg (Int.not_le.mpr hspeed)] at hchecks
  obtain ⟨hmissing, hfound⟩ := drawBase_filter s i g.drawBase
  refine ⟨fun b hb ho => ?_, fun hbases total htotal => ?_⟩
  · rw [hchecks, hmissing b hb ho]
    rfl
  rw [hfound hbases] at hchecks
  dsimp only at hchecks
  rw [show s.membersPresent + g.memberCount = total from htotal.symm] at hchecks
  refine ⟨fun h => by rw [hchecks, if_pos h], fun hfits => ?_⟩
  rw [if_neg (Nat.not_lt.mpr hfits)] at hchecks
  refine ⟨fun j hj hrating hl => ?_, fun hrated => ?_⟩
  · rw [hchecks, find_slot (by rw [← hg]; exact hj) (decide_eq_true hrating) fun k hk =>
      decide_eq_false (Int.not_lt.mpr (hl k hk))]
    rfl
  · rw [hchecks, find_slot_none fun j hj => decide_eq_false (Int.not_lt.mpr (hrated j (by rw [hg]; exact hj)))]

/-! ## Making an entry present (R24, R46, R47) -/

/-- A section of the chain order list stands before a place by depth, then index. -/
def State.Before (s : State) (i : Fin 16) (d : Nat) (k : Fin 16) : Prop :=
  (s.sec k).depth.getD 0 < d ∨ ((s.sec k).depth.getD 0 = d ∧ k < i)

theorem standsBefore_iff (s : State) (k i : Fin 16) (d : Nat) : s.standsBefore k i d = true ↔ s.Before i d k := by
  unfold State.standsBefore State.Before
  simp only [Bool.or_eq_true, Bool.and_eq_true, decide_eq_true_eq, beq_iff_eq]

/-- In a list in order, nothing after the elements before a place stands before it. -/
theorem dropWhile_of_pairwise {α : Type} {R : α → α → Prop} {p : α → Bool} (hp : ∀ a b, R a b → p b = true → p a = true)
    {l : List α} (h : l.Pairwise R) : ∀ a ∈ l.dropWhile p, p a = false := by
  induction l with
  | nil => nofun
  | cons b l ih =>
    obtain ⟨hfirst, hrest⟩ := List.pairwise_cons.mp h
    by_cases hb : p b = true
    · rw [List.dropWhile_cons_of_pos hb]
      exact ih hrest
    · rw [List.dropWhile_cons_of_neg hb]
      intro a ha
      rcases List.mem_cons.mp ha with rfl | ha
      · simpa using hb
      · exact Bool.eq_false_iff.mpr fun hpa => hb (hp b a (hfirst a ha) hpa)

theorem before_of_chainBefore {s : State} {i a b : Fin 16} {d : Nat} (h : s.ChainBefore a b) (hb : s.Before i d b) :
    s.Before i d a := by
  unfold State.ChainBefore at h
  unfold State.Before at hb ⊢
  omega

theorem madePresent_member (x : Section) (d : Nat) (j : Fin 4) : (x.madePresent d).member j = { x.member j with
    state := .absent, missCount := 0, result := .none, faultReset := false, speed := 0, torque := 0
    converted := 0, shareTarget := 0, shareError := 0, trim := 0
    status := { ready := false, running := false, fault := false, limit := false } } :=
  member_mapMembers x (fun _ m => { m with
    state := .absent, missCount := 0, result := .none, faultReset := false, speed := 0, torque := 0
    converted := 0, shareTarget := 0, shareError := 0, trim := 0, status := MemberStatus.clear }) j

/-- The report image an entry takes when it is made present. -/
theorem makePresent_image {s : State} {i : Fin 16} (hc : s.claimant i = none) (d : Nat) (l : List (Fin 16)) :
    ((s.modSec i fun x => x.madePresent d).setChain l).takeImage i =
      { runState := .stopped, source := (s.sec i).cfg.initSource, cause := .none, causeSlot := none, applied := 0
        leadSpeed := 0, load := 0, runner := none
        flags := { ramping := false, saturated := false, ratioLimit := false, trimLimit := false
                   degraded := false } } := by
  have hsec : ((s.modSec i fun x => x.madePresent d).setChain l).sec i = (s.sec i).madePresent d :=
    sec_modSec_same s i fun x => x.madePresent d
  have hclaimant : ((s.modSec i fun x => x.madePresent d).setChain l).claimant i = none := hc
  have hspeed : (((s.sec i).madePresent d).member 0).speed = 0 := by rw [madePresent_member]
  unfold State.takeImage
  dsimp only
  rw [hsec, hclaimant, hspeed]
  rfl

/-- An entry made present: its values, its place in the chain order list, its image. -/
theorem makePresent_frame {s : State} {i : Fin 16} (hc : s.claimant i = none) {x : Section} {g : Settings}
    (hx : x = s.sec i) (hg : g = x.cfg) : ∃ (y : Section) (earlier later : List (Fin 16)) (d : Nat),
    s.makePresent i = { s with
      sections := s.sections.set i y, chain := earlier ++ i :: later
      cyc := { s.cyc with images := s.cyc.images.set i (some
        { runState := .stopped, source := g.initSource, cause := .none, causeSlot := none, applied := 0
          leadSpeed := 0, load := 0, runner := none
          flags := { ramping := false, saturated := false, ratioLimit := false, trimLimit := false
                     degraded := false } }) } } ∧
    (g.drawBase = none → d = 1) ∧ (∀ b, g.drawBase = some b → d = (s.sec b).depth.getD 0 + 1) ∧
    s.chain = earlier ++ later ∧ (∀ k ∈ earlier, s.Before i d k) ∧
    (s.ChainSound → ∀ k ∈ later, ¬s.Before i d k) ∧
    y = { x with
      present := true, runState := .stopped, cause := .none, causeSlot := none, refused := .none
      refusedSlot := none, stopSeen := false, orderAge := 0, source := g.initSource, draw := g.initDraw
      observed := 1000000, master := 0, target := 0, applied := 0, load := 0, release := .off
      flags := { ramping := false, saturated := false, ratioLimit := false, trimLimit := false
                 degraded := false }
      depth := some d, members := y.members } ∧
    ∀ j, y.member j = { x.member j with
      state := .absent, missCount := 0, result := .none, faultReset := false, speed := 0, torque := 0
      converted := 0, shareTarget := 0, shareError := 0, trim := 0
      status := { ready := false, running := false, fault := false, limit := false } } := by
  subst hg hx
  refine ⟨(s.sec i).madePresent (s.depthFor i), s.chain.takeWhile fun k => s.standsBefore k i (s.depthFor i),
    s.chain.dropWhile fun k => s.standsBefore k i (s.depthFor i), s.depthFor i, ?_, fun hd => ?_, fun b hd => ?_,
    (List.takeWhile_append_dropWhile).symm, fun k hk => ?_, fun hs k hk => ?_, rfl, madePresent_member _ _⟩
  · unfold State.makePresent
    dsimp only
    rw [makePresent_image hc]
    rfl
  · unfold State.depthFor
    rw [hd]
  · unfold State.depthFor
    rw [hd]
  · exact (standsBefore_iff s k i _).mp
      (List.mem_takeWhile_imp (p := fun k => s.standsBefore k i (s.depthFor i)) hk)
  · have hfalse := dropWhile_of_pairwise (p := fun k => s.standsBefore k i (s.depthFor i)) (fun a b hab hb =>
      (standsBefore_iff s a i _).mpr (before_of_chainBefore hab ((standsBefore_iff s b i _).mp hb))) hs.ordered k hk
    exact fun hb => absurd ((standsBefore_iff s k i _).mpr hb) (by rw [hfalse]; nofun)

/-! ## Withdrawing an entry (R35, R48) -/

theorem withdraw_frame (s : State) (i : Fin 16) : s.withdraw i = { s with
    sections := s.sections.set i { s.sec i with present := false, depth := none, release := .off }
    chain := s.chain.filter fun k => decide (k ≠ i)
    cyc := { s.cyc with
      images := s.cyc.images.set i none
      inFlight := s.cyc.inFlight.map fun y => { y with dropped := i :: y.dropped } } } := by
  have hfilter : (s.chain.filter fun k => k != i) = s.chain.filter fun k => decide (k ≠ i) :=
    congrArg (s.chain.filter ·) (funext fun k => by rw [Bool.eq_iff_iff, bne_iff_ne, decide_eq_true_eq])
  unfold State.withdraw
  rw [hfilter]
  rfl

/-- The refusals of a withdrawal, in their order. -/
theorem withdrawRefusal_cases (s : State) (i : Fin 16) :
    (∀ r, s.claimant i = some r → s.withdrawRefusal i = some (.claimed, BitVec.ofNat 8 r.val)) ∧
    (s.claimant i = none → (s.sec i).runState ≠ .stopped → s.withdrawRefusal i = some (.state, 0xFF)) ∧
    (s.claimant i = none → (s.sec i).runState = .stopped → ∀ dependent : Fin 16 → Prop,
      dependent = (fun k => (s.sec k).present = true ∧ (s.sec k).cfg.drawBase = some i) →
      (∀ k, dependent k → (∀ j, j < k → ¬dependent j) →
        s.withdrawRefusal i = some (.dependent, BitVec.ofNat 8 k.val)) ∧
      ((∀ k, ¬dependent k) → s.withdrawRefusal i = none)) := by
  have hcases := State.withdrawRefusal.eq_1 s i
  refine ⟨fun r hr => ?_, fun hn hrun => ?_, fun hn hrun => ?_⟩
  · rw [hcases, hr]
    rfl
  · rw [hcases, hn]
    exact if_pos hrun
  rw [hn] at hcases
  dsimp only at hcases
  rw [if_neg (not_not_intro hrun)] at hcases
  rintro dependent rfl
  refine ⟨fun k hk hl => ?_, fun hno => ?_⟩
  · rw [hcases, find_least (f := fun k => (s.sec k).cfg.drawBase == some i) (presentSecs_sorted s)
      ((mem_presentSecs s k).mpr hk.1) (beq_iff_eq.mpr hk.2) fun j hj hm => beq_eq_false_iff_ne.mpr fun he => hl j hj ⟨(mem_presentSecs s j).mp hm, he⟩]
    rfl
  · rw [hcases, List.find?_eq_none.mpr fun k hk => by
      rw [beq_iff_eq]
      exact fun he => hno k ⟨(mem_presentSecs s k).mp hk, he⟩]

end Sys2Proof.Machine
end

section
/-! PROOF. The fields a WRITE of one value meets, table by table (R27, R42, R43, R62, R95, R104, R159, R163), with the
statement O43. -/

namespace Sys2Proof.Machine

open Sys2Proof

/-! ## The present field (R44, R45, R48) -/

theorem writePresent_cases (s : State) (i : Fin 16) (v : Int) :
    (v ≠ 0 → v ≠ 1 → s.writePresent i v = .error (.range, 0)) ∧
    ((v = 1 ∧ (s.sec i).present = true) ∨ (v = 0 ∧ (s.sec i).present = false) → s.writePresent i v = .ok s) ∧
    (v = 1 → (s.sec i).present = false →
      (∀ e, s.presentRefusal i = some e → s.writePresent i v = .error e) ∧
      (s.presentRefusal i = none → s.writePresent i v = .ok (s.makePresent i))) ∧
    (v = 0 → (s.sec i).present = true →
      (∀ e, s.withdrawRefusal i = some e → s.writePresent i v = .error e) ∧
      (s.withdrawRefusal i = none → s.writePresent i v = .ok (s.withdraw i))) := by
  have hcases := State.writePresent.eq_1 s i v
  refine ⟨fun h0 h1 => ?_, fun h => ?_, fun h hp => ?_, fun h hp => ?_⟩
  · rw [hcases, boolOf, if_neg h0, if_neg h1]
    rfl
  · obtain ⟨rfl, hp⟩ | ⟨rfl, hp⟩ := h
    · rw [hcases, show boolOf 1 = some true from rfl]
      exact if_pos hp
    · rw [hcases, show boolOf 0 = some false from rfl]
      exact if_neg (by rw [hp]; nofun)
  · subst h
    rw [show boolOf 1 = some true from rfl] at hcases
    dsimp only at hcases
    rw [hp] at hcases
    exact ⟨fun e he => by rw [hcases, he]; rfl, fun hn => by rw [hcases, hn]; rfl⟩
  · subst h
    rw [show boolOf 0 = some false from rfl] at hcases
    dsimp only at hcases
    rw [hp] at hcases
    exact ⟨fun e he => by rw [hcases, he]; rfl, fun hn => by rw [hcases, hn]; rfl⟩

/-! ## Settings of a section (R42, R159) -/

section Sections

variable {s : State} {i : Fin 16} {f : Nat} {v : Int}

theorem writeSection_level (hf : f ≤ 18) (h : s.hasLevel (s.sectionFieldLevel i f) = false) :
    s.writeSection i f v = .error (.level, BitVec.ofNat 8 f) := by
  unfold State.writeSection
  rw [if_neg (by omega), h]
  rfl

theorem sectionFieldLevel_engineer (h : f ≤ 7 ∨ f = 14) : s.sectionFieldLevel i f = .engineer := if_pos h

theorem writeSection_present (h : s.mgmt.access = .engineer) : s.writeSection i 0 v = s.writePresent i v := by
  unfold State.writeSection
  rw [if_neg (by omega), sectionFieldLevel_engineer (.inl (Nat.zero_le 7)), hasLevel_engineer h]
  rfl

theorem structuralField_iff : structuralField f = true ↔ 1 ≤ f ∧ f ≤ 7 := by
  unfold structuralField
  rw [Bool.and_eq_true, decide_eq_true_eq, decide_eq_true_eq]

theorem writeSection_structural (h1 : 1 ≤ f) (h7 : f ≤ 7) (h : s.mgmt.access = .engineer)
    (hp : (s.sec i).present = true) : s.writeSection i f v = .error (.state, BitVec.ofNat 8 f) := by
  unfold State.writeSection
  rw [if_neg (by omega), sectionFieldLevel_engineer (.inl h7), hasLevel_engineer h, structuralField_iff.mpr ⟨h1, h7⟩, hp]
  rfl

/-- A setting other than present, its level and the section's absence as they must be. -/
theorem writeSection_setting (h0 : f ≠ 0) (hf : f ≤ 18) (hl : s.hasLevel (s.sectionFieldLevel i f) = true)
    (hp : f ≤ 7 → (s.sec i).present = false) :
    ((s.sec i).cfg.writeField f v = none → s.writeSection i f v = .error (.range, BitVec.ofNat 8 f)) ∧
    ∀ c, (s.sec i).cfg.writeField f v = some c →
      s.writeSection i f v = .ok (s.setSec i ((s.sec i).takeSetting f c)) := by
  have hstructural : (structuralField f && (s.sec i).present) = false := by
    by_cases h7 : f ≤ 7
    · rw [hp h7, Bool.and_false]
    · rw [Bool.eq_false_iff.mpr fun h => h7 (structuralField_iff.mp h).2, Bool.false_and]
  have hcases := State.writeSection.eq_1 s i f v
  rw [if_neg (by omega), hl, hstructural, if_neg (by nofun), if_neg (by nofun), if_neg h0] at hcases
  exact ⟨fun h => by rw [hcases, h]; rfl, fun c h => by rw [hcases, h]; rfl⟩

end Sections

/-- The trim limit written: followers' trims within it, TRIM LIMIT set where it acts on one (R95). -/
theorem writeTrimLimit_eq (x : Section) {v : Int} (h : 0 ≤ v) : x.writeTrimLimit v =
    { x.mapMembers fun j m => if j = 0 then m else { m with trim := max (-v) (min v m.trim) } with
      cfg := { x.cfg with trimLimit := v }
      flags := { x.flags with trimLimit := x.flags.trimLimit || decide (∃ j : Fin 4, j ≠ 0 ∧
        (v < (x.member j).trim ∨ (x.member j).trim < -v)) } } := by
  have hclamp : ∀ t, limitTrim v t = max (-v) (min v t) := fun t => clampInt_eq_max_min (by omega) t
  have hacts : (allSlots.any fun j => j != 0 && decide (v < magnitude (x.member j).trim)) =
      decide (∃ j : Fin 4, j ≠ 0 ∧ (v < (x.member j).trim ∨ (x.member j).trim < -v)) := by
    have hmem : ∀ j : Fin 4, j ∈ allSlots := by decide
    have hmag : ∀ t : Int, v < magnitude t ↔ v < t ∨ t < -v := fun t => by unfold magnitude; split <;> omega
    rw [Bool.eq_iff_iff, List.any_eq_true, decide_eq_true_eq]
    refine exists_congr fun j => ?_
    rw [Bool.and_eq_true, bne_iff_ne, decide_eq_true_eq, hmag]
    exact and_iff_right (hmem j)
  unfold Section.writeTrimLimit
  simp only [hclamp, hacts]

/-! ## Members, steps and the loss limit (R27, R43, R104, R159) -/

theorem writeMember_rating {s : State} {i : Fin 16} {j : Fin 4} {v : Int} (h : s.mgmt.access = .engineer) :
    ((s.sec i).present = true → s.writeMember i j 0 v = .error (.state, 0)) ∧
    ((s.sec i).present = false → v = 0 ∨ (100 ≤ v ∧ v ≤ 60000) →
      s.writeMember i j 0 v =
        .ok (s.setSec i ((s.sec i).setMember j { (s.sec i).member j with rating := v }))) := by
  have hcases := State.writeMember.eq_1 s i j 0 v
  rw [if_neg (by omega), if_pos rfl, hasLevel_engineer h, if_neg (by nofun)] at hcases
  refine ⟨fun hp => by rw [hcases, if_pos hp]; rfl, fun hp hv => ?_⟩
  rw [if_neg (by rw [hp]; nofun)] at hcases
  have hrating : ratingOf v = some v := by
    unfold ratingOf
    by_cases hz : v = 0
    · rw [if_pos hz, hz]
    · rw [if_neg hz, ranged_in (hv.resolve_left hz)]
  rw [hcases, hrating]
  rfl

theorem writeMember_weight {s : State} {i : Fin 16} (hl : s.LevelFor i) (j : Fin 4) {v : Int} (hv : 1 ≤ v ∧ v ≤ 100) :
    s.writeMember i j 1 v = .ok (s.setSec i ((s.sec i).setMember j { (s.sec i).member j with weight := v })) := by
  have hcases := State.writeMember.eq_1 s i j 1 v
  rw [if_neg (by omega), if_neg (by omega), show s.hasLevel (s.sec i).cfg.guard.access = true from hasLevel_guard hl,
    if_neg (by nofun), ranged_in hv] at hcases
  rw [hcases]
  rfl

theorem allRunners_sorted : allRunners.Pairwise (· < ·) := by decide

theorem stepUser_cases (s : State) (k : Fin 96) :
    (∀ r, (s.runner r).state ≠ .idle → (s.runner r).step = some k →
      (∀ q, q < r → (s.runner q).state = .idle ∨ (s.runner q).step ≠ some k) → s.stepUser k = some r) ∧
    ((∀ q, (s.runner q).state = .idle ∨ (s.runner q).step ≠ some k) → s.stepUser k = none) := by
  unfold State.stepUser
  refine ⟨fun r hb hr hl => ?_, fun h => ?_⟩
  · refine find_least (f := fun r => (s.runner r).step == some k) (allRunners_sorted.filter _)
      ((mem_busyRunners s r).mpr hb) (beq_iff_eq.mpr hr) fun q hq hm => ?_
    exact beq_eq_false_iff_ne.mpr ((hl q hq).resolve_left ((mem_busyRunners s q).mp hm))
  · refine List.find?_eq_none.mpr fun q hq => ?_
    rw [beq_iff_eq]
    exact (h q).resolve_left ((mem_busyRunners s q).mp hq)

theorem writeStep_cases (s : State) (k : Fin 96) {f : Nat} (hf : f ≤ 23) (v : Int) :
    (s.mgmt.access = .monitor → s.writeStep k f v = .error (.level, BitVec.ofNat 8 f)) ∧
    (∀ r, s.mgmt.access ≠ .monitor → s.stepUser k = some r →
      s.writeStep k f v = .error (.inUse, BitVec.ofNat 8 r.val)) ∧
    (s.mgmt.access ≠ .monitor → s.stepUser k = none → f = 4 → 1 ≤ v → v ≤ 65535 →
      s.writeStep k f v = .ok (s.setStep k { s.stepRec k with d := v.toNat })) := by
  have hcases := State.writeStep.eq_1 s k f v
  rw [if_neg (by omega)] at hcases
  refine ⟨fun h => ?_, fun r h hr => ?_, fun h hn h4 h1 h2 => ?_⟩
  · rw [hcases, hasLevel_operate_not h]
    rfl
  · rw [hcases, hasLevel_operate h, hr]
    rfl
  · subst h4
    have hfield : (s.stepRec k).writeField 4 v = .ok { s.stepRec k with d := v.toNat } := by
      unfold StepRecord.writeField
      dsimp only
      rw [ranged_in ⟨h1, h2⟩]
      rfl
    rw [hcases, hasLevel_operate h, hn, if_neg (by nofun)]
    dsimp only
    rw [hfield]

theorem writePart_cases (s : State) (v : Int) :
    (s.mgmt.access ≠ .engineer → s.writePart 6 v = .error (.level, 6)) ∧
    (s.mgmt.access = .engineer → v < 2 ∨ 20 < v → s.writePart 6 v = .error (.range, 6)) ∧
    (s.mgmt.access = .engineer → 2 ≤ v → v ≤ 20 →
      s.writePart 6 v = .ok { s with part := { s.part with lossLimit := v.toNat } }) := by
  have hcases := State.writePart.eq_1 s 6 v
  rw [if_neg (by omega)] at hcases
  refine ⟨fun h => ?_, fun h hv => ?_, fun h h1 h2 => ?_⟩
  · rw [hcases, hasLevel_engineer_not h]
    rfl
  · rw [hcases, hasLevel_engineer h, ranged_out hv]
    rfl
  · rw [hcases, hasLevel_engineer h, ranged_in ⟨h1, h2⟩]
    rfl

theorem lossDue_iff (s : State) : s.lossDue = true ↔
    ∃ n, s.cyc.lossTimer = some n ∧ s.part.lossLimit * periodBits s.part.config ≤ n := by
  unfold State.lossDue
  split
  · next h => rw [h]; simp
  · next n h => rw [h, decide_eq_true_eq]; simp

/-! ## A WRITE that brings the loss event (R27) -/

/-- A MANAGE frame whose service leaves the UP FIFO empty. -/
theorem manage_served_settle {s : State} (h : s.MgmtReady) (k : Byte) (args : List Byte) (hl : args.length ≤ 123)
    (hq : ((request s.mgmt.pendingAccess k args s.asked).finish 0).up.fifo = []) :
    s.receiveManage (k :: args) = ((request s.mgmt.pendingAccess k args s.asked).finish 0).settle := by
  have hhands := manage_hands h k args hl
  unfold State.receiveManage
  rw [receiveFrame_settles h.quiet (receives_up h.toUpReady) h.waiting _ _ _ (by simp; omega) (filterKeeps_mgmt s)]
  · rw [hhands]
  · rw [hhands]
    exact hq

theorem requestStart_part {b : State} (hq : b.Quiet) (hw : b.dn.asm = .wait) :
    b.requestStart.settle.part.lossLimit = b.part.lossLimit ∧
      b.requestStart.settle.part.notices.upstreamLoss = b.part.notices.upstreamLoss := by
  by_cases h : b.cyc.inFlight = none ∧ b.link.running = false
  · rw [requestStart_free ⟨⟨hq, hw⟩, h.1, h.2⟩, started_frame]
    exact ⟨rfl, rfl⟩
  · rw [requestStart_deferred hq hw (by
      rcases not_and_or.mp h with h | h
      · exact .inl h
      · exact .inr (by simpa using h))]
    exact ⟨rfl, rfl⟩

/-- What the loss event leaves, with the start it asks for. -/
theorem takeLoss_settle {s : State} (hq : s.Quiet) (hw : s.dn.asm = .wait) :
    s.takeLoss.settle.part.lossLimit = s.part.lossLimit ∧ s.takeLoss.settle.cyc.upState = .lost ∧
      s.takeLoss.settle.mgmt.access = .monitor ∧ s.takeLoss.settle.part.notices.upstreamLoss = true := by
  obtain ⟨hup, hdn⟩ := afterLoss_ports s
  have hquiet : s.afterLoss.Quiet := ⟨by rw [hup]; exact hq.1, by rw [hdn]; exact hq.2⟩
  have hwait : s.afterLoss.dn.asm = .wait := by rw [hdn]; exact hw
  obtain ⟨-, hmgmt, hstate, -, -, -⟩ := requestStart_keeps hquiet hwait
  obtain ⟨hlimit, hnotice⟩ := requestStart_part hquiet hwait
  rw [takeLoss_eq, hmgmt, hstate, hlimit, hnotice, afterLoss_eq]
  exact ⟨rfl, rfl, rfl, rfl⟩

theorem sendReplyAfter_frame (s : State) (age : Nat) (r : Reply) : (s.sendReplyAfter age r).dn = s.dn ∧
    (s.sendReplyAfter age r).part = s.part := by
  unfold State.sendReplyAfter
  split <;> exact ⟨rfl, rfl⟩

theorem exec_write_one_expired {s : State} (h : s.MgmtReady) {args : List Byte} (hl : args.length = 4) {c : Cursor}
    (hc : s.CursorIs c) (hw : s.dn.asm = .wait) {t : State}
    (hv : s.asked.writeField c.table c.entry c.field (arg args 0) = .ok t) (ht : c.table = .part) (hd : t.lossDue = true) :
    ∃ u, exec (.write args) s = .next u ∧ u.part.lossLimit = t.part.lossLimit ∧ u.cyc.upState = .lost ∧
      u.mgmt.access = .monitor ∧ u.part.notices.upstreamLoss = true := by
  obtain ⟨hup, hdn⟩ := writeField_ports hv
  obtain ⟨hqup, hqdn⟩ := asked_quiet h.quiet
  have hquiet : (t.setCursor c.move).Quiet := ⟨(congrArg Port.fifo hup).trans hqup, (congrArg Port.fifo hdn).trans hqdn⟩
  have hserved := (request_write s.mgmt.pendingAccess (writeSized_four hl) s.asked).trans (reqWrite_one_stored hl hc hv)
  have hfinish : (request s.mgmt.pendingAccess 0x05 args s.asked).finish 0 = ((t.setCursor c.move).sendReplyAfter 0
      { code := .done, offending := 0xFF, count := 1, values := [], tie := .plain }).takeLoss := by
    rw [hserved]
    unfold Served.finish
    exact if_pos (by rw [ht, hd]; rfl)
  have hreplied := sendReplyAfter_quiet hquiet 0
    { code := .done, offending := 0xFF, count := 1, values := [], tie := .plain }
  obtain ⟨hdn', hpart'⟩ := sendReplyAfter_frame (t.setCursor c.move) 0
    { code := .done, offending := 0xFF, count := 1, values := [], tie := .plain }
  obtain ⟨h1, h2, h3, h4⟩ := takeLoss_settle hreplied (by
    rw [hdn']
    exact (congrArg Port.asm hdn).trans hw)
  refine ⟨_, ?_, h1.trans (congrArg Part.lossLimit hpart'), h2, h3, h4⟩
  rw [exec_manage (c := .write args) rfl, serving_inService h.inService, manage_served_settle h 0x05 args (by omega),
    hfinish]
  rw [hfinish, takeLoss_up]
  exact hreplied.1

end Sys2Proof.Machine
end

section
/-! PROOF. The statement O43, from the fields a WRITE of one value meets. -/

namespace Sys2Proof.Machine

open Sys2Proof

/-- The structural field 7, max speed: its range. -/
theorem writeSection_maxSpeed {s : State} {i : Fin 16} (h : s.mgmt.access = .engineer) (hp : (s.sec i).present = false)
    (v : Int) :
    (v < 0 ∨ 250000 < v → s.writeSection i 7 v = .error (.range, 7)) ∧
    (0 ≤ v → v ≤ 250000 →
      s.writeSection i 7 v = .ok (s.setSec i { s.sec i with cfg := { (s.sec i).cfg with maxSpeed := v } })) := by
  have hlevel : s.hasLevel (s.sectionFieldLevel i 7) = true := by
    rw [sectionFieldLevel_engineer (.inl (Nat.le_refl 7))]
    exact hasLevel_engineer h
  obtain ⟨hbad, hgood⟩ := writeSection_setting (v := v) (by decide) (by decide) hlevel fun _ => hp
  refine ⟨fun hv => hbad ?_, fun h1 h2 => hgood { (s.sec i).cfg with maxSpeed := v } ?_⟩
  · show (ranged 0 250000 v).map _ = none
    rw [ranged_out hv]
    rfl
  · show (ranged 0 250000 v).map _ = some _
    rw [ranged_in ⟨h1, h2⟩]
    rfl

/-- The trim limit, field 17: its level, its range and what it does to the followers' trims. -/
theorem writeSection_trimLimit {s : State} {i : Fin 16} (v : Int) :
    (¬s.LevelFor i → s.writeSection i 17 v = .error (.level, 17)) ∧
    (s.LevelFor i → v < 0 ∨ 1000 < v → s.writeSection i 17 v = .error (.range, 17)) ∧
    (s.LevelFor i → 0 ≤ v → v ≤ 1000 → s.writeSection i 17 v = .ok (s.setSec i ((s.sec i).writeTrimLimit v))) := by
  have hfield : s.sectionFieldLevel i 17 = s.guardLevel i := if_neg (by decide)
  have hsettings := fun hl : s.LevelFor i => writeSection_setting (s := s) (i := i) (f := 17) (v := v) (by decide)
    (by decide) (by rw [hfield]; exact hasLevel_guard hl) (fun h => absurd h (by decide))
  refine ⟨fun hl => ?_, fun hl hv => (hsettings hl).1 ?_, fun hl h1 h2 =>
    (hsettings hl).2 { (s.sec i).cfg with trimLimit := v } ?_⟩
  · exact writeSection_level (by decide) (by rw [hfield]; exact hasLevel_guard_not hl)
  · show (ranged 0 1000 v).map _ = none
    rw [ranged_out hv]
    rfl
  · show (ranged 0 1000 v).map _ = some _
    rw [ranged_in ⟨h1, h2⟩]
    rfl

/-- Settles O43. -/
theorem writeOfOneValue : Obligations.WriteOfOneValue := by
  unfold Obligations.WriteOfOneValue
  rintro s args c v h hl hc rfl answer no rfl rfl
  have hno := fun {code : ResultCode} {i : Byte} => exec_write_one_refused (code := code) (i := i) h hl hc
  have hyes := fun {t : State} => exec_write_one_stored (t := t) h hl hc
  have herr := fun {e : Refused} (hw : s.asked.writeField c.table c.entry c.field (arg args 0) = .error e) =>
    exec_write_one_refused (code := e.1) (i := e.2) h hl hc hw
  refine ⟨fun i ht he => ?_, fun i j ht he => ?_, fun k ht he hf => ?_, fun ht he hf => ?_⟩
  · have hfield : ∀ x, s.asked.writeSection i c.field (arg args 0) = x →
        s.asked.writeField c.table c.entry c.field (arg args 0) = x := fun x hx => by
      rw [ht, he, writeField_sections, hx]
    have hpart : c.table = .part → ∀ t : State, t.lossDue = false := by rw [ht]; nofun
    refine ⟨fun hf ha => ?_, fun hf ha => ?_, fun h1 h7 ha hp => ?_, fun hf ha hp hv => ?_, fun hf ha hp h1 h2 => ?_,
      fun hf hlev => ?_, fun hf hlev hv => ?_, fun hf hlev h1 h2 => ?_⟩
    · refine hno (hfield _ (writeSection_level (by omega) ?_))
      rw [sectionFieldLevel_engineer hf]
      exact hasLevel_engineer_not (s := s.asked) ha
    · have hpresent : ∀ x, s.asked.writePresent i (arg args 0) = x →
          s.asked.writeField c.table c.entry c.field (arg args 0) = x := fun x hx =>
        hfield x (by rw [hf, writeSection_present (s := s.asked) ha, hx])
      obtain ⟨hrange, hsame, hmake, hdrop⟩ := writePresent_cases s.asked i (arg args 0)
      rintro x g other window before rfl rfl hother hwindow rfl
      refine ⟨fun h0 h1 => hno (hpresent _ (hrange h0 h1)), fun hv => hyes (hpresent _ (hsame hv)) rfl fun e => hpart e _,
        fun hv hp => ?_, fun hv hp => ?_⟩
      · obtain ⟨hrefused, hmade⟩ := hmake hv hp
        obtain ⟨hunset, hchecks⟩ := presentRefusal_checks s i rfl hother hwindow
        refine ⟨fun e hr => herr (hpresent _ (hrefused e hr)),
          fun hn => hyes (hpresent _ (hmade hn)) rfl fun e => hpart e _, hunset, hchecks, fun hn => ?_⟩
        obtain ⟨y, earlier, later, d, hframe, hline, hdepth, hsplit, hearlier, hlater, hentry, hmembers⟩ :=
          makePresent_frame (s := s.asked) hn rfl rfl
        exact ⟨y, earlier, later, d, hframe, hline, hdepth, hsplit, hearlier,
          fun hs => hlater (hs.same (t := s.asked) rfl fun _ => .refl _), hentry, hmembers⟩
      · obtain ⟨hrefused, hdropped⟩ := hdrop hv hp
        obtain ⟨hclaimed, hstate, hdependents⟩ := withdrawRefusal_cases s i
        refine ⟨fun r hr => herr (hpresent _ (hrefused _ (hclaimed r hr))),
          fun hn hrun => herr (hpresent _ (hrefused _ (hstate hn hrun))), fun hn hrun dependent hd => ?_⟩
        obtain ⟨hdependent, hnone⟩ := hdependents hn hrun dependent hd
        refine ⟨fun k hk hl => herr (hpresent _ (hrefused _ (hdependent k hk hl))), fun hd => ?_⟩
        have hstored := hyes (hpresent _ (hdropped (hnone hd))) rfl fun e => hpart e _
        rw [withdraw_frame] at hstored
        exact hstored
    · exact hno (hfield _ (writeSection_structural (s := s.asked) h1 h7 ha hp))
    · exact hno (hfield _ (by rw [hf]; exact (writeSection_maxSpeed (s := s.asked) ha hp _).1 hv))
    · exact hyes (hfield _ (by rw [hf]; exact (writeSection_maxSpeed (s := s.asked) ha hp _).2 h1 h2)) rfl
        fun e => hpart e _
    · exact hno (hfield _ (by rw [hf]; exact (writeSection_trimLimit (s := s.asked) _).1 hlev))
    · exact hno (hfield _ (by rw [hf]; exact (writeSection_trimLimit (s := s.asked) _).2.1 hlev hv))
    · have hstored := hyes (t := s.asked.setSec i ((s.sec i).writeTrimLimit (arg args 0)))
        (hfield _ (by rw [hf]; exact (writeSection_trimLimit (s := s.asked) _).2.2 hlev h1 h2)) rfl fun e => hpart e _
      rw [writeTrimLimit_eq _ h1] at hstored
      refine ⟨(s.sec i).mapMembers fun j m =>
        if j = 0 then m else { m with trim := max (-arg args 0) (min (arg args 0) m.trim) }, hstored, rfl, ?_, fun j hj => ?_⟩
      · rw [member_mapMembers, if_pos rfl]
      · rw [member_mapMembers, if_neg hj]
  · have hfield : ∀ f x, c.field = f → s.asked.writeMember i j f (arg args 0) = x →
        s.asked.writeField c.table c.entry c.field (arg args 0) = x := fun f x hf hx => by
      rw [ht, he, hf, writeField_members, hx]
    have hpart : c.table = .part → ∀ t : State, t.lossDue = false := by rw [ht]; nofun
    refine ⟨fun hf ha hp => ?_, fun hf ha hp hv => ?_, fun hf hlev h1 h2 => ?_⟩
    · exact hno (hfield 0 _ hf ((writeMember_rating (s := s.asked) ha).1 hp))
    · exact hyes (hfield 0 _ hf ((writeMember_rating (s := s.asked) ha).2 hp hv)) rfl fun e => hpart e _
    · exact hyes (hfield 1 _ hf (writeMember_weight (s := s.asked) hlev j ⟨h1, h2⟩)) rfl fun e => hpart e _
  · have hfield : ∀ x, s.asked.writeStep k c.field (arg args 0) = x →
        s.asked.writeField c.table c.entry c.field (arg args 0) = x := fun x hx => by
      rw [ht, he, writeField_steps, hx]
    have hpart : c.table = .part → ∀ t : State, t.lossDue = false := by rw [ht]; nofun
    obtain ⟨hlevel, hused, hstored⟩ := writeStep_cases s.asked k hf (arg args 0)
    obtain ⟨huser, hnone⟩ := stepUser_cases s.asked k
    exact ⟨fun ha => hno (hfield _ (hlevel ha)), fun r ha hb hr hl => hno (hfield _ (hused r ha (huser r hb hr hl))),
      fun ha hn h4 h1 h2 => hyes (hfield _ (hstored ha (hnone hn) h4 h1 h2)) rfl fun e => hpart e _⟩
  · have hfield : ∀ x, s.asked.writePart 6 (arg args 0) = x →
        s.asked.writeField c.table c.entry c.field (arg args 0) = x := fun x hx => by
      rw [ht, hf]
      exact hx
    obtain ⟨hlevel, hrange, hstored⟩ := writePart_cases s.asked (arg args 0)
    have hdue := lossDue_iff { s.asked with part := { s.part with lossLimit := (arg args 0).toNat } }
    refine ⟨fun ha => hno (hfield _ (hlevel ha)), fun ha hv => hno (hfield _ (hrange ha hv)), fun ha h1 h2 hlate => ?_,
      fun n ha h1 h2 htimer hlate hw => ?_⟩
    · refine hyes (hfield _ (hstored ha h1 h2)) rfl fun _ => Bool.eq_false_iff.mpr fun hd => ?_
      obtain ⟨n, hn, hle⟩ := hdue.mp hd
      exact absurd (hlate n hn) (Nat.not_lt.mpr hle)
    · exact exec_write_one_expired h hl hc hw (hfield _ (hstored ha h1 h2)) ht (hdue.mpr ⟨n, htimer, hlate⟩)

end Sys2Proof.Machine
end

section
/-! PROOF. One bit time on an empty queue: what a port sends, the timers, the rows that fall due (section 1.1, log 3,
log 25, log 26), with the statement O2. -/

namespace Sys2Proof.Machine

open Sys2Proof

/-! ## A port that sends one bit (R14) -/

/-- A port one bit further on in its burst, where it sends one. -/
def Port.bitSent (x : Port) (sends : Bool) : Port :=
  match sends, x.tx with
  | false, _ => x
  | true, [] => x
  | true, [_] => { x with sentBits := x.sentBits + 1 }
  | true, f :: g :: rest =>
    if f.bits ≤ x.sentBits + 1 then { x with tx := g :: rest, sentBits := 0 }
    else { x with sentBits := x.sentBits + 1 }

theorem bitSent_frame (x : Port) (b : Bool) :
    x.bitSent b = { x with tx := (x.bitSent b).tx, sentBits := (x.bitSent b).sentBits } := by
  unfold Port.bitSent
  split
  · rfl
  · rfl
  · rfl
  · split <;> rfl

theorem bitSent_idle {x : Port} {b : Bool} (h : b = false ∨ x.tx = []) : x.bitSent b = x := by
  unfold Port.bitSent
  rcases h with rfl | h
  · rfl
  · rw [h]
    cases b <;> rfl

theorem bitSent_stays {x : Port} {f : TxFrame} {rest : List TxFrame} (h : x.tx = f :: rest)
    (hb : rest = [] ∨ x.sentBits + 1 < f.bits) : x.bitSent true = { x with sentBits := x.sentBits + 1 } := by
  unfold Port.bitSent
  rw [h]
  cases rest with
  | nil => rfl
  | cons g rest => exact if_neg (by have := hb.resolve_left nofun; omega)

theorem bitSent_leaves {x : Port} {f g : TxFrame} {rest : List TxFrame} (h : x.tx = f :: g :: rest)
    (hb : f.bits ≤ x.sentBits + 1) : x.bitSent true = { x with tx := g :: rest, sentBits := 0 } := by
  unfold Port.bitSent
  rw [h]
  exact if_pos hb

/-- No frame that leaves the queue of a port completes anything. -/
def State.LeavesQuiet (s : State) (p : Side) : Prop :=
  ∀ f g rest, s.sending p = true → (s.port p).tx = f :: g :: rest → f.bits ≤ (s.port p).sentBits + 1 → f.Quiet

theorem sendBit_eq {s : State} {p : Side} (h : s.LeavesQuiet p) :
    s.sendBit p = s.setPort p ((s.port p).bitSent (s.sending p)) := by
  unfold State.sendBit
  cases hs : s.sending p with
  | false => rw [bitSent_idle (.inl rfl), setPort_port]; rfl
  | true =>
    rw [if_neg (by nofun)]
    cases ht : (s.port p).tx with
    | nil => rw [bitSent_idle (.inr ht), setPort_port]
    | cons f rest =>
      cases rest with
      | nil => rw [bitSent_stays ht (.inl rfl)]
      | cons g rest =>
        dsimp only
        split
        · next hb =>
          have hhead := sendHead_cons (s := s) (p := p) ht
          rw [setPort_port] at hhead
          rw [bitSent_leaves ht hb, hhead, frameSent_quiet (h f g rest hs ht hb)]
        · next hb => rw [bitSent_stays ht (.inr (Nat.not_le.mp hb))]

/-! ## The poll list of a SLOT CALL (R12, log 21) -/

/-- The poll list in force once this bit time's frame has begun. -/
def State.pollsNow (s : State) : List Byte :=
  match s.dn.tx with
  | [] => s.cyc.pollInForce
  | f :: _ => if s.sending .dn = true ∧ s.dn.sentBits = 0 ∧ f.kind = kindSlotCall then f.payload.drop 2
    else s.cyc.pollInForce

theorem slotCallBegins_eq (s : State) :
    s.slotCallBegins = { s with cyc := { s.cyc with pollInForce := s.pollsNow } } := by
  unfold State.slotCallBegins State.pollsNow
  cases ht : s.dn.tx with
  | nil => rfl
  | cons f rest =>
    dsimp only
    by_cases hb : s.sending .dn = true ∧ s.dn.sentBits = 0
    · rw [if_pos (by rw [hb.1, hb.2]; rfl)]
      show (if f.kind = kindSlotCall then s.modCyc fun c => { c with pollInForce := f.payload.drop 2 } else s) = _
      by_cases hk : f.kind = kindSlotCall
      · rw [if_pos hk, if_pos ⟨hb.1, hb.2, hk⟩]
        rfl
      · rw [if_neg hk, if_neg fun h => hk h.2.2]
    · rw [if_neg (by rw [Bool.and_eq_true, beq_iff_eq]; exact hb), if_neg fun h => hb ⟨h.1, h.2.1⟩]

theorem pollsNow_cases (s : State) :
    (∀ f rest, s.sending .dn = true → s.dn.tx = f :: rest → s.dn.sentBits = 0 → f.kind = kindSlotCall →
      s.pollsNow = f.payload.drop 2) ∧
    (s.sending .dn = false ∨ s.dn.sentBits ≠ 0 ∨ (∀ f rest, s.dn.tx = f :: rest → f.kind ≠ kindSlotCall) →
      s.pollsNow = s.cyc.pollInForce) := by
  unfold State.pollsNow
  refine ⟨fun f rest hs ht hb hk => ?_, fun h => ?_⟩
  · rw [ht]
    exact if_pos ⟨hs, hb, hk⟩
  · cases ht : s.dn.tx with
    | nil => rfl
    | cons f rest =>
      refine if_neg ?_
      rintro ⟨hs, hb, hk⟩
      rcases h with h | h | h
      · rw [hs] at h; cases h
      · exact h hb
      · exact h f rest ht hk

/-! ## The rows that fall due -/

theorem mem_due {b : Bool} {c d : Instr} : c ∈ due b d ↔ b = true ∧ c = d := by
  cases b <;> simp [due]

theorem mem_dueRows (s : State) (c : Instr) : c ∈ s.dueRows ↔
    (atEnd gapBits s.up.gapTimer = true ∧ c = .gapTimerExpiry .up) ∨
    (atEnd gapBits s.dn.gapTimer = true ∧ c = .gapTimerExpiry .dn) ∨
    (s.burstEnds .up = true ∧ c = .burstComplete .up) ∨ (s.burstEnds .dn = true ∧ c = .burstComplete .dn) ∨
    (atEnd spacingBits s.up.turnaround = true ∧ c = .replyBurstStart) ∨ (s.slotEnds = true ∧ c = .slotEnd) ∨
    ((s.link.awaiting && s.link.echoBits == echoLength) = true ∧ c = .echoTest (echoPayload s.link.frameNo)) ∨
    ((s.link.awaiting && s.link.echoBits == echoLimit) = true ∧ c = .echoTestTimeout) ∨
    (atEnd spacingBits s.link.sendTimer = true ∧ c = .echoTestSend) ∨
    (atEnd (s.part.lossLimit * periodBits s.part.config) s.cyc.lossTimer = true ∧ c = .lossTimerExpiry) ∨
    (atEnd (periodBits s.part.config) s.cyc.localTimer = true ∧ c = .localPeriodTimerExpiry) := by
  unfold State.dueRows
  simp only [List.mem_append, mem_due, or_assoc]

theorem bump_eq (t : Option Nat) : bump t = t.map (· + 1) := by cases t <;> rfl

theorem atEnd_bump (n : Nat) (t : Option Nat) : atEnd (n + 1) (t.map (· + 1)) = true ↔ t = some n := by
  unfold atEnd
  rw [beq_iff_eq, Option.map_eq_some_iff]
  constructor
  · rintro ⟨m, hm, he⟩
    rw [hm, Nat.succ.inj he]
  · intro h
    exact ⟨n, h, rfl⟩

theorem atEnd_bump_iff (n : Nat) (t : Option Nat) :
    atEnd n (t.map (· + 1)) = true ↔ ∃ m, t = some m ∧ m + 1 = n := by
  unfold atEnd
  rw [beq_iff_eq, Option.map_eq_some_iff]

theorem burstEnds_iff (s : State) (p : Side) : s.burstEnds p = true ↔
    s.sending p = true ∧ ∃ f, (s.port p).tx = [f] ∧ (s.port p).sentBits = f.bits := by
  unfold State.burstEnds
  rw [Bool.and_eq_true]
  refine and_congr_right fun _ => ?_
  split
  · next f ht => rw [beq_iff_eq, ht]; simp
  · next hno =>
    refine ⟨nofun, ?_⟩
    rintro ⟨f, hf, -⟩
    exact absurd hf (hno f)

theorem slotEnds_iff (s : State) : s.slotEnds = true ↔
    ∃ c, s.cyc.inFlight = some c ∧ c.windowOpen = true ∧ c.slotBits = 176 := by
  unfold State.slotEnds
  cases h : s.cyc.inFlight with
  | none => simp
  | some c =>
    dsimp only
    rw [Bool.and_eq_true, beq_iff_eq, show slotLength = 176 from rfl]
    simp

/-! ## The bit time -/

/-- A FIFO entry one bit time older. -/
theorem older_entry (e : Entry) : e.older = { e with stamp := { e.stamp with age := e.stamp.age + 1 } } := rfl

/-- What a bit time of a part in service leaves but for the rows that fall due, where no frame that leaves a queue
completes anything. -/
def State.bitOn (s : State) : State := { s with
  up := { s.up with
    gapTimer := s.up.gapTimer.map (· + 1), turnaround := s.up.turnaround.map (· + 1)
    fifo := s.up.fifo.map Entry.older
    tx := (s.up.bitSent (s.sending .up)).tx, sentBits := (s.up.bitSent (s.sending .up)).sentBits }
  dn := { s.dn with
    gapTimer := s.dn.gapTimer.map (· + 1), turnaround := s.dn.turnaround.map (· + 1)
    fifo := s.dn.fifo.map Entry.older
    tx := (s.dn.bitSent (s.sending .dn)).tx, sentBits := (s.dn.bitSent (s.sending .dn)).sentBits }
  link := { s.link with
    echoBits := if s.link.awaiting then s.link.echoBits + 1 else s.link.echoBits
    sendTimer := s.link.sendTimer.map (· + 1) }
  cyc := { s.cyc with
    pollInForce := s.pollsNow
    lossTimer := s.cyc.lossTimer.map (· + 1)
    localTimer := s.cyc.localTimer.map (· + 1)
    inFlight := s.cyc.inFlight.map fun c =>
      if c.windowOpen then { c with slotBits := c.slotBits + 1 } else c } }

theorem bumpTimers_sent (s : State) (x y : Port) (polls : List Byte) (hx : x = { s.up with tx := x.tx, sentBits := x.sentBits })
    (hy : y = { s.dn with tx := y.tx, sentBits := y.sentBits }) :
    (({ s with up := x, dn := y, cyc := { s.cyc with pollInForce := polls } } : State)).bumpTimers = { s with
      up := { s.up with
        gapTimer := s.up.gapTimer.map (· + 1), turnaround := s.up.turnaround.map (· + 1)
        fifo := s.up.fifo.map Entry.older, tx := x.tx, sentBits := x.sentBits }
      dn := { s.dn with
        gapTimer := s.dn.gapTimer.map (· + 1), turnaround := s.dn.turnaround.map (· + 1)
        fifo := s.dn.fifo.map Entry.older, tx := y.tx, sentBits := y.sentBits }
      link := { s.link with
        echoBits := if s.link.awaiting then s.link.echoBits + 1 else s.link.echoBits
        sendTimer := s.link.sendTimer.map (· + 1) }
      cyc := { s.cyc with
        pollInForce := polls
        lossTimer := s.cyc.lossTimer.map (· + 1)
        localTimer := s.cyc.localTimer.map (· + 1)
        inFlight := s.cyc.inFlight.map fun c =>
          if c.windowOpen then { c with slotBits := c.slotBits + 1 } else c } } := by
  simp only [← bump_eq]
  conv_lhs => rw [hx, hy]
  rfl

theorem tick_eq {s : State} (hs : s.phase = .inService) (hp : s.pending = []) (h : ∀ p, s.LeavesQuiet p) :
    s.tick = { s.bitOn with pending := s.bitOn.dueRows } := by
  have hup : s.slotCallBegins.LeavesQuiet .up := by rw [slotCallBegins_eq]; exact h .up
  have hdn : (s.slotCallBegins.sendBit .up).LeavesQuiet .dn := by
    rw [sendBit_eq hup, slotCallBegins_eq]
    exact h .dn
  have hsent : (s.slotCallBegins.sendBit .up).sendBit .dn = { s with
      up := s.up.bitSent (s.sending .up), dn := s.dn.bitSent (s.sending .dn)
      cyc := { s.cyc with pollInForce := s.pollsNow } } := by
    rw [sendBit_eq hdn, sendBit_eq hup, slotCallBegins_eq]
    rfl
  have hbit : ((s.slotCallBegins.sendBit .up).sendBit .dn).bumpTimers = s.bitOn := by
    rw [hsent, bumpTimers_sent s _ _ _ (bitSent_frame _ _) (bitSent_frame _ _)]
    rfl
  unfold State.tick
  rw [if_pos hs]
  dsimp only
  rw [hbit]
  show ({ s.bitOn with pending := s.pending ++ s.bitOn.dueRows } : State) = _
  rw [hp]
  rfl

theorem step_idle {s : State} (h : s.pending = []) : step s = .next s.tick := by
  unfold step
  rw [h]

theorem sending_iff (s : State) (p : Side) :
    s.sending p = true ↔ (s.port p).driving = true ∧ (p = .dn → s.link.loopback = false) := by
  cases p
  · exact ⟨fun h => ⟨h, nofun⟩, fun h => h.1⟩
  · show (s.dn.driving && !s.link.loopback) = true ↔ _
    rw [Bool.and_eq_true, Bool.not_eq_true']
    exact and_congr_right fun _ => ⟨fun h _ => h, fun h => h rfl⟩

/-- A frame that leaves the UP queue completes what it carries, and the bit time keeps it. -/
theorem tick_upFrame {s : State} (hs : s.phase = .inService) (hu : s.up.driving = true) (hd : s.dn.driving = false)
    {f g : TxFrame} {rest : List TxFrame} (ht : s.up.tx = f :: g :: rest) (hb : f.bits ≤ s.up.sentBits + 1)
    (hdn : ((s.setUp { s.up with tx := g :: rest, sentBits := 0 }).frameSent f).dn.driving = false) :
    ∃ l, s.tick = (((s.setUp { s.up with tx := g :: rest, sentBits := 0 }).frameSent f).bumpTimers).enqueue l := by
  have hsilent : ∀ t : State, t.dn.driving = false → t.sending .dn = false := fun t h => by
    show (t.dn.driving && _) = false
    rw [h]
    rfl
  have hbegins : s.slotCallBegins = s := by
    rw [slotCallBegins_eq, (pollsNow_cases s).2 (.inl (hsilent s hd))]
  have hhead : s.sendBit .up = (s.setUp { s.up with tx := g :: rest, sentBits := 0 }).frameSent f := by
    have hsend := sendHead_cons (s := s) (p := .up) (x := s.up) ht
    unfold State.sendBit
    rw [show s.sending .up = true from hu, if_neg (by nofun), show (s.port .up).tx = f :: g :: rest from ht]
    dsimp only
    rw [if_pos (by exact hb)]
    exact hsend
  unfold State.tick
  rw [if_pos hs, hbegins, hhead]
  generalize (s.setUp { s.up with tx := g :: rest, sentBits := 0 }).frameSent f = t at hdn ⊢
  have hrest : t.sendBit .dn = t := by
    unfold State.sendBit
    rw [hsilent t hdn]
    rfl
  rw [hrest]
  exact ⟨_, rfl⟩

theorem frameSent_move {s : State} {f : TxFrame} {a : Byte} (hf : f.tie = .move a) (hp : s.mgmt.pendingMove = some a) :
    s.frameSent f =
      { s with part := { s.part with mgmtAddr := a }, mgmt := { s.mgmt with pendingMove := none } } := by
  unfold State.frameSent
  rw [hf]
  exact if_pos hp

end Sys2Proof.Machine
end

section
/-! PROOF. The statement O2, from one bit time and the rows that fall due in it. -/

namespace Sys2Proof.Machine

open Sys2Proof

/-- Each row joins the queue when its own timer ends. -/
theorem dueRows_iff (s : State) :
    (∀ p, Instr.gapTimerExpiry p ∈ s.dueRows ↔ atEnd gapBits (s.port p).gapTimer = true) ∧
    (∀ p, Instr.burstComplete p ∈ s.dueRows ↔ s.burstEnds p = true) ∧
    (Instr.replyBurstStart ∈ s.dueRows ↔ atEnd spacingBits s.up.turnaround = true) ∧
    (Instr.slotEnd ∈ s.dueRows ↔ s.slotEnds = true) ∧
    (Instr.lossTimerExpiry ∈ s.dueRows ↔
      atEnd (s.part.lossLimit * periodBits s.part.config) s.cyc.lossTimer = true) ∧
    (Instr.localPeriodTimerExpiry ∈ s.dueRows ↔ atEnd (periodBits s.part.config) s.cyc.localTimer = true) ∧
    (Instr.echoTestSend ∈ s.dueRows ↔ atEnd spacingBits s.link.sendTimer = true) ∧
    (Instr.echoTest (echoPayload s.link.frameNo) ∈ s.dueRows ↔
      (s.link.awaiting && s.link.echoBits == echoLength) = true) ∧
    (Instr.echoTestTimeout ∈ s.dueRows ↔ (s.link.awaiting && s.link.echoBits == echoLimit) = true) := by
  refine ⟨fun p => ?_, fun p => ?_, ?_, ?_, ?_, ?_, ?_, ?_, ?_⟩
  case refine_1 => cases p <;> simp [mem_dueRows, State.port]
  case refine_2 => cases p <;> simp [mem_dueRows]
  all_goals simp [mem_dueRows]

/-- No other row falls due by itself. -/
theorem dueRows_only {s : State} {c : Instr} (h : c ∈ s.dueRows) :
    (∃ p, c = .gapTimerExpiry p) ∨ (∃ p, c = .burstComplete p) ∨ c = .replyBurstStart ∨
      c = .slotEnd ∨ c = .lossTimerExpiry ∨ c = .localPeriodTimerExpiry ∨ c = .echoTestSend ∨
      c = .echoTest (echoPayload s.link.frameNo) ∨ c = .echoTestTimeout := by
  rw [mem_dueRows] at h
  rcases h with ⟨-, rfl⟩ | ⟨-, rfl⟩ | ⟨-, rfl⟩ | ⟨-, rfl⟩ | ⟨-, rfl⟩ | ⟨-, rfl⟩ | ⟨-, rfl⟩ | ⟨-, rfl⟩ | ⟨-, rfl⟩ |
    ⟨-, rfl⟩ | ⟨-, rfl⟩ <;> simp

/-- The judgement timer of an ECHO TEST frame one bit time on. -/
theorem echoBits_iff (l : LinkTest) (n : Nat) :
    (l.awaiting && (if l.awaiting then l.echoBits + 1 else l.echoBits) == n + 1) = true ↔
      l.awaiting = true ∧ l.echoBits = n := by
  cases l.awaiting <;> simp

theorem bitOn_slotEnds (s : State) :
    s.bitOn.slotEnds = true ↔ ∃ c, s.cyc.inFlight = some c ∧ c.windowOpen = true ∧ c.slotBits = 175 := by
  rw [slotEnds_iff]
  show (∃ c, (s.cyc.inFlight.map fun c => if c.windowOpen then { c with slotBits := c.slotBits + 1 } else c) = some c ∧
    c.windowOpen = true ∧ c.slotBits = 176) ↔ _
  constructor
  · rintro ⟨d, hd, hopen, hbits⟩
    obtain ⟨c, hc, rfl⟩ := Option.map_eq_some_iff.mp hd
    by_cases ho : c.windowOpen = true
    · rw [if_pos ho] at hbits
      exact ⟨c, hc, ho, Nat.succ.inj hbits⟩
    · rw [if_neg ho] at hopen
      exact absurd hopen ho
  · rintro ⟨c, hc, ho, hbits⟩
    exact ⟨{ c with slotBits := c.slotBits + 1 }, by rw [hc, Option.map_some, if_pos ho], ho, by rw [hbits]⟩

theorem bitOn_burstEnds (s : State) (p : Side) : s.bitOn.burstEnds p = true ↔
    ((s.port p).driving = true ∧ (p = .dn → s.link.loopback = false)) ∧
      ∃ f, ((s.port p).bitSent (s.sending p)).tx = [f] ∧
        ((s.port p).bitSent (s.sending p)).sentBits = 11 * (f.payload.length + 5) := by
  rw [burstEnds_iff, ← sending_iff]
  cases p <;> exact Iff.rfl

/-- Settles O2. -/
theorem idleStepIsOneBitTime : Obligations.IdleStepIsOneBitTime := by
  unfold Obligations.IdleStepIsOneBitTime
  intro s hp
  refine ⟨fun hs => ?_, ?_⟩
  · rw [step_idle hp]
    exact congrArg _ (if_neg hs)
  rintro sends aged hs rfl rfl
  refine ⟨fun hquiet => ?_, fun f g rest hu hd ht hb => ?_⟩
  · have hleaves : ∀ p, s.LeavesQuiet p := fun p f g rest hsend ht hb =>
      hquiet p f g rest ((sending_iff s p).mp hsend) ht hb
    obtain ⟨hgap, hburst, hreply, hslot, hloss, hlocal, hsend, hecho, htimeout⟩ := dueRows_iff s.bitOn
    obtain ⟨hcall, hkept⟩ := pollsNow_cases s
    refine ⟨s.bitOn.dueRows, fun p => ((s.port p).bitSent (s.sending p)).tx,
      fun p => ((s.port p).bitSent (s.sending p)).sentBits, s.pollsNow, ?_, fun p hno => ?_, fun p f rest hyes ht hb => ?_,
      fun p f g rest hyes ht hb => ?_, fun f rest hyes => hcall f rest ((sending_iff s .dn).mpr hyes), fun hno => hkept ?_,
      fun p => (hgap p).trans ?_, fun p => (hburst p).trans (bitOn_burstEnds s p), hreply.trans (atEnd_bump 21 _),
      hslot.trans (bitOn_slotEnds s), hloss.trans (atEnd_bump_iff _ _), hlocal.trans (atEnd_bump_iff _ _),
      hsend.trans (atEnd_bump 21 _), hecho.trans (echoBits_iff s.link 230), htimeout.trans (echoBits_iff s.link 318),
      fun c hc => dueRows_only (s := s.bitOn) hc⟩
    · rw [step_idle hp, tick_eq hs hp hleaves]
      rfl
    · have hidle : (s.port p).bitSent (s.sending p) = s.port p :=
        bitSent_idle (hno.imp (fun hn => Bool.eq_false_iff.mpr fun h => hn ((sending_iff s p).mp h)) id)
      exact ⟨congrArg Port.tx hidle, congrArg Port.sentBits hidle⟩
    · have hsent := bitSent_stays ht hb
      rw [← (sending_iff s p).mpr hyes] at hsent
      exact ⟨(congrArg Port.tx hsent).trans ht, congrArg Port.sentBits hsent⟩
    · have hsent := bitSent_leaves ht hb
      rw [← (sending_iff s p).mpr hyes] at hsent
      exact ⟨congrArg Port.tx hsent, congrArg Port.sentBits hsent⟩
    · exact hno.imp (fun hn => Bool.eq_false_iff.mpr fun h => hn ((sending_iff s .dn).mp h)) id
    · cases p <;> exact atEnd_bump 43 _
  · have hstep := step_idle hp
    by_cases hmove : ∃ a, f.tie = .move a ∧ s.mgmt.pendingMove = some a
    · obtain ⟨a, hf, hm⟩ := hmove
      have hframe := frameSent_move (s := s.setUp { s.up with tx := g :: rest, sentBits := 0 }) hf hm
      obtain ⟨l, hl⟩ := tick_upFrame hs hu hd ht hb (by rw [hframe]; exact hd)
      refine ⟨_, hstep.trans (congrArg _ hl), fun b hb _ => ?_, fun hr => ?_⟩
      · rw [hf] at hb
        cases hb
        rw [hframe]
        exact ⟨rfl, rfl⟩
      · rw [hf] at hr
        cases hr
    · by_cases hrestart : f.tie = .restart ∧ s.store.pendingRestart = true
      · have hframe := frameSent_restart (s := s.setUp { s.up with tx := g :: rest, sentBits := 0 }) hrestart.1 hrestart.2
        obtain ⟨l, hl⟩ := tick_upFrame hs hu hd ht hb (by rw [hframe]; rfl)
        refine ⟨_, hstep.trans (congrArg _ hl), fun a ha hm => absurd ⟨a, ha, hm⟩ hmove, fun _ _ => ?_⟩
        rw [hframe]
        exact ⟨rfl, rfl⟩
      · exact ⟨_, hstep, fun a ha hm => absurd ⟨a, ha, hm⟩ hmove, fun hf hr => absurd ⟨hf, hr⟩ hrestart⟩

end Sys2Proof.Machine
end
